-- ==== Sys2Proof/Word.lean ====
section
/-!
DEFINITION. The words that cross the 7G's links (Record Layouts, R191) and the operand records of the
commands that carry many fields. Field widths are those of section 12.2; codes stay raw bytes, because an
unassigned code is answered by the owner of the field (R193).
-/

namespace Sys2Proof

/-- One byte of a frame. -/
abbrev Byte := BitVec 8

/-- A two-byte field. -/
abbrev U16 := BitVec 16

/-- A four-byte field. -/
abbrev U32 := BitVec 32

/-- The fields of a SUBMIT_JOB body (section 12.2), its two lists as the body's counts delimit them. -/
structure JobOrder where
  tag : U16
  printLen : U16
  mode : Byte
  edition : U32
  copy : U16
  cuts : List U16
  est : List (Byte × U32)
deriving DecidableEq, Repr

/-- The fields of a SET_FEED_PROFILE body, in the order of section 12.2. -/
structure FeedProfileArgs where
  slow : U16
  window : Byte
  settle : Byte
  backoff : U16
  reversal : Byte
  slip : U16
  invert : Byte
  lead : Byte
  trim : Byte
  sensor : Byte
  knife : U16
deriving DecidableEq, Repr

/-- The fields of a SET_INK_PROFILE body after the channel. -/
structure InkProfileArgs where
  drop : Byte
  emptyAt : U16
  fullAt : U16
  start : U16
  stop : U16
  floor : U16
deriving DecidableEq, Repr

/-- One update of a SET_PATCHES body (nine bytes). -/
structure PatchUpdate where
  index : Byte
  define : Byte
  l : U16
  a : U16
  b : U16
  dominant : Byte
deriving DecidableEq, Repr

/-- The fields of a SET_STRIP_PROFILE body, in the order of section 12.2. -/
structure StripProfileArgs where
  t : Byte
  stride : Byte
  seed : Byte
  m : Byte
  runMin : Byte
  runMax : Byte
  pitch : Byte
  markThreshold : U16
  tolerance : U16
  allowed : Byte
  meanTolerance : U16
  gross : U16
  learn : Byte
  dwellLow : U16
  dwellMid : U16
  dwellHigh : U16
deriving DecidableEq, Repr

/-- The fields of a LOAD_PRICES body. -/
structure PriceArgs where
  ink : Vector U32 10
  media : Vector U32 8
  cut : U32
deriving DecidableEq, Repr

/-- How far the programming of a spare had gone when power was lost (R49). -/
inductive FlightEnd
  /-- nothing of the header was programmed: the block reads BLANK -/
  | blank
  /-- the header was programmed: the block reads WRITING -/
  | writing
  /-- the COMPLETE mark was programmed and the completion not yet taken -/
  | complete
deriving DecidableEq, Repr

/-- The 7G answers on the link in bytes; a list of them is a frame's body or a piece of it. -/
abbrev Bytes := List Byte

end Sys2Proof
end

