-- ==== Sys2Proof/Syntax.lean ====
section
/-!
DEFINITION. The commands of the 7G: one constructor for each row of spec/opcode_table.json, with the row's
operands. `ft` is the frame tag of a request's frame (R181).
-/

namespace Sys2Proof

/-- The commands, one for each row of spec/opcode_table.json. -/
inductive Instr
  /-- POWER_ON_RESET (R190): the RATE1 and RATE0 straps, and how far a programming in flight had gone (R49). -/
  | powerOnReset (rate1 rate0 : Bool) (flight : FlightEnd)
  /-- RESET_EFFECT (R189): the RATE1 and RATE0 straps. -/
  | resetEffect (rate1 rate0 : Bool)
  /-- HOST_FRAME (R180): bytes that arrive on HOST_RXD, up to the one that ends a frame. -/
  | hostFrame (bytes : Bytes)
  /-- GAP_DROP (R180): a gap of more than 5 ms on HOST_RXD, and the byte that ends it. -/
  | gapDrop (byte : Byte)
  /-- IDENTIFY (R188). -/
  | identify (ft : Byte)
  /-- STATUS (R188). -/
  | status (ft : Byte)
  /-- COUNTERS (R187): group and clear option. -/
  | counters (ft group clear : Byte)
  /-- RESTART (R189). -/
  | restart (ft : Byte)
  /-- SUBMIT_JOB (R6): a new print order. -/
  | submitJob (ft : Byte) (order : JobOrder)
  /-- CANCEL_JOB (R16): a job tag. -/
  | cancelJob (ft : Byte) (tag : U16)
  /-- QUERY_JOB (R23): a job tag. -/
  | queryJob (ft : Byte) (tag : U16)
  /-- LIST_JOBS (R24). -/
  | listJobs (ft : Byte)
  /-- OPEN_EDITION (R33): edition id and limit. -/
  | openEdition (ft : Byte) (id : U32) (limit : U16)
  /-- CLOSE_EDITION (R34): a selector. -/
  | closeEdition (ft : Byte) (id : U32) (slot : Byte)
  /-- REMOVE_EDITION (R35): a selector. -/
  | removeEdition (ft : Byte) (id : U32) (slot : Byte)
  /-- QUERY_EDITION (R36): a selector. -/
  | queryEdition (ft : Byte) (id : U32) (slot : Byte)
  /-- STORE_STATUS (R51). -/
  | storeStatus (ft : Byte)
  /-- SET_FEED_PROFILE (R58). -/
  | setFeedProfile (ft : Byte) (profile : FeedProfileArgs)
  /-- CLEAR_FEED (R70). -/
  | clearFeed (ft : Byte)
  /-- FEED_STATUS (R71). -/
  | feedStatus (ft : Byte)
  /-- LOAD_ROLL (R75): roll id, media type, declared length. -/
  | loadRoll (ft : Byte) (rollId : U32) (mediaType : Byte) (declared : U32)
  /-- UNLOAD_ROLL (R79). -/
  | unloadRoll (ft : Byte)
  /-- JOG (R80): a signed length in mm. -/
  | jog (ft : Byte) (mm : U16)
  /-- SET_TRIM (R82): mode and signed value. -/
  | setTrim (ft mode : Byte) (value : U16)
  /-- FIT_CARTRIDGE (R98): channel, capacity, remaining contents, lot. -/
  | fitCartridge (ft ch : Byte) (capacity remaining lot : U32)
  /-- INK_STATUS (R101): selector and clear option. -/
  | inkStatus (ft sel clear : Byte)
  /-- SET_INK_PROFILE (R102): channel and profile. -/
  | setInkProfile (ft ch : Byte) (profile : InkProfileArgs)
  /-- ENGINE_STATUS (R137). -/
  | engineStatus (ft : Byte)
  /-- SET_PATCHES (R140): the updates. -/
  | setPatches (ft : Byte) (updates : List PatchUpdate)
  /-- READ_PATCHES (R141). -/
  | readPatches (ft : Byte)
  /-- SET_STRIP_PROFILE (R143). -/
  | setStripProfile (ft : Byte) (profile : StripProfileArgs)
  /-- CHECK_STATUS (R155). -/
  | checkStatus (ft : Byte)
  /-- SET_DRIFT_LIMITS (R158): warn and out limits. -/
  | setDriftLimits (ft : Byte) (warn out : U16)
  /-- RECALIBRATED (R160): a channel. -/
  | recalibrated (ft ch : Byte)
  /-- DRIFT_STATUS (R164). -/
  | driftStatus (ft : Byte)
  /-- LOAD_PRICES (R168): a price list. -/
  | loadPrices (ft : Byte) (prices : PriceArgs)
  /-- PRICE_STATUS (R169). -/
  | priceStatus (ft : Byte)
  /-- COST_TAKE (R173). -/
  | costTake (ft : Byte)
  /-- SET_COST_LEVEL (R174): a level. -/
  | setCostLevel (ft level : Byte)
  /-- OVERHEAD_READ (R177): clear option. -/
  | overheadRead (ft clear : Byte)
  /-- REPLY_SENT (R182): the last byte of a reply frame is sent. -/
  | replySent
  /-- NOTICE_SENT (R186): the last byte of a notice frame is sent. -/
  | noticeSent
  /-- ENGINE_FRAME_SENT (R125): the last byte of a message frame to the engine is sent. -/
  | engineFrameSent
  /-- ENGINE_FRAME (R126): bytes that arrive on ENG_RXD, up to the one that ends a frame. -/
  | engineFrame (bytes : Bytes)
  /-- ENGINE_GAP_DROP (R126): a gap of more than 5 ms on ENG_RXD, and the byte that ends it. -/
  | engineGapDrop (byte : Byte)
  /-- ENGINE_STATE (R123): the state byte and fault code of the engine's message. -/
  | engineState (state code : Byte)
  /-- SWATH (R129): the engine's message, its fields. -/
  | swath (tag index : U16) (feed : U32) (drops : List (Byte × U32))
  /-- END (R135): the engine's message, tag and status. -/
  | endPrint (tag : U16) (status : Byte)
  /-- MAINT (R128): the engine's message, its drop counts. -/
  | maint (drops : List (Byte × U32))
  /-- SWATH_TIMER_EXPIRY (R130). -/
  | swathTimerExpiry
  /-- DRY_OUT_TIMER_EXPIRY (R133). -/
  | dryOutTimerExpiry
  /-- ENCODER_COUNT (R55): the new levels of ENC_A and ENC_B. -/
  | encoderCount (a b : Bool)
  /-- EDGE_SEARCH_LIMIT (R76). -/
  | edgeSearchLimit
  /-- SETTLE_TIMEOUT (R62). -/
  | settleTimeout
  /-- STALL_WINDOW_END (R66). -/
  | stallWindowEnd
  /-- EDGE_CHANGE (R68): the new level, true for media present. -/
  | edgeChange (present : Bool)
  /-- KNIFE_HOME_CHANGE (R81): the new level, true for active (the knife at rest). -/
  | knifeHomeChange (active : Bool)
  /-- KNIFE_STROKE_TIMEOUT (R81). -/
  | knifeStrokeTimeout
  /-- KNIFE_RETURN_TIMEOUT (R81). -/
  | knifeReturnTimeout
  /-- SCAN (R92): the readings of AIN0 to AIN10 and the levels of CART0 to CART9 (true for present). -/
  | scan (ain : Vector (BitVec 10) 11) (cart : Vector Bool 10)
  /-- PUMP_STROKE (R105): the channel whose pump strokes. -/
  | pumpStroke (ch : Fin 10)
  /-- MOUNT_HEADERS_READ (R46): for each physical block, whether a RETIRED mark would program (R37). -/
  | mountHeadersRead (marks : Vector Bool 6)
  /-- ERASE_DONE (R42): the verify result, and whether a RETIRED mark would program (R37). -/
  | eraseDone (verified mark : Bool)
  /-- PROGRAM_DONE (R42): the verify result, and whether a RETIRED mark would program (R37). -/
  | programDone (verified mark : Bool)
  /-- DWELL_EXPIRY (R146). -/
  | dwellExpiry
  /-- MEASURE_COMMAND_DONE (R147): whether the sensor acknowledged. -/
  | measureCommandDone (ack : Bool)
  /-- RESULT_READ_DONE (R147): whether the sensor acknowledged, and the eight result bytes (R196). -/
  | resultReadDone (ack : Bool) (bytes : Vector Byte 8)
  /-- READING_TIMEOUT (R147). -/
  | readingTimeout
deriving DecidableEq, Repr

end Sys2Proof
end

