-- ==== Sys2Proof/Decode.lean ====
section
/-!
DEFINITION. Commands by the bits of the opcode table: no row of spec/opcode_table.json gives bits, so no word
spells a command. Requests and engine messages are spelled by bytes; Machine/Operands.lean parses those.
-/

namespace Sys2Proof

/-- The command that a word spells by the table's bits: none does. -/
def decodeTableWord (_nbits _w : Nat) : Option Instr := none

end Sys2Proof
end

