-- ==== Sys2Proof/Config.lean ====
section
/-!
DEFINITION. What the part fixes (numbers the spec states) and the two free values, which no proof can see.
-/

namespace Sys2Proof.Config

/-- Target and dominant channel that stand in for an undefined patch entry (log 17, a free value): L, a, b
and the dominant channel, if any, of table index `i`. R140 keeps such an entry from being compared with. -/
opaque undefinedPatch (i : Nat) : Int × Int × Int × Option (Fin 10)

/-- The erase count of a block found RETIRED at mount whose header holds no readable count (log 16, a free
value), by the block's number. -/
opaque retiredCount (p : Fin 6) : Nat

/-- IDENTIFY's vendor code (R188). -/
def vendorCode : Nat := 0x0E5D
/-- IDENTIFY's part code (R188). -/
def partCode : Nat := 0x7047
/-- IDENTIFY's silicon revision (R188). -/
def siliconRevision : Nat := 1

/-- Largest value of a 32-bit saturating quantity (Conventions). -/
def max32 : Nat := 4294967295
/-- Largest value of a 16-bit saturating counter (R137, R154, R187). -/
def max16 : Nat := 65535
/-- Erases a physical flash block endures (R37). -/
def eraseLimit : Nat := 10000
/-- Swath timer, ms (R130). -/
def swathMs : Nat := 5000
/-- Dry-out timer, ms: 600 s (R131). -/
def dryOutMs : Nat := 600000
/-- Stall window, ms (R66). -/
def stallMs : Nat := 50
/-- Net counts a full drive window must show (R66). -/
def stallCounts : Int := 4
/-- Knife stroke limit, ms (R81). -/
def strokeMs : Nat := 50
/-- Knife return limit, ms (R81). -/
def returnMs : Nat := 500
/-- Edge search limit, counts (R76). -/
def edgeSearchCounts : Int := 100000
/-- Time between scans, ms (R92). -/
def scanMs : Nat := 100
/-- Time between pump strokes, ms (R105). -/
def pumpMs : Nat := 250
/-- Ink moved by one pump stroke, µL (R105). -/
def strokeUl : Nat := 50
/-- Margin above the floor at which a channel has returned, µL (R96). -/
def returnMargin : Nat := 1000
/-- Excess a leak check allows, µL (R118). -/
def leakSlack : Int := 2000
/-- Header reading at mount, ms (R46). -/
def mountMs : Nat := 1
/-- Erase of a spare, ms (R42). -/
def eraseMs : Nat := 20
/-- Programming of a spare, ms (R42). -/
def programMs : Nat := 10
/-- Time a sensor reading may take, ms (R147). -/
def readingMs : Nat := 20
/-- Longest body of a frame the 7G receives (R179). -/
def maxBody : Nat := 512
/-- Records the cost log holds (R172). -/
def costLogSize : Nat := 32

end Sys2Proof.Config
end

