-- ==== Sys2Proof/Machine/State.lean ====
section
/-!
DEFINITION. The state of the 7G as plain data, one structure for each block of 00_scope.md's overview, and the
state right after a reset. Derived quantities (ATTN, the remaining and reserved lengths, availability) are
computed in Machine/Ops.lean from what is stored here.
-/

namespace Sys2Proof.Machine

/-- Why a step stops with a fault: nothing in the 7G does (each of the 68 commands has an effect in the spec),
so no constructor exists. Safe: no claim can rest on a stop. -/
inductive Fault
deriving DecidableEq, Repr

/-- Why a command is refused by the model. -/
inductive Refusal
  /-- Raised by an arm of exec whose command has no meaning yet; no arm of this model raises it. Safe. -/
  | notModelled (mnemonic : String)
deriving DecidableEq, Repr

/-- Ink channel, 0 to 9. -/
abbrev Chan := Fin 10
/-- Job slot, 0 to 15. -/
abbrev JobIx := Fin 16
/-- Edition slot, 0 to 63. -/
abbrev EdIx := Fin 64
/-- Logical store block L0 to L3. -/
abbrev LBlock := Fin 4
/-- Physical store block P0 to P5. -/
abbrev PBlock := Fin 6
/-- Price slot, 0 to 3. -/
abbrev PriceIx := Fin 4

/-! ### Host link controller (The Host Link and Notices) -/

/-- The receive frame assembler (R180): `none` is hunting, `some bs` is assembling with the bytes after the
start byte taken so far. -/
abbrev Rx := Option Bytes

/-- Subject of a notice (R185). -/
inductive Subject
  | jobSlot (i : JobIx)
  | channel (c : Chan)
  | feedAxis
  | checker
  | costLog
  | store
deriving DecidableEq, Repr

/-- A reply or busy answer: kind, frame tag and body of its frame (R181, R183). -/
structure Reply where
  kind : Byte
  tag : Byte
  body : Bytes
deriving DecidableEq, Repr

/-- The frame being sent on HOST_TXD (R184). A notice remembers whether its snapshot showed a RELEASING
slot (R186). -/
inductive TxFrame
  | reply (r : Reply)
  | notice (subject : Subject) (releasing : Bool) (seq : Byte) (body : Bytes)
deriving DecidableEq, Repr

/-- How far a RESTART has gone (R189). -/
inductive RestartPhase
  | none
  | replyWaiting
  | replyGone
deriving DecidableEq, Repr

structure HostLink where
  rx : Rx
  rate1 : Bool
  rate0 : Bool
  reply : Option Reply
  busy : Option Reply
  tx : Option TxFrame
  queue : List Subject
  marked : Bool
  seq : Byte
  crcDrops : Nat
  overDrops : Nat
  gapDrops : Nat
  busyCount : Nat
  restart : RestartPhase
deriving DecidableEq, Repr

/-! ### Job controller (Jobs and the Print Queue) -/

inductive JobState
  | pending | printing | suspended | aborting | checking | cutting | closing
deriving DecidableEq, Repr

inductive JobOutcome
  | finished | spoiled | cancelled
deriving DecidableEq, Repr

inductive SpoilCause
  | cancel | dryout | engineStall | engineFault | engineProtocol | feedFault | colourFail | colourVoid
deriving DecidableEq, Repr

inductive ColourMode
  | plain | check | critical
deriving DecidableEq, Repr

inductive VoidCause
  | noMarks | lostLock | sensor
deriving DecidableEq, Repr

inductive Verdict
  | pass
  | fail
  | void (cause : VoidCause)
deriving DecidableEq, Repr

/-- The hold set (R10). -/
structure Holds where
  noMedia : Bool
  colourOut : Bool
deriving DecidableEq, Repr

/-- The job flags (R3). -/
structure JobFlags where
  overdraw : Bool
  suspendedOnce : Bool
  uncut : Bool
  unrecorded : Bool
  costPending : Bool
deriving DecidableEq, Repr

/-- Strip geometry captured at acceptance (section 1.2): T, stride, seed, M and pitch (mm). -/
structure Geometry where
  t : Nat
  stride : Nat
  seed : Nat
  m : Nat
  pitch : Nat
deriving DecidableEq, Repr

/-- The strip of a job (R3): `order` and `marks` are fixed when START is sent, `verdict` by the checker. -/
structure Strip where
  geo : Geometry
  length : Nat
  order : Option (List Nat)
  marks : Option Nat
  verdict : Option Verdict
deriving DecidableEq, Repr

/-- The edition of a job: id, copy number, and the edition slot that held the id at acceptance. -/
structure JobEdition where
  id : Nat
  copy : Nat
  slot : EdIx
deriving DecidableEq, Repr

/-- One ink entry of a job (R112), in nL but for the drop total. -/
structure InkEntry where
  chan : Chan
  estimated : Bool
  reservation : Nat
  drawn : Nat
  remaining : Nat
  overdraw : Nat
  drops : Nat
  used : Nat
  released : Bool
deriving DecidableEq, Repr

/-- The job record (R3), with the feed controller's reservation figures (R85), the ink entries (R112) and the
waits that R19 and R22 speak of. A starting phase is PRINTING with `startPos` absent (R12). -/
structure Job where
  tag : Nat
  state : JobState
  outcome : Option JobOutcome
  cause : Option SpoilCause
  holds : Holds
  printLen : Nat
  cuts : List Nat
  est : List (Chan × Nat)
  lots : Option (List (Chan × Option Nat))
  edition : Option JobEdition
  mode : ColourMode
  forced : Bool
  strip : Option Strip
  priceSlot : PriceIx
  mediaRes : Nat
  planned : Nat
  drawn : Nat
  startPos : Option Int
  cutsDone : Nat
  commitGen : Option Nat
  flags : JobFlags
  ink : List InkEntry
  spoilWait : Bool
  costIn : Bool
  commitOpen : Bool
deriving DecidableEq, Repr

/-- A slot of the job table (R1). A RELEASING slot keeps the departed job's final record (R25), with the generation
of its price slot as it stood when the job left, since the reference that kept the list is dropped then (R167). -/
inductive Slot
  | free
  | live (j : Job)
  | releasing (j : Job) (priceGen : Nat)
deriving DecidableEq, Repr

structure JobTable where
  slots : Vector Slot 16
  order : List JobIx
deriving DecidableEq, Repr

/-! ### Edition controller (Editions and the Edition Store) -/

inductive EdState
  | empty | opened | closed | lost
deriving DecidableEq, Repr

/-- The part of an edition slot that is written to the store (R27); `id` and `limit` are 0 when absent, the
issued set is ascending. -/
structure EdImage where
  state : EdState
  id : Nat
  limit : Nat
  issued : List Nat
deriving DecidableEq, Repr

inductive StoreState
  | mounting | ready | readOnly
deriving DecidableEq, Repr

/-- Header mark (R37). -/
inductive Mark
  | blank | writing | complete | retired
deriving DecidableEq, Repr

/-- One physical flash block as it reads (R37). The header fields are absent while unreadable (BLANK, or
RETIRED programmed over BLANK). -/
structure FlashBlock where
  mark : Mark
  role : Option LBlock
  seq : Option Nat
  erases : Option Nat
  images : Vector EdImage 16
deriving DecidableEq, Repr

/-- What the volatile table says a physical block is (R37). -/
inductive Role
  | holds (b : LBlock)
  | spare
  | retired
deriving DecidableEq, Repr

/-- A row of the volatile block table (R37, R51). -/
structure BlockInfo where
  role : Role
  erases : Nat
  mark : Mark
deriving DecidableEq, Repr

inductive RotPhase
  | erasing | programming
deriving DecidableEq, Repr

/-- The rotation in flight (R41, R42). -/
structure Rotation where
  block : LBlock
  phys : PBlock
  images : Vector EdImage 16
  gen : Nat
  phase : RotPhase
  left : Nat
deriving DecidableEq, Repr

/-- An id whose removal waits to persist (R35). -/
structure Removal where
  id : Nat
  block : LBlock
  gen : Nat
deriving DecidableEq, Repr

structure Editions where
  image : Vector EdImage 64
  unrec : Vector (List Nat) 64
  resv : Vector (List Nat) 64
  removals : List Removal
  store : StoreState
  change : Vector Nat 4
  persisted : Vector Nat 4
  writes : List LBlock
  rot : Option Rotation
  table : Vector BlockInfo 6
  seqCounter : Nat
  headersRead : Bool
  formatting : Bool
  mountLeft : Nat
  flash : Vector FlashBlock 6
deriving DecidableEq, Repr

/-! ### Feed controller (The Feed Axis; Roll, Knife and Cut Plans) -/

inductive Axis
  | unreferenced | loading | idle | moving | reversing | knife | fault
deriving DecidableEq, Repr

/-- The feed drive outputs: at most one of FEED_FAST, FEED_SLOW and FEED_REV is on (R54). -/
inductive Drive
  | off | fast | slow | rev
deriving DecidableEq, Repr

/-- Who asked for a move (R59). A jog remembers whether it is a forward one, since only that is charged (R80, R176). -/
inductive Requester
  | swath | strip | cut | backFeed | load
  | jog (forward : Bool)
deriving DecidableEq, Repr

inductive MovePhase
  | approach | settle | reverse
deriving DecidableEq, Repr

/-- The move record (R59). -/
structure Move where
  target : Int
  by_ : Requester
  phase : MovePhase
  reversalUsed : Bool
  endPoint : Option Int
deriving DecidableEq, Repr

/-- A drive window under way (R66). -/
structure DriveWindow where
  net : Int
  left : Nat
deriving DecidableEq, Repr

/-- Feed profile (R57), distances in mm but for the window and the tolerance, in counts. -/
structure FeedProfile where
  slow : Nat
  window : Nat
  settle : Nat
  backoff : Nat
  reversal : Bool
  slip : Nat
  invert : Bool
  lead : Nat
  trim : Nat
  sensor : Nat
  knife : Nat
deriving DecidableEq, Repr

inductive FaultKind
  | stall | slip | mediaOut | overrun | knife | edgeNotFound
deriving DecidableEq, Repr

/-- The fault record (R69). -/
structure FaultRecord where
  kind : FaultKind
  axis : Axis
  pos : Int
deriving DecidableEq, Repr

/-- The phase of a roll load (R76, R77). -/
inductive LoadPhase
  | search (from_ : BitVec 32)
  | trimLeg
  | trimCut
  | backFeed
deriving DecidableEq, Repr

/-- The phase of a knife cycle with its time left (R81); the check phase takes no time. -/
inductive KnifePhase
  | stroke (left : Nat)
  | return_ (left : Nat)
deriving DecidableEq, Repr

inductive RollState
  | none | loaded | exhausted
deriving DecidableEq, Repr

inductive MediaEvent
  | none
  | cut (pos : Int)
  | move
deriving DecidableEq, Repr

/-- The roll record (R73), less its two computed fields. -/
structure Roll where
  state : RollState
  id : Nat
  mediaType : Fin 8
  declared : Nat
  consumed : Int
  reach : Int
  lastEvent : MediaEvent
  pieceBase : Option Int
deriving DecidableEq, Repr

structure Feed where
  axis : Axis
  pos : BitVec 32
  referenced : Bool
  drive : Drive
  knife : Bool
  encA : Bool
  encB : Bool
  edge : Bool
  knifeHome : Bool
  profile : FeedProfile
  rest : Option Int
  move : Option Move
  settleLeft : Option Nat
  window : Option DriveWindow
  swathTarget : Option Int
  fault : Option FaultRecord
  load : Option LoadPhase
  knifeCycle : Option KnifePhase
  trimBase : Int
  trimFine : Int
  roll : Roll
deriving DecidableEq, Repr

/-! ### Ink controller (Ink Channels and Refill) and ink account (Ink Reservations and Consumption) -/

inductive Supply
  | unfitted | undeclared | ready | waiting | refilling | empty
deriving DecidableEq, Repr

inductive LevelCond
  | normal | low | dry
deriving DecidableEq, Repr

/-- A declared cartridge (R98). -/
structure Cartridge where
  capacity : Nat
  remaining : Nat
  lot : Nat
deriving DecidableEq, Repr

/-- Ink profile (R102). -/
structure InkProfile where
  drop : Nat
  emptyAt : Nat
  fullAt : Nat
  start : Nat
  stop : Nat
  floor : Nat
deriving DecidableEq, Repr

/-- The sticky events (R100). -/
structure Sticky where
  cartLow : Bool
  refillFail : Bool
  leakSuspect : Bool
  sensorFault : Bool
  dry : Bool
deriving DecidableEq, Repr

/-- Refill progress (R105): stroke count and progress ring, oldest first. -/
structure Progress where
  strokes : Nat
  ring : List Nat
deriving DecidableEq, Repr

/-- A channel record (R90). `above` says whether the scan before found the level at floor + 1,000 µL or more
without a sensor fault (R96). -/
structure Channel where
  supply : Supply
  ring : List Nat
  level : Nat
  fault : Bool
  cond : LevelCond
  cart : Option Cartridge
  profile : InkProfile
  sticky : Sticky
  levelBegin : Nat
  levelEnd : Nat
  progress : Option Progress
  pump : Bool
  strokeLeft : Option Nat
  above : Bool
deriving DecidableEq, Repr

structure Ink where
  chans : Vector Channel 10
  humRing : List Nat
  humFault : Bool
  scanned : Bool
  scanLeft : Nat
  wait : List Chan
  grants : Vector (Option Chan) 3
deriving DecidableEq, Repr

/-- The ink account's channel figures: use since refill and use at refill begin in nL (R116), overhead carry
in pL (R117). -/
structure Account where
  use : Vector Nat 10
  useBegin : Vector Nat 10
  carry : Vector Nat 10
deriving DecidableEq, Repr

/-! ### Engine link controller (The Engine Link) -/

inductive EngineState
  | silent | ready | busy | fault
deriving DecidableEq, Repr

/-- A message to the engine (R124). START carries the mark count and strip order, 0 and empty without a
strip (R194). -/
inductive EngineMsg
  | start (tag printLen marks : Nat) (order : List Nat)
  | feedDone (tag : Nat) (index : U16)
  | hold (tag : Nat)
  | resume (tag : Nat)
  | abort (tag : Nat)
deriving DecidableEq, Repr

inductive PrintPhase
  | await | feed | held | ending
deriving DecidableEq, Repr

/-- The print context (R127). `endingSwath` says that the one SWATH of phase ENDING has been taken (R134).
A timer is stopped when absent, else it holds the ms left. -/
structure PrintContext where
  tag : Nat
  phase : PrintPhase
  next : U16
  inFeed : Option U16
  swathTimer : Option Nat
  dryTimer : Option Nat
  endingSwath : Bool
deriving DecidableEq, Repr

structure EngineLink where
  state : EngineState
  code : Byte
  ctx : Option PrintContext
  rx : Rx
  txList : List EngineMsg
  crcDrops : Nat
  overDrops : Nat
  gapDrops : Nat
  protoErrors : Nat
deriving DecidableEq, Repr

/-! ### Colour checker (Colour Check Strips) -/

/-- A colour in hundredths. -/
structure Colour where
  l : Int
  a : Int
  b : Int
deriving DecidableEq, Repr

/-- A defined patch table entry (R139). -/
structure Patch where
  target : Colour
  dominant : Option Chan
deriving DecidableEq, Repr

/-- The three geometry fields that are absent while the strip profile is unset (R142). -/
structure PatchSet where
  t : Nat
  stride : Nat
  seed : Nat
deriving DecidableEq, Repr

/-- Strip profile (R142), unset while `set` is absent. -/
structure StripProfile where
  set : Option PatchSet
  m : Nat
  runMin : Nat
  runMax : Nat
  pitch : Nat
  markThreshold : Nat
  tolerance : Nat
  allowed : Nat
  meanTolerance : Nat
  gross : Nat
  learn : Bool
  dwellLow : Nat
  dwellMid : Nat
  dwellHigh : Nat
deriving DecidableEq, Repr

inductive CheckState
  | idle | dwell | search | locked
deriving DecidableEq, Repr

/-- A patch result (R145, R150). -/
structure PatchResult where
  index : Nat
  dominant : Option Chan
  colour : Colour
  deltaE : Nat
  failing : Bool
deriving DecidableEq, Repr

/-- The strip context (R145). The dwell timer is stopped when absent, else it holds the ms left. -/
structure StripContext where
  slot : JobIx
  tag : Nat
  geo : Geometry
  order : List Nat
  dwell : Option Nat
  stripStart : Option Int
  n : Nat
  inSearch : Nat
  run : Nat
  voids : Nat
  patch : Nat
  lastGross : Bool
  failing : Nat
  sum : Nat
  results : List PatchResult
deriving DecidableEq, Repr

/-- The last strip record (R151, R153): `verdict` is absent and `stopped` set for a stopped strip. -/
structure LastStrip where
  tag : Nat
  verdict : Option Verdict
  stopped : Bool
  evaluated : Nat
  failing : Nat
  mean : Nat
  results : List PatchResult
deriving DecidableEq, Repr

inductive ReadingPhase
  /-- the measure command is on the sensor link -/
  | command
  /-- the command was acknowledged; the result is being read, with the ms left of the 20 ms -/
  | result (left : Nat)
deriving DecidableEq, Repr

/-- A reading under way on the sensor link (R147); `discard` is set when the strip was stopped (R153). -/
structure Reading where
  phase : ReadingPhase
  discard : Bool
deriving DecidableEq, Repr

/-- The checker counters (R154). -/
structure CheckCounters where
  started : Nat
  passed : Nat
  failed : Nat
  voided : Nat
  evaluated : Nat
  patchesFailed : Nat
  timeouts : Nat
deriving DecidableEq, Repr

structure Checker where
  patches : Vector (Option Patch) 48
  profile : StripProfile
  state : CheckState
  ctx : Option StripContext
  last : Option LastStrip
  reading : Option Reading
  counters : CheckCounters
deriving DecidableEq, Repr

/-! ### Drift monitor (Colour Drift) -/

inductive DriftState
  | unverified | verified | warn | out
deriving DecidableEq, Repr

structure Drift where
  rings : Vector (List Nat) 10
  states : Vector DriftState 10
  lots : Vector (Option Nat) 10
  warn : Nat
  out : Nat
deriving DecidableEq, Repr

/-! ### Cost unit (Costing) -/

/-- The prices of a list (R166). -/
structure Prices where
  ink : Vector Nat 10
  media : Vector Nat 8
  cut : Nat
deriving DecidableEq, Repr

/-- A price slot (R166): the list with its generation, absent while not loaded, and the reference count. -/
structure PriceSlot where
  loaded : Option (Nat × Prices)
  refs : Nat
deriving DecidableEq, Repr

/-- A cost record (R170). `strip` is the length and verdict of the job's strip. -/
structure CostRecord where
  tag : Nat
  outcome : Option JobOutcome
  cause : Option SpoilCause
  edition : Nat
  copy : Nat
  commitGen : Option Nat
  priceGen : Nat
  ink : List (Chan × Nat)
  mediaType : Fin 8
  piece : Nat
  cuts : Nat
  strip : Option (Nat × Option Verdict)
  flags : JobFlags
  inkCost : Nat
  mediaCost : Nat
  cutCost : Nat
  total : Nat
deriving DecidableEq, Repr

/-- The overhead account (R176). -/
structure Overhead where
  maint : Vector Nat 10
  unaccounted : Vector Nat 10
  trim : Vector Nat 8
  jog : Vector Nat 8
  knife : Nat
deriving DecidableEq, Repr

structure Cost where
  slots : Vector PriceSlot 4
  current : Option PriceIx
  genCounter : Nat
  log : List CostRecord
  waiting : List CostRecord
  critical : Nat
  overhead : Overhead
deriving DecidableEq, Repr

/-! ### The whole part -/

/-- The state of the 7G and the queue of the commands that wait to be taken, first in, first out. -/
structure State where
  pending : List Instr
  host : HostLink
  jobs : JobTable
  ed : Editions
  feed : Feed
  ink : Ink
  acct : Account
  eng : EngineLink
  chk : Checker
  drift : Drift
  cost : Cost
deriving DecidableEq, Repr

/-! ### Updates, one for each block -/

def State.mapHost (f : HostLink → HostLink) (s : State) : State := { s with host := f s.host }
def State.mapJobs (f : JobTable → JobTable) (s : State) : State := { s with jobs := f s.jobs }
def State.mapEd (f : Editions → Editions) (s : State) : State := { s with ed := f s.ed }
def State.mapFeed (f : Feed → Feed) (s : State) : State := { s with feed := f s.feed }
def State.mapInk (f : Ink → Ink) (s : State) : State := { s with ink := f s.ink }
def State.mapAcct (f : Account → Account) (s : State) : State := { s with acct := f s.acct }
def State.mapEng (f : EngineLink → EngineLink) (s : State) : State := { s with eng := f s.eng }
def State.mapChk (f : Checker → Checker) (s : State) : State := { s with chk := f s.chk }
def State.mapDrift (f : Drift → Drift) (s : State) : State := { s with drift := f s.drift }
def State.mapCost (f : Cost → Cost) (s : State) : State := { s with cost := f s.cost }
def State.setPending (q : List Instr) (s : State) : State := { s with pending := q }

/-! ### Reset values -/

/-- The host link controller after a reset (R179, R190), at the sampled straps. -/
def HostLink.atReset (rate1 rate0 : Bool) : HostLink where
  rx := none
  rate1 := rate1
  rate0 := rate0
  reply := none
  busy := none
  tx := none
  queue := []
  marked := false
  seq := 0
  crcDrops := 0
  overDrops := 0
  gapDrops := 0
  busyCount := 0
  restart := .none

/-- The job controller after a reset (R26). -/
def JobTable.atReset : JobTable where
  slots := Vector.replicate 16 .free
  order := []

/-- An EMPTY edition slot (R27). -/
def EdImage.emptySlot : EdImage := { state := .empty, id := 0, limit := 0, issued := [] }

/-- A LOST edition slot (R27, R48). -/
def EdImage.lostSlot : EdImage := { state := .lost, id := 0, limit := 0, issued := [] }

/-- A flash block as erased (R37). -/
def FlashBlock.erased : FlashBlock where
  mark := .blank
  role := none
  seq := none
  erases := none
  images := Vector.replicate 16 EdImage.emptySlot

/-- The edition controller after a reset: the flash is kept (R49), the rest awaits the mount (R38, log 9). -/
def Editions.atReset (flash : Vector FlashBlock 6) : Editions where
  image := Vector.replicate 64 EdImage.emptySlot
  unrec := Vector.replicate 64 []
  resv := Vector.replicate 64 []
  removals := []
  store := .mounting
  change := Vector.replicate 4 0
  persisted := Vector.replicate 4 0
  writes := []
  rot := none
  table := Vector.replicate 6 { role := .spare, erases := 0, mark := .blank }
  seqCounter := 0
  headersRead := false
  formatting := false
  mountLeft := Config.mountMs
  flash := flash

/-- The feed profile's defaults (R57). -/
def FeedProfile.default : FeedProfile where
  slow := 30
  window := 5
  settle := 30
  backoff := 40
  reversal := true
  slip := 20
  invert := false
  lead := 20
  trim := 15
  sensor := 60
  knife := 500

/-- The roll record after a reset (R73). -/
def Roll.atReset : Roll where
  state := .none
  id := 0
  mediaType := 0
  declared := 0
  consumed := 0
  reach := 0
  lastEvent := .none
  pieceBase := none

/-- The feed controller after a reset (R72), at the present levels of its input pins (log 7). -/
def Feed.atReset (encA encB edge knifeHome : Bool) : Feed where
  axis := .unreferenced
  pos := 0
  referenced := false
  drive := .off
  knife := false
  encA := encA
  encB := encB
  edge := edge
  knifeHome := knifeHome
  profile := FeedProfile.default
  rest := none
  move := none
  settleLeft := none
  window := none
  swathTarget := none
  fault := none
  load := none
  knifeCycle := none
  trimBase := 0
  trimFine := 0
  roll := Roll.atReset

/-- The ink profile's defaults (R102). -/
def InkProfile.default : InkProfile where
  drop := 4
  emptyAt := 64
  fullAt := 960
  start := 12000
  stop := 27000
  floor := 3000

/-- A channel record at the reset effect, before the first scan (R90, R109, log 10). -/
def Channel.atReset : Channel where
  supply := .unfitted
  ring := []
  level := 0
  fault := false
  cond := .dry
  cart := none
  profile := InkProfile.default
  sticky := { cartLow := false, refillFail := false, leakSuspect := false, sensorFault := false, dry := false }
  levelBegin := 0
  levelEnd := 0
  progress := none
  pump := false
  strokeLeft := none
  above := false

/-- The ink controller at the reset effect (R109). -/
def Ink.atReset : Ink where
  chans := Vector.replicate 10 Channel.atReset
  humRing := []
  humFault := false
  scanned := false
  scanLeft := 0
  wait := []
  grants := Vector.replicate 3 none

/-- The ink account after a reset (R121). -/
def Account.atReset : Account where
  use := Vector.replicate 10 0
  useBegin := Vector.replicate 10 0
  carry := Vector.replicate 10 0

/-- The engine link controller after a reset: ABORT with tag 0 is the first message (R138). -/
def EngineLink.atReset : EngineLink where
  state := .silent
  code := 0
  ctx := none
  rx := none
  txList := [.abort 0]
  crcDrops := 0
  overDrops := 0
  gapDrops := 0
  protoErrors := 0

/-- The unset strip profile with its defaults (R142). -/
def StripProfile.default : StripProfile where
  set := none
  m := 3
  runMin := 2
  runMax := 4
  pitch := 6
  markThreshold := 2000
  tolerance := 300
  allowed := 1
  meanTolerance := 200
  gross := 1500
  learn := true
  dwellLow := 30
  dwellMid := 60
  dwellHigh := 120

/-- Counters of the checker, all 0 (R154). -/
def CheckCounters.zero : CheckCounters where
  started := 0
  passed := 0
  failed := 0
  voided := 0
  evaluated := 0
  patchesFailed := 0
  timeouts := 0

/-- The colour checker after a reset (R156). -/
def Checker.atReset : Checker where
  patches := Vector.replicate 48 none
  profile := StripProfile.default
  state := .idle
  ctx := none
  last := none
  reading := none
  counters := CheckCounters.zero

/-- The drift monitor after a reset (R165). -/
def Drift.atReset : Drift where
  rings := Vector.replicate 10 []
  states := Vector.replicate 10 .unverified
  lots := Vector.replicate 10 none
  warn := 250
  out := 400

/-- An overhead account of zeros (R178). -/
def Overhead.zero : Overhead where
  maint := Vector.replicate 10 0
  unaccounted := Vector.replicate 10 0
  trim := Vector.replicate 8 0
  jog := Vector.replicate 8 0
  knife := 0

/-- The cost unit after a reset (R178). -/
def Cost.atReset : Cost where
  slots := Vector.replicate 4 { loaded := none, refs := 0 }
  current := none
  genCounter := 0
  log := []
  waiting := []
  critical := 24
  overhead := Overhead.zero

/-- The part right after a power-on reset with both straps low, blank flash, and the pins at the levels of
log 7. -/
def State.reset : State where
  pending := []
  host := HostLink.atReset false false
  jobs := JobTable.atReset
  ed := Editions.atReset (Vector.replicate 6 FlashBlock.erased)
  feed := Feed.atReset false false false true
  ink := Ink.atReset
  acct := Account.atReset
  eng := EngineLink.atReset
  chk := Checker.atReset
  drift := Drift.atReset
  cost := Cost.atReset

end Sys2Proof.Machine
end

