-- ==== Sys2Proof/Machine/Ops.lean ====
section
/-!
DEFINITION. Shared operations: the manual's arithmetic, field encodings, the notice queue, the job table's
accessors, and the quantities that are worked out each time they are asked for.
-/

namespace Sys2Proof.Machine

/-! ### Arithmetic (00_scope.md, Arithmetic) -/

/-- Saturation of a 32-bit quantity. -/
def sat32 (n : Nat) : Nat := min n Config.max32

/-- Saturation of a 16-bit counter. -/
def sat16 (n : Nat) : Nat := min n Config.max16

/-- A value limited to −500 to +500 counts (R82). -/
def clampTrim (x : Int) : Int := max (-500) (min 500 x)

/-- Division rounded up. -/
def ceilDiv (n d : Nat) : Nat := (n + d - 1) / d

/-- The mean of a list, rounded down; 0 for an empty list. -/
def meanOf (xs : List Nat) : Nat := xs.sum / xs.length

/-- Integer square root by trial of the bits `k − 1` down to 0 above the root `r` found so far. -/
def isqrtFrom : Nat → Nat → Nat → Nat
  | 0, r, _ => r
  | k + 1, r, n => if (r + 2 ^ k) * (r + 2 ^ k) ≤ n then isqrtFrom k (r + 2 ^ k) n else isqrtFrom k r n

/-- Integer square root, rounded down, of a number below 2 ^ 64. -/
def isqrt (n : Nat) : Nat := isqrtFrom 32 0 n

/-- The colour difference ΔE (Conventions). -/
def deltaE (x y : Colour) : Nat :=
  isqrt ((x.l - y.l) ^ 2 + (x.a - y.a) ^ 2 + (x.b - y.b) ^ 2).toNat

/-- An update of one place of a vector. -/
def modifyAt {α : Type} {n : Nat} (v : Vector α n) (i : Fin n) (f : α → α) : Vector α n := v.set i (f v[i])

/-- A ring that drops its oldest value when a value is added to it while it holds `cap` (Collections). -/
def ringPush {α : Type} (cap : Nat) (ring : List α) (x : α) : List α :=
  (if ring.length < cap then ring else ring.drop 1) ++ [x]

/-- Ascending insertion of a number into a set kept as an ascending list without repeats. -/
def insertNum (k : Nat) : List Nat → List Nat
  | [] => [k]
  | x :: xs => if k < x then k :: x :: xs else if k = x then x :: xs else x :: insertNum k xs

/-! ### Field encodings (R191): least significant byte first -/

def u8 (n : Nat) : Bytes := [BitVec.ofNat 8 n]
def u16 (n : Nat) : Bytes := [BitVec.ofNat 8 n, BitVec.ofNat 8 (n / 256)]
def u32 (n : Nat) : Bytes :=
  [BitVec.ofNat 8 n, BitVec.ofNat 8 (n / 256), BitVec.ofNat 8 (n / 65536), BitVec.ofNat 8 (n / 16777216)]
def s16 (x : Int) : Bytes := u16 (x % 65536).toNat
def s32 (x : Int) : Bytes := u32 (x % 4294967296).toNat
def yesNo (b : Bool) : Bytes := u8 b.toNat

/-- A presence byte and a field or group of `width` bytes, 0 when absent (R191). -/
def optional (width : Nat) : Option Bytes → Bytes
  | none => 0 :: List.replicate width 0
  | some bs => 1 :: bs

/-- A list: its one-byte count, then its items (R191). -/
def counted {α : Type} (f : α → Bytes) (xs : List α) : Bytes := u8 xs.length ++ xs.flatMap f

/-- A bit map of up to eight members, bit 0 first (R191). -/
def bitMap : List Bool → Nat
  | [] => 0
  | b :: bs => b.toNat + 2 * bitMap bs

/-! ### Notices (R185) -/

/-- The subject's notice frame is being sent. -/
def HostLink.sending (h : HostLink) (sub : Subject) : Bool :=
  match h.tx with
  | some (.notice x _ _ _) => decide (x = sub)
  | _ => false

/-- Queuing a subject (R185): joins the end, or keeps its place, or is marked to be sent again. -/
def HostLink.queueNotice (h : HostLink) (sub : Subject) : HostLink :=
  if sub ∈ h.queue then
    if h.sending sub then { h with marked := true } else h
  else { h with queue := h.queue ++ [sub] }

/-- Queue the notice of a subject. -/
def notify (sub : Subject) (s : State) : State := s.mapHost (·.queueNotice sub)

/-- ATTN: high while the queue holds an entry, the one being sent included (R185). -/
def State.attn (s : State) : Bool := !s.host.queue.isEmpty

/-- The number of a subject (R185). -/
def Subject.number : Subject → Nat
  | .jobSlot i => i
  | .channel c => 16 + c
  | .feedAxis => 26
  | .checker => 27
  | .costLog => 28
  | .store => 29

/-! ### The job table -/

/-- The job of a LIVE slot. -/
def State.liveJob (s : State) (i : JobIx) : Option Job :=
  match s.jobs.slots[i] with
  | .live j => some j
  | _ => none

/-- The live jobs with their slots, in queue order (R2). -/
def State.liveJobs (s : State) : List (JobIx × Job) :=
  s.jobs.order.filterMap fun i => (s.liveJob i).map fun j => (i, j)

/-- A media-path state (section 1.3). -/
def JobState.onPath : JobState → Bool
  | .printing | .suspended | .aborting | .checking | .cutting => true
  | .pending | .closing => false

/-- The job on the media path, if any (at most one: R11). -/
def State.pathJob (s : State) : Option (JobIx × Job) := s.liveJobs.find? fun p => p.2.state.onPath

/-- No live job is in a media-path state. -/
def State.pathFree (s : State) : Bool := s.pathJob.isNone

/-- The starting phase (R12): PRINTING with START not yet sent. -/
def Job.starting (j : Job) : Bool := decide (j.state = .printing) && j.startPos.isNone

/-- Change the record of a live job. -/
def setJob (i : JobIx) (f : Job → Job) (s : State) : State :=
  match s.liveJob i with
  | some j => s.mapJobs fun t => { t with slots := t.slots.set i (.live (f j)) }
  | none => s

/-- Change a field of a live job that its job-slot notice reports (section 1.2). -/
def changeJob (i : JobIx) (f : Job → Job) (s : State) : State := notify (.jobSlot i) (setJob i f s)

/-- The live job with a tag (R16, R23). -/
def State.jobByTag (s : State) (tag : Nat) : Option (JobIx × Job) := s.liveJobs.find? fun p => p.2.tag = tag

/-- A live job with a strip is in PRINTING, SUSPENDED, ABORTING or CHECKING (R140, R143, R160). -/
def State.stripOnPath (s : State) : Bool :=
  s.liveJobs.any fun p => p.2.strip.isSome && p.2.state.onPath && !decide (p.2.state = .cutting)

/-- The slots in a state of the table, by number. -/
def State.slotsWhere (s : State) (p : Slot → Bool) : List JobIx :=
  (List.finRange 16).filter fun i => p s.jobs.slots[i]

def Slot.isFree : Slot → Bool
  | .free => true
  | _ => false
def Slot.isLive : Slot → Bool
  | .live _ => true
  | _ => false
def Slot.isReleasing : Slot → Bool
  | .releasing _ _ => true
  | _ => false

/-! ### Media figures -/

/-- The remaining length in mm (R74): 0 unless a roll is LOADED. -/
def Roll.remaining (r : Roll) : Nat :=
  match r.state with
  | .loaded => ((r.declared : Int) - r.reach / 100).toNat
  | _ => 0

/-- The reserved length (R85): the sum of the live jobs' media reservations. -/
def State.reserved (s : State) : Nat := (s.liveJobs.map fun p => p.2.mediaRes).sum

/-- The effective trim (R82). -/
def Feed.effectiveTrim (f : Feed) : Int := clampTrim (f.trimBase + f.trimFine)

/-- The position as a signed number (R55). -/
def Feed.position (f : Feed) : Int := f.pos.toInt

/-- A number is within the signed 32-bit range of the counter (R59). -/
def inCounterRange (x : Int) : Bool := decide (-2147483648 ≤ x ∧ x ≤ 2147483647)

/-! ### Editions -/

/-- The logical block that holds a slot (section 2.4). -/
def blockOf (e : EdIx) : LBlock := ⟨e / 16, by omega⟩

/-- The OPEN or CLOSED slot with an edition id (R27). -/
def Editions.slotOf (d : Editions) (id : Nat) : Option EdIx :=
  (List.finRange 64).find? fun e =>
    (decide (d.image[e].state = .opened) || decide (d.image[e].state = .closed)) && d.image[e].id == id

/-- A free number of a slot (R28). -/
def Editions.isFree (d : Editions) (e : EdIx) (k : Nat) : Bool :=
  decide (1 ≤ k ∧ k ≤ d.image[e].limit) && !d.image[e].issued.contains k && !d.unrec[e].contains k
    && !d.resv[e].contains k

/-- The free numbers of a slot, ascending (R28). -/
def Editions.freeNumbers (d : Editions) (e : EdIx) : List Nat :=
  (List.range' 1 d.image[e].limit).filter (d.isFree e)

/-- The physical blocks with a role, by number. -/
def Editions.blocksWhere (d : Editions) (p : Role → Bool) : List PBlock :=
  (List.finRange 6).filter fun b => p d.table[b].role

def Role.isSpare : Role → Bool
  | .spare => true
  | _ => false
def Role.isRetired : Role → Bool
  | .retired => true
  | _ => false

/-- The store is drained (R50). -/
def Editions.drained (d : Editions) : Bool :=
  !decide (d.store = .mounting) && d.rot.isNone && d.writes.isEmpty

/-! ### Ink -/

/-- The ink still held for live jobs on a channel, in nL (R110). -/
def State.heldNl (s : State) (c : Chan) : Nat :=
  (s.liveJobs.map fun p =>
    (p.2.ink.map fun e => if e.chan = c ∧ e.released = false then e.remaining else 0).sum).sum

/-- The availability of a channel in µL (R110). -/
def State.availability (s : State) (c : Chan) : Int :=
  let ch := s.ink.chans[c]
  (ch.level : Int) + ((ch.cart.map (·.remaining)).getD 0 : Nat) - ch.profile.floor - ceilDiv (s.heldNl c) 1000

/-- The channels of a job that the dry and resume tests look at: its estimate and its used channels
(R112, R131). -/
def Job.inkChannels (j : Job) : List Chan :=
  j.est.map (·.1) ++ (j.ink.filter fun e => decide (0 < e.drops)).map (·.chan)

/-- Change a channel record. -/
def setChan (c : Chan) (f : Channel → Channel) (s : State) : State :=
  s.mapInk fun k => { k with chans := modifyAt k.chans c f }

/-- The humidity in % RH (R95); 0 while it is faulted or has no sample. -/
def Ink.humidity (k : Ink) : Nat :=
  if k.humFault then 0 else min 100 ((meanOf k.humRing - 8) * 100 / 1007)

/-! ### Drift -/

/-- An estimate channel of the job is OUT (R161). -/
def State.jobOut (s : State) (j : Job) : Bool := j.est.any fun p => decide (s.drift.states[p.1] = .out)

/-! ### Prices -/

/-- Generation of a price slot, 0 when it is not loaded. -/
def Cost.generation (c : Cost) (p : PriceIx) : Nat := ((c.slots[p].loaded).map (·.1)).getD 0

/-! ### Messages to the engine (R125) -/

/-- Make a message: it joins the end of the engine transmit list. -/
def sendEngine (m : EngineMsg) (s : State) : State := s.mapEng fun e => { e with txList := e.txList ++ [m] }

end Sys2Proof.Machine
end

