-- ==== Sys2Proof/Machine/Flags.lean ====
section
/-!
DEFINITION. Sets of flags and the states that are worked out from other fields: hold sets, job flags, sticky
events, level conditions, drift states, price slot states; and the codes of section 12.5 by which every state
is carried in a report.
-/

namespace Sys2Proof.Machine

/-! ### Hold sets and job flags -/

def Holds.none : Holds := { noMedia := false, colourOut := false }

def Holds.isEmpty (h : Holds) : Bool := !h.noMedia && !h.colourOut

def JobFlags.none : JobFlags :=
  { overdraw := false, suspendedOnce := false, uncut := false, unrecorded := false, costPending := false }

/-- Hold set bit map: bit 0 NO_MEDIA, bit 1 COLOUR_OUT (section 12.5). -/
def Holds.code (h : Holds) : Nat := bitMap [h.noMedia, h.colourOut]

/-- Job flags bit map (section 12.5). -/
def JobFlags.code (f : JobFlags) : Nat :=
  bitMap [f.overdraw, f.suspendedOnce, f.uncut, f.unrecorded, f.costPending]

/-- Sticky events bit map: section 12.5 gives these bits no places, and the model takes the order of R100's table, bit 0
for CART_LOW to bit 4 for DRY (log 53). -/
def Sticky.code (k : Sticky) : Nat := bitMap [k.cartLow, k.refillFail, k.leakSuspect, k.sensorFault, k.dry]

/-! ### Worked-out states -/

/-- The level condition of a level (R96). -/
def levelCond (p : InkProfile) (level : Nat) : LevelCond :=
  if p.start ≤ level then .normal else if p.floor ≤ level then .low else .dry

/-- The level for a mean of readings (R93). -/
def levelOf (p : InkProfile) (mean : Nat) : Nat :=
  if p.emptyAt < p.fullAt then
    (min mean p.fullAt - p.emptyAt) * 30000 / (p.fullAt - p.emptyAt)
  else (p.emptyAt - max mean p.fullAt) * 30000 / (p.emptyAt - p.fullAt)

/-- The CART_LOW condition (R99). -/
def Cartridge.isLow (c : Cartridge) : Bool := decide (c.remaining < c.capacity / 10)

/-- The holding condition of each sticky event (R100). -/
def Channel.holding (c : Channel) : Sticky where
  cartLow := (c.cart.map (·.isLow)).getD false
  refillFail := false
  leakSuspect := false
  sensorFault := c.fault
  dry := decide (c.cond = .dry)

/-- The sticky events that stay when the clear option is taken (R101). -/
def Channel.afterClear (c : Channel) : Sticky where
  cartLow := c.sticky.cartLow && c.holding.cartLow
  refillFail := c.sticky.refillFail && c.holding.refillFail
  leakSuspect := c.sticky.leakSuspect && c.holding.leakSuspect
  sensorFault := c.sticky.sensorFault && c.holding.sensorFault
  dry := c.sticky.dry && c.holding.dry

/-- The channel stands at floor + 1,000 µL or above without a sensor fault (R96, R132). -/
def Channel.returned (c : Channel) : Bool := !c.fault && decide (c.profile.floor + Config.returnMargin ≤ c.level)

/-- The drift state of a ring under limits (R157). -/
def driftOf (warn out : Nat) (ring : List Nat) : DriftState :=
  if ring.isEmpty then .unverified
  else if meanOf ring < warn then .verified else if meanOf ring < out then .warn else .out

/-- The state of a price slot as PRICE_STATUS reports it (R166). -/
inductive PriceState
  | empty | current | inUse | idle
deriving DecidableEq, Repr

def Cost.slotState (c : Cost) (p : PriceIx) : PriceState :=
  if c.slots[p].loaded.isNone then .empty
  else if c.current = some p then .current
  else if 0 < c.slots[p].refs then .inUse else .idle

/-- Why a channel is unavailable, or SHORT (R111). -/
inductive InkReason
  | notFitted | notDeclared | sensor | short
deriving DecidableEq, Repr

/-- The channel is unavailable whatever its availability figure (R110), with the reason of R111. -/
def Channel.unavailable (c : Channel) : Option InkReason :=
  if c.supply = .unfitted then some .notFitted
  else if c.supply = .undeclared then some .notDeclared
  else if c.fault then some .sensor else none

/-! ### Codes (section 12.5) -/

def ColourMode.code : ColourMode → Nat
  | .plain => 0
  | .check => 1
  | .critical => 2

def ColourMode.ofByte (b : Byte) : Option ColourMode :=
  if b = 0 then some .plain else if b = 1 then some .check else if b = 2 then some .critical else none

/-- A yes-or-no byte takes only 0 and 1 (R193). -/
def yesNoOf (b : Byte) : Option Bool := if b = 0 then some false else if b = 1 then some true else none

def Slot.code : Slot → Nat
  | .free => 0
  | .live _ => 1
  | .releasing _ _ => 2

def JobState.code : JobState → Nat
  | .pending => 0
  | .printing => 1
  | .suspended => 2
  | .aborting => 3
  | .checking => 4
  | .cutting => 5
  | .closing => 6

def outcomeCode : Option JobOutcome → Nat
  | none => 0
  | some .finished => 1
  | some .spoiled => 2
  | some .cancelled => 3

def causeCode : Option SpoilCause → Nat
  | none => 0
  | some .cancel => 1
  | some .dryout => 2
  | some .engineStall => 3
  | some .engineFault => 4
  | some .engineProtocol => 5
  | some .feedFault => 6
  | some .colourFail => 7
  | some .colourVoid => 8

/-- Strip verdict: `none` is no strip, `some none` not judged. -/
def verdictCode : Option (Option Verdict) → Nat
  | none => 0
  | some none => 1
  | some (some .pass) => 2
  | some (some .fail) => 3
  | some (some (.void _)) => 4

def voidCode : Option Verdict → Nat
  | some (.void .noMarks) => 1
  | some (.void .lostLock) => 2
  | some (.void .sensor) => 3
  | _ => 0

def EngineState.code : EngineState → Nat
  | .silent => 0
  | .ready => 1
  | .busy => 2
  | .fault => 3

/-- Codes that section 12.5 leaves to the order of the owning rule, counting from 0. -/
def EdState.code : EdState → Nat
  | .empty => 0
  | .opened => 1
  | .closed => 2
  | .lost => 3

def StoreState.code : StoreState → Nat
  | .mounting => 0
  | .ready => 1
  | .readOnly => 2

def Axis.code : Axis → Nat
  | .unreferenced => 0
  | .loading => 1
  | .idle => 2
  | .moving => 3
  | .reversing => 4
  | .knife => 5
  | .fault => 6

def RollState.code : RollState → Nat
  | .none => 0
  | .loaded => 1
  | .exhausted => 2

/-- Codes of choices that section 12.5 does not list and that are no states, such as this one, follow the order of their
rule from 0 too (log 67). -/
def Requester.code : Requester → Nat
  | .swath => 0
  | .strip => 1
  | .cut => 2
  | .backFeed => 3
  | .load => 4
  | .jog _ => 5

def MovePhase.code : MovePhase → Nat
  | .approach => 0
  | .settle => 1
  | .reverse => 2

def FaultKind.code : FaultKind → Nat
  | .stall => 0
  | .slip => 1
  | .mediaOut => 2
  | .overrun => 3
  | .knife => 4
  | .edgeNotFound => 5

def MediaEvent.code : MediaEvent → Nat
  | .none => 0
  | .cut _ => 1
  | .move => 2

def Supply.code : Supply → Nat
  | .unfitted => 0
  | .undeclared => 1
  | .ready => 2
  | .waiting => 3
  | .refilling => 4
  | .empty => 5

def LevelCond.code : LevelCond → Nat
  | .normal => 0
  | .low => 1
  | .dry => 2

def CheckState.code : CheckState → Nat
  | .idle => 0
  | .dwell => 1
  | .search => 2
  | .locked => 3

def DriftState.code : DriftState → Nat
  | .unverified => 0
  | .verified => 1
  | .warn => 2
  | .out => 3

def PriceState.code : PriceState → Nat
  | .empty => 0
  | .current => 1
  | .inUse => 2
  | .idle => 3

def PrintPhase.code : PrintPhase → Nat
  | .await => 0
  | .feed => 1
  | .held => 2
  | .ending => 3

/-- Code of a reason in R111's order (logs 48, 67). -/
def InkReason.code : InkReason → Nat
  | .notFitted => 0
  | .notDeclared => 1
  | .sensor => 2
  | .short => 3

/-- Role of a physical block in a report: 0 is unknown, before the headers have been read (log 25). -/
def Role.code : Role → Nat
  | .holds b => 1 + b
  | .spare => 5
  | .retired => 6

/-- Mark of a physical block in a report: 0 is unknown, before the headers have been read (log 25). -/
def Mark.code : Mark → Nat
  | .blank => 1
  | .writing => 2
  | .complete => 3
  | .retired => 4

/-- A dominant channel, 0xFF for none (R191). -/
def chanCode : Option Chan → Nat
  | none => 0xFF
  | some c => c

/-- A channel byte, 0 to 9. -/
def chanOf (b : Byte) : Option Chan := if h : b.toNat < 10 then some ⟨b.toNat, h⟩ else none

/-- The host link rate in baud (R179). -/
def baud (rate1 rate0 : Bool) : Nat :=
  match rate1, rate0 with
  | false, false => 115200
  | false, true => 230400
  | true, false => 460800
  | true, true => 921600

end Sys2Proof.Machine
end

