-- ==== Sys2Proof/Machine/Account.lean ====
section
/-!
DEFINITION. The ink account's operations (Ink Reservations and Consumption): job reports, overhead reports, the
leak check, and the judging of an estimate.
-/

namespace Sys2Proof.Machine

/-- A new entry of a job: from a pair of the estimate (R112), or outside it (R115) with reservation 0. -/
def InkEntry.fresh (c : Chan) (estimated : Bool) (nl : Nat) : InkEntry where
  chan := c
  estimated := estimated
  reservation := nl
  drawn := 0
  remaining := nl
  overdraw := 0
  drops := 0
  used := 0
  released := false

/-- The entries of an accepted job (R112). -/
def freshEntries (est : List (Chan × Nat)) : List InkEntry := est.map fun p => InkEntry.fresh p.1 true (p.2 * 1000)

/-- The used figure of a drop total (R114). -/
def usedNl (drops volume : Nat) : Nat := drops * volume / 1000

/-- One pair of a job report on its entry (R114, steps 1 to 3). -/
def InkEntry.debit (e : InkEntry) (count volume : Nat) : InkEntry :=
  let drops := sat32 (e.drops + count)
  let used := usedNl drops volume
  let rise := used - e.used
  let take := min rise e.remaining
  { e with drops := drops, used := used, remaining := e.remaining - take, drawn := e.drawn + take,
           overdraw := sat32 (e.overdraw + (rise - take)) }

/-- The entry list with an entry for a channel (R115). -/
def withEntry (c : Chan) (es : List InkEntry) : List InkEntry :=
  if es.any fun e => e.chan == c then es else es ++ [InkEntry.fresh c false 0]

/-- The used figure of a channel in an entry list. -/
def usedOn (c : Chan) (es : List InkEntry) : Nat := ((es.find? fun e => e.chan == c).map (·.used)).getD 0

/-- One pair of a job report on the entry list (R114, R115). -/
def debitEntries (es : List InkEntry) (c : Chan) (count volume : Nat) : List InkEntry :=
  (withEntry c es).map fun e => if e.chan = c then e.debit count volume else e

/-- Use since refill rises (R116). -/
def Account.addUse (c : Chan) (nl : Nat) (a : Account) : Account :=
  { a with use := modifyAt a.use c fun u => sat32 (u + nl) }

/-- One pair of a job report (R114). -/
def debitPair (i : JobIx) (s : State) (p : Chan × Nat) : State :=
  match s.liveJob i with
  | some j =>
    let es := debitEntries j.ink p.1 p.2 s.ink.chans[p.1].profile.drop
    (setJob i (fun j => { j with ink := es }) s).mapAcct
      (Account.addUse p.1 (usedOn p.1 es - usedOn p.1 j.ink))
  | none => s

/-- The sum of a job's overdraws. -/
def overdrawOf (es : List InkEntry) : Nat := (es.map (·.overdraw)).sum

/-- A pair with drops names a channel outside a job's estimate (R115). -/
def Job.printsOutside (j : Job) (drops : List (Chan × Nat)) : Bool :=
  drops.any fun p => decide (0 < p.2) && !j.est.any fun q => q.1 == p.1

/-- A job report (R113 to R115): every pair in turn, then OVERDRAW when an overdraw has risen, or when a pair with drops
names a channel outside the estimate, however few nL its drops come to. -/
def jobReport (i : JobIx) (drops : List (Chan × Nat)) (s : State) : State :=
  let t := drops.foldl (debitPair i) s
  match s.liveJob i, t.liveJob i with
  | some j, some k =>
    if (overdrawOf j.ink < overdrawOf k.ink ∨ j.printsOutside drops = true) ∧ k.flags.overdraw = false then
      changeJob i (fun j => { j with flags := { j.flags with overdraw := true } }) t
    else t
  | _, _ => t

/-- One pair of an overhead report (R117). -/
def overheadPair (s : State) (p : Chan × Nat) : State :=
  let pl := p.2 * s.ink.chans[p.1].profile.drop + s.acct.carry[p.1]
  let nl := pl / 1000
  (s.mapAcct fun a => ({ a with carry := a.carry.set p.1 (pl % 1000) }).addUse p.1 nl).mapCost fun k =>
    { k with overhead := { k.overhead with maint := modifyAt k.overhead.maint p.1 fun m => sat32 (m + nl) } }

/-- An overhead report (R117). -/
def overheadDrops (drops : List (Chan × Nat)) (s : State) : State := drops.foldl overheadPair s

/-- The leak check on a channel (R118), from the channel's levels at refill begin and at last refill end. -/
def leakCheck (c : Chan) (s : State) : State :=
  let ch := s.ink.chans[c]
  let expected : Int := s.acct.useBegin[c] / 1000
  let excess : Int := (ch.levelEnd : Int) - ch.levelBegin - expected
  let s :=
    if Config.leakSlack < excess then
      (setChan c (fun x => { x with sticky := { x.sticky with leakSuspect := true } }) s).mapCost fun k =>
        { k with overhead :=
            { k.overhead with
              unaccounted := modifyAt k.overhead.unaccounted c fun m => sat32 (m + excess.toNat * 1000) } }
    else s
  s.mapAcct fun a => { a with use := a.use.set c 0 }

/-- Why an estimate pair fails step 8 (R111), with the availability worked out for the check. -/
def judgePair (s : State) (p : Chan × Nat) : Option (Chan × InkReason × Int) :=
  match s.ink.chans[p.1].unavailable with
  | some r => some (p.1, r, 0)
  | none =>
    let a := s.availability p.1
    if a < p.2 then some (p.1, .short, a) else none

/-- The failing pairs of an estimate in ascending channel order (R111). -/
def judgeEstimate (s : State) (est : List (Chan × Nat)) : List (Chan × InkReason × Int) :=
  (List.finRange 10).filterMap fun c => (est.find? fun p => p.1 == c).bind (judgePair s)

/-- Release a job's reservations at closing (R119). -/
def releaseInk (es : List InkEntry) : List InkEntry :=
  es.map fun e => if e.estimated then { e with released := true } else e

end Sys2Proof.Machine
end

