-- ==== Sys2Proof/Machine/Media.lean ====
section
/-!
DEFINITION. Media reservations (section 4.5): the planned reservation, the hold rule, the retry, and what a fall
of the remaining length draws from the job on the media path.
-/

namespace Sys2Proof.Machine

/-- The last offset of a cut plan, mm. -/
def lastOffset (cuts : List Nat) : Nat := cuts.getLast?.getD 0

/-- A strip's length in mm (section 1.2). -/
def Geometry.length (g : Geometry) : Nat := (g.m + g.t) * g.pitch

/-- The planned reservation (R85). -/
def plannedFor (f : Feed) (cuts : List Nat) (stripLen : Nat) : Nat := lastOffset cuts + f.profile.lead + stripLen

/-- A PENDING job that holds a media reservation. -/
def Job.reserves (j : Job) : Bool := decide (j.state = .pending) && decide (0 < j.mediaRes)

/-- A PENDING job gives its reservation up and is held NO_MEDIA (R86, R10). -/
def holdMedia (i : JobIx) (s : State) : State :=
  changeJob i (fun j => { j with mediaRes := 0, holds := { j.holds with noMedia := true } }) s

/-- One job of the hold rule, newest first: held while the reserved length exceeds the remaining length. -/
def holdStep (s : State) (i : JobIx) : State :=
  match s.liveJob i with
  | some j => if s.feed.roll.remaining < s.reserved ∧ j.reserves = true then holdMedia i s else s
  | none => s

/-- The job on the media path has its reservation lowered to the remaining length (R86). -/
def lowerPath (s : State) : State :=
  match s.pathJob with
  | some (i, _) =>
    let r := s.feed.roll.remaining
    if r < s.reserved then setJob i (fun j => { j with mediaRes := r, planned := r + j.drawn }) s else s
  | none => s

/-- The hold rule (R86). -/
def holdRule (s : State) : State := lowerPath (s.jobs.order.reverse.foldl holdStep s)

/-- One job of the retry (R87). -/
def retryStep (s : State) (i : JobIx) : State :=
  match s.liveJob i with
  | some j =>
    let planned := plannedFor s.feed j.cuts ((j.strip.map (·.length)).getD 0)
    if j.state = .pending ∧ j.holds.noMedia = true ∧ planned + s.reserved ≤ s.feed.roll.remaining then
      changeJob i (fun j =>
        { j with mediaRes := planned, planned := planned, drawn := 0, holds := { j.holds with noMedia := false } }) s
    else s
  | none => s

/-- The retry (R87): held jobs, oldest first, while a roll is LOADED. -/
def retryMedia (s : State) : State :=
  if s.feed.roll.state = .loaded then s.jobs.order.foldl retryStep s else s

/-- The remaining length has fallen by `mm`: the job on the media path draws it (R85), and the hold rule
answers. -/
def mediaFell (mm : Nat) (s : State) : State :=
  if mm = 0 then s
  else
    holdRule
      (match s.pathJob with
       | some (i, _) =>
         setJob i (fun j => { j with drawn := j.drawn + mm, mediaRes := j.planned - (j.drawn + mm) }) s
       | none => s)

/-- Media out (R88): the roll is EXHAUSTED and every reservation is given up. -/
def mediaOut (s : State) : State :=
  let s := s.mapFeed fun f => { f with roll := { f.roll with state := .exhausted } }
  let s :=
    match s.pathJob with
    | some (i, _) => setJob i (fun j => { j with mediaRes := 0 }) s
    | none => s
  holdRule s

end Sys2Proof.Machine
end

