-- ==== Sys2Proof/Machine/Axis.lean ====
section
/-!
DEFINITION. The feed axis by itself (The Feed Axis): drive outputs and their windows, the beginning of a move, and
what one count does to the move under way. Hand-offs to the requesters stand in Course.lean.
-/

namespace Sys2Proof.Machine

/-! ### Drive outputs (R54, R66) -/

/-- The drive is backward. -/
def Drive.isRev : Drive → Bool
  | .rev => true
  | _ => false

/-- Change the drive outputs in one event: a window begins from all outputs off and at a change of direction,
runs on between fast and slow, and is abandoned when all turn off (R66). -/
def Feed.driveTo (d : Drive) (f : Feed) : Feed :=
  if d = .off then { f with drive := .off, window := none }
  else if f.drive = .off ∨ f.drive.isRev ≠ d.isRev then
    { f with drive := d, window := some { net := 0, left := Config.stallMs } }
  else { f with drive := d }

/-- The output of an approach by zone (R61). -/
def Feed.zoneDrive (f : Feed) (target : Int) : Drive :=
  if 100 * (f.profile.slow : Int) < target - f.position then .fast else .slow

/-- The lower end of a target's window (R60). -/
def Feed.windowLow (f : Feed) (target : Int) : Int := target - f.profile.window
/-- The upper end of a target's window (R60). -/
def Feed.windowHigh (f : Feed) (target : Int) : Int := target + f.profile.window

/-- The axis state during a leg: a load's legs stay LOADING (R53). -/
def Feed.legState (f : Feed) (a : Axis) : Axis := if f.axis = .loading then .loading else a

/-! ### Moves (R59, R60) -/

/-- What becomes of a requested move: refused, completed at once, or under way. -/
inductive MoveStart
  | refused | done | begun
deriving DecidableEq, Repr

/-- A taken move begins (R60, R64). An end point below the counter's range is kept as the exact number, which the counter
does not reach (log 45). -/
def Feed.beginMove (target : Int) (r : Requester) (f : Feed) : Feed × MoveStart :=
  if f.windowLow target ≤ f.position ∧ f.position ≤ f.windowHigh target then
    ({ (f.driveTo .off) with rest := some target }, .done)
  else if f.position < f.windowLow target then
    ({ (f.driveTo (f.zoneDrive target)) with
        axis := f.legState .moving
        move := some { target := target, by_ := r, phase := .approach, reversalUsed := false, endPoint := none } },
      .begun)
  else
    ({ (f.driveTo .rev) with
        axis := f.legState .reversing
        move := some { target := target, by_ := r, phase := .reverse, reversalUsed := false,
                       endPoint := some (target - 100 * (f.profile.backoff : Int)) } },
      .begun)

/-- A move is taken in IDLE, and in LOADING for the load's legs; its target lies in the counter's range (R59). -/
def Feed.takesMove (target : Int) (r : Requester) (f : Feed) : Bool :=
  inCounterRange target && (f.axis == .idle || (f.axis == .loading && r == .load))

/-- Ask the feed controller for a move (R59). -/
def requestMove (target : Int) (r : Requester) (s : State) : State × MoveStart :=
  if s.feed.takesMove target r then
    let x := s.feed.beginMove target r
    (s.mapFeed fun _ => x.1, x.2)
  else (s, .refused)

/-! ### Counts (R61 to R63) -/

/-- What a count or a change has led to. -/
inductive CountEvent
  | none
  | overrun
deriving DecidableEq, Repr

/-- An overrun (R63): one recovery leg, where the profile and the move's record allow it; its end point is kept as in
beginMove (log 45). -/
def Feed.overrun (m : Move) (f : Feed) : Feed × CountEvent :=
  if f.profile.reversal ∧ m.reversalUsed = false then
    ({ (f.driveTo .rev) with
        axis := f.legState .reversing, settleLeft := Option.none
        move := some { m with phase := .reverse, reversalUsed := true,
                              endPoint := some (m.target - 100 * (f.profile.backoff : Int)) } }, .none)
  else (f, .overrun)

/-- The position enters the window: outputs off, settle timer from now (R61, R62). -/
def Feed.enterWindow (m : Move) (f : Feed) : Feed :=
  { (f.driveTo .off) with move := some { m with phase := .settle }, settleLeft := some f.profile.settle }

/-- The forward approach of a move begins, at a reverse leg's end or when a settle falls back (R62, R63). -/
def Feed.approach (m : Move) (d : Drive) (f : Feed) : Feed :=
  { (f.driveTo d) with axis := f.legState .moving, settleLeft := Option.none,
                       move := some { m with phase := .approach, endPoint := Option.none } }

/-- One count judged by the move under way (R61, R62, R63). -/
def Feed.moveCount (m : Move) (f : Feed) : Feed × CountEvent :=
  match m.phase with
  | .reverse =>
    match m.endPoint with
    | some e => if f.position ≤ e then (f.approach m .fast, .none) else (f, .none)
    | none => (f, .none)
  | .approach =>
    if f.windowHigh m.target < f.position then f.overrun m
    else if f.windowLow m.target ≤ f.position then (f.enterWindow m, .none)
    else (f.driveTo (f.zoneDrive m.target), .none)
  | .settle =>
    if f.windowHigh m.target < f.position then f.overrun m
    else if f.position < f.windowLow m.target then (f.approach m .slow, .none)
    else (f, .none)

/-- The slip rule (R67): an IDLE axis outside the tolerance of its rest target. -/
def Feed.slipped (f : Feed) : Bool :=
  f.axis == .idle &&
    match f.rest with
    | some r => decide (f.position < r - f.profile.slip ∨ r + f.profile.slip < f.position)
    | none => false

/-! ### Encoder (R55) -/

/-- Place of a combination of ENC_A and ENC_B in the forward cycle. -/
def encPlace : Bool → Bool → Nat
  | false, false => 0
  | true, false => 1
  | true, true => 2
  | false, true => 3

/-- The count that a change of the inputs gives: 1 forward, −1 backward, 0 not counted (R55). -/
def encStep (invert a b a' b' : Bool) : Int :=
  let d := (encPlace a' b' + 4 - encPlace a b) % 4
  let raw : Int := if d = 1 then 1 else if d = 3 then -1 else 0
  if invert then -raw else raw

/-- A count reaches the position, the consumed count and the drive window (R55, R66). -/
def Feed.count (d : Int) (f : Feed) : Feed :=
  { f with
    pos := f.pos + BitVec.ofInt 32 d
    roll := { f.roll with consumed := f.roll.consumed + d, reach := max f.roll.reach (f.roll.consumed + d) }
    window := f.window.map fun w => { w with net := w.net + (if f.drive.isRev then -d else d) } }

/-! ### Edge and knife -/

/-- A forward approach is under way (R68): MOVING, or a forward leg of a load, its settle phase included
(log 19). -/
def Feed.forwardApproach (f : Feed) : Bool :=
  match f.move with
  | some m => (f.axis == .moving || f.axis == .loading) && (m.phase == .approach || m.phase == .settle)
  | none => false

/-- Every output off (R54). -/
def Feed.outputsOff (f : Feed) : Feed := { (f.driveTo .off) with knife := false }

/-- The axis enters FAULT (R69): outputs off, the record set, no longer referenced, the move discarded. -/
def Feed.enterFault (k : FaultKind) (f : Feed) : Feed :=
  { f.outputsOff with
    fault := some { kind := k, axis := f.axis, pos := f.position }
    axis := .fault, referenced := false, move := none, settleLeft := none, knifeCycle := none, load := none,
    rest := none }

/-- The reach and the last media event at the completion of a knife cycle (R73, R74, R81). -/
def Feed.cutMade (f : Feed) : Feed :=
  { f with knife := false, knifeCycle := none,
           roll := { f.roll with reach := f.roll.consumed, lastEvent := .cut f.position } }

/-- A piece measured from the piece base (R84); a negative result counts as 0. -/
def Feed.pieceTo (f : Feed) (p : Int) : Nat := (p - f.roll.pieceBase.getD 0).toNat

end Sys2Proof.Machine
end

