-- ==== Sys2Proof/Machine/Costing.lean ====
section
/-!
DEFINITION. The cost unit's shared operations (Costing): pricing, the cost log, the pending list, and the
departure of a closing job, which waits for its record (R22, R172).
-/

namespace Sys2Proof.Machine

/-- Cost of an ink amount in nL at an ink price (R171). -/
def inkPrice (nl price : Nat) : Nat := nl * price / 10000000

/-- Cost of a length of media in counts at a media price (R171). -/
def mediaPrice (counts price : Nat) : Nat := counts * price / 100000

/-- The ink list of a job: its used channels in ascending order with their used figures (R120). -/
def Job.inkList (j : Job) : List (Chan × Nat) :=
  (List.finRange 10).filterMap fun c =>
    (j.ink.find? fun e => e.chan == c && decide (0 < e.drops)).map fun e => (c, e.used)

/-- The prices of a job's slot; all 0 if the slot held none, which R167 keeps from happening. -/
def Cost.pricesOf (k : Cost) (p : PriceIx) : Prices :=
  ((k.slots[p].loaded).map (·.2)).getD { ink := Vector.replicate 10 0, media := Vector.replicate 8 0, cut := 0 }

/-- The cost record of a job with its piece (R170, R171). -/
def costRecord (s : State) (j : Job) (piece : Nat) : CostRecord :=
  let p := s.cost.pricesOf j.priceSlot
  let ink := j.inkList
  let inkCost := sat32 (ink.map fun q => inkPrice q.2 p.ink[q.1]).sum
  let mediaCost := sat32 (mediaPrice piece p.media[s.feed.roll.mediaType])
  let cutCost := sat32 (j.cutsDone * p.cut)
  { tag := j.tag, outcome := j.outcome, cause := j.cause,
    edition := (j.edition.map (·.id)).getD 0, copy := (j.edition.map (·.copy)).getD 0, commitGen := j.commitGen,
    priceGen := s.cost.generation j.priceSlot,
    ink := ink, mediaType := s.feed.roll.mediaType, piece := piece, cuts := j.cutsDone,
    strip := j.strip.map fun x => (x.length, x.verdict), flags := { j.flags with costPending := false },
    inkCost := inkCost, mediaCost := mediaCost, cutCost := cutCost, total := sat32 (inkCost + mediaCost + cutCost) }

/-- A record enters the end of the log; the notice is queued at or above the critical level (R174). -/
def logRecord (r : CostRecord) (s : State) : State :=
  let s := s.mapCost fun k => { k with log := k.log ++ [r] }
  if s.cost.critical ≤ s.cost.log.length then notify .costLog s else s

/-- Drop one reference to a price slot (R167). -/
def Cost.dropRef (p : PriceIx) (k : Cost) : Cost :=
  { k with slots := modifyAt k.slots p fun x => { x with refs := x.refs - 1 } }

/-- A job in CLOSING whose record is in the log and whose commit is settled leaves the table (R22); its slot keeps the
final record (R25). -/
def departIfReady (i : JobIx) (s : State) : State :=
  match s.liveJob i with
  | some j =>
    if j.state = .closing ∧ j.costIn = true ∧ j.commitOpen = false then
      notify (.jobSlot i)
        ((s.mapJobs fun t =>
            { t with slots := t.slots.set i (.releasing { j with ink := [] } (s.cost.generation j.priceSlot)),
                     order := t.order.erase i }).mapCost
          (Cost.dropRef j.priceSlot))
    else s
  | none => s

/-- A built record goes into the log, or on the pending list with COST_PENDING set (R172). -/
def fileRecord (i : JobIx) (r : CostRecord) (s : State) : State :=
  if s.cost.log.length < Config.costLogSize ∧ s.cost.waiting = [] then
    setJob i (fun j => { j with costIn := true }) (logRecord r s)
  else
    changeJob i (fun j => { j with flags := { j.flags with costPending := true } })
      (s.mapCost fun k => { k with waiting := k.waiting ++ [r] })

/-- The first pending record enters the log after a removal; its job may leave (R172). -/
def enterWaiting (s : State) : State :=
  match s.cost.waiting with
  | [] => s
  | r :: rest =>
    let s := logRecord r (s.mapCost fun k => { k with waiting := rest })
    match s.jobByTag r.tag with
    | some (i, _) =>
      departIfReady i
        (changeJob i (fun j => { j with costIn := true, flags := { j.flags with costPending := false } }) s)
    | none => s

/-- Set UNRECORDED in the last record with a tag (R175). -/
def markLast (tag : Nat) (rs : List CostRecord) : List CostRecord :=
  let k := (rs.reverse.takeWhile fun r => r.tag != tag).length
  rs.zipIdx.map fun p =>
    if p.2 + k + 1 = rs.length then { p.1 with flags := { p.1.flags with unrecorded := true } } else p.1

/-- The failure of a commit reaches the job's record where it is still held (R175). A job whose record is not
built yet has none to mark. -/
def markUnrecorded (j : Job) (k : Cost) : Cost :=
  if j.flags.costPending then { k with waiting := markLast j.tag k.waiting }
  else if j.costIn then { k with log := markLast j.tag k.log }
  else k

end Sys2Proof.Machine
end

