-- ==== Sys2Proof/Machine/Store.lean ====
section
/-!
DEFINITION. The edition controller's shared operations (Editions and the Edition Store): image changes,
rotations, retirement, the failure of the store, and the settling of commits.
-/

namespace Sys2Proof.Machine

/-! ### Pieces of the store -/

/-- The images of a logical block's 16 slots. -/
def Editions.blockImages (d : Editions) (b : LBlock) : Vector EdImage 16 :=
  Vector.ofFn fun k : Fin 16 => d.image[16 * b.val + k.val]'(by omega)

/-- The table with 16 images put in a logical block's place. -/
def Editions.loadBlock (d : Editions) (b : LBlock) (v : Vector EdImage 16) : Editions :=
  { d with image := Vector.ofFn fun e : Fin 64 =>
      if e.val / 16 = b.val then v[e.val % 16]'(by omega) else d.image[e] }

/-- The spare of a list of blocks with the lowest erase count, the lowest number first (R41). -/
def lowestSpare (d : Editions) : List PBlock → Option PBlock
  | [] => none
  | p :: ps =>
    match lowestSpare d ps with
    | some q => if d.table[q].erases < d.table[p].erases then some q else some p
    | none => some p

/-- The spare that a rotation chooses (R41). -/
def Editions.chooseSpare (d : Editions) : Option PBlock := lowestSpare d (d.blocksWhere Role.isSpare)

/-- Give a block up (R37): RETIRED in the volatile table, and in its header when the mark programs. The mark that R51
reports for it is RETIRED also where the mark has failed to program (log 41). -/
def Editions.retire (p : PBlock) (mark : Bool) (d : Editions) : Editions :=
  { d with
    table := modifyAt d.table p fun r => { r with role := .retired, mark := .retired }
    flash := if mark then modifyAt d.flash p fun b => { b with mark := .retired } else d.flash }

/-- The store may rotate: READY, or MOUNTING during a format (R41). -/
def Editions.mayRotate (d : Editions) : Bool := decide (d.store = .ready) || d.formatting

/-! ### Failure and settling -/

/-- A CLOSING job waits for a commit on a logical block that `p` judges by its commit generation. -/
def State.waitsCommit (s : State) (i : JobIx) (p : LBlock → Nat → Bool) : Option Job :=
  (s.liveJob i).bind fun j =>
    match j.edition, j.commitGen with
    | some e, some g => if j.state = .closing ∧ j.commitOpen = true ∧ p (blockOf e.slot) g = true then some j else none
    | _, _ => none

/-- Move a number out of an edition's issued set into its issued-unrecorded set, where the edition still
stands (R32). -/
def Editions.unrecord (id copy : Nat) (d : Editions) : Editions :=
  match d.slotOf id with
  | some e =>
    { d with image := modifyAt d.image e fun m => { m with issued := m.issued.erase copy },
             unrec := modifyAt d.unrec e (insertNum copy) }
  | none => d

/-- The store fails the commit that a job waits for (R32, R44, R175). -/
def failCommit (s : State) (i : JobIx) : State :=
  match s.waitsCommit i (fun b g => decide (s.ed.persisted[b] < g)) with
  | some j =>
    let s := (s.mapEd ((j.edition.map fun e => Editions.unrecord e.id e.copy).getD id)).mapCost (markUnrecorded j)
    departIfReady i
      (changeJob i (fun j => { j with commitOpen := false, flags := { j.flags with unrecorded := true } }) s)
  | none => s

/-- The store fails (R44). -/
def storeFail (s : State) : State :=
  let s := s.mapEd fun d =>
    { d with store := .readOnly, rot := none, writes := [], removals := [], formatting := false }
  notify .store (s.jobs.order.foldl failCommit s)

/-- Report a commit persisted (R32). -/
def settleCommit (b : LBlock) (s : State) (i : JobIx) : State :=
  match s.waitsCommit i (fun b' g => b' == b && decide (g ≤ s.ed.persisted[b])) with
  | some _ => departIfReady i (setJob i (fun j => { j with commitOpen := false }) s)
  | none => s

/-- Report every commit persisted that a logical block's persisted generation has reached (R32). -/
def settleCommits (b : LBlock) (s : State) : State := s.jobs.order.foldl (settleCommit b) s

/-! ### Rotations (R41 to R43) -/

/-- Choose a spare for captured images and begin its erase (R41, R42), or fail the store (R44). -/
def beginWrite (b : LBlock) (images : Vector EdImage 16) (gen : Nat) (s : State) : State :=
  match s.ed.chooseSpare with
  | some p =>
    s.mapEd fun d =>
      { d with
        table := modifyAt d.table p fun r => { r with erases := r.erases + 1, mark := .blank }
        flash := d.flash.set p FlashBlock.erased
        rot := some { block := b, phys := p, images := images, gen := gen, phase := .erasing,
                      left := Config.eraseMs } }
  | none => storeFail s

/-- Begin the next rotation where R41's conditions hold. -/
def beginRotation (s : State) : State :=
  if s.ed.mayRotate ∧ s.ed.rot = none then
    match s.ed.writes with
    | [] => s
    | b :: rest =>
      beginWrite b (s.ed.blockImages b) s.ed.change[b] (s.mapEd fun d => { d with writes := rest })
  else s

/-- A failed verify: the block is retired and the rotation chooses again (R43). Where its RETIRED mark fails too, the
block keeps the header that was being written, readable as WRITING (log 42). -/
def verifyFail (r : Rotation) (mark : Bool) (s : State) : State :=
  beginWrite r.block r.images r.gen (notify .store (s.mapEd (Editions.retire r.phys mark)))

/-- The erase verified: the header takes the next sequence number and programming begins (R42). -/
def beginProgram (r : Rotation) (d : Editions) : Editions :=
  { d with
    seqCounter := d.seqCounter + 1
    table := modifyAt d.table r.phys fun x => { x with mark := .writing }
    flash := d.flash.set r.phys
      { mark := .writing, role := some r.block, seq := some (d.seqCounter + 1),
        erases := some d.table[r.phys].erases, images := r.images }
    rot := some { r with phase := .programming, left := Config.programMs } }

/-- Release the former role blocks of a logical block: spare below 10,000 erases, else retired (R42). -/
def Editions.releaseFormer (b : LBlock) (mark : Bool) (d : Editions) : Editions :=
  (d.blocksWhere fun r => r == .holds b).foldl
    (fun d p =>
      if d.table[p].erases < Config.eraseLimit then
        { d with table := modifyAt d.table p fun r => { r with role := .spare } }
      else d.retire p mark) d

/-- The written block takes the role and its generation is persisted (R42); removals it carried no longer
wait (R35). -/
def Editions.takeRole (r : Rotation) (mark : Bool) (d : Editions) : Editions :=
  let d := d.releaseFormer r.block mark
  { d with
    table := modifyAt d.table r.phys fun x => { x with role := .holds r.block, mark := .complete }
    flash := modifyAt d.flash r.phys fun x => { x with mark := .complete }
    persisted := d.persisted.set r.block r.gen
    removals := d.removals.filter fun x => !(x.block == r.block && decide (x.gen ≤ r.gen))
    rot := none }

/-- The state a mount ends in (R38): READY while a spare remains. A format ends with its fourth rotation. -/
def Editions.endFormat (d : Editions) : Editions :=
  if d.formatting ∧ d.writes = [] then
    { d with formatting := false, store := if d.chooseSpare.isSome then .ready else .readOnly }
  else d

/-- The completion of a rotation (R42). -/
def completeRotation (r : Rotation) (mark : Bool) (s : State) : State :=
  beginRotation
    ((notify .store (settleCommits r.block (s.mapEd (Editions.takeRole r mark)))).mapEd Editions.endFormat)

/-- An erase ends with its verify (R42, R43); without an erase under way nothing happens (log 2). -/
def eraseEnded (verified mark : Bool) (s : State) : State :=
  match s.ed.rot with
  | some r =>
    if r.phase = .erasing then (if verified then s.mapEd (beginProgram r) else verifyFail r mark s) else s
  | none => s

/-- A programming ends with its verify (R42, R43); without one under way nothing happens (log 2). -/
def programEnded (verified mark : Bool) (s : State) : State :=
  match s.ed.rot with
  | some r =>
    if r.phase = .programming then (if verified then completeRotation r mark s else verifyFail r mark s) else s
  | none => s

/-! ### Image changes -/

/-- An image change in READY: the change generation rises and the block joins the pending-write list
(R39, R40). -/
def Editions.imageChange (b : LBlock) (d : Editions) : Editions :=
  { d with change := modifyAt d.change b (· + 1), writes := if b ∈ d.writes then d.writes else d.writes ++ [b] }

/-- A change of one slot's image by a request or a commit (section 2.3), with the rotation that may begin. -/
def changeSlot (e : EdIx) (f : EdImage → EdImage) (s : State) : State :=
  beginRotation (s.mapEd fun d => ({ d with image := modifyAt d.image e f }).imageChange (blockOf e))

/-! ### Copy numbers (R29, R30) -/

/-- Reserve a number of an edition slot. -/
def Editions.reserve (e : EdIx) (k : Nat) (d : Editions) : Editions :=
  { d with resv := modifyAt d.resv e (insertNum k) }

/-- Give a number back: it leaves the reservation set of its edition (R30). -/
def Editions.giveBack (x : JobEdition) (d : Editions) : Editions :=
  { d with resv := modifyAt d.resv x.slot (·.erase x.copy) }

/-- The commit of a finished copy (R31, step 3 of R21). The job's record of it is set before the rotation
begins, since that rotation may fail the store. -/
def commitCopy (i : JobIx) (s : State) : State :=
  match s.liveJob i with
  | some j =>
    match j.edition, j.outcome with
    | some x, some .finished =>
      let s := s.mapEd (Editions.giveBack x)
      if s.ed.store = .readOnly then
        changeJob i (fun j => { j with flags := { j.flags with unrecorded := true } })
          (s.mapEd fun d => { d with unrec := modifyAt d.unrec x.slot (insertNum x.copy) })
      else
        let s := s.mapEd fun d =>
          ({ d with image := modifyAt d.image x.slot fun m => { m with issued := insertNum x.copy m.issued } }).imageChange
            (blockOf x.slot)
        beginRotation
          (setJob i (fun j => { j with commitGen := some s.ed.change[blockOf x.slot], commitOpen := true }) s)
    | _, _ => s
  | none => s

/-! ### Mount (R46 to R48) -/

/-- The highest of a list of readable numbers, 0 when there is none. -/
def highest (xs : List (Option Nat)) : Nat := (xs.filterMap id).foldl max 0

/-- The erase count a physical block has at mount (R46). -/
def mountErases (flash : Vector FlashBlock 6) (p : PBlock) : Nat :=
  match flash[p].erases with
  | some n => n
  | none =>
    match flash[p].mark with
    | .retired => Config.retiredCount p
    | _ => highest (flash.toList.map (·.erases))

/-- The winning COMPLETE block of a logical block: the highest sequence number (R47). -/
def winner (flash : Vector FlashBlock 6) (b : LBlock) : Option PBlock :=
  ((List.finRange 6).filter fun p => decide (flash[p].mark = .complete) && flash[p].role == some b).foldl
    (fun best p =>
      match best with
      | none => some p
      | some q => if flash[q].seq.getD 0 < flash[p].seq.getD 0 then some p else some q) none

/-- The role a physical block takes at mount (R46, R47). -/
def mountRole (flash : Vector FlashBlock 6) (p : PBlock) : Role :=
  if flash[p].mark = .retired then .retired
  else match flash[p].role with
    | some b => if winner flash b = some p then .holds b else .spare
    | none => .spare

/-- The volatile table as the headers give it (R46, R47). -/
def Editions.readHeaders (d : Editions) : Editions :=
  { d with
    headersRead := true
    table := Vector.ofFn fun p => { role := mountRole d.flash p, erases := mountErases d.flash p,
                                    mark := d.flash[p].mark }
    seqCounter := highest (d.flash.toList.map (·.seq)) }

/-- Spares worn out are retired at mount (R37). -/
def Editions.retireWorn (marks : Vector Bool 6) (d : Editions) : Editions :=
  ((d.blocksWhere Role.isSpare).filter fun p => decide (Config.eraseLimit ≤ d.table[p].erases)).foldl
    (fun d p => d.retire p marks[p]) d

/-- One logical block as mount reads it: its winning copy, or 16 LOST slots (R47, R48). -/
def Editions.loadBest (d : Editions) (b : LBlock) : Editions :=
  match winner d.flash b with
  | some p => d.loadBlock b d.flash[p].images
  | none => (d.loadBlock b (Vector.replicate 16 EdImage.lostSlot)).imageChange b

/-- The images of every logical block as mount reads them (R47, R48). -/
def Editions.loadImages (d : Editions) : Editions := (List.finRange 4).foldl Editions.loadBest d

/-- A fresh store: every slot EMPTY and all four blocks to be written (R46). -/
def Editions.format (d : Editions) : Editions :=
  { d with image := Vector.replicate 64 EdImage.emptySlot, change := Vector.replicate 4 1,
           persisted := Vector.replicate 4 0, writes := List.finRange 4, formatting := true }

/-- The end of a mount by reading (R48). -/
def Editions.endMount (d : Editions) : Editions :=
  if d.chooseSpare.isSome then { d with store := .ready } else { d with store := .readOnly, writes := [] }

/-- The header reading ends: a mount by reading, or a format (R46 to R48). -/
def mountHeaders (marks : Vector Bool 6) (s : State) : State :=
  let d := s.ed.readHeaders.retireWorn marks
  if s.ed.flash.toList.any fun b => decide (b.mark = .complete) then
    beginRotation (notify .store (s.mapEd fun _ => d.loadImages.endMount))
  else
    let s' := s.mapEd fun _ => d.format
    beginRotation (if d.table = s.ed.readHeaders.table then s' else notify .store s')

end Sys2Proof.Machine
end

