-- ==== Sys2Proof/Machine/Course.lean ====
section
/-!
DEFINITION. The course of a job through the blocks: outcomes, starting, closing, feed faults, cutting and
the spoil path (Jobs and the Print Queue; Roll, Knife and Cut Plans).
-/

namespace Sys2Proof.Machine

/-! ### Outcome and state -/

/-- The outcome is decided once; a job that is SPOILED or CANCELLED gives its number back (R4, R30). -/
def decideOutcome (i : JobIx) (o : JobOutcome) (c : Option SpoilCause) (s : State) : State :=
  match s.liveJob i with
  | some j =>
    if j.outcome.isSome then s
    else
      let s := changeJob i (fun j => { j with outcome := some o, cause := c }) s
      match o, j.edition with
      | .finished, _ => s
      | _, some x => s.mapEd (Editions.giveBack x)
      | _, none => s
  | none => s

/-- The job keeps its swath target in these states (R65). -/
def JobState.keepsSwathTarget : JobState → Bool
  | .printing | .suspended | .aborting => true
  | _ => false

/-- A job leaves PRINTING, SUSPENDED and ABORTING by a change to `st`. -/
def State.leavesEngine (s : State) (i : JobIx) (st : JobState) : Bool :=
  !st.keepsSwathTarget && ((s.liveJob i).map (·.state.keepsSwathTarget)).getD false

/-- A change of job state; the swath target goes when the job it is kept for leaves the engine's part (R65). -/
def setJobState (i : JobIx) (st : JobState) (s : State) : State :=
  changeJob i (fun j => { j with state := st })
    (if s.leavesEngine i st then s.mapFeed fun f => { f with swathTarget := none } else s)

/-- Change the print context. -/
def mapContext (f : PrintContext → PrintContext) (s : State) : State :=
  s.mapEng fun e => { e with ctx := e.ctx.map f }

/-- Discard the print context with its timers (R127). -/
def dropContext (s : State) : State := s.mapEng fun e => { e with ctx := none }

/-- A job enters ABORTING (R134). -/
def enterAborting (i : JobIx) (s : State) : State :=
  match s.eng.ctx with
  | some x =>
    setJobState i .aborting
      (mapContext (fun x => { x with phase := .ending, inFeed := none, dryTimer := none,
                                     swathTimer := some Config.swathMs, endingSwath := false })
        (sendEngine (.abort x.tag) s))
  | none => s

/-! ### Starting (R11, R12) -/

/-- The table indices of a strip's patches in strip order (R144). -/
def Geometry.order (g : Geometry) : List Nat := (List.range g.t).map fun i => (g.seed + i * g.stride) % g.t

/-- A job in its starting phase returns to PENDING with its planned reservation (R13, log 23). -/
def returnPending (i : JobIx) (s : State) : State :=
  holdRule (changeJob i (fun j => { j with state := .pending, mediaRes := j.planned, drawn := 0 }) s)

/-- What the START step records in the job (R12). -/
def Job.started (j : Job) (f : Feed) (k : Ink) : Job :=
  { j with
    startPos := some f.position
    lots := some (j.est.map fun p => (p.1, (k.chans[p.1].cart).map (·.lot)))
    strip := j.strip.map fun x => { x with order := some x.geo.order, marks := some x.geo.m } }

/-- The START message of a job (R194). -/
def Job.startMsg (j : Job) : EngineMsg :=
  match j.strip with
  | some x => .start j.tag j.printLen x.geo.m x.geo.order
  | none => .start j.tag j.printLen 0 []

/-- The print context at START (R127). -/
def PrintContext.atStart (tag : Nat) : PrintContext where
  tag := tag
  phase := .await
  next := 0
  inFeed := none
  swathTimer := some Config.swathMs
  dryTimer := none
  endingSwath := false

/-- The START step (R12, steps 3 and 4). -/
def startStep (i : JobIx) (s : State) : State :=
  match s.liveJob i with
  | some j =>
    if s.eng.state = .ready then
      sendEngine j.startMsg
        ((setJob i (fun j => j.started s.feed s.ink) s).mapFeed (fun f => { f with swathTarget := some f.position })
          |>.mapEng fun e => { e with ctx := some (PrintContext.atStart j.tag) })
    else returnPending i s
  | none => s

/-- The target of the back-feed that follows a cut (R12, R77). -/
def Feed.backFeedTarget (f : Feed) (cut : Int) : Int := cut - 100 * (f.profile.knife : Int) + 100 * (f.profile.lead : Int)

/-- A chosen job enters PRINTING and its starting phase (R12). -/
def startJob (i : JobIx) (s : State) : State :=
  let s := changeJob i (fun j => { j with state := .printing, drawn := 0 }) s
  match s.feed.roll.lastEvent with
  | .cut p =>
    match requestMove (s.feed.backFeedTarget p) .backFeed s with
    | (s', .done) => startStep i s'
    | (s', _) => s'
  | _ => startStep i s

/-- One job of the start evaluation (R11): the first eligible one starts; a CRITICAL job with a channel OUT is
held instead (R162). -/
def tryStart (s : State) (i : JobIx) : State :=
  match s.liveJob i with
  | some j =>
    if s.pathFree = true ∧ j.state = .pending ∧ j.holds.isEmpty = true then
      if j.mode = .critical ∧ s.jobOut j = true then
        changeJob i (fun j => { j with holds := { j.holds with colourOut := true } }) s
      else startJob i s
    else s
  | none => s

/-- The start conditions but for an eligible job (R11). -/
def State.mayStart (s : State) : Bool :=
  s.pathFree && s.feed.axis == .idle && s.feed.roll.state == .loaded && s.eng.state == .ready

/-- Evaluate the start conditions (R11). -/
def startEval (s : State) : State := if s.mayStart then s.jobs.order.foldl tryStart s else s

/-! ### Closing (R20 to R22) -/

/-- A job enters CLOSING with its piece (R21, R84); the start conditions are evaluated again (R20). -/
def closeJob (i : JobIx) (piece : Nat) (s : State) : State :=
  let s := setJobState i .closing s
  let s := retryMedia (setJob i (fun j => { j with mediaRes := 0, spoilWait := false, holds := Holds.none }) s)
  let s := commitCopy i (setJob i (fun j => { j with ink := releaseInk j.ink }) s)
  let s :=
    match s.liveJob i with
    | some j => fileRecord i (costRecord s j piece) s
    | none => s
  startEval (departIfReady i s)

/-- The position at which an uncut job's piece ends: the fault position (R84). -/
def Feed.faultPosition (f : Feed) : Int := (f.fault.map (·.pos)).getD f.position

/-- A job enters CLOSING with UNCUT set (R18, R19). -/
def closeUncut (i : JobIx) (s : State) : State :=
  closeJob i (s.feed.pieceTo s.feed.faultPosition)
    (changeJob i (fun j => { j with flags := { j.flags with uncut := true } }) s)

/-! ### Feed faults (R13, R18, R69) -/

/-- The colour checker is stopped without a verdict (R153). The failing count and the mean ΔE of the last strip record are
those of the patches compared until then (log 59). -/
def stopChecker (s : State) : State :=
  match s.chk.ctx with
  | some x =>
    notify .checker (s.mapChk fun k =>
      { k with
        state := .idle
        ctx := none
        last := some { tag := x.tag, verdict := none, stopped := true, evaluated := x.results.length,
                       failing := x.failing, mean := x.sum / x.results.length, results := x.results }
        reading := k.reading.map fun r => { r with discard := true } })
  | none => s

/-- A feed fault reaches the job on the media path (R13, R18, R19). -/
def faultJob (i : JobIx) (j : Job) (s : State) : State :=
  if j.spoilWait then closeUncut i s
  else
    match j.state with
    | .printing =>
      if j.starting then (if j.outcome.isSome then closeJob i 0 s else returnPending i s)
      else enterAborting i (decideOutcome i .spoiled (some .feedFault) s)
    | .suspended => enterAborting i (decideOutcome i .spoiled (some .feedFault) s)
    | .aborting => decideOutcome i .spoiled (some .feedFault) s
    | .checking => closeUncut i (decideOutcome i .spoiled (some .feedFault) (stopChecker s))
    | .cutting => closeUncut i (decideOutcome i .spoiled (some .feedFault) s)
    | .pending | .closing => s

/-- A feed fault (R69): its effect on the axis, the roll (R68, R88) and the job, and the notice. -/
def feedFault (k : FaultKind) (s : State) : State :=
  let s := s.mapFeed (Feed.enterFault k)
  let s := if k = .mediaOut then mediaOut s else s
  notify .feedAxis
    (match s.pathJob with
     | some (i, j) => faultJob i j s
     | none => s)

/-! ### The knife and cut plans (R81, R83) -/

/-- A knife cycle begins with its check (R81). -/
def beginKnife (s : State) : State :=
  let s := s.mapFeed fun f => { f with axis := f.legState .knife }
  if s.feed.knifeHome then s.mapFeed fun f => { f with knife := true, knifeCycle := some (.stroke Config.strokeMs) }
  else feedFault .knife s

/-- The target of a cut (R83). -/
def cutTarget (f : Feed) (start : Int) (offset : Nat) : Int :=
  start + 100 * (offset : Int) + 100 * (f.profile.knife : Int) + f.effectiveTrim

/-- The next cut of a job in CUTTING is planned while the axis is IDLE (R83). -/
def planCut (i : JobIx) (s : State) : State :=
  match s.liveJob i with
  | some j =>
    match j.startPos, j.cuts[j.cutsDone]? with
    | some start, some offset =>
      match requestMove (cutTarget s.feed start offset) .cut s with
      | (s', .done) => beginKnife s'
      | (s', _) => s'
    | _, _ => s
  | none => s

/-- A job enters CUTTING with its cut plan (R14, R15). -/
def enterCutting (i : JobIx) (s : State) : State := planCut i (setJobState i .cutting s)

/-! ### The spoil path (R19) -/

/-- The spoil cut offset in mm: the printed extent rounded up, plus 10 (R19). -/
def spoilOffset (pos start : Int) : Nat := ceilDiv (pos - start).toNat 100 + 10

/-- The plan becomes the one spoil cut, with its reservation (R19, R85). -/
def Job.spoilPlan (j : Job) (f : Feed) : Job :=
  let off := spoilOffset f.position (j.startPos.getD f.position)
  let planned := plannedFor f [off] 0
  { j with cuts := [off], cutsDone := 0, spoilWait := false, planned := planned, mediaRes := planned - j.drawn }

/-- The spoil cut with the axis IDLE: the hold rule answers a raised reservation, the retry a lowered one
(R85). -/
def spoilCut (i : JobIx) (s : State) : State :=
  match s.liveJob i with
  | some j =>
    let k := j.spoilPlan s.feed
    let s := setJobState i .cutting (setJob i (fun j => j.spoilPlan s.feed) s)
    planCut i
      (if j.mediaRes < k.mediaRes then holdRule s else if k.mediaRes < j.mediaRes then retryMedia s else s)
  | none => s

/-- The spoil path is taken (R19): it waits for a move under way, cuts with the axis IDLE, and closes the job uncut
with the axis in FAULT or in any other state (log 39). -/
def takeSpoil (i : JobIx) (s : State) : State :=
  match s.feed.axis with
  | .moving | .reversing => setJob i (fun j => { j with spoilWait := true }) s
  | .idle => spoilCut i s
  | _ => closeUncut i s

/-! ### Cancelling (R13, R16, R17) -/

/-- CANCEL_JOB on the media path (R13, R17). -/
def cancelOnPath (i : JobIx) (j : Job) (s : State) : State :=
  if j.spoilWait then s
  else
    match j.state with
    | .printing =>
      if j.starting then
        let s := decideOutcome i .cancelled none s
        if s.feed.move.isSome then s else closeJob i 0 s
      else enterAborting i (decideOutcome i .spoiled (some .cancel) s)
    | .suspended => enterAborting i (decideOutcome i .spoiled (some .cancel) s)
    | .checking => takeSpoil i (decideOutcome i .spoiled (some .cancel) (stopChecker s))
    | .cutting => decideOutcome i .spoiled (some .cancel) s
    | .aborting | .pending | .closing => s

/-- CANCEL_JOB on a live job that is not CLOSING (R16, R17). -/
def cancelJob (i : JobIx) (j : Job) (s : State) : State :=
  if j.state = .pending then closeJob i 0 (decideOutcome i .cancelled none s) else cancelOnPath i j s

end Sys2Proof.Machine
end

