-- ==== Sys2Proof/Machine/Frame.lean ====
section
/-!
DEFINITION. Frames of both serial links: the CRC and the layout (R179, R192), and the receive frame assembler,
one byte at a time (R180, R126).
-/

namespace Sys2Proof.Machine

/-- One bit of the CRC, most significant bit first, generator 0x1021 (R179). -/
def crcBit (crc : U16) : U16 := if crc.msb then (crc <<< 1) ^^^ 0x1021 else crc <<< 1

/-- One byte into the CRC (R179). -/
def crcByte (crc : U16) (b : Byte) : U16 :=
  crcBit (crcBit (crcBit (crcBit (crcBit (crcBit (crcBit (crcBit (crc ^^^ (b.zeroExtend 16 <<< 8)))))))))

/-- The CRC-16 of a list of bytes, initial value 0xFFFF, no final inversion (R179). -/
def crc16 (bs : Bytes) : U16 := bs.foldl crcByte 0xFFFF

/-- The start byte of a frame (R179). -/
def startByte : Byte := 0xA5

/-- A two-byte field, least significant byte first (R191). -/
def word16 (lo hi : Byte) : U16 := hi ++ lo

/-- A four-byte field, least significant byte first (R191). -/
def word32 (b0 b1 b2 b3 : Byte) : U32 := (b3 ++ b2) ++ (b1 ++ b0)

/-- The bytes of a two-byte field. -/
def bytes16 (w : U16) : Bytes := [w.extractLsb' 0 8, w.extractLsb' 8 8]

/-- The bytes of a four-byte field. -/
def bytes32 (w : U32) : Bytes := [w.extractLsb' 0 8, w.extractLsb' 8 8, w.extractLsb' 16 8, w.extractLsb' 24 8]

/-- The part of a frame that its CRC covers: kind, frame tag, body length and body (R179). -/
def frameCore (kind tag : Byte) (body : Bytes) : Bytes := kind :: tag :: (u16 body.length ++ body)

/-- A whole frame (R179, R192). -/
def frameBytes (kind tag : Byte) (body : Bytes) : Bytes :=
  startByte :: (frameCore kind tag body ++ bytes16 (crc16 (frameCore kind tag body)))

/-- What a byte brings about in the assembler (R180). -/
inductive RxEvent
  | more
  | overlong
  | crcBad
  | frame (kind tag : Byte) (body : Bytes)
deriving DecidableEq, Repr

/-- Byte `i` of a list, 0 beyond its end. -/
def byteAt (bs : Bytes) (i : Nat) : Byte := bs.getD i 0

/-- Field of two bytes at offset `i`. -/
def u16At (bs : Bytes) (i : Nat) : U16 := word16 (byteAt bs i) (byteAt bs (i + 1))

/-- Field of four bytes at offset `i`. -/
def u32At (bs : Bytes) (i : Nat) : U32 :=
  word32 (byteAt bs i) (byteAt bs (i + 1)) (byteAt bs (i + 2)) (byteAt bs (i + 3))

/-- The judgement of the bytes after the start byte once one more has come (R180): the length is known with
the fourth, and the frame ends with the second CRC byte. -/
def rxJudge (bs : Bytes) : Rx × RxEvent :=
  if bs.length < 4 then (some bs, .more)
  else
    let n := (u16At bs 2).toNat
    if Config.maxBody < n then (none, .overlong)
    else if bs.length < 4 + n + 2 then (some bs, .more)
    else if crc16 (bs.take (4 + n)) = u16At bs (4 + n) then
      (none, .frame (byteAt bs 0) (byteAt bs 1) ((bs.drop 4).take n))
    else (none, .crcBad)

/-- One byte into the assembler (R180). -/
def rxByte (rx : Rx) (b : Byte) : Rx × RxEvent :=
  match rx with
  | none => (if b = startByte then some [] else none, .more)
  | some bs => rxJudge (bs ++ [b])

end Sys2Proof.Machine
end

