-- ==== Sys2Proof/Machine/Operands.lean ====
section
/-!
DEFINITION. The operand forms of the commands: the bodies of requests and engine messages taken apart and put
together byte by byte (section 12.2, 12.3), and the ranges of the owners' tables.
-/

namespace Sys2Proof.Machine

/-! ### Ranges -/

/-- A feed profile in range (R57), the bounded fields included. -/
def FeedProfileArgs.read (a : FeedProfileArgs) : Option FeedProfile :=
  match yesNoOf a.reversal, yesNoOf a.invert with
  | some rev, some inv =>
    let p : FeedProfile :=
      { slow := a.slow.toNat, window := a.window.toNat, settle := a.settle.toNat, backoff := a.backoff.toNat,
        reversal := rev, slip := a.slip.toNat, invert := inv, lead := a.lead.toNat, trim := a.trim.toNat,
        sensor := a.sensor.toNat, knife := a.knife.toNat }
    if (5 ≤ p.slow ∧ p.slow ≤ 200) ∧ (2 ≤ p.window ∧ p.window ≤ 50) ∧ (10 ≤ p.settle ∧ p.settle ≤ 200)
        ∧ (p.slow + 5 ≤ p.backoff ∧ p.backoff ≤ 300) ∧ (p.window ≤ p.slip ∧ p.slip ≤ 500)
        ∧ (5 ≤ p.lead ∧ p.lead ≤ 100) ∧ (5 ≤ p.trim ∧ p.trim ≤ 50) ∧ (20 ≤ p.sensor ∧ p.sensor ≤ 200)
        ∧ (p.sensor + 420 ≤ p.knife ∧ p.knife ≤ 1000) then some p else none
  | _, _ => none

/-- An ink profile in range (R102), the bounds between fields included. -/
def InkProfileArgs.read (a : InkProfileArgs) : Option InkProfile :=
  let p : InkProfile :=
    { drop := a.drop.toNat, emptyAt := a.emptyAt.toNat, fullAt := a.fullAt.toNat, start := a.start.toNat,
      stop := a.stop.toNat, floor := a.floor.toNat }
  if (1 ≤ p.drop ∧ p.drop ≤ 20) ∧ p.emptyAt ≤ 1023 ∧ p.fullAt ≤ 1023
      ∧ (p.emptyAt + 100 ≤ p.fullAt ∨ p.fullAt + 100 ≤ p.emptyAt)
      ∧ p.floor < p.start ∧ p.start < p.stop ∧ p.stop ≤ 29000 ∧ (1000 ≤ p.floor ∧ p.floor ≤ 10000)
  then some p else none

/-- A strip profile in range (R142), the bounds between fields included. -/
def StripProfileArgs.read (a : StripProfileArgs) : Option StripProfile :=
  match yesNoOf a.learn with
  | none => none
  | some learn =>
    let g : PatchSet := { t := a.t.toNat, stride := a.stride.toNat, seed := a.seed.toNat }
    let p : StripProfile :=
      { set := some g, m := a.m.toNat, runMin := a.runMin.toNat, runMax := a.runMax.toNat, pitch := a.pitch.toNat,
        markThreshold := a.markThreshold.toNat, tolerance := a.tolerance.toNat, allowed := a.allowed.toNat,
        meanTolerance := a.meanTolerance.toNat, gross := a.gross.toNat, learn := learn,
        dwellLow := a.dwellLow.toNat, dwellMid := a.dwellMid.toNat, dwellHigh := a.dwellHigh.toNat }
    if (8 ≤ g.t ∧ g.t ≤ 48) ∧ (1 ≤ g.stride ∧ g.stride < g.t) ∧ Nat.gcd g.stride g.t = 1 ∧ g.seed < g.t
        ∧ (2 ≤ p.m ∧ p.m ≤ 4) ∧ (1 ≤ p.runMin ∧ p.runMin ≤ p.m) ∧ (p.m ≤ p.runMax ∧ p.runMax ≤ p.m + 1)
        ∧ (4 ≤ p.pitch ∧ p.pitch ≤ 8) ∧ (100 ≤ p.markThreshold ∧ p.markThreshold ≤ 9000)
        ∧ (10 ≤ p.tolerance ∧ p.tolerance ≤ 5000) ∧ p.allowed ≤ g.t
        ∧ (10 ≤ p.meanTolerance ∧ p.meanTolerance ≤ 5000) ∧ (p.tolerance < p.gross ∧ p.gross ≤ 20000)
        ∧ p.dwellLow ≤ 900 ∧ p.dwellMid ≤ 900 ∧ p.dwellHigh ≤ 900
    then some p else none

/-- A price list in range (R166). -/
def PriceArgs.read (a : PriceArgs) : Option Prices :=
  let p : Prices := { ink := a.ink.map (·.toNat), media := a.media.map (·.toNat), cut := a.cut.toNat }
  if (∀ x ∈ p.ink.toList, x ≤ 1000000) ∧ (∀ x ∈ p.media.toList, x ≤ 10000000) ∧ p.cut ≤ 1000000
  then some p else none

/-- A dominant channel byte: 0 to 9, or 0xFF for none (R191). -/
def dominantOf (b : Byte) : Option (Option Chan) := if b = 0xFF then some none else (chanOf b).map some

/-- A colour is within its ranges (R139, R147). -/
def Colour.inRange (c : Colour) : Bool :=
  decide ((0 ≤ c.l ∧ c.l ≤ 10000) ∧ (-12800 ≤ c.a ∧ c.a ≤ 12700) ∧ (-12800 ≤ c.b ∧ c.b ≤ 12700))

/-- What an update of SET_PATCHES asks for: an index and an entry or its undefinition (R140). -/
def PatchUpdate.read (u : PatchUpdate) : Option (Fin 48 × Option Patch) :=
  if h : u.index.toNat < 48 then
    match yesNoOf u.define, dominantOf u.dominant with
    | some false, _ => some (⟨u.index.toNat, h⟩, none)
    | some true, some d =>
      let c : Colour := { l := u.l.toNat, a := u.a.toInt, b := u.b.toInt }
      if c.inRange then some (⟨u.index.toNat, h⟩, some { target := c, dominant := d }) else none
    | _, _ => none
  else none

/-- The estimate of an order: channels 0 to 9, each named once (R7), amounts 1 to 30,000,000 µL. -/
def readEstimate (est : List (Byte × U32)) : Option (List (Chan × Nat)) :=
  match est.mapM (fun p => (chanOf p.1).map fun c => (c, p.2.toNat)) with
  | some xs =>
    if (xs.map (·.1)).Nodup ∧ ∀ x ∈ xs, 1 ≤ x.2 ∧ x.2 ≤ 30000000 then some xs else none
  | none => none

/-! ### Engine messages (R126, R194) -/

/-- Drop counts of a well-formed message: at most 10 pairs, channels 0 to 9, each named at most once. -/
def readDrops (drops : List (Byte × U32)) : Option (List (Chan × Nat)) :=
  match drops.mapM (fun p => (chanOf p.1).map fun c => (c, p.2.toNat)) with
  | some xs => if xs.length ≤ 10 ∧ (xs.map (·.1)).Nodup then some xs else none
  | none => none

/-- State and fault code of a well-formed ENGINE_STATE. -/
def readEngineState (state code : Byte) : Option (EngineState × Byte) :=
  if state = 1 ∧ code = 0 then some (.ready, 0)
  else if state = 2 ∧ code = 0 then some (.busy, 0)
  else if state = 3 ∧ code ≠ 0 then some (.fault, code) else none

/-- Feed request and drops of a well-formed SWATH. -/
def readSwath (feed : U32) (drops : List (Byte × U32)) : Option (Nat × List (Chan × Nat)) :=
  if feed.toNat ≤ 200000 then (readDrops drops).map fun xs => (feed.toNat, xs) else none

/-- Status of a well-formed END: true for COMPLETE, false for ABORTED (section 12.5). -/
def readEnd (status : Byte) : Option Bool :=
  if status = 0 then some true else if status = 1 then some false else none

/-- Drops of a well-formed MAINT: at least one pair. -/
def readMaint (drops : List (Byte × U32)) : Option (List (Chan × Nat)) :=
  if drops.isEmpty then none else readDrops drops

/-- `k` pairs (channel 1, count 4) from offset `i`. -/
def pairsAt (bs : Bytes) (i : Nat) : Nat → List (Byte × U32)
  | 0 => []
  | k + 1 => (byteAt bs i, u32At bs (i + 1)) :: pairsAt bs (i + 5) k

/-- `k` two-byte numbers from offset `i`. -/
def wordsAt (bs : Bytes) (i : Nat) : Nat → List U16
  | 0 => []
  | k + 1 => u16At bs i :: wordsAt bs (i + 2) k

/-- The command an engine frame's kind and body spell, when the length agrees with the kind and the counts
(R126, R194); `none` is a protocol error. -/
def parseEngine (kind : Byte) (body : Bytes) : Option Instr :=
  if kind = 0x81 ∧ body.length = 2 then some (.engineState (byteAt body 0) (byteAt body 1))
  else if kind = 0x82 ∧ 9 ≤ body.length ∧ body.length = 9 + 5 * (byteAt body 8).toNat then
    some (.swath (u16At body 0) (u16At body 2) (u32At body 4) (pairsAt body 9 (byteAt body 8).toNat))
  else if kind = 0x83 ∧ body.length = 3 then some (.endPrint (u16At body 0) (byteAt body 2))
  else if kind = 0x84 ∧ 1 ≤ body.length ∧ body.length = 1 + 5 * (byteAt body 0).toNat then
    some (.maint (pairsAt body 1 (byteAt body 0).toNat))
  else none

/-- The body of an engine message command (R194). -/
def pairBytes (p : Byte × U32) : Bytes := p.1 :: bytes32 p.2

/-- The kind and body of the frame that carries an engine message command; `none` for other commands. -/
def engineBody : Instr → Option (Byte × Bytes)
  | .engineState st code => some (0x81, [st, code])
  | .swath tag index feed drops =>
    some (0x82, bytes16 tag ++ bytes16 index ++ bytes32 feed ++ u8 drops.length ++ drops.flatMap pairBytes)
  | .endPrint tag status => some (0x83, bytes16 tag ++ [status])
  | .maint drops => some (0x84, u8 drops.length ++ drops.flatMap pairBytes)
  | _ => none

/-! ### Requests (section 12.2) -/

/-- A SUBMIT_JOB body of an admitted length whose length agrees with its counts (R5, R192). -/
def parseOrder (body : Bytes) : Option JobOrder :=
  let c := (byteAt body 5).toNat
  let e := (byteAt body 6).toNat
  if body.length = 14 + 2 * c + 5 * e then
    some { tag := u16At body 0, printLen := u16At body 2, mode := byteAt body 4, edition := u32At body 8,
           copy := u16At body 12, cuts := wordsAt body 14 c, est := pairsAt body (14 + 2 * c) e }
  else none

def orderBody (o : JobOrder) : Bytes :=
  bytes16 o.tag ++ bytes16 o.printLen ++ [o.mode] ++ u8 o.cuts.length ++ u8 o.est.length ++ [0]
    ++ bytes32 o.edition ++ bytes16 o.copy ++ o.cuts.flatMap bytes16 ++ o.est.flatMap pairBytes

/-- `k` patch updates of nine bytes from offset `i`. -/
def updatesAt (bs : Bytes) (i : Nat) : Nat → List PatchUpdate
  | 0 => []
  | k + 1 =>
    { index := byteAt bs i, define := byteAt bs (i + 1), l := u16At bs (i + 2), a := u16At bs (i + 4),
      b := u16At bs (i + 6), dominant := byteAt bs (i + 8) } :: updatesAt bs (i + 9) k

def updateBytes (u : PatchUpdate) : Bytes :=
  [u.index, u.define] ++ bytes16 u.l ++ bytes16 u.a ++ bytes16 u.b ++ [u.dominant]

/-- A SET_PATCHES body whose length is 1 + 9 × the update count (R140). -/
def parseUpdates (body : Bytes) : Option (List PatchUpdate) :=
  let k := (byteAt body 0).toNat
  if body.length = 1 + 9 * k then some (updatesAt body 1 k) else none

def parseFeedProfile (b : Bytes) : FeedProfileArgs where
  slow := u16At b 0
  window := byteAt b 2
  settle := byteAt b 3
  backoff := u16At b 4
  reversal := byteAt b 6
  slip := u16At b 7
  invert := byteAt b 9
  lead := byteAt b 10
  trim := byteAt b 11
  sensor := byteAt b 12
  knife := u16At b 13

def feedProfileBody (p : FeedProfileArgs) : Bytes :=
  bytes16 p.slow ++ [p.window, p.settle] ++ bytes16 p.backoff ++ [p.reversal] ++ bytes16 p.slip
    ++ [p.invert, p.lead, p.trim, p.sensor] ++ bytes16 p.knife

def parseInkProfile (b : Bytes) : InkProfileArgs where
  drop := byteAt b 1
  emptyAt := u16At b 2
  fullAt := u16At b 4
  start := u16At b 6
  stop := u16At b 8
  floor := u16At b 10

def inkProfileBody (p : InkProfileArgs) : Bytes :=
  [p.drop] ++ bytes16 p.emptyAt ++ bytes16 p.fullAt ++ bytes16 p.start ++ bytes16 p.stop ++ bytes16 p.floor

def parseStripProfile (b : Bytes) : StripProfileArgs where
  t := byteAt b 0
  stride := byteAt b 1
  seed := byteAt b 2
  m := byteAt b 3
  runMin := byteAt b 4
  runMax := byteAt b 5
  pitch := byteAt b 6
  markThreshold := u16At b 7
  tolerance := u16At b 9
  allowed := byteAt b 11
  meanTolerance := u16At b 12
  gross := u16At b 14
  learn := byteAt b 16
  dwellLow := u16At b 17
  dwellMid := u16At b 19
  dwellHigh := u16At b 21

def stripProfileBody (p : StripProfileArgs) : Bytes :=
  [p.t, p.stride, p.seed, p.m, p.runMin, p.runMax, p.pitch] ++ bytes16 p.markThreshold ++ bytes16 p.tolerance
    ++ [p.allowed] ++ bytes16 p.meanTolerance ++ bytes16 p.gross ++ [p.learn] ++ bytes16 p.dwellLow
    ++ bytes16 p.dwellMid ++ bytes16 p.dwellHigh

def parsePrices (b : Bytes) : PriceArgs where
  ink := Vector.ofFn fun i : Fin 10 => u32At b (4 * i)
  media := Vector.ofFn fun i : Fin 8 => u32At b (40 + 4 * i)
  cut := u32At b 72

def pricesBody (p : PriceArgs) : Bytes :=
  p.ink.toList.flatMap bytes32 ++ p.media.toList.flatMap bytes32 ++ bytes32 p.cut

/-- The command that a request's kind, frame tag and body spell (R181 steps 2 to 4): `none` for an unknown
kind, a body size the kind does not allow, or a body whose counts disagree with its length, all of which are
answered BAD_REQUEST. -/
def parseRequest (kind ft : Byte) (b : Bytes) : Option Instr :=
  match kind.toNat, b.length with
  | 0x01, 0 => some (.identify ft)
  | 0x02, 0 => some (.status ft)
  | 0x03, 2 => some (.counters ft (byteAt b 0) (byteAt b 1))
  | 0x04, 0 => some (.restart ft)
  | 0x10, n => if 21 ≤ n ∧ n ≤ 70 then (parseOrder b).map (.submitJob ft) else none
  | 0x11, 2 => some (.cancelJob ft (u16At b 0))
  | 0x12, 2 => some (.queryJob ft (u16At b 0))
  | 0x13, 0 => some (.listJobs ft)
  | 0x20, 6 => some (.openEdition ft (u32At b 0) (u16At b 4))
  | 0x21, 5 => some (.closeEdition ft (u32At b 0) (byteAt b 4))
  | 0x22, 5 => some (.removeEdition ft (u32At b 0) (byteAt b 4))
  | 0x23, 5 => some (.queryEdition ft (u32At b 0) (byteAt b 4))
  | 0x24, 0 => some (.storeStatus ft)
  | 0x30, 15 => some (.setFeedProfile ft (parseFeedProfile b))
  | 0x31, 0 => some (.clearFeed ft)
  | 0x32, 0 => some (.feedStatus ft)
  | 0x33, 9 => some (.loadRoll ft (u32At b 0) (byteAt b 4) (u32At b 5))
  | 0x34, 0 => some (.unloadRoll ft)
  | 0x35, 2 => some (.jog ft (u16At b 0))
  | 0x36, 3 => some (.setTrim ft (byteAt b 0) (u16At b 1))
  | 0x40, 13 => some (.fitCartridge ft (byteAt b 0) (u32At b 1) (u32At b 5) (u32At b 9))
  | 0x41, 2 => some (.inkStatus ft (byteAt b 0) (byteAt b 1))
  | 0x42, 12 => some (.setInkProfile ft (byteAt b 0) (parseInkProfile b))
  | 0x48, 0 => some (.engineStatus ft)
  | 0x50, n => if 1 ≤ n ∧ n ≤ 37 then (parseUpdates b).map (.setPatches ft) else none
  | 0x51, 0 => some (.readPatches ft)
  | 0x52, 23 => some (.setStripProfile ft (parseStripProfile b))
  | 0x53, 0 => some (.checkStatus ft)
  | 0x58, 4 => some (.setDriftLimits ft (u16At b 0) (u16At b 2))
  | 0x59, 1 => some (.recalibrated ft (byteAt b 0))
  | 0x5A, 0 => some (.driftStatus ft)
  | 0x60, 76 => some (.loadPrices ft (parsePrices b))
  | 0x61, 0 => some (.priceStatus ft)
  | 0x62, 0 => some (.costTake ft)
  | 0x63, 1 => some (.setCostLevel ft (byteAt b 0))
  | 0x64, 1 => some (.overheadRead ft (byteAt b 0))
  | _, _ => none

/-- Kind, frame tag and body of the frame that carries a request command; `none` for other commands. -/
def requestBody : Instr → Option (Byte × Byte × Bytes)
  | .identify ft => some (0x01, ft, [])
  | .status ft => some (0x02, ft, [])
  | .counters ft group clear => some (0x03, ft, [group, clear])
  | .restart ft => some (0x04, ft, [])
  | .submitJob ft o => some (0x10, ft, orderBody o)
  | .cancelJob ft tag => some (0x11, ft, bytes16 tag)
  | .queryJob ft tag => some (0x12, ft, bytes16 tag)
  | .listJobs ft => some (0x13, ft, [])
  | .openEdition ft id limit => some (0x20, ft, bytes32 id ++ bytes16 limit)
  | .closeEdition ft id slot => some (0x21, ft, bytes32 id ++ [slot])
  | .removeEdition ft id slot => some (0x22, ft, bytes32 id ++ [slot])
  | .queryEdition ft id slot => some (0x23, ft, bytes32 id ++ [slot])
  | .storeStatus ft => some (0x24, ft, [])
  | .setFeedProfile ft p => some (0x30, ft, feedProfileBody p)
  | .clearFeed ft => some (0x31, ft, [])
  | .feedStatus ft => some (0x32, ft, [])
  | .loadRoll ft id mt len => some (0x33, ft, bytes32 id ++ [mt] ++ bytes32 len)
  | .unloadRoll ft => some (0x34, ft, [])
  | .jog ft mm => some (0x35, ft, bytes16 mm)
  | .setTrim ft mode value => some (0x36, ft, [mode] ++ bytes16 value)
  | .fitCartridge ft ch cap rem lot => some (0x40, ft, [ch] ++ bytes32 cap ++ bytes32 rem ++ bytes32 lot)
  | .inkStatus ft sel clear => some (0x41, ft, [sel, clear])
  | .setInkProfile ft ch p => some (0x42, ft, [ch] ++ inkProfileBody p)
  | .engineStatus ft => some (0x48, ft, [])
  | .setPatches ft us => some (0x50, ft, u8 us.length ++ us.flatMap updateBytes)
  | .readPatches ft => some (0x51, ft, [])
  | .setStripProfile ft p => some (0x52, ft, stripProfileBody p)
  | .checkStatus ft => some (0x53, ft, [])
  | .setDriftLimits ft warn out => some (0x58, ft, bytes16 warn ++ bytes16 out)
  | .recalibrated ft ch => some (0x59, ft, [ch])
  | .driftStatus ft => some (0x5A, ft, [])
  | .loadPrices ft p => some (0x60, ft, pricesBody p)
  | .priceStatus ft => some (0x61, ft, [])
  | .costTake ft => some (0x62, ft, [])
  | .setCostLevel ft level => some (0x63, ft, [level])
  | .overheadRead ft clear => some (0x64, ft, [clear])
  | _ => none

end Sys2Proof.Machine
end

