-- ==== Sys2Proof/Machine/Colour.lean ====
section
/-!
DEFINITION. The drift monitor and the colour checker (Colour Drift, Colour Check Strips): filing, clearing, holds,
the dwell, the readings, the mark search, the comparison of patches and the verdict.
-/

namespace Sys2Proof.Machine

/-! ### Drift (R157 to R161) -/

/-- Work out the state of the channels that `p` picks (R157). -/
def Drift.judge (p : Chan → Bool) (d : Drift) : Drift :=
  { d with states := Vector.ofFn fun c => if p c then driftOf d.warn d.out d.rings[c] else d.states[c] }

/-- Channels in OUT. -/
def Drift.outSet (d : Drift) : List Bool := d.states.toList.map fun x => decide (x = .out)

/-- One PENDING CRITICAL job of the settling of COLOUR_OUT (R161). -/
def settleHold (s : State) (i : JobIx) : State :=
  match s.liveJob i with
  | some j =>
    if j.state = .pending ∧ j.mode = .critical ∧ j.holds.colourOut ≠ s.jobOut j then
      changeJob i (fun j => { j with holds := { j.holds with colourOut := !j.holds.colourOut } }) s
    else s
  | none => s

/-- The end of an event that found the drift monitor at `before` (R161): where channels have entered or left OUT in it,
the COLOUR_OUT holds are settled and the start conditions evaluated again (R10). -/
def settleDrift (before : Drift) (s : State) : State :=
  if s.drift.outSet = before.outSet then s else startEval (s.jobs.order.foldl settleHold s)

/-- An event that changes nothing but the drift monitor (R158, R160), with its end. -/
def changeDrift (f : Drift → Drift) (s : State) : State := settleDrift s.drift (s.mapDrift f)

/-- Clear a ring (R160). -/
def Drift.clear (c : Chan) (d : Drift) : Drift :=
  { d with rings := d.rings.set c [], states := d.states.set c .unverified }

/-- FIT_CARTRIDGE hands a lot over (R160). -/
def Drift.fit (c : Chan) (lot : Nat) (d : Drift) : Drift :=
  let d := match d.lots[c] with
    | some l => if l = lot then d else d.clear c
    | none => d
  { d with lots := d.lots.set c (some lot) }

/-- The lot of a channel at START, from the job record. -/
def Job.lotAtStart (j : Job) (c : Chan) : Option Nat :=
  (j.lots.bind fun ls => ls.find? fun p => p.1 == c).bind (·.2)

/-- One patch result filed, where its lot passes the gate (R159). -/
def Drift.file (j : Job) (k : Ink) (d : Drift) (r : PatchResult) : Drift :=
  match r.dominant with
  | some c =>
    match j.lotAtStart c, k.chans[c].cart with
    | some l, some cart =>
      if l = cart.lot then { d with rings := modifyAt d.rings c fun ring => ringPush 8 ring r.deltaE } else d
    | _, _ => d
  | none => d

/-- A channel received a value from a strip (R159). -/
def received (j : Job) (k : Ink) (rs : List PatchResult) (c : Chan) : Bool :=
  rs.any fun r =>
    match j.lotAtStart c, k.chans[c].cart with
    | some l, some cart => r.dominant == some c && l == cart.lot
    | _, _ => false

/-- A verdict is filed (R159): nothing for VOID. The holds are settled at the end of the event (R161). -/
def fileVerdict (j : Job) (v : Verdict) (rs : List PatchResult) (s : State) : State :=
  match v with
  | .void _ => s
  | _ => s.mapDrift fun d => (rs.foldl (Drift.file j s.ink) d).judge (received j s.ink rs)

/-! ### Strip moves and readings (R144, R146, R147) -/

/-- Change the strip context. -/
def mapStrip (f : StripContext → StripContext) (s : State) : State :=
  s.mapChk fun k => { k with ctx := k.ctx.map f }

/-- Count with a saturating counter of the checker (R154). -/
def mapCounters (f : CheckCounters → CheckCounters) (s : State) : State :=
  s.mapChk fun k => { k with counters := f k.counters }

/-- Read position `n` in counts (R144). -/
def StripContext.readPosition (x : StripContext) : Int :=
  x.stripStart.getD 0 - 200 * (x.geo.pitch : Int) + 100 * ((x.n * x.geo.pitch : Nat) : Int)

/-- A reading begins with the measure command (R147). -/
def beginReading (s : State) : State :=
  s.mapChk fun k => { k with reading := some { phase := .command, discard := false } }

/-- The strip move to the present read position (R144, R146). -/
def stripMove (s : State) : State :=
  match s.chk.ctx with
  | some x =>
    match requestMove x.readPosition .strip s with
    | (s', .done) => beginReading s'
    | (s', _) => s'
  | none => s

/-! ### Dwell (R145, R146) -/

/-- The dwell of the humidity's band in ms (R142, R145). -/
def StripProfile.dwellMs (p : StripProfile) (k : Ink) : Nat :=
  1000 * (if k.humFault then p.dwellHigh
    else if k.humidity < 40 then p.dwellLow else if k.humidity ≤ 60 then p.dwellMid else p.dwellHigh)

/-- The strip context on entry to DWELL (R145). The fields that R146 and R149 set later, on entry to SEARCH and to LOCKED,
are 0, no or empty until then, and CHECK_STATUS shows them so (log 54). -/
def StripContext.atDwell (i : JobIx) (j : Job) (x : Strip) (dwell : Nat) : StripContext where
  slot := i
  tag := j.tag
  geo := x.geo
  order := x.order.getD []
  dwell := some dwell
  stripStart := none
  n := 0
  inSearch := 0
  run := 0
  voids := 0
  patch := 0
  lastGross := false
  failing := 0
  sum := 0
  results := []

/-- The dwell ends: SEARCH from read position 0 (R146). -/
def dwellExpired (s : State) : State :=
  match s.chk.ctx with
  | some x =>
    match s.liveJob x.slot with
    | some j =>
      let start := j.startPos.getD 0 + 100 * (j.printLen : Int) + 100 * (s.feed.profile.sensor : Int)
      stripMove
        (notify .checker
          ((mapStrip (fun x => { x with dwell := none, stripStart := some start, n := 0, inSearch := 0, run := 0,
                                        voids := 0 }) s).mapChk
            fun k => { k with state := .search }))
    | none => s
  | none => s

/-- Expiry of the dwell timer, where it runs (R146, log 2). -/
def dwellEnded (s : State) : State :=
  match s.chk.ctx with
  | some x => if x.dwell.isSome then dwellExpired s else s
  | none => s

/-- A job with a strip enters CHECKING and the checker its dwell (R14, R145); a dwell of 0 s ends at once. -/
def enterChecking (i : JobIx) (j : Job) (x : Strip) (s : State) : State :=
  let dwell := s.chk.profile.dwellMs s.ink
  let s := setJobState i .checking s
  let s := s.mapChk fun k => { k with state := .dwell, ctx := some (StripContext.atDwell i j x dwell) }
  let s := notify .checker (mapCounters (fun n => { n with started := sat16 (n.started + 1) }) s)
  if dwell = 0 then dwellExpired s else s

/-! ### The end of a strip (R151, R152) -/

/-- Counters at a verdict (R154). -/
def CheckCounters.judged (v : Verdict) (n : CheckCounters) : CheckCounters :=
  match v with
  | .pass => { n with passed := sat16 (n.passed + 1) }
  | .fail => { n with failed := sat16 (n.failed + 1) }
  | .void _ => { n with voided := sat16 (n.voided + 1) }

/-- The job's course by its verdict and colour mode (R14, R152). -/
def verdictCourse (i : JobIx) (j : Job) (v : Verdict) (s : State) : State :=
  match j.mode, v with
  | .critical, .fail => takeSpoil i (decideOutcome i .spoiled (some .colourFail) s)
  | .critical, .void _ => takeSpoil i (decideOutcome i .spoiled (some .colourVoid) s)
  | _, _ => enterCutting i s

/-- The strip ends with a verdict (R151, R152): the drift monitor files it, the job goes on (log 21), and the event ends
with the holds (R161). -/
def endStrip (v : Verdict) (s : State) : State :=
  match s.chk.ctx with
  | some x =>
    let s := mapCounters (CheckCounters.judged v) s
    let s := s.mapChk fun k =>
      { k with
        state := .idle
        ctx := none
        last := some { tag := x.tag, verdict := some v, stopped := false, evaluated := x.results.length,
                       failing := x.failing, mean := x.sum / x.results.length, results := x.results } }
    let s := changeJob x.slot (fun j => { j with strip := j.strip.map fun t => { t with verdict := some v } }) s
    let s := notify .checker s
    match s.liveJob x.slot with
    | some j => settleDrift s.drift (verdictCourse x.slot j v (fileVerdict j v x.results s))
    | none => s
  | none => s

/-! ### Readings taken (R148 to R150) -/

/-- A void reading (R148). -/
def voidReading (s : State) : State :=
  let s := mapCounters (fun n => { n with timeouts := sat16 (n.timeouts + 1) }) s
  let s := mapStrip (fun x => { x with voids := x.voids + 1 }) s
  match s.chk.ctx with
  | some x => if 3 ≤ x.voids then endStrip (.void .sensor) s else beginReading s
  | none => s

/-- The verdict of a complete strip (R151). -/
def StripProfile.judge (p : StripProfile) (failing sum t : Nat) : Verdict :=
  if failing ≤ p.allowed ∧ sum / t ≤ p.meanTolerance then .pass else .fail

/-- The entry a patch is compared with; a free value where it is undefined (R140, log 17). -/
def Checker.entry (k : Checker) (e : Nat) : Patch :=
  match (k.patches[e]?).join with
  | some p => p
  | none =>
    let u := Config.undefinedPatch e
    { target := { l := u.1, a := u.2.1, b := u.2.2.1 }, dominant := u.2.2.2 }

/-- The result of comparing a colour with entry `e` (R150). -/
def Checker.compare (k : Checker) (e : Nat) (c : Colour) : PatchResult :=
  let p := k.entry e
  let d := deltaE c p.target
  { index := e, dominant := p.dominant, colour := c, deltaE := d, failing := decide (k.profile.tolerance < d) }

/-- The next read position (R149, R150). -/
def nextRead (s : State) : State := stripMove (mapStrip (fun x => { x with n := x.n + 1 }) s)

/-- The patch under the sensor is compared (R150). -/
def comparePatch (c : Colour) (s : State) : State :=
  match s.chk.ctx with
  | some x =>
    let r := s.chk.compare (x.order.getD x.patch 0) c
    let gross := decide (s.chk.profile.gross < r.deltaE)
    let failing := x.failing + r.failing.toNat
    let sum := x.sum + r.deltaE
    let s := mapCounters (fun n => { n with
      evaluated := sat16 (n.evaluated + 1)
      patchesFailed := if r.failing then sat16 (n.patchesFailed + 1) else n.patchesFailed }) s
    let s := mapStrip (fun x => { x with results := x.results ++ [r], failing := failing, sum := sum }) s
    if gross ∧ x.lastGross = true then endStrip (.void .lostLock) s
    else
      let s := mapStrip (fun x => { x with lastGross := gross }) s
      if x.geo.t ≤ x.patch + 1 then endStrip (s.chk.profile.judge failing sum x.geo.t) s
      else nextRead (mapStrip (fun x => { x with patch := x.patch + 1 }) s)
  | none => s

/-- The strip locks on the reading that ends a run of marks (R149). -/
def lockStrip (c : Colour) (s : State) : State :=
  comparePatch c
    (notify .checker
      ((mapStrip (fun x => { x with patch := 0, lastGross := false, failing := 0, sum := 0 }) s).mapChk
        fun k => { k with state := .locked }))

/-- A good reading in SEARCH (R149). -/
def searchReading (c : Colour) (s : State) : State :=
  match s.chk.ctx with
  | some x =>
    let p := s.chk.profile
    let mark := decide (c.l < p.markThreshold)
    let s := mapStrip (fun x => { x with inSearch := x.inSearch + 1 }) s
    if mark = false ∧ p.runMin ≤ x.run ∧ x.run ≤ p.runMax then lockStrip c s
    else
      let s := mapStrip (fun x => { x with run := if mark then x.run + 1 else 0 }) s
      if x.geo.m + 6 ≤ x.inSearch + 1 then endStrip (.void .noMarks) s else nextRead s
  | none => s

/-- A good reading (R148 to R150). -/
def goodReading (c : Colour) (s : State) : State :=
  let s := mapStrip (fun x => { x with voids := 0 }) s
  match s.chk.state with
  | .search => searchReading c s
  | .locked => comparePatch c s
  | _ => s

/-! ### The sensor link (R147, R196) -/

/-- What a result read shows. -/
inductive SensorResult
  | notReady
  | bad
  | good (c : Colour)
deriving DecidableEq, Repr

/-- The eight result bytes (R196). -/
def readResult (b : Vector Byte 8) : SensorResult :=
  if b[0] = 0 then .notReady
  else if b[0] = 1 ∧ (b.toList.map (·.toNat)).sum % 256 = 0 then
    let c : Colour := { l := (word16 b[1] b[2]).toNat, a := (word16 b[3] b[4]).toInt, b := (word16 b[5] b[6]).toInt }
    if c.inRange then .good c else .bad
  else .bad

/-- A reading ends; its result goes to `f` unless it is to be discarded (R153). -/
def endReading (r : Reading) (f : State → State) (s : State) : State :=
  let s := s.mapChk fun k => { k with reading := none }
  if r.discard then s else f s

/-- The measure command has been answered (R147). -/
def measured (ack : Bool) (s : State) : State :=
  match s.chk.reading with
  | some r =>
    if r.phase = .command then
      if ack then s.mapChk fun k => { k with reading := some { r with phase := .result Config.readingMs } }
      else endReading r voidReading s
    else s
  | none => s

/-- A result has been read (R147): not ready is read again, else the reading ends. -/
def resultRead (ack : Bool) (b : Vector Byte 8) (s : State) : State :=
  match s.chk.reading with
  | some r =>
    match r.phase with
    | .command => s
    | .result _ =>
      if ack then
        match readResult b with
        | .notReady => s
        | .bad => endReading r voidReading s
        | .good c => endReading r (goodReading c) s
      else endReading r voidReading s
  | none => s

/-- The 20 ms have passed without a ready result (R147). -/
def readingExpired (s : State) : State :=
  match s.chk.reading with
  | some r =>
    match r.phase with
    | .command => s
    | .result _ => endReading r voidReading s
  | none => s

end Sys2Proof.Machine
end

