-- ==== Sys2Proof/Machine/Engine.lean ====
section
/-!
DEFINITION. The engine link controller's operations (The Engine Link): the messages of the engine, the swath cycle,
suspension, and the two timers of the print context.
-/

namespace Sys2Proof.Machine

/-- The job of the print context. -/
def State.contextJob (s : State) : Option (JobIx × Job) := s.eng.ctx.bind fun x => s.jobByTag x.tag

/-- Decide SPOILED with a cause for the context's job, which enters ABORTING (R128, R130, R133). -/
def abortContext (c : SpoilCause) (s : State) : State :=
  match s.contextJob with
  | some (i, _) => enterAborting i (decideOutcome i .spoiled (some c) s)
  | none => s

/-- The engine's part ends: the context is discarded and the job takes the spoil path (R130, R134 to R136). -/
def endToSpoil (c : Option SpoilCause) (s : State) : State :=
  match s.contextJob with
  | some (i, _) =>
    let s := dropContext s
    takeSpoil i (if c.isSome then decideOutcome i .spoiled c s else s)
  | none => dropContext s

/-- A protocol error (R128): counted, and in phase AWAIT or FEED it aborts the print. -/
def protocolError (s : State) : State :=
  let s := s.mapEng fun e => { e with protoErrors := sat16 (e.protoErrors + 1) }
  match s.eng.ctx with
  | some x => if x.phase = .await ∨ x.phase = .feed then abortContext .engineProtocol s else s
  | none => s

/-! ### Suspension (R131, R132) -/

/-- The dry test finds a job dry (R131). -/
def State.jobDry (s : State) (j : Job) : Bool := j.inkChannels.any fun c => decide (s.ink.chans[c].cond = .dry)

/-- The dry test after FEED_DONE (R131). -/
def dryTest (s : State) : State :=
  match s.contextJob with
  | some (i, j) =>
    if s.jobDry j then
      changeJob i (fun j => { j with state := .suspended, flags := { j.flags with suspendedOnce := true } })
        (mapContext (fun x => { x with phase := .held, swathTimer := none, dryTimer := some Config.dryOutMs })
          (sendEngine (.hold j.tag) s))
    else s
  | none => s

/-- The resume test at a channel returned event (R132). -/
def resumeTest (s : State) : State :=
  match s.eng.ctx, s.contextJob with
  | some x, some (i, j) =>
    if x.phase = .held ∧ (j.inkChannels.all fun c => s.ink.chans[c].returned) = true then
      setJobState i .printing
        (mapContext (fun x => { x with phase := .await, dryTimer := none, swathTimer := some Config.swathMs })
          (sendEngine (.resume j.tag) s))
    else s
  | _, _ => s

/-! ### The swath cycle (R129) -/

/-- A swath move completes in phase FEED: FEED_DONE and the dry test (R129). -/
def swathDone (s : State) : State :=
  match s.eng.ctx with
  | some x =>
    match x.phase, x.inFeed with
    | .feed, some k =>
      dryTest
        (mapContext (fun x => { x with phase := .await, next := k + 1, inFeed := none,
                                       swathTimer := some Config.swathMs })
          (sendEngine (.feedDone x.tag k) s))
    | _, _ => s
  | none => s

/-- A SWATH is taken in phase AWAIT (R129, R65); a move refused for its target leaves phase FEED (log 18). -/
def takeSwath (index : U16) (feed : Nat) (s : State) : State :=
  let s := mapContext (fun x => { x with phase := .feed, inFeed := some index, swathTimer := none }) s
  match s.feed.swathTarget with
  | some t =>
    let target := t + feed
    match requestMove target .swath s with
    | (s', .done) => swathDone (s'.mapFeed fun f => { f with swathTarget := some target })
    | (s', .begun) => s'.mapFeed fun f => { f with swathTarget := some target }
    | (s', .refused) => s'
  | none => s

/-- The drops of a SWATH: a job report for the context's job, else an overhead report (R128). -/
def swathDrops (tag : U16) (drops : List (Chan × Nat)) (s : State) : State :=
  match s.contextJob with
  | some (i, j) => if j.tag = tag.toNat then jobReport i drops s else overheadDrops drops s
  | none => overheadDrops drops s

/-- A well-formed SWATH judged against the print context (R128, R129, R134). -/
def swathMessage (tag index : U16) (feed : Nat) (drops : List (Chan × Nat)) (s : State) : State :=
  let s := swathDrops tag drops s
  match s.eng.ctx with
  | some x =>
    if x.tag = tag.toNat ∧ x.next = index ∧ x.phase = .await then takeSwath index feed s
    else if x.tag = tag.toNat ∧ x.next = index ∧ x.phase = .ending ∧ x.endingSwath = false then
      mapContext (fun x => { x with endingSwath := true }) s
    else protocolError s
  | none => protocolError s

/-- END COMPLETE taken: CHECKING with a strip, CUTTING without (R14, R135). -/
def printDone (s : State) : State :=
  match s.contextJob with
  | some (i, j) =>
    let s := dropContext s
    match j.strip with
    | some x => enterChecking i j x s
    | none => enterCutting i s
  | none => dropContext s

/-- A well-formed END judged against the print context (R128, R134, R135). -/
def endMessage (tag : U16) (complete : Bool) (s : State) : State :=
  match s.eng.ctx with
  | some x =>
    if x.tag = tag.toNat ∧ x.phase = .await then
      if complete then printDone s else endToSpoil (some .engineFault) s
    else if x.tag = tag.toNat ∧ x.phase = .ending then endToSpoil none s
    else protocolError s
  | none => protocolError s

/-- A well-formed ENGINE_STATE (R123, R136). -/
def stateMessage (st : EngineState) (code : Byte) (s : State) : State :=
  if s.eng.state = st ∧ s.eng.code = code then s
  else
    let ready := decide (st = .ready ∧ s.eng.state ≠ .ready)
    let s := s.mapEng fun e => { e with state := st, code := code }
    if st = .fault then (if s.eng.ctx.isSome then endToSpoil (some .engineFault) s else s)
    else if ready then startEval s else s

/-! ### Timers (R130, R133) -/

/-- Expiry of the swath timer, where it runs (R130). -/
def swathExpired (s : State) : State :=
  match s.eng.ctx with
  | some x =>
    if x.swathTimer.isNone then s
    else
      match x.phase with
      | .await => abortContext .engineStall s
      | .ending => endToSpoil none s
      | .feed | .held => s
  | none => s

/-- Expiry of the dry-out timer in phase HELD (R133). -/
def dryOutExpired (s : State) : State :=
  match s.eng.ctx with
  | some x => if x.phase = .held ∧ x.dryTimer.isSome = true then abortContext .dryout s else s
  | none => s

end Sys2Proof.Machine
end

