-- ==== Sys2Proof/Machine/Mechanism.lean ====
section
/-!
DEFINITION. The mechanism's events with their hand-offs (The Feed Axis; Roll, Knife and Cut Plans): the completion of
moves, encoder counts, the load, and the knife cycle.
-/

namespace Sys2Proof.Machine

/-! ### The load (R76, R77) -/

/-- The load ends: IDLE, LOADED, the retry and the start conditions (R77). -/
def loadEnd (s : State) : State :=
  let s := s.mapFeed fun f => { f with axis := .idle, load := none, roll := { f.roll with state := .loaded } }
  startEval (retryMedia (notify .feedAxis s))

/-- The trim cut is due: the load's knife cycle (R77). -/
def trimCut (s : State) : State := beginKnife (s.mapFeed fun f => { f with load := some .trimCut })

/-- Position, consumed count and reach become 0 at the edge reference, and the axis is referenced (R76). -/
def Feed.reference (f : Feed) : Feed :=
  { f with pos := 0, referenced := true, load := some .trimLeg, roll := { f.roll with consumed := 0, reach := 0 } }

/-- The edge reference (R76); the trim leg begins. -/
def edgeReference (s : State) : State :=
  let s := s.mapFeed Feed.reference
  match requestMove (100 * (s.feed.profile.trim : Int)) .load s with
  | (s', .done) => trimCut s'
  | (s', _) => s'

/-- The trim cut sets the piece base, and the back-feed follows (R77). -/
def Feed.trimCutMade (f : Feed) : Feed :=
  { f.cutMade with load := some .backFeed, roll := { f.cutMade.roll with pieceBase := some f.position } }

/-- The trim cut is made: piece base, overhead, and the back-feed (R77, R176). -/
def trimCutDone (s : State) : State :=
  let cut := s.feed.position
  let s := s.mapFeed Feed.trimCutMade
  let s := s.mapCost fun k =>
    { k with overhead :=
        { k.overhead with
          trim := modifyAt k.overhead.trim s.feed.roll.mediaType fun n => sat32 (n + cut.toNat)
          knife := sat32 (k.overhead.knife + 1) } }
  match requestMove (s.feed.backFeedTarget cut) .load s with
  | (s', .done) => loadEnd s'
  | (s', _) => s'

/-! ### Completion of a move (R62) -/

/-- The back-feed of a starting phase has completed (R12, R13). -/
def backFeedDone (s : State) : State :=
  match s.pathJob with
  | some (i, j) => if j.outcome.isSome then closeJob i 0 s else startStep i s
  | none => s

/-- The requester is told of the completion and acts (R62). -/
def moveDone (r : Requester) (s : State) : State :=
  match r with
  | .swath => swathDone s
  | .strip => if s.chk.state = .idle then s else beginReading s
  | .cut => beginKnife s
  | .backFeed => backFeedDone s
  | .load =>
    match s.feed.load with
    | some .trimLeg => trimCut s
    | some .backFeed => loadEnd s
    | _ => s
  | .jog _ => notify .feedAxis s

/-- A job that waits to take the spoil path goes on when the axis is IDLE (R19). -/
def spoilAfterMove (s : State) : State :=
  match s.pathJob with
  | some (i, j) => if j.spoilWait ∧ s.feed.axis = .idle then spoilCut i s else s
  | none => s

/-- The feed controller's part in the completion of a move that drove an output (R62, R73). -/
def Feed.completeMove (m : Move) (f : Feed) : Feed :=
  { f with move := none, settleLeft := none, rest := some m.target, axis := f.legState .idle,
           roll := { f.roll with lastEvent := .move } }

/-- The settle time ends with the position in the window (R62). -/
def settleEnded (s : State) : State :=
  match s.feed.move, s.feed.settleLeft with
  | some m, some _ => startEval (spoilAfterMove (moveDone m.by_ (s.mapFeed (Feed.completeMove m))))
  | _, _ => s

/-! ### Encoder counts (R55) -/

/-- A forward jog's rise of the reach is overhead, and the piece base rises with it (R80, R176); a backward jog charges
nothing. -/
def chargeJog (rise : Nat) (s : State) : State :=
  match s.feed.move with
  | some m =>
    if m.by_ = .jog true ∧ 0 < rise then
      (s.mapFeed fun f => { f with roll := { f.roll with pieceBase := f.roll.pieceBase.map (· + rise) } }).mapCost
        fun k =>
          { k with overhead :=
              { k.overhead with
                jog := modifyAt k.overhead.jog s.feed.roll.mediaType fun n => sat32 (n + rise) } }
    else s
  | none => s

/-- A count judged by the move under way, or by the slip rule (R61 to R63, R67). -/
def judgeCount (s : State) : State :=
  match s.feed.move with
  | some m =>
    let x := s.feed.moveCount m
    match x.2 with
    | .none => s.mapFeed fun _ => x.1
    | .overrun => feedFault .overrun s
  | none => if s.feed.slipped then feedFault .slip s else s

/-- The encoder inputs change (R55). -/
def encoderChange (a b : Bool) (s : State) : State :=
  let d := encStep s.feed.profile.invert s.feed.encA s.feed.encB a b
  let t := s.mapFeed fun f => { f with encA := a, encB := b }
  if d = 0 then t
  else
    let t := t.mapFeed (Feed.count d)
    judgeCount
      (mediaFell (s.feed.roll.remaining - t.feed.roll.remaining)
        (chargeJog (t.feed.roll.reach - s.feed.roll.reach).toNat t))

/-! ### Detectors (R66, R68, R76) -/

/-- A drive window ends (R66). -/
def windowEnded (s : State) : State :=
  match s.feed.window with
  | some w =>
    if w.net < Config.stallCounts then feedFault .stall s
    else s.mapFeed fun f => { f with window := some { net := 0, left := Config.stallMs } }
  | none => s

/-- The EDGE input changes (R68, R76). -/
def edgeChanged (present : Bool) (s : State) : State :=
  let was := s.feed.edge
  let s := s.mapFeed fun f => { f with edge := present }
  match s.feed.load with
  | some (.search _) => if was = false ∧ present = true then edgeReference s else s
  | _ => if was = true ∧ present = false ∧ s.feed.forwardApproach = true then feedFault .mediaOut s else s

/-- The edge search has gone its 100,000 counts without EDGE changing (R76, log 5). -/
def searchLimit (s : State) : State :=
  match s.feed.load with
  | some (.search p) =>
    if Config.edgeSearchCounts ≤ (s.feed.pos - p).toInt then feedFault .edgeNotFound s else s
  | _ => s

/-! ### The knife cycle (R81) -/

/-- A plan cut is made (R15, R83, R84): cuts done rises; the next cut is planned, or the job leaves CUTTING. -/
def planCutDone (i : JobIx) (j : Job) (s : State) : State :=
  let cut := s.feed.position
  let s := s.mapFeed fun f => { f.cutMade with axis := .idle }
  let s := changeJob i (fun j => { j with cutsDone := j.cutsDone + 1 }) s
  if j.cutsDone + 1 < j.cuts.length then planCut i s
  else
    let piece := s.feed.pieceTo cut
    closeJob i piece
      (decideOutcome i .finished none
        (s.mapFeed fun f => { f with roll := { f.roll with pieceBase := some cut } }))

/-- A knife cycle completes (R81). -/
def knifeDone (s : State) : State :=
  match s.feed.load with
  | some _ => trimCutDone s
  | none =>
    match s.pathJob with
    | some (i, j) => planCutDone i j s
    | none => s.mapFeed fun f => { f.cutMade with axis := .idle }

/-- KNIFE_HOME changes (R81): the stroke passes to the return, or the cycle completes. -/
def knifeHomeChanged (active : Bool) (s : State) : State :=
  let s := s.mapFeed fun f => { f with knifeHome := active }
  match s.feed.knifeCycle with
  | some (.stroke _) =>
    if active then s else s.mapFeed fun f => { f with knifeCycle := some (.return_ Config.returnMs) }
  | some (.return_ _) => if active then knifeDone s else s
  | none => s

/-- The stroke has not left home in time (R81). -/
def strokeExpired (s : State) : State :=
  match s.feed.knifeCycle with
  | some (.stroke _) => feedFault .knife s
  | _ => s

/-- The knife has not come home in time (R81). -/
def returnExpired (s : State) : State :=
  match s.feed.knifeCycle with
  | some (.return_ _) => feedFault .knife s
  | _ => s

end Sys2Proof.Machine
end

