-- ==== Sys2Proof/Machine/Refill.lean ====
section
/-!
DEFINITION. The ink controller's operations (Ink Channels and Refill): the scan in its order, the refill tests,
endings and strokes, the pump arbiter, and the channel notices.
-/

namespace Sys2Proof.Machine

/-- An operation on each channel in turn, in channel order. -/
def eachChan (f : State → Chan → State) (s : State) : State := (List.finRange 10).foldl f s

/-- Queue the notice of every channel whose supply state, level condition or sticky events differ from what they
were (R108), in channel order. -/
def noticeChannels (before : Vector Channel 10) (s : State) : State :=
  eachChan (fun s c =>
    let x : Channel := before[c]
    let y : Channel := s.ink.chans[c]
    if x.supply = y.supply ∧ x.cond = y.cond ∧ x.sticky = y.sticky then s else notify (.channel c) s) s

/-! ### Refill endings (R106, R107) -/

/-- A refill ends without a leak check: pump off, grant released, progress discarded (R107). -/
def stopPump (c : Chan) (supply : Supply) (s : State) : State :=
  (setChan c (fun x => { x with supply := supply, pump := false, strokeLeft := none, progress := none }) s).mapInk
    fun k => { k with grants := k.grants.map fun g => if g = some c then none else g }

/-- A refill ends with its leak check, and the level at last refill end is recorded (R107, R118). -/
def endRefill (c : Chan) (supply : Supply) (s : State) : State :=
  setChan c (fun x => { x with levelEnd := x.level }) (leakCheck c (stopPump c supply s))

/-! ### Refill start test and pump arbiter (R103, R104) -/

/-- The refill start test passes (R103). -/
def Channel.needsRefill (x : Channel) : Bool :=
  decide (x.supply = .ready) && !x.fault && decide (x.level < x.profile.start)
    && decide (0 < (x.cart.map (·.remaining)).getD 0)

/-- The refill start test of a channel (R103). -/
def refillTest (s : State) (c : Chan) : State :=
  if s.ink.chans[c].needsRefill then
    (setChan c (fun x => { x with supply := .waiting }) s).mapInk fun k => { k with wait := k.wait ++ [c] }
  else s

/-- The waiting channel with the lowest level, the lowest number first (R104). -/
def Ink.lowestWaiting (k : Ink) : Option Chan :=
  ((List.finRange 10).filter fun c => k.wait.contains c).foldl
    (fun best c =>
      match best with
      | none => some c
      | some b => if k.chans[c].level < k.chans[b].level then some c else some b) none

/-- A free grant, the lowest (log 26). -/
def Ink.freeGrant (k : Ink) : Option (Fin 3) := (List.finRange 3).find? fun g => k.grants[g].isNone

/-- A channel is granted a pump (R104, R116). -/
def grantPump (g : Fin 3) (c : Chan) (s : State) : State :=
  ((setChan c (fun x =>
      { x with supply := .refilling, levelBegin := x.level, progress := some { strokes := 0, ring := [x.level] },
               pump := true, strokeLeft := some Config.pumpMs }) s).mapInk
    fun k => { k with wait := k.wait.erase c, grants := k.grants.set g (some c) }).mapAcct
    fun a => { a with useBegin := a.useBegin.set c a.use[c] }

/-- One grant of the arbiter, if a grant is free and a channel waits. -/
def grantOne (s : State) : State :=
  match s.ink.freeGrant, s.ink.lowestWaiting with
  | some g, some c => grantPump g c s
  | _, _ => s

/-- The pump arbiter (R104): at most three grants are free, so it repeats three times. -/
def arbiter (s : State) : State := grantOne (grantOne (grantOne s))

/-! ### The scan (R92 to R97) -/

/-- A reading is good (R92). -/
def goodRead (r : BitVec 10) : Bool := decide (8 ≤ r.toNat ∧ r.toNat ≤ 1015)

/-- A sample ring after a reading (R92, R94): filled by the first good reading, else pushed. -/
def sample (fill : Bool) (ring : List Nat) (r : BitVec 10) : List Nat :=
  if goodRead r then (if fill then List.replicate 8 r.toNat else ringPush 8 ring r.toNat) else ring

/-- A channel takes its reading: ring and sensor fault (R92, R94). -/
def Channel.read (first : Bool) (r : BitVec 10) (x : Channel) : Channel :=
  { x with
    ring := sample (first || x.fault) x.ring r
    fault := !goodRead r
    sticky := if goodRead r then x.sticky else { x.sticky with sensorFault := true } }

/-- A sensor fault begins on a channel: its part in a refill ends (R94, R106). -/
def faultRefill (s : State) (c : Chan) : State :=
  let x := s.ink.chans[c]
  if x.fault then
    match x.supply with
    | .waiting =>
      (setChan c (fun x => { x with supply := .ready }) s).mapInk fun k => { k with wait := k.wait.erase c }
    | .refilling => stopPump c .ready s
    | _ => s
  else s

/-- Level and level condition (R93, R96); entry into DRY sets the sticky event (R100). -/
def Channel.measure (first : Bool) (x : Channel) : Channel :=
  let level := if x.fault then 0 else levelOf x.profile (meanOf x.ring)
  let cond := levelCond x.profile level
  { x with
    level := level, cond := cond
    sticky := if cond = .dry ∧ (first = true ∨ x.cond ≠ .dry) then { x.sticky with dry := true } else x.sticky }

/-- The cartridge input of a channel (R97). -/
def cartInput (cart : Vector Bool 10) (s : State) (c : Chan) : State :=
  let x := s.ink.chans[c]
  if cart[c] then
    (if x.supply = .unfitted then setChan c (fun x => { x with supply := .undeclared }) s else s)
  else
    match x.supply with
    | .unfitted => s
    | .refilling => setChan c (fun x => { x with cart := none }) (stopPump c .unfitted s)
    | .waiting =>
      (setChan c (fun x => { x with supply := .unfitted, cart := none }) s).mapInk
        fun k => { k with wait := k.wait.erase c }
    | _ => setChan c (fun x => { x with supply := .unfitted, cart := none }) s

/-- The refill ending that a scan decides (R106). -/
def scanEnding (s : State) (c : Chan) : State :=
  let x := s.ink.chans[c]
  if x.supply = .refilling ∧ x.profile.stop ≤ x.level then endRefill c .ready s else s

/-- The humidity input (R95). -/
def Ink.readHumidity (first : Bool) (r : BitVec 10) (k : Ink) : Ink :=
  { k with humRing := sample (first || k.humFault) k.humRing r, humFault := !goodRead r }

/-- The channels whose returned event a scan raises (R96), and the mark for the next scan. -/
def Ink.anyReturned (k : Ink) : Bool := k.chans.toList.any fun x => x.returned && !x.above

def Ink.markAbove (k : Ink) : Ink := { k with chans := k.chans.map fun x => { x with above := x.returned } }

/-- The readings of a scan (R92): the ten channels and the humidity. -/
def Ink.readAll (first : Bool) (ain : Vector (BitVec 10) 11) (k : Ink) : Ink :=
  ({ k with chans := Vector.ofFn fun c : Fin 10 => k.chans[c].read first (ain[c.val]'(by omega)), scanned := true,
            scanLeft := Config.scanMs }).readHumidity first ain[10]

/-- The levels and level conditions of a scan (R93, R96). -/
def Ink.measureAll (first : Bool) (k : Ink) : Ink := { k with chans := k.chans.map (Channel.measure first) }

/-- A scan, in the order of R92, and then the resume test where a channel has returned (R132). Each of its passes takes
the channels in channel order, so that channels that need a refill in one scan join the wait list in it (log 49). -/
def scanAll (ain : Vector (BitVec 10) 11) (cart : Vector Bool 10) (s : State) : State :=
  let before := s.ink.chans
  let first := !s.ink.scanned
  let s := eachChan faultRefill (s.mapInk (Ink.readAll first ain))
  let s := eachChan (cartInput cart) (s.mapInk (Ink.measureAll first))
  let s := arbiter (eachChan refillTest (eachChan scanEnding s))
  let returned := s.ink.anyReturned
  let s := noticeChannels before (s.mapInk Ink.markAbove)
  if returned then resumeTest s else s

/-! ### Strokes (R105, R106) -/

/-- A stroke's effect on the cartridge and the progress (R105, steps 1 to 3). -/
def Channel.stroke (x : Channel) : Channel :=
  let cart := x.cart.map fun k => { k with remaining := k.remaining - Config.strokeUl }
  { x with
    cart := cart
    progress := x.progress.map fun p => { strokes := p.strokes + 1, ring := ringPush 41 p.ring x.level }
    strokeLeft := some Config.pumpMs
    sticky := if (cart.map (·.isLow)).getD false then { x.sticky with cartLow := true } else x.sticky }

/-- The progress check fails (R106). -/
def Channel.progressFails (x : Channel) : Bool :=
  match x.progress with
  | some p => decide (40 ≤ p.strokes ∧ x.level < p.ring.headD 0 + 500)
  | none => false

/-- The channel of a failed refill: nothing left, REFILL_FAIL and CART_LOW set (R106). -/
def Channel.failed (x : Channel) : Channel :=
  { x with cart := x.cart.map fun k => { k with remaining := 0 },
           sticky := { x.sticky with refillFail := true, cartLow := true } }

/-- A pump stroke on a REFILLING channel, with the endings it decides (R105, R106). -/
def strokePump (c : Chan) (s : State) : State :=
  let before := s.ink.chans
  if before[c].supply = .refilling then
    let s := setChan c Channel.stroke s
    let x := s.ink.chans[c]
    let s :=
      if x.progressFails then arbiter (endRefill c .empty (setChan c Channel.failed s))
      else if (x.cart.map (·.remaining)).getD 0 = 0 then arbiter (endRefill c .empty s)
      else s
    noticeChannels before s
  else s

/-! ### Requests on channels (R98, R101, R102) -/

/-- FIT_CARTRIDGE taken (R98); the event ends with the COLOUR_OUT holds (R161). -/
def fitCartridge (c : Chan) (k : Cartridge) (s : State) : State :=
  let before := s.ink.chans
  let drift := s.drift
  let s := setChan c (fun x =>
    { x with cart := some k, supply := if 0 < k.remaining then .ready else .empty, levelEnd := x.level,
             sticky := if k.isLow then { x.sticky with cartLow := true } else x.sticky }) s
  let s := s.mapAcct fun a => { a with use := a.use.set c 0 }
  let s := s.mapDrift (Drift.fit c k.lot)
  settleDrift drift (noticeChannels before (arbiter (refillTest (notify (.channel c) s) c)))

/-- The level of a channel under a new profile (R102); it is kept while no reading has been taken (log 10). -/
def Channel.withProfile (p : InkProfile) (x : Channel) : Channel :=
  let level := if x.fault ∨ x.ring = [] then x.level else levelOf p (meanOf x.ring)
  let cond := levelCond p level
  let y : Channel :=
    { x with
      profile := p, level := level, cond := cond
      sticky := if cond = .dry ∧ x.cond ≠ .dry then { x.sticky with dry := true } else x.sticky }
  { y with above := y.returned }

/-- SET_INK_PROFILE taken (R102), with the channel returned event it may raise (R96). -/
def setProfile (c : Chan) (p : InkProfile) (s : State) : State :=
  let before := s.ink.chans
  let s := setChan c (Channel.withProfile p) s
  let returned := s.ink.chans[c].returned && !before[c].above
  let s := noticeChannels before (arbiter (refillTest (notify (.channel c) s) c))
  if returned then resumeTest s else s

/-- The clear option of INK_STATUS on one channel (R101). -/
def clearSticky (s : State) (c : Chan) : State :=
  let x := s.ink.chans[c]
  if x.afterClear = x.sticky then s
  else notify (.channel c) (setChan c (fun x => { x with sticky := x.afterClear }) s)

end Sys2Proof.Machine
end

