-- ==== Sys2Proof/Machine/Report.lean ====
section
/-!
DEFINITION. The contents of reports and notices: each snapshot as the bytes that the reply or notice carries
(R191, R195). Fields stand in the order of the owner's table; log 24 says what the widths not given are.
-/

namespace Sys2Proof.Machine

/-! ### Small groups -/

/-- An optional signed position. -/
def position (p : Option Int) : Bytes := optional 4 (p.map s32)

/-- A timer: its state, 0 running and 1 stopped, in the order in which R127 and R145 list the two (section 12.5), and the
time left in ms, 0 while stopped (log 24). -/
def timer (t : Option Nat) : Bytes := u8 (if t.isSome then 0 else 1) ++ u32 (t.getD 0)

/-! ### Jobs (R23, R24, R25) -/

/-- One entry of the ink used (R120). -/
def inkEntryBytes (e : InkEntry) : Bytes :=
  u8 e.chan ++ u32 e.used
    ++ optional 13 (if e.estimated then
        some (u32 e.drawn ++ u32 e.remaining ++ u32 e.overdraw ++ yesNo e.released) else none)

/-- The verdict of the strip of a job, `none` without a strip. -/
def Job.verdict (j : Job) : Option (Option Verdict) := j.strip.map (·.verdict)

/-- The fields of R23 with the generation of the job's price slot, with or without the ink used. The ink used lists
the estimate's pairs in the order of the request, then the channels outside it in the order in which their entries were
made (log 50). A cut offset takes 4 bytes (log 58). -/
def jobRecordBytes (priceGen : Nat) (i : JobIx) (withInk : Bool) (j : Job) : Bytes :=
  u8 i ++ u16 j.tag ++ u8 j.state.code ++ u8 (outcomeCode j.outcome) ++ u8 (causeCode j.cause) ++ u8 j.holds.code
    ++ u16 j.printLen ++ counted u32 j.cuts ++ u8 j.cutsDone
    ++ counted (fun p : Chan × Nat => u8 p.1 ++ u32 p.2) j.est
    ++ (if withInk then counted inkEntryBytes j.ink else [])
    ++ u32 ((j.edition.map (·.id)).getD 0) ++ u16 ((j.edition.map (·.copy)).getD 0)
    ++ u8 j.mode.code ++ yesNo j.forced
    ++ u16 ((j.strip.map (·.length)).getD 0) ++ u8 (verdictCode j.verdict) ++ u8 (voidCode (j.verdict.getD none))
    ++ u32 priceGen ++ u32 j.mediaRes ++ position j.startPos ++ u8 j.flags.code

/-- The fields of R23 of a live job, as they stand. -/
def jobFields (s : State) (i : JobIx) (withInk : Bool) (j : Job) : Bytes :=
  jobRecordBytes (s.cost.generation j.priceSlot) i withInk j

/-- LIST_JOBS's content (R24). The entries are a list with a count byte of its own after the two counts of slots
(log 66). -/
def listJobsReport (s : State) : Bytes :=
  u8 (s.slotsWhere Slot.isLive).length ++ u8 (s.slotsWhere Slot.isReleasing).length
    ++ counted (fun p : JobIx × Job =>
        u8 p.1 ++ u16 p.2.tag ++ u8 p.2.state.code ++ u8 p.2.holds.code ++ u8 (outcomeCode p.2.outcome)) s.liveJobs

/-- The content of a job-slot notice (R25): for a RELEASING slot the record as it stood when the job left. -/
def jobSlotReport (s : State) (i : JobIx) : Bytes :=
  match s.jobs.slots[i] with
  | .free => u8 Slot.free.code
  | .live j => u8 (Slot.live j).code ++ jobFields s i false j
  | .releasing j gen => u8 (Slot.releasing j gen).code ++ jobRecordBytes gen i false j

/-! ### Editions and the store (R36, R51) -/

/-- Membership map over the copy numbers 1 to 999: number `k` at bit `k − 1` of 125 bytes. -/
def membership (xs : List Nat) : Bytes :=
  (List.range 125).map fun i => BitVec.ofNat 8 (bitMap ((List.range 8).map fun k => xs.contains (8 * i + k + 1)))

/-- QUERY_EDITION's content (R36). -/
def editionReport (d : Editions) (e : EdIx) : Bytes :=
  let m := d.image[e]
  let free := d.freeNumbers e
  u8 e ++ u8 m.state.code ++ u32 m.id ++ u16 m.limit
    ++ yesNo (decide (m.state = .opened ∨ m.state = .closed) && m.issued.length == m.limit)
    ++ u16 free.length ++ u16 (free.headD 0)
    ++ membership m.issued ++ membership d.unrec[e] ++ membership d.resv[e]
    ++ u8 (blockOf e) ++ u32 d.change[blockOf e] ++ u32 d.persisted[blockOf e]

/-- The reply content of the three requests that change the image (section 2.3). -/
def editionChanged (d : Editions) (e : EdIx) : Bytes := u8 e ++ u8 (blockOf e) ++ u32 d.change[blockOf e]

/-- The per-block fields of STORE_STATUS (R51); `none` is unknown, before the headers have been read: code 0 for role
and mark (log 25), an absent erase count (R191). -/
def blockBytes (b : Option BlockInfo) : Bytes :=
  u8 ((b.map (·.role.code)).getD 0) ++ optional 2 (b.map fun b => u16 b.erases) ++ u8 ((b.map (·.mark.code)).getD 0)

/-- STORE_STATUS's content (R51); the per-block fields are unknown until the headers have been read, and the two counts
0 (log 40). One presence byte stands before the group of a rotation in flight, its logical and its physical block
(log 52). -/
def storeReport (d : Editions) : Bytes :=
  let spares := if d.headersRead then (d.blocksWhere Role.isSpare).length else 0
  let retired := if d.headersRead then (d.blocksWhere Role.isRetired).length else 0
  u8 d.store.code ++ u8 spares ++ u8 retired
    ++ d.table.toList.flatMap (fun b => blockBytes (if d.headersRead then some b else none))
    ++ counted (fun b : LBlock => u8 b) d.writes
    ++ optional 2 (d.rot.map fun r => u8 r.block ++ u8 r.phys)
    ++ (List.finRange 4).flatMap (fun b => u32 d.change[b] ++ u32 d.persisted[b])
    ++ u32 d.seqCounter

/-! ### Feed axis (R71, R89) -/

def feedProfileBytes (p : FeedProfile) : Bytes :=
  u16 p.slow ++ u8 p.window ++ u8 p.settle ++ u16 p.backoff ++ yesNo p.reversal ++ u16 p.slip ++ yesNo p.invert
    ++ u8 p.lead ++ u8 p.trim ++ u8 p.sensor ++ u16 p.knife

/-- The near zone of an approach (R61): the remaining distance is the slow distance or less. -/
def Feed.near (f : Feed) (target : Int) : Bool := decide (target - f.position ≤ 100 * (f.profile.slow : Int))

/-- The move record (R71). The zone byte is 0 outside the approach phase, 1 in the far zone and 2 in the near zone
(log 43). -/
def moveBytes (f : Feed) (m : Move) : Bytes :=
  s32 m.target ++ u8 m.by_.code ++ u8 m.phase.code
    ++ u8 (match m.phase with | .approach => if f.near m.target then 2 else 1 | _ => 0)
    ++ yesNo m.reversalUsed ++ position m.endPoint

/-- FEED_STATUS's content (R71, R89). The position's mark of validity is a yes-or-no byte after it (log 44). The drive
outputs are bits 0 to 3 of one byte in the order of R71 (log 62); EDGE shows 1 for media present and KNIFE_HOME 1 for the
knife at rest (log 63). -/
def feedReport (s : State) : Bytes :=
  let f := s.feed
  let r := f.roll
  u8 f.axis.code ++ yesNo f.referenced ++ s32 f.position ++ yesNo f.referenced ++ position f.rest
    ++ optional 13 (f.move.map (moveBytes f))
    ++ u8 (bitMap [f.drive = .fast, f.drive = .slow, f.drive = .rev, f.knife]) ++ yesNo f.edge ++ yesNo f.knifeHome
    ++ optional 6 (f.fault.map fun x => u8 x.kind.code ++ u8 x.axis.code ++ s32 x.pos)
    ++ feedProfileBytes f.profile
    ++ s16 f.trimBase ++ s16 f.trimFine ++ s16 f.effectiveTrim
    ++ u8 r.state.code ++ u32 r.id ++ u8 r.mediaType ++ u32 r.declared ++ s32 r.consumed ++ s32 r.reach
    ++ u32 r.remaining ++ u32 s.reserved ++ u8 (s.liveJobs.filter fun p => p.2.holds.noMedia).length
    ++ u8 r.lastEvent.code ++ position (match r.lastEvent with | .cut p => some p | _ => none) ++ position r.pieceBase

/-! ### Ink channels (R101, R108, R120) -/

def inkProfileBytes (p : InkProfile) : Bytes :=
  u8 p.drop ++ u16 p.emptyAt ++ u16 p.fullAt ++ u16 p.start ++ u16 p.stop ++ u16 p.floor

/-- Number of live jobs whose unreleased entries hold reservation on a channel. -/
def State.holders (s : State) (c : Chan) : Nat :=
  (s.liveJobs.filter fun p =>
    p.2.ink.any fun e => e.chan == c && !e.released && decide (0 < e.remaining)).length

/-- The per-channel part of INK_STATUS (R101). The unavailable reason is 0 for an available channel, else its place in
R111's list counted from 1 (log 48). -/
def channelReport (s : State) (c : Chan) : Bytes :=
  let ch := s.ink.chans[c]
  u8 ch.supply.code ++ u16 ch.level ++ yesNo ch.fault ++ u8 ch.cond.code
    ++ optional 12 (ch.cart.map fun k => u32 k.capacity ++ u32 k.remaining ++ u32 k.lot)
    ++ inkProfileBytes ch.profile ++ u8 ch.sticky.code ++ u16 ch.levelBegin ++ u16 ch.levelEnd
    ++ optional 6 (ch.progress.map fun p => u32 p.strokes ++ u16 (p.ring.headD 0))
    ++ s32 (s.availability c) ++ u8 ((ch.unavailable.map (·.code + 1)).getD 0)
    ++ u32 (s.heldNl c) ++ u8 (s.holders c) ++ u32 s.acct.use[c] ++ u32 s.acct.useBegin[c] ++ u16 s.acct.carry[c]

/-- The shared part of INK_STATUS (R101). -/
def inkShared (k : Ink) : Bytes :=
  counted (fun c : Chan => u8 c) k.wait ++ k.grants.toList.flatMap (fun g => u8 (chanCode g))
    ++ u8 k.humidity ++ yesNo k.humFault

/-! ### Engine link (R137) -/

def contextBytes (x : PrintContext) : Bytes :=
  u16 x.tag ++ u8 x.phase.code ++ u16 x.next.toNat ++ optional 2 (x.inFeed.map fun w => u16 w.toNat)
    ++ timer x.swathTimer ++ timer x.dryTimer

def engineCounters (e : EngineLink) : Bytes := u16 e.crcDrops ++ u16 e.overDrops ++ u16 e.gapDrops ++ u16 e.protoErrors

/-- ENGINE_STATUS's content (R137). -/
def engineReport (e : EngineLink) : Bytes :=
  u8 e.state.code ++ [e.code] ++ optional 18 (e.ctx.map contextBytes) ++ u32 e.txList.length ++ engineCounters e

/-! ### Colour checker (R141, R155) -/

def colourBytes (c : Colour) : Bytes := u16 c.l.toNat ++ s16 c.a ++ s16 c.b

/-- READ_PATCHES's content (R141): the 48 entries in index order, without a count (log 61). -/
def patchesReport (k : Checker) : Bytes :=
  k.patches.toList.flatMap fun p => optional 7 (p.map fun e => colourBytes e.target ++ u8 (chanCode e.dominant))

/-- The strip profile in CHECK_STATUS (R155): a yes-or-no byte, 1 for set (log 65), and the fields of R142. -/
def stripProfileBytes (p : StripProfile) : Bytes :=
  yesNo p.set.isSome ++ u8 ((p.set.map (·.t)).getD 0) ++ u8 ((p.set.map (·.stride)).getD 0)
    ++ optional 1 (p.set.map fun g => u8 g.seed)
    ++ u8 p.m ++ u8 p.runMin ++ u8 p.runMax ++ u8 p.pitch ++ u16 p.markThreshold ++ u16 p.tolerance ++ u8 p.allowed
    ++ u16 p.meanTolerance ++ u16 p.gross ++ yesNo p.learn ++ u16 p.dwellLow ++ u16 p.dwellMid ++ u16 p.dwellHigh

def resultBytes (r : PatchResult) : Bytes :=
  u8 r.index ++ u8 (chanCode r.dominant) ++ colourBytes r.colour ++ u32 r.deltaE ++ yesNo r.failing

/-- The strip context (R145): run length in 4 bytes, failing count in 1 (log 55), and the fields that have no value before
SEARCH or LOCKED as `StripContext.atDwell` leaves them (log 54). -/
def stripContextBytes (x : StripContext) : Bytes :=
  u8 x.slot ++ u16 x.tag ++ u8 x.geo.t ++ u8 x.geo.stride ++ u8 x.geo.seed ++ u8 x.geo.m ++ u8 x.geo.pitch
    ++ counted u8 x.order ++ timer x.dwell ++ position x.stripStart ++ u32 x.n ++ u8 x.inSearch ++ u32 x.run
    ++ u8 x.voids ++ u8 x.patch ++ yesNo x.lastGross ++ u8 x.failing ++ u32 x.sum ++ counted resultBytes x.results

/-- The last strip record (R155). A yes-or-no byte for 'stopped' stands between verdict and void cause; a stopped strip
has no verdict, carried by the code of a verdict not judged (log 51). Patches evaluated takes 4 bytes, the failing count 1
(log 55). -/
def lastStripBytes (x : LastStrip) : Bytes :=
  u16 x.tag ++ u8 (verdictCode (some x.verdict)) ++ yesNo x.stopped ++ u8 (voidCode x.verdict) ++ u32 x.evaluated
    ++ u8 x.failing ++ u32 x.mean ++ counted resultBytes x.results

def checkCounters (k : CheckCounters) : Bytes :=
  u16 k.started ++ u16 k.passed ++ u16 k.failed ++ u16 k.voided ++ u16 k.evaluated ++ u16 k.patchesFailed
    ++ u16 k.timeouts

/-- CHECK_STATUS's content (R155). -/
def checkReport (k : Checker) : Bytes :=
  u8 k.state.code ++ stripProfileBytes k.profile ++ optional 37 (k.ctx.map stripContextBytes)
    ++ optional 15 (k.last.map lastStripBytes) ++ checkCounters k.counters

/-! ### Drift (R164) -/

/-- DRIFT_STATUS's content (R164). The number of values in a ring and the count byte of the list of its values are one byte,
sent once (log 56). -/
def driftReport (s : State) : Bytes :=
  let held := s.liveJobs.filter fun p => p.2.holds.colourOut
  u16 s.drift.warn ++ u16 s.drift.out
    ++ (List.finRange 10).flatMap (fun c =>
        let ring := s.drift.rings[c]
        u8 s.drift.states[c].code ++ counted u32 ring
          ++ optional 4 (if ring.isEmpty then none else some (u32 (meanOf ring)))
          ++ optional 4 (s.drift.lots[c].map u32)
          ++ u8 (held.filter fun p => p.2.est.any fun q => q.1 == c).length)
    ++ u8 held.length ++ optional 1 (s.chk.profile.set.map fun _ => yesNo s.chk.profile.learn)

/-! ### Costs (R169, R173, R174, R177) -/

def pricesBytes (p : Prices) : Bytes :=
  p.ink.toList.flatMap u32 ++ p.media.toList.flatMap u32 ++ u32 p.cut

/-- PRICE_STATUS's content (R169). -/
def priceReport (c : Cost) : Bytes :=
  optional 1 (c.current.map fun p => u8 p) ++ u32 c.genCounter
    ++ (List.finRange 4).flatMap fun p =>
        u8 (c.slotState p).code ++ u32 (c.generation p) ++ u8 c.slots[p].refs
          ++ (match c.slots[p].loaded with
              | some (_, l) => pricesBytes l
              | none => List.replicate 76 0)

/-- A cost record as COST_TAKE returns it (section 12.4). -/
def costRecordBytes (r : CostRecord) : Bytes :=
  u16 r.tag ++ u8 (outcomeCode r.outcome) ++ u8 (causeCode r.cause) ++ u8 r.flags.code ++ u8 r.mediaType
    ++ u32 r.edition ++ u16 r.copy ++ u32 (r.commitGen.getD 0) ++ u32 r.priceGen ++ u32 r.piece ++ u8 r.cuts
    ++ u8 (verdictCode (r.strip.map (·.2))) ++ u8 (voidCode ((r.strip.map (·.2)).getD none))
    ++ u16 ((r.strip.map (·.1)).getD 0)
    ++ u32 r.inkCost ++ u32 r.mediaCost ++ u32 r.cutCost ++ u32 r.total
    ++ counted (fun p : Chan × Nat => u8 p.1 ++ u32 p.2) r.ink

/-- The cost log notice's content (R174). -/
def costLogReport (c : Cost) : Bytes :=
  u8 c.log.length ++ u8 c.waiting.length ++ u8 c.critical ++ u16 ((c.log.head?.map (·.tag)).getD 0)
    ++ u16 ((c.log.getLast?.map (·.tag)).getD 0)

/-- The quantities of the overhead account in the order of R176. -/
def Overhead.quantities (o : Overhead) : List Nat :=
  o.maint.toList ++ o.unaccounted.toList ++ o.trim.toList ++ o.jog.toList ++ [o.knife]

/-- The quantities priced one by one at a price list (R171, R177). -/
def Overhead.priced (o : Overhead) (p : Prices) : List Nat :=
  let ink := fun (v : Vector Nat 10) => (v.zipWith (fun q r => sat32 (q * r / 10000000)) p.ink).toList
  let media := fun (v : Vector Nat 8) => (v.zipWith (fun q r => sat32 (q * r / 100000)) p.media).toList
  ink o.maint ++ ink o.unaccounted ++ media o.trim ++ media o.jog ++ [sat32 (o.knife * p.cut)]

/-- The price list of the current slot with its generation. -/
def Cost.currentList (c : Cost) : Option (Nat × Prices) := c.current.bind fun p => c.slots[p].loaded

/-- OVERHEAD_READ's content (R177): every quantity, then the priced figures and their total together behind one presence
byte, and last, outside that group, the generation of the slot used, 0 without one (log 68). -/
def overheadReport (c : Cost) : Bytes :=
  c.overhead.quantities.flatMap u32
    ++ optional 152 (c.currentList.map fun l =>
        (c.overhead.priced l.2).flatMap u32 ++ u32 (sat32 (c.overhead.priced l.2).sum))
    ++ u32 ((c.currentList.map (·.1)).getD 0)

/-! ### Host link (R187, R188) -/

def hostCounters (h : HostLink) : Bytes := u16 h.crcDrops ++ u16 h.overDrops ++ u16 h.gapDrops ++ u16 h.busyCount

/-- IDENTIFY's content (R188). -/
def identifyReport (h : HostLink) : Bytes :=
  u16 Config.vendorCode ++ u16 Config.partCode ++ u8 Config.siliconRevision ++ u32 (baud h.rate1 h.rate0)

/-- STATUS's content (R188). -/
def statusReport (s : State) : Bytes :=
  u8 s.feed.axis.code ++ u8 s.feed.roll.state.code ++ u8 s.ed.store.code ++ u8 s.chk.state.code
    ++ u8 s.eng.state.code ++ [s.eng.code]
    ++ u8 (s.slotsWhere Slot.isLive).length ++ optional 1 (s.pathJob.map fun p => u8 p.1)
    ++ u8 (s.slotsWhere Slot.isReleasing).length ++ u8 s.cost.log.length ++ u8 s.cost.waiting.length
    ++ u8 s.host.queue.length

/-- The snapshot of a subject, as its notice carries it after the subject number (section 12.4). -/
def snapshot (s : State) : Subject → Bytes
  | .jobSlot i => jobSlotReport s i
  | .channel c => channelReport s c
  | .feedAxis => feedReport s
  | .checker => checkReport s.chk
  | .costLog => costLogReport s.cost
  | .store => storeReport s.ed

/-! ### What the lines carry (R179, R186, R192, R194, R196) -/

/-- The frame being sent on HOST_TXD. -/
def TxFrame.bytes : TxFrame → Bytes
  | .reply r => frameBytes r.kind r.tag r.body
  | .notice _ _ seq body => frameBytes 0xF0 seq body

/-- Kind and body of a message to the engine (R194). -/
def EngineMsg.kindBody : EngineMsg → Byte × Bytes
  | .start tag len marks order => (0x01, u16 tag ++ u16 len ++ u8 marks ++ counted u8 order)
  | .feedDone tag index => (0x02, u16 tag ++ bytes16 index)
  | .hold tag => (0x03, u16 tag)
  | .resume tag => (0x04, u16 tag)
  | .abort tag => (0x05, u16 tag)

/-- The frame of a message to the engine: its tag byte is 0 (R124). -/
def EngineMsg.bytes (m : EngineMsg) : Bytes := frameBytes m.kindBody.1 0 m.kindBody.2

/-- The frame being sent on ENG_TXD: the front of the transmit list (R125). -/
def EngineLink.sendingBytes (e : EngineLink) : Option Bytes := e.txList.head?.map (·.bytes)

/-- What the 7G writes on the sensor link for the measure command (R196). -/
def measureBytes : Bytes := [0x74, 0x4D]

/-- The address byte of a result read (R196). -/
def resultAddress : Byte := 0x75

end Sys2Proof.Machine
end

