-- ==== Sys2Proof/Machine/Host.lean ====
section
/-!
DEFINITION. The host link controller's operations (The Host Link and Notices): the reply discipline, the line, and the
sending of notices.
-/

namespace Sys2Proof.Machine

/-! ### Status bytes (R183) -/

def okStatus : Byte := 0x00
def emptyStatus : Byte := 0x01
def badRequest : Byte := 0x10
def linkBusy : Byte := 0x11
def refusedState : Byte := 0x20
def refusedRange : Byte := 0x21
def refusedDuplicate : Byte := 0x22
def refusedFull : Byte := 0x23
def refusedUnknown : Byte := 0x24
def refusedPrice : Byte := 0x25
def refusedMedia : Byte := 0x26
def refusedEdition : Byte := 0x27
def refusedStore : Byte := 0x28
def refusedInk : Byte := 0x29
def tooLate : Byte := 0x30

/-- What an owner answers: the state after its effects, and the reply body. -/
abbrev Answer := State × Bytes

/-- A refusal: nothing changes, and the body is the status alone (R183). -/
def refuse (status : Byte) (s : State) : Answer := (s, [status])

/-- An OK reply that changes nothing: a report. -/
def report (content : Bytes) (s : State) : Answer := (s, okStatus :: content)

/-! ### The one-request discipline (R181, R182) -/

/-- The kind of the reply to a request kind (R181). A kind of 0x80 or above has no reply kind of its own: its BAD_REQUEST
reply carries 0xFF, and the model gives 0xFF to its LINK_BUSY and REFUSED_STATE answers too (log 57). -/
def replyKind (kind : Byte) : Byte := if kind.msb then 0xFF else kind + 0x80

/-- A request of a kind and frame tag completes: it is executed by its owner, refused during a RESTART, answered
LINK_BUSY, or discarded (R181, R182, R189). -/
def serve (kind ft : Byte) (owner : State → Answer) (s : State) : State :=
  let fill := fun (body : Bytes) => some { kind := replyKind kind, tag := ft, body := body : Reply }
  match s.host.reply, s.host.busy with
  | none, _ =>
    if s.host.restart = .none then
      let a := owner s
      a.1.mapHost fun h => { h with reply := fill a.2 }
    else s.mapHost fun h => { h with reply := fill [refusedState] }
  | some _, none =>
    s.mapHost fun h => { h with busy := fill [linkBusy], busyCount := sat16 (h.busyCount + 1) }
  | some _, some _ => s.mapHost fun h => { h with busyCount := sat16 (h.busyCount + 1) }

/-! ### The outbound line (R184, R186, R189) -/

/-- During a RESTART, no frame is begun once its reply has gone and the store is drained (R189). -/
def State.lineClosed (s : State) : Bool := decide (s.host.restart = .replyGone) && s.ed.drained

/-- The slot that a subject names is RELEASING. -/
def State.showsReleasing (s : State) : Subject → Bool
  | .jobSlot i => s.jobs.slots[i].isReleasing
  | _ => false

/-- A notice frame begins (R186). -/
def beginNotice (sub : Subject) (s : State) : State :=
  let seq := s.host.seq + 1
  let body := u8 sub.number ++ snapshot s sub
  let rel := s.showsReleasing sub
  s.mapHost fun h => { h with seq := seq, tx := some (.notice sub rel seq body) }

/-- The line, where it is free, is given to the reply, else to the front notice (R184). Every event ends with this
choice (log 3). -/
def giveLine (s : State) : State :=
  if s.host.tx.isSome ∨ s.lineClosed = true then s
  else
    match s.host.reply, s.host.queue with
    | some r, _ => s.mapHost fun h => { h with tx := some (.reply r) }
    | none, sub :: _ => beginNotice sub s
    | none, [] => s

/-- A request command: judged and answered, and the line given. -/
def requestEvent (kind ft : Byte) (owner : State → Answer) (s : State) : State := giveLine (serve kind ft owner s)

/-- The last byte of a reply is sent (R182): the busy answer moves in; the reply to RESTART has gone (R189). -/
def replyGone (s : State) : State :=
  match s.host.tx with
  | some (.reply _) =>
    s.mapHost fun h =>
      { h with tx := none, reply := h.busy, busy := none,
               restart := if h.restart = .replyWaiting then .replyGone else h.restart }
  | _ => s

/-- A RELEASING slot becomes FREE (R1). -/
def freeSlot (sub : Subject) (s : State) : State :=
  match sub with
  | .jobSlot i =>
    if s.jobs.slots[i].isReleasing then s.mapJobs fun t => { t with slots := t.slots.set i .free } else s
  | _ => s

/-- The last byte of a notice is sent (R186). -/
def noticeGone (s : State) : State :=
  match s.host.tx with
  | some (.notice sub releasing _ _) =>
    (if releasing then freeSlot sub s else s).mapHost fun h =>
      { h with tx := none, marked := false,
               queue := if h.marked then h.queue.drop 1 ++ [sub] else h.queue.drop 1 }
  | _ => s

/-! ### Resets (R26, R49, R72, R109, R121, R138, R156, R165, R178, R190) -/

/-- The reset effect on every block; the flash keeps what it holds, the pins keep their levels, and the waiting
commands stay (log 36). -/
def resetAll (rate1 rate0 : Bool) (flash : Vector FlashBlock 6) (s : State) : State where
  pending := s.pending
  host := HostLink.atReset rate1 rate0
  jobs := JobTable.atReset
  ed := Editions.atReset flash
  feed := Feed.atReset s.feed.encA s.feed.encB s.feed.edge s.feed.knifeHome
  ink := Ink.atReset
  acct := Account.atReset
  eng := EngineLink.atReset
  chk := Checker.atReset
  drift := Drift.atReset
  cost := Cost.atReset

/-- The flash as a power-on reset finds it (R49): the spare of a rotation in programming ends as `flight` says. -/
def flashAfterLoss (flight : FlightEnd) (d : Editions) : Vector FlashBlock 6 :=
  match d.rot with
  | some r =>
    match r.phase, flight with
    | .programming, .blank => d.flash.set r.phys FlashBlock.erased
    | .programming, .complete => modifyAt d.flash r.phys fun b => { b with mark := .complete }
    | _, _ => d.flash
  | none => d.flash

/-- The reset effect of RESTART may be taken (R189): its reply has gone, the store is drained, and no frame is being
sent. -/
def State.restartDue (s : State) : Bool :=
  decide (s.host.restart = .replyGone) && s.ed.drained && s.host.tx.isNone

end Sys2Proof.Machine
end

