-- ==== Sys2Proof/Machine/Submit.lean ====
section
/-!
DEFINITION. SUBMIT_JOB (R5 to R9): the checks in order, the strip decision, and the acceptance.
-/

namespace Sys2Proof.Machine

/-- The strip geometry of the profile in force (section 1.2); absent while the profile is unset. -/
def StripProfile.geometry (p : StripProfile) : Option Geometry :=
  p.set.map fun g => { t := g.t, stride := g.stride, seed := g.seed, m := p.m, pitch := p.pitch }

/-- The body is well formed in counts, colour mode and copy number (R5). -/
def JobOrder.formed (o : JobOrder) : Option ColourMode :=
  if (1 ≤ o.cuts.length ∧ o.cuts.length ≤ 3) ∧ (1 ≤ o.est.length ∧ o.est.length ≤ 10)
      ∧ (o.copy = 0 ∨ o.edition ≠ 0) then ColourMode.ofByte o.mode
  else none

/-- Strictly increasing. -/
def increasing : List Nat → Bool
  | x :: y :: r => decide (x < y) && increasing (y :: r)
  | _ => true

/-- Step 4 (R7): the estimate when everything is in range; `stripLen` is 0 for colour mode NONE. -/
def JobOrder.inRange (o : JobOrder) (mode : ColourMode) (g : Option Geometry) : Option (List (Chan × Nat)) :=
  let len := o.printLen.toNat
  let cuts := o.cuts.map (·.toNat)
  let stripLen := if mode = .plain then 0 else (g.map (·.length)).getD 0
  if o.tag ≠ 0 ∧ (100 ≤ len ∧ len ≤ 20000) ∧ increasing cuts = true ∧ (cuts.all fun c => decide (len ≤ c)) = true
      ∧ lastOffset cuts ≤ len + stripLen + 1000 ∧ (mode = .plain ∨ g.isSome = true)
  then readEstimate o.est else none

/-- Step 7 (R6): the copy number asked for, with the edition slot, or the refusal. -/
def judgeEdition (s : State) (id copy : Nat) : Except Byte (Option (EdIx × Nat)) :=
  if id = 0 then .ok none
  else if s.ed.store ≠ .ready then .error refusedStore
  else
    match s.ed.slotOf id with
    | none => .error refusedEdition
    | some e =>
      if s.ed.image[e].state ≠ .opened then .error refusedEdition
      else if copy = 0 then
        match s.ed.freeNumbers e with
        | k :: _ => .ok (some (e, k))
        | [] => .error refusedEdition
      else if s.ed.isFree e copy then .ok (some (e, copy)) else .error refusedEdition

/-- A NONE job gets a forced strip (R163). -/
def forcesStrip (s : State) (mode : ColourMode) (est : List (Chan × Nat)) : Bool :=
  decide (mode = .plain) && s.chk.profile.set.isSome && s.chk.profile.learn
    && est.any fun p => decide (s.drift.states[p.1] = .unverified)

/-- The plan of a job whose strip is forced: the last offset covers the strip and 10 mm (R8). -/
def raiseLast (cuts : List Nat) (least : Nat) : List Nat :=
  cuts.dropLast ++ [max (lastOffset cuts) least]

/-- The geometry of the job's strip, and whether it is forced (R8). -/
def stripOf (s : State) (mode : ColourMode) (est : List (Chan × Nat)) : Option Geometry × Bool :=
  let forced := forcesStrip s mode est
  (if mode = .plain ∧ forced = false then none else s.chk.profile.geometry, forced)

/-- The cut plan as adjusted for a forced strip (R8). -/
def planOf (o : JobOrder) (g : Option Geometry) (forced : Bool) : List Nat :=
  let cuts := o.cuts.map (·.toNat)
  match forced, g with
  | true, some g => raiseLast cuts (o.printLen.toNat + g.length + 10)
  | _, _ => cuts

/-- The job record at acceptance (R3, R9). -/
def newJob (s : State) (o : JobOrder) (mode : ColourMode) (est : List (Chan × Nat)) (ed : Option (EdIx × Nat))
    (g : Option Geometry) (forced : Bool) (price : PriceIx) : Job :=
  let cuts := planOf o g forced
  let planned := plannedFor s.feed cuts ((g.map (·.length)).getD 0)
  { tag := o.tag.toNat, state := .pending, outcome := none, cause := none,
    holds := { noMedia := false, colourOut := decide (mode = .critical) && est.any fun p => decide (s.drift.states[p.1] = .out) },
    printLen := o.printLen.toNat, cuts := cuts, est := est, lots := none,
    edition := ed.map fun x => { id := o.edition.toNat, copy := x.2, slot := x.1 },
    mode := mode, forced := forced,
    strip := g.map fun g => { geo := g, length := g.length, order := none, marks := none, verdict := none },
    priceSlot := price, mediaRes := planned, planned := planned, drawn := 0, startPos := none, cutsDone := 0,
    commitGen := none, flags := JobFlags.none, ink := freshEntries est, spoilWait := false, costIn := false,
    commitOpen := false }

/-- The acceptance (R9), before the start conditions are evaluated. -/
def acceptJob (i : JobIx) (j : Job) (s : State) : State :=
  let s := s.mapJobs fun t => { t with slots := t.slots.set i (.live j), order := t.order ++ [i] }
  let s :=
    match j.edition with
    | some x => s.mapEd (Editions.reserve x.slot x.copy)
    | none => s
  let s := s.mapCost fun k => { k with slots := modifyAt k.slots j.priceSlot fun p => { p with refs := p.refs + 1 } }
  notify (.jobSlot i) s

/-- The reply to an accepted job (R9). -/
def acceptReply (s : State) (i : JobIx) (j : Job) : Bytes :=
  okStatus :: (u8 i ++ u16 ((j.edition.map (·.copy)).getD 0) ++ u32 (s.cost.generation j.priceSlot) ++ yesNo j.forced)

/-- The body of REFUSED_INK (R111). -/
def inkRefusal (fails : List (Chan × InkReason × Int)) : Bytes :=
  refusedInk :: counted (fun x : Chan × InkReason × Int => u8 x.1 ++ u8 x.2.1.code ++ s32 x.2.2) fails

/-- Steps 8 and 9 of the checks, and the acceptance (R6, R8, R9). -/
def submitLast (o : JobOrder) (mode : ColourMode) (est : List (Chan × Nat)) (ed : Option (EdIx × Nat)) (i : JobIx)
    (price : PriceIx) (s : State) : Answer :=
  match judgeEstimate s est with
  | [] =>
    let g := stripOf s mode est
    let j := newJob s o mode est ed g.1 g.2 price
    if j.planned + s.reserved ≤ s.feed.roll.remaining then
      (startEval (acceptJob i j s), acceptReply s i j)
    else refuse refusedMedia s
  | fails => (s, inkRefusal fails)

/-- SUBMIT_JOB by its owner (R5 to R9). -/
def submitOwner (o : JobOrder) (s : State) : Answer :=
  match JobOrder.formed o with
  | none => refuse badRequest s
  | some mode =>
    if (s.jobByTag o.tag.toNat).isSome then refuse refusedDuplicate s
    else
      match s.slotsWhere Slot.isFree with
      | [] => refuse refusedFull s
      | i :: _ =>
        match JobOrder.inRange o mode s.chk.profile.geometry with
        | none => refuse refusedRange s
        | some est =>
          match s.cost.current with
          | none => refuse refusedPrice s
          | some price =>
            if s.feed.roll.state ≠ .loaded then refuse refusedMedia s
            else
              match judgeEdition s o.edition.toNat o.copy.toNat with
              | .error e => refuse e s
              | .ok ed => submitLast o mode est ed i price s

end Sys2Proof.Machine
end

