-- ==== Sys2Proof/Machine/Owners.lean ====
section
/-!
DEFINITION. What the owner of each request does and answers (section 11.5), SUBMIT_JOB apart (Submit.lean).
-/

namespace Sys2Proof.Machine

/-! ### Host link (R187 to R189) -/

/-- COUNTERS (R187). -/
def countersOwner (group clear : Byte) (s : State) : Answer :=
  match yesNoOf clear with
  | none => refuse refusedRange s
  | some c =>
    if group = 0 then
      (if c then s.mapHost fun h => { h with crcDrops := 0, overDrops := 0, gapDrops := 0, busyCount := 0 } else s,
        okStatus :: group :: hostCounters s.host)
    else if group = 1 then
      (if c then s.mapEng fun e => { e with crcDrops := 0, overDrops := 0, gapDrops := 0, protoErrors := 0 } else s,
        okStatus :: group :: engineCounters s.eng)
    else if group = 2 then
      (if c then s.mapChk fun k => { k with counters := CheckCounters.zero } else s,
        okStatus :: group :: checkCounters s.chk.counters)
    else refuse refusedRange s

/-- RESTART (R189): begins; its reply waits to be sent. -/
def restartOwner (s : State) : Answer := (s.mapHost fun h => { h with restart := .replyWaiting }, [okStatus])

/-! ### Jobs (R16, R17, R23) -/

/-- CANCEL_JOB (R16, R17). -/
def cancelOwner (tag : U16) (s : State) : Answer :=
  match s.jobByTag tag.toNat with
  | some (i, j) => if j.state = .closing then refuse tooLate s else (cancelJob i j s, [okStatus])
  | none => refuse refusedUnknown s

/-- QUERY_JOB (R23). -/
def queryJobOwner (tag : U16) (s : State) : Answer :=
  match s.jobByTag tag.toNat with
  | some (i, j) => report (jobFields s i true j) s
  | none => refuse refusedUnknown s

/-! ### Editions (R33 to R36) -/

/-- The slot that a selector names, or the refusal (section 2.3). -/
def selectSlot (d : Editions) (id : U32) (slot : Byte) : Except Byte EdIx :=
  if id = 0 then (if h : slot.toNat < 64 then .ok ⟨slot.toNat, h⟩ else .error refusedRange)
  else
    match d.slotOf id.toNat with
    | some e => .ok e
    | none => .error refusedUnknown

/-- OPEN_EDITION (R33). -/
def openOwner (id : U32) (limit : U16) (s : State) : Answer :=
  if s.ed.store ≠ .ready then refuse refusedStore s
  else if id = 0 ∨ limit.toNat < 1 ∨ 999 < limit.toNat then refuse refusedRange s
  else if (s.ed.slotOf id.toNat).isSome ∨ (s.ed.removals.any fun r => r.id == id.toNat) = true then
    refuse refusedDuplicate s
  else
    match (List.finRange 64).find? fun e => decide (s.ed.image[e].state = .empty) with
    | none => refuse refusedFull s
    | some e =>
      let s := changeSlot e (fun _ => { state := .opened, id := id.toNat, limit := limit.toNat, issued := [] }) s
      report (editionChanged s.ed e) s

/-- CLOSE_EDITION (R34), the store judged before the selector (log 64). -/
def closeOwner (id : U32) (slot : Byte) (s : State) : Answer :=
  if s.ed.store ≠ .ready then refuse refusedStore s
  else
    match selectSlot s.ed id slot with
    | .error e => refuse e s
    | .ok e =>
      if s.ed.image[e].state = .opened then
        let s := changeSlot e (fun m => { m with state := .closed }) s
        report (editionChanged s.ed e) s
      else refuse refusedState s

/-- The removal that is kept until it persists (R35): a LOST slot has no id to keep. -/
def Editions.removing (d : Editions) (e : EdIx) : List Removal :=
  if d.image[e].state = .closed then
    [{ id := d.image[e].id, block := blockOf e, gen := d.change[blockOf e] + 1 }]
  else []

/-- REMOVE_EDITION (R35), the store judged before the selector (log 64). -/
def removeOwner (id : U32) (slot : Byte) (s : State) : Answer :=
  if s.ed.store ≠ .ready then refuse refusedStore s
  else
    match selectSlot s.ed id slot with
    | .error e => refuse e s
    | .ok e =>
      if (s.ed.image[e].state = .closed ∨ s.ed.image[e].state = .lost) ∧ s.ed.resv[e] = [] then
        let s := s.mapEd fun d => { d with unrec := d.unrec.set e [], removals := d.removals ++ d.removing e }
        let s := changeSlot e (fun _ => EdImage.emptySlot) s
        report (editionChanged s.ed e) s
      else refuse refusedState s

/-- QUERY_EDITION (R36), the store judged before the selector (log 64). -/
def queryEditionOwner (id : U32) (slot : Byte) (s : State) : Answer :=
  if s.ed.store = .mounting then refuse refusedStore s
  else
    match selectSlot s.ed id slot with
    | .error e => refuse e s
    | .ok e => report (editionReport s.ed e) s

/-! ### Feed axis and roll (R58, R70, R75, R79, R80, R82) -/

/-- SET_FEED_PROFILE (R58). -/
def feedProfileOwner (a : FeedProfileArgs) (s : State) : Answer :=
  if ¬ ((s.feed.axis = .idle ∨ s.feed.axis = .unreferenced) ∧ s.pathFree = true) then refuse refusedState s
  else
    match FeedProfileArgs.read a with
    | none => refuse refusedRange s
    | some p =>
      if p.invert = s.feed.profile.invert ∨ s.feed.axis = .unreferenced then
        (notify .feedAxis (s.mapFeed fun f => { f with profile := p }), [okStatus])
      else refuse refusedState s

/-- CLEAR_FEED (R70). -/
def clearFeedOwner (s : State) : Answer :=
  if s.feed.axis = .fault ∧ s.pathFree = true then
    (notify .feedAxis (s.mapFeed fun f => { f.outputsOff with axis := .unreferenced, fault := none }), [okStatus])
  else refuse refusedState s

/-- The roll record when a load is taken (R75). -/
def Roll.loading (id declared : Nat) (mt : Fin 8) : Roll :=
  { Roll.atReset with id := id, mediaType := mt, declared := declared }

/-- LOAD_ROLL taken (R75, R76). -/
def loadRoll (id declared : Nat) (mt : Fin 8) (s : State) : State :=
  let s := holdRule (s.mapFeed fun f => { f with roll := Roll.loading id declared mt })
  let s := s.mapFeed fun f => { f with axis := .loading, load := some (.search f.pos) }
  let s := notify .feedAxis s
  if s.feed.edge then edgeReference s else s.mapFeed (Feed.driveTo .slow)

/-- LOAD_ROLL (R75). -/
def loadRollOwner (id : U32) (mt : Byte) (declared : U32) (s : State) : Answer :=
  if s.feed.axis ≠ .unreferenced then refuse refusedState s
  else if h : mt.toNat < 8 then
    if 1000 ≤ declared.toNat ∧ declared.toNat ≤ 200000 then
      (loadRoll id.toNat declared.toNat ⟨mt.toNat, h⟩ s, [okStatus])
    else refuse refusedRange s
  else refuse refusedRange s

/-- The axis when UNLOAD_ROLL is taken (R79): an IDLE axis enters UNREFERENCED. -/
def Feed.unload (f : Feed) : Feed :=
  if f.axis = .idle then
    { f.outputsOff with axis := .unreferenced, referenced := false, rest := none, roll := Roll.atReset }
  else { f with roll := Roll.atReset }

/-- UNLOAD_ROLL (R79). -/
def unloadOwner (s : State) : Answer :=
  if s.pathFree = true ∧ (s.liveJobs.all fun p => p.2.mediaRes == 0) = true
      ∧ (s.feed.axis = .idle ∨ s.feed.axis = .unreferenced ∨ s.feed.axis = .fault) then
    (notify .feedAxis (s.mapFeed Feed.unload), [okStatus])
  else refuse refusedState s

/-- JOG (R80), its range judged before the state (log 46); a length of 0 counts as forward (log 47). A target outside the
counter's range is refused with the axis state as the reason (R59, log 18). -/
def jogOwner (mm : U16) (s : State) : Answer :=
  if mm.toInt < -100 ∨ 1000 < mm.toInt then refuse refusedRange s
  else if ¬ (s.feed.axis = .idle ∧ s.pathFree = true) then refuse refusedState s
  else
    match requestMove (s.feed.rest.getD s.feed.position + 100 * mm.toInt) (.jog (decide (0 ≤ mm.toInt))) s with
    | (_, .refused) => refuse refusedState s
    | (s', .done) => (notify .feedAxis s', [okStatus])
    | (s', .begun) => (s', [okStatus])

/-- The trim after SET_TRIM (R82): mode 0 fine, 1 add. -/
def Feed.setTrim (mode : Byte) (value : Int) (f : Feed) : Feed :=
  if mode = 0 then { f with trimFine := value }
  else { f with trimBase := clampTrim (f.trimBase + f.trimFine + value), trimFine := 0 }

/-- SET_TRIM (R82). -/
def trimOwner (mode : Byte) (value : U16) (s : State) : Answer :=
  if (mode = 0 ∨ mode = 1) ∧ -500 ≤ value.toInt ∧ value.toInt ≤ 500 then
    let s := notify .feedAxis (s.mapFeed (Feed.setTrim mode value.toInt))
    report (s16 s.feed.trimBase ++ s16 s.feed.trimFine ++ s16 s.feed.effectiveTrim) s
  else refuse refusedRange s

/-! ### Ink (R98, R101, R102) -/

/-- FIT_CARTRIDGE (R98). -/
def fitOwner (ch : Byte) (capacity remaining lot : U32) (s : State) : Answer :=
  match chanOf ch with
  | none => refuse refusedRange s
  | some c =>
    if ¬ ((1000 ≤ capacity.toNat ∧ capacity.toNat ≤ 2000000) ∧ remaining.toNat ≤ capacity.toNat) then
      refuse refusedRange s
    else if s.ink.chans[c].supply = .undeclared then
      (fitCartridge c { capacity := capacity.toNat, remaining := remaining.toNat, lot := lot.toNat } s, [okStatus])
    else refuse refusedState s

/-- The channels an INK_STATUS selector names (R101). -/
def selectChans (sel : Byte) : Option (List Chan) :=
  if sel = 0xFF then some (List.finRange 10) else (chanOf sel).map fun c => [c]

/-- INK_STATUS (R101). The parts of the selected channels follow one another with neither a count nor a channel number
(log 61). -/
def inkStatusOwner (sel clear : Byte) (s : State) : Answer :=
  match selectChans sel, yesNoOf clear with
  | some cs, some c =>
    (if c then cs.foldl clearSticky s else s, okStatus :: (cs.flatMap (channelReport s) ++ inkShared s.ink))
  | _, _ => refuse refusedRange s

/-- SET_INK_PROFILE (R102). -/
def inkProfileOwner (ch : Byte) (a : InkProfileArgs) (s : State) : Answer :=
  match chanOf ch, InkProfileArgs.read a with
  | some c, some p =>
    if s.liveJobs.any fun x => x.2.state.keepsSwathTarget then refuse refusedState s
    else (setProfile c p s, [okStatus])
  | _, _ => refuse refusedRange s

/-! ### Colour checker (R140, R143) -/

/-- A live job's strip may compare with an entry (R140). -/
def State.entryInUse (s : State) (k : Fin 48) : Bool :=
  (match s.chk.profile.set with | some g => decide (k.val < g.t) | none => false)
    || s.liveJobs.any fun p => match p.2.strip with | some x => decide (k.val < x.geo.t) | none => false

/-- One update of SET_PATCHES: 0 DONE, 1 RANGE, 2 IN_USE (R140). -/
def applyPatch (x : State × Bytes) (u : PatchUpdate) : State × Bytes :=
  match PatchUpdate.read u with
  | none => (x.1, x.2 ++ u8 1)
  | some (k, none) =>
    if x.1.entryInUse k then (x.1, x.2 ++ u8 2)
    else (x.1.mapChk fun c => { c with patches := c.patches.set k none }, x.2 ++ u8 0)
  | some (k, some p) => (x.1.mapChk fun c => { c with patches := c.patches.set k (some p) }, x.2 ++ u8 0)

/-- SET_PATCHES (R140), its count judged before the strip on the path (log 64). The results in the reply are a list, with
its count byte before them (log 69). -/
def patchesOwner (us : List PatchUpdate) (s : State) : Answer :=
  if us.length < 1 ∨ 4 < us.length then refuse badRequest s
  else if s.stripOnPath then refuse refusedState s
  else
    let x := us.foldl applyPatch (s, [])
    (if (0 : Byte) ∈ x.2 then notify .checker x.1 else x.1, okStatus :: (u8 us.length ++ x.2))

/-- SET_STRIP_PROFILE (R143). -/
def stripProfileOwner (a : StripProfileArgs) (s : State) : Answer :=
  if s.stripOnPath then refuse refusedState s
  else
    match StripProfileArgs.read a with
    | none => refuse refusedRange s
    | some p =>
      if ((List.finRange 48).filter fun k => decide (k.val < a.t.toNat)).all fun k => s.chk.patches[k].isSome then
        (notify .checker (s.mapChk fun k => { k with profile := p }), [okStatus])
      else refuse refusedState s

/-! ### Drift (R158, R160) -/

/-- SET_DRIFT_LIMITS (R158). -/
def driftLimitsOwner (warn out : U16) (s : State) : Answer :=
  if (10 ≤ warn.toNat ∧ warn.toNat ≤ 5000) ∧ warn.toNat < out.toNat ∧ out.toNat ≤ 10000 then
    (changeDrift (fun d => ({ d with warn := warn.toNat, out := out.toNat }).judge fun _ => true) s, [okStatus])
  else refuse refusedRange s

/-- RECALIBRATED (R160), its channel judged before the strip on the path (log 60). -/
def recalibratedOwner (ch : Byte) (s : State) : Answer :=
  match chanOf ch with
  | none => refuse refusedRange s
  | some c =>
    if s.stripOnPath then refuse refusedState s
    else (changeDrift (Drift.clear c) s, okStatus :: u8 s.drift.states[c].code)

/-! ### Costs (R168, R173, R174, R177) -/

/-- The generation after one assigned (R168): 0 is never assigned. -/
def nextGeneration (g : Nat) : Nat := if g = 4294967295 then 1 else g + 1

/-- A list becomes current in a slot (R168). -/
def Cost.load (p : PriceIx) (l : Prices) (k : Cost) : Cost :=
  let gen := nextGeneration k.genCounter
  let k := match k.current with
    | some q => k.dropRef q
    | none => k
  { k with slots := k.slots.set p { loaded := some (gen, l), refs := 1 }, current := some p, genCounter := gen }

/-- The slot that LOAD_PRICES takes (R168): the lowest that is not current and has count 0. -/
def Cost.openSlot (k : Cost) : Option PriceIx :=
  (List.finRange 4).find? fun p => decide (k.current ≠ some p) && k.slots[p].refs == 0

/-- LOAD_PRICES (R168). -/
def loadPricesOwner (a : PriceArgs) (s : State) : Answer :=
  match PriceArgs.read a with
  | none => refuse refusedRange s
  | some l =>
    match s.cost.openSlot with
    | none => refuse refusedFull s
    | some p =>
      let s := s.mapCost (Cost.load p l)
      report (u8 p ++ u32 s.cost.genCounter) s

/-- COST_TAKE (R173). -/
def costTakeOwner (s : State) : Answer :=
  match s.cost.log with
  | [] => refuse emptyStatus s
  | r :: rest =>
    let s := enterWaiting (s.mapCost fun k => { k with log := rest })
    report (u8 s.cost.log.length ++ u8 s.cost.waiting.length ++ costRecordBytes r) s

/-- SET_COST_LEVEL (R174). -/
def costLevelOwner (level : Byte) (s : State) : Answer :=
  if 1 ≤ level.toNat ∧ level.toNat ≤ 32 then
    let s := s.mapCost fun k => { k with critical := level.toNat }
    let s := if level.toNat ≤ s.cost.log.length then notify .costLog s else s
    report (u8 s.cost.log.length ++ u8 s.cost.waiting.length) s
  else refuse refusedRange s

/-- OVERHEAD_READ (R177). -/
def overheadOwner (clear : Byte) (s : State) : Answer :=
  match yesNoOf clear with
  | none => refuse refusedRange s
  | some c =>
    (if c then s.mapCost fun k => { k with overhead := Overhead.zero } else s, okStatus :: overheadReport s.cost)

/-! ### Every owner by its request (section 11.5) -/

/-- What the owner of a request command does. -/
def ownerOf (i : Instr) : State → Answer :=
  match i with
  | .identify _ => fun s => report (identifyReport s.host) s
  | .status _ => fun s => report (statusReport s) s
  | .counters _ g c => countersOwner g c
  | .restart _ => restartOwner
  | .submitJob _ o => submitOwner o
  | .cancelJob _ tag => cancelOwner tag
  | .queryJob _ tag => queryJobOwner tag
  | .listJobs _ => fun s => report (listJobsReport s) s
  | .openEdition _ id limit => openOwner id limit
  | .closeEdition _ id slot => closeOwner id slot
  | .removeEdition _ id slot => removeOwner id slot
  | .queryEdition _ id slot => queryEditionOwner id slot
  | .storeStatus _ => fun s => report (storeReport s.ed) s
  | .setFeedProfile _ p => feedProfileOwner p
  | .clearFeed _ => clearFeedOwner
  | .feedStatus _ => fun s => report (feedReport s) s
  | .loadRoll _ id mt len => loadRollOwner id mt len
  | .unloadRoll _ => unloadOwner
  | .jog _ mm => jogOwner mm
  | .setTrim _ mode v => trimOwner mode v
  | .fitCartridge _ ch cap rem lot => fitOwner ch cap rem lot
  | .inkStatus _ sel clear => inkStatusOwner sel clear
  | .setInkProfile _ ch p => inkProfileOwner ch p
  | .engineStatus _ => fun s => report (engineReport s.eng) s
  | .setPatches _ us => patchesOwner us
  | .readPatches _ => fun s => report (patchesReport s.chk) s
  | .setStripProfile _ p => stripProfileOwner p
  | .checkStatus _ => fun s => report (checkReport s.chk) s
  | .setDriftLimits _ w o => driftLimitsOwner w o
  | .recalibrated _ ch => recalibratedOwner ch
  | .driftStatus _ => fun s => report (driftReport s) s
  | .loadPrices _ p => loadPricesOwner p
  | .priceStatus _ => fun s => report (priceReport s.cost) s
  | .costTake _ => costTakeOwner
  | .setCostLevel _ l => costLevelOwner l
  | .overheadRead _ c => overheadOwner c
  | _ => refuse badRequest

end Sys2Proof.Machine
end

