-- ==== Sys2Proof/Machine/Links.lean ====
section
/-!
DEFINITION. The two serial lines byte by byte: what each arriving byte brings about (R126, R180, R181), and the events
that are ends of frames sent.
-/

namespace Sys2Proof.Machine

/-! ### Host link (R180, R181) -/

/-- A complete frame on the host link is a request (R181): parsed and served, or answered BAD_REQUEST. -/
def serveFrame (kind ft : Byte) (body : Bytes) (s : State) : State :=
  match parseRequest kind ft body with
  | some i => requestEvent kind ft (ownerOf i) s
  | none => requestEvent kind ft (refuse badRequest) s

/-- One byte from the host (R180). -/
def hostByte (s : State) (b : Byte) : State :=
  let x := rxByte s.host.rx b
  let s := s.mapHost fun h => { h with rx := x.1 }
  match x.2 with
  | .more => s
  | .overlong => s.mapHost fun h => { h with overDrops := sat16 (h.overDrops + 1) }
  | .crcBad => s.mapHost fun h => { h with crcDrops := sat16 (h.crcDrops + 1) }
  | .frame kind tag body => serveFrame kind tag body s

/-- A gap on the host line: a frame being assembled is dropped and counted, and the byte that ends the gap is judged
as a hunting byte (R180). -/
def hostGap (b : Byte) (s : State) : State :=
  hostByte
    (if s.host.rx.isSome then s.mapHost fun h => { h with rx := none, gapDrops := sat16 (h.gapDrops + 1) } else s) b

/-! ### Frames (R126) -/

/-- A command that an engine frame spells, judged. -/
def serveEngine (i : Option Instr) (s : State) : State :=
  match i with
  | some (.engineState st code) =>
    match readEngineState st code with
    | some (st, code) => stateMessage st code s
    | none => protocolError s
  | some (.swath tag index feed drops) =>
    match readSwath feed drops with
    | some (n, xs) => swathMessage tag index n xs s
    | none => protocolError s
  | some (.endPrint tag status) =>
    match readEnd status with
    | some c => endMessage tag c s
    | none => protocolError s
  | some (.maint drops) =>
    match readMaint drops with
    | some xs => overheadDrops xs s
    | none => protocolError s
  | _ => protocolError s

/-- One byte from the engine (R126). -/
def engineByte (s : State) (b : Byte) : State :=
  let x := rxByte s.eng.rx b
  let s := s.mapEng fun e => { e with rx := x.1 }
  match x.2 with
  | .more => s
  | .overlong => s.mapEng fun e => { e with overDrops := sat16 (e.overDrops + 1) }
  | .crcBad => s.mapEng fun e => { e with crcDrops := sat16 (e.crcDrops + 1) }
  | .frame kind _ body => giveLine (serveEngine (parseEngine kind body) s)

/-- A gap on the engine line (R126). -/
def engineGap (b : Byte) (s : State) : State :=
  engineByte
    (if s.eng.rx.isSome then s.mapEng fun e => { e with rx := none, gapDrops := sat16 (e.gapDrops + 1) } else s) b

/-- The last byte of a message to the engine is sent: it leaves the transmit list (R125). -/
def engineSent (s : State) : State := s.mapEng fun e => { e with txList := e.txList.drop 1 }

end Sys2Proof.Machine
end

