-- ==== Sys2Proof/Machine/ColourCommands.lean ====
section
/-!
DEFINITION. The requests on the colour checker and the drift monitor, the dwell and the sensor link.
-/

namespace Sys2Proof.Machine

/-- SET_PATCHES (R140). -/
def execSetPatches (ft : Byte) (updates : List PatchUpdate) (s : State) : Host.Outcome State Fault Refusal :=
  .next (requestEvent 0x50 ft (patchesOwner updates) s)

/-- READ_PATCHES (R141). -/
def execReadPatches (ft : Byte) (s : State) : Host.Outcome State Fault Refusal :=
  .next (requestEvent 0x51 ft (fun s => report (patchesReport s.chk) s) s)

/-- SET_STRIP_PROFILE (R143). -/
def execSetStripProfile (ft : Byte) (profile : StripProfileArgs) (s : State) : Host.Outcome State Fault Refusal :=
  .next (requestEvent 0x52 ft (stripProfileOwner profile) s)

/-- CHECK_STATUS (R155). -/
def execCheckStatus (ft : Byte) (s : State) : Host.Outcome State Fault Refusal :=
  .next (requestEvent 0x53 ft (fun s => report (checkReport s.chk) s) s)

/-- SET_DRIFT_LIMITS (R158). -/
def execSetDriftLimits (ft : Byte) (warn out : U16) (s : State) : Host.Outcome State Fault Refusal :=
  .next (requestEvent 0x58 ft (driftLimitsOwner warn out) s)

/-- RECALIBRATED (R160). -/
def execRecalibrated (ft ch : Byte) (s : State) : Host.Outcome State Fault Refusal :=
  .next (requestEvent 0x59 ft (recalibratedOwner ch) s)

/-- DRIFT_STATUS (R164). -/
def execDriftStatus (ft : Byte) (s : State) : Host.Outcome State Fault Refusal :=
  .next (requestEvent 0x5A ft (fun s => report (driftReport s) s) s)

/-- DWELL_EXPIRY (R146). -/
def execDwellExpiry (s : State) : Host.Outcome State Fault Refusal :=
  .next (giveLine (dwellEnded s))

/-- MEASURE_COMMAND_DONE (R147). -/
def execMeasureCommandDone (ack : Bool) (s : State) : Host.Outcome State Fault Refusal :=
  .next (giveLine (measured ack s))

/-- RESULT_READ_DONE (R147). -/
def execResultReadDone (ack : Bool) (bytes : Vector Byte 8) (s : State) : Host.Outcome State Fault Refusal :=
  .next (giveLine (resultRead ack bytes s))

/-- READING_TIMEOUT (R147). -/
def execReadingTimeout (s : State) : Host.Outcome State Fault Refusal :=
  .next (giveLine (readingExpired s))

end Sys2Proof.Machine
end

