-- ==== Sys2Proof/Machine/CostCommands.lean ====
section
/-!
DEFINITION. The requests on the cost unit.
-/

namespace Sys2Proof.Machine

/-- LOAD_PRICES (R168). -/
def execLoadPrices (ft : Byte) (prices : PriceArgs) (s : State) : Host.Outcome State Fault Refusal :=
  .next (requestEvent 0x60 ft (loadPricesOwner prices) s)

/-- PRICE_STATUS (R169). -/
def execPriceStatus (ft : Byte) (s : State) : Host.Outcome State Fault Refusal :=
  .next (requestEvent 0x61 ft (fun s => report (priceReport s.cost) s) s)

/-- COST_TAKE (R173). -/
def execCostTake (ft : Byte) (s : State) : Host.Outcome State Fault Refusal :=
  .next (requestEvent 0x62 ft costTakeOwner s)

/-- SET_COST_LEVEL (R174). -/
def execSetCostLevel (ft level : Byte) (s : State) : Host.Outcome State Fault Refusal :=
  .next (requestEvent 0x63 ft (costLevelOwner level) s)

/-- OVERHEAD_READ (R177). -/
def execOverheadRead (ft clear : Byte) (s : State) : Host.Outcome State Fault Refusal :=
  .next (requestEvent 0x64 ft (overheadOwner clear) s)

end Sys2Proof.Machine
end

