-- ==== Sys2Proof/Machine/EditionCommands.lean ====
section
/-!
DEFINITION. The requests on editions and the events of the edition store.
-/

namespace Sys2Proof.Machine

/-- OPEN_EDITION (R33). -/
def execOpenEdition (ft : Byte) (id : U32) (limit : U16) (s : State) : Host.Outcome State Fault Refusal :=
  .next (requestEvent 0x20 ft (openOwner id limit) s)

/-- CLOSE_EDITION (R34). -/
def execCloseEdition (ft : Byte) (id : U32) (slot : Byte) (s : State) : Host.Outcome State Fault Refusal :=
  .next (requestEvent 0x21 ft (closeOwner id slot) s)

/-- REMOVE_EDITION (R35). -/
def execRemoveEdition (ft : Byte) (id : U32) (slot : Byte) (s : State) : Host.Outcome State Fault Refusal :=
  .next (requestEvent 0x22 ft (removeOwner id slot) s)

/-- QUERY_EDITION (R36). -/
def execQueryEdition (ft : Byte) (id : U32) (slot : Byte) (s : State) : Host.Outcome State Fault Refusal :=
  .next (requestEvent 0x23 ft (queryEditionOwner id slot) s)

/-- STORE_STATUS (R51). -/
def execStoreStatus (ft : Byte) (s : State) : Host.Outcome State Fault Refusal :=
  .next (requestEvent 0x24 ft (fun s => report (storeReport s.ed) s) s)

/-- MOUNT_HEADERS_READ (R46 to R48), while MOUNTING and before the headers have been read. -/
def execMountHeadersRead (marks : Vector Bool 6) (s : State) : Host.Outcome State Fault Refusal :=
  .next (if s.ed.store = .mounting ∧ s.ed.headersRead = false then giveLine (mountHeaders marks s) else s)

/-- ERASE_DONE (R42, R43), while a spare is being erased. -/
def execEraseDone (verified mark : Bool) (s : State) : Host.Outcome State Fault Refusal :=
  .next (giveLine (eraseEnded verified mark s))

/-- PROGRAM_DONE (R42, R43), while a spare is being programmed. -/
def execProgramDone (verified mark : Bool) (s : State) : Host.Outcome State Fault Refusal :=
  .next (giveLine (programEnded verified mark s))

end Sys2Proof.Machine
end

