-- ==== Sys2Proof/Machine/EngineCommands.lean ====
section
/-!
DEFINITION. The requests on the engine link, the messages of the engine and the timers of a print.
-/

namespace Sys2Proof.Machine

/-- ENGINE_STATUS (R137). -/
def execEngineStatus (ft : Byte) (s : State) : Host.Outcome State Fault Refusal :=
  .next (requestEvent 0x48 ft (fun s => report (engineReport s.eng) s) s)

/-- ENGINE_FRAME_SENT (R125). -/
def execEngineFrameSent (s : State) : Host.Outcome State Fault Refusal :=
  .next (engineSent s)

/-- ENGINE_FRAME (R126). -/
def execEngineFrame (bytes : Bytes) (s : State) : Host.Outcome State Fault Refusal :=
  .next (bytes.foldl engineByte s)

/-- ENGINE_GAP_DROP (R126). -/
def execEngineGapDrop (byte : Byte) (s : State) : Host.Outcome State Fault Refusal :=
  .next (engineGap byte s)

/-- ENGINE_STATE (R123, R136). -/
def execEngineState (state code : Byte) (s : State) : Host.Outcome State Fault Refusal :=
  .next (giveLine (serveEngine (some (.engineState state code)) s))

/-- SWATH (R128, R129, R134). -/
def execSwath (tag index : U16) (feed : U32) (drops : List (Byte × U32)) (s : State) : Host.Outcome State Fault Refusal :=
  .next (giveLine (serveEngine (some (.swath tag index feed drops)) s))

/-- END (R134, R135). -/
def execEndPrint (tag : U16) (status : Byte) (s : State) : Host.Outcome State Fault Refusal :=
  .next (giveLine (serveEngine (some (.endPrint tag status)) s))

/-- MAINT (R128). -/
def execMaint (drops : List (Byte × U32)) (s : State) : Host.Outcome State Fault Refusal :=
  .next (giveLine (serveEngine (some (.maint drops)) s))

/-- SWATH_TIMER_EXPIRY (R130). -/
def execSwathTimerExpiry (s : State) : Host.Outcome State Fault Refusal :=
  .next (giveLine (swathExpired s))

/-- DRY_OUT_TIMER_EXPIRY (R133). -/
def execDryOutTimerExpiry (s : State) : Host.Outcome State Fault Refusal :=
  .next (giveLine (dryOutExpired s))

end Sys2Proof.Machine
end

