-- ==== Sys2Proof/Machine/FeedCommands.lean ====
section
/-!
DEFINITION. The requests on the feed axis and the roll, and the events of the mechanism.
-/

namespace Sys2Proof.Machine

/-- SET_FEED_PROFILE (R58). -/
def execSetFeedProfile (ft : Byte) (profile : FeedProfileArgs) (s : State) : Host.Outcome State Fault Refusal :=
  .next (requestEvent 0x30 ft (feedProfileOwner profile) s)

/-- CLEAR_FEED (R70). -/
def execClearFeed (ft : Byte) (s : State) : Host.Outcome State Fault Refusal :=
  .next (requestEvent 0x31 ft clearFeedOwner s)

/-- FEED_STATUS (R71, R89). -/
def execFeedStatus (ft : Byte) (s : State) : Host.Outcome State Fault Refusal :=
  .next (requestEvent 0x32 ft (fun s => report (feedReport s) s) s)

/-- LOAD_ROLL (R75, R76). -/
def execLoadRoll (ft : Byte) (rollId : U32) (mediaType : Byte) (declared : U32) (s : State) : Host.Outcome State Fault Refusal :=
  .next (requestEvent 0x33 ft (loadRollOwner rollId mediaType declared) s)

/-- UNLOAD_ROLL (R79). -/
def execUnloadRoll (ft : Byte) (s : State) : Host.Outcome State Fault Refusal :=
  .next (requestEvent 0x34 ft unloadOwner s)

/-- JOG (R80). -/
def execJog (ft : Byte) (mm : U16) (s : State) : Host.Outcome State Fault Refusal :=
  .next (requestEvent 0x35 ft (jogOwner mm) s)

/-- SET_TRIM (R82). -/
def execSetTrim (ft mode : Byte) (value : U16) (s : State) : Host.Outcome State Fault Refusal :=
  .next (requestEvent 0x36 ft (trimOwner mode value) s)

/-- ENCODER_COUNT (R55). -/
def execEncoderCount (a b : Bool) (s : State) : Host.Outcome State Fault Refusal :=
  .next (giveLine (encoderChange a b s))

/-- EDGE_SEARCH_LIMIT (R76). -/
def execEdgeSearchLimit (s : State) : Host.Outcome State Fault Refusal :=
  .next (giveLine (searchLimit s))

/-- SETTLE_TIMEOUT (R62). -/
def execSettleTimeout (s : State) : Host.Outcome State Fault Refusal :=
  .next (giveLine (settleEnded s))

/-- STALL_WINDOW_END (R66). -/
def execStallWindowEnd (s : State) : Host.Outcome State Fault Refusal :=
  .next (giveLine (windowEnded s))

/-- EDGE_CHANGE (R68, R76). -/
def execEdgeChange (present : Bool) (s : State) : Host.Outcome State Fault Refusal :=
  .next (giveLine (edgeChanged present s))

/-- KNIFE_HOME_CHANGE (R81). -/
def execKnifeHomeChange (active : Bool) (s : State) : Host.Outcome State Fault Refusal :=
  .next (giveLine (knifeHomeChanged active s))

/-- KNIFE_STROKE_TIMEOUT (R81). -/
def execKnifeStrokeTimeout (s : State) : Host.Outcome State Fault Refusal :=
  .next (giveLine (strokeExpired s))

/-- KNIFE_RETURN_TIMEOUT (R81). -/
def execKnifeReturnTimeout (s : State) : Host.Outcome State Fault Refusal :=
  .next (giveLine (returnExpired s))

end Sys2Proof.Machine
end

