-- ==== Sys2Proof/Machine/HostLink.lean ====
section
/-!
DEFINITION. The commands of the host line and the two resets.
-/

namespace Sys2Proof.Machine

/-- POWER_ON_RESET (R49, R190). -/
def execPowerOnReset (rate1 rate0 : Bool) (flight : FlightEnd) (s : State) : Host.Outcome State Fault Refusal :=
  .next (resetAll rate1 rate0 (flashAfterLoss flight s.ed) s)

/-- RESET_EFFECT (R189, R190): taken where it is due (log 4). -/
def execResetEffect (rate1 rate0 : Bool) (s : State) : Host.Outcome State Fault Refusal :=
  .next (if s.restartDue then resetAll rate1 rate0 s.ed.flash s else s)

/-- HOST_FRAME (R180 to R182). -/
def execHostFrame (bytes : Bytes) (s : State) : Host.Outcome State Fault Refusal :=
  .next (bytes.foldl hostByte s)

/-- GAP_DROP (R180). -/
def execGapDrop (byte : Byte) (s : State) : Host.Outcome State Fault Refusal :=
  .next (hostGap byte s)

/-- IDENTIFY (R188). -/
def execIdentify (ft : Byte) (s : State) : Host.Outcome State Fault Refusal :=
  .next (requestEvent 0x01 ft (fun s => report (identifyReport s.host) s) s)

/-- STATUS (R188). -/
def execStatus (ft : Byte) (s : State) : Host.Outcome State Fault Refusal :=
  .next (requestEvent 0x02 ft (fun s => report (statusReport s) s) s)

/-- COUNTERS (R187). -/
def execCounters (ft group clear : Byte) (s : State) : Host.Outcome State Fault Refusal :=
  .next (requestEvent 0x03 ft (countersOwner group clear) s)

/-- RESTART (R189). -/
def execRestart (ft : Byte) (s : State) : Host.Outcome State Fault Refusal :=
  .next (requestEvent 0x04 ft restartOwner s)

/-- REPLY_SENT (R182). -/
def execReplySent (s : State) : Host.Outcome State Fault Refusal :=
  .next (giveLine (replyGone s))

/-- NOTICE_SENT (R186). -/
def execNoticeSent (s : State) : Host.Outcome State Fault Refusal :=
  .next (giveLine (noticeGone s))

end Sys2Proof.Machine
end

