-- ==== Sys2Proof/Machine/InkCommands.lean ====
section
/-!
DEFINITION. The requests on ink channels, the scan and the pump stroke.
-/

namespace Sys2Proof.Machine

/-- FIT_CARTRIDGE (R98). -/
def execFitCartridge (ft ch : Byte) (capacity remaining lot : U32) (s : State) : Host.Outcome State Fault Refusal :=
  .next (requestEvent 0x40 ft (fitOwner ch capacity remaining lot) s)

/-- INK_STATUS (R101). -/
def execInkStatus (ft sel clear : Byte) (s : State) : Host.Outcome State Fault Refusal :=
  .next (requestEvent 0x41 ft (inkStatusOwner sel clear) s)

/-- SET_INK_PROFILE (R102). -/
def execSetInkProfile (ft ch : Byte) (profile : InkProfileArgs) (s : State) : Host.Outcome State Fault Refusal :=
  .next (requestEvent 0x42 ft (inkProfileOwner ch profile) s)

/-- SCAN (R92). -/
def execScan (ain : Vector (BitVec 10) 11) (cart : Vector Bool 10) (s : State) : Host.Outcome State Fault Refusal :=
  .next (giveLine (scanAll ain cart s))

/-- PUMP_STROKE (R105). -/
def execPumpStroke (ch : Fin 10) (s : State) : Host.Outcome State Fault Refusal :=
  .next (giveLine (strokePump ch s))

end Sys2Proof.Machine
end

