-- ==== Sys2Proof/Machine/JobRequests.lean ====
section
/-!
DEFINITION. The requests on jobs.
-/

namespace Sys2Proof.Machine

/-- SUBMIT_JOB (R5 to R9). -/
def execSubmitJob (ft : Byte) (order : JobOrder) (s : State) : Host.Outcome State Fault Refusal :=
  .next (requestEvent 0x10 ft (submitOwner order) s)

/-- CANCEL_JOB (R16, R17). -/
def execCancelJob (ft : Byte) (tag : U16) (s : State) : Host.Outcome State Fault Refusal :=
  .next (requestEvent 0x11 ft (cancelOwner tag) s)

/-- QUERY_JOB (R23). -/
def execQueryJob (ft : Byte) (tag : U16) (s : State) : Host.Outcome State Fault Refusal :=
  .next (requestEvent 0x12 ft (queryJobOwner tag) s)

/-- LIST_JOBS (R24). -/
def execListJobs (ft : Byte) (s : State) : Host.Outcome State Fault Refusal :=
  .next (requestEvent 0x13 ft (fun s => report (listJobsReport s) s) s)

end Sys2Proof.Machine
end

