-- ==== Sys2Proof/Machine/Dispatch.lean ====
section
/-!
DEFINITION. exec: one arm for each command, each one call of the command's meaning.
-/

namespace Sys2Proof.Machine

/-- The effect of a command on everything but the queue. -/
def exec (i : Instr) (s : State) : Host.Outcome State Fault Refusal :=
  match i with
  | .powerOnReset rate1 rate0 flight => Sys2Proof.Machine.execPowerOnReset rate1 rate0 flight s
  | .resetEffect rate1 rate0 => Sys2Proof.Machine.execResetEffect rate1 rate0 s
  | .hostFrame bytes => Sys2Proof.Machine.execHostFrame bytes s
  | .gapDrop byte => Sys2Proof.Machine.execGapDrop byte s
  | .identify ft => Sys2Proof.Machine.execIdentify ft s
  | .status ft => Sys2Proof.Machine.execStatus ft s
  | .counters ft group clear => Sys2Proof.Machine.execCounters ft group clear s
  | .restart ft => Sys2Proof.Machine.execRestart ft s
  | .submitJob ft order => Sys2Proof.Machine.execSubmitJob ft order s
  | .cancelJob ft tag => Sys2Proof.Machine.execCancelJob ft tag s
  | .queryJob ft tag => Sys2Proof.Machine.execQueryJob ft tag s
  | .listJobs ft => Sys2Proof.Machine.execListJobs ft s
  | .openEdition ft id limit => Sys2Proof.Machine.execOpenEdition ft id limit s
  | .closeEdition ft id slot => Sys2Proof.Machine.execCloseEdition ft id slot s
  | .removeEdition ft id slot => Sys2Proof.Machine.execRemoveEdition ft id slot s
  | .queryEdition ft id slot => Sys2Proof.Machine.execQueryEdition ft id slot s
  | .storeStatus ft => Sys2Proof.Machine.execStoreStatus ft s
  | .setFeedProfile ft profile => Sys2Proof.Machine.execSetFeedProfile ft profile s
  | .clearFeed ft => Sys2Proof.Machine.execClearFeed ft s
  | .feedStatus ft => Sys2Proof.Machine.execFeedStatus ft s
  | .loadRoll ft rollId mediaType declared => Sys2Proof.Machine.execLoadRoll ft rollId mediaType declared s
  | .unloadRoll ft => Sys2Proof.Machine.execUnloadRoll ft s
  | .jog ft mm => Sys2Proof.Machine.execJog ft mm s
  | .setTrim ft mode value => Sys2Proof.Machine.execSetTrim ft mode value s
  | .fitCartridge ft ch capacity remaining lot => Sys2Proof.Machine.execFitCartridge ft ch capacity remaining lot s
  | .inkStatus ft sel clear => Sys2Proof.Machine.execInkStatus ft sel clear s
  | .setInkProfile ft ch profile => Sys2Proof.Machine.execSetInkProfile ft ch profile s
  | .engineStatus ft => Sys2Proof.Machine.execEngineStatus ft s
  | .setPatches ft updates => Sys2Proof.Machine.execSetPatches ft updates s
  | .readPatches ft => Sys2Proof.Machine.execReadPatches ft s
  | .setStripProfile ft profile => Sys2Proof.Machine.execSetStripProfile ft profile s
  | .checkStatus ft => Sys2Proof.Machine.execCheckStatus ft s
  | .setDriftLimits ft warn out => Sys2Proof.Machine.execSetDriftLimits ft warn out s
  | .recalibrated ft ch => Sys2Proof.Machine.execRecalibrated ft ch s
  | .driftStatus ft => Sys2Proof.Machine.execDriftStatus ft s
  | .loadPrices ft prices => Sys2Proof.Machine.execLoadPrices ft prices s
  | .priceStatus ft => Sys2Proof.Machine.execPriceStatus ft s
  | .costTake ft => Sys2Proof.Machine.execCostTake ft s
  | .setCostLevel ft level => Sys2Proof.Machine.execSetCostLevel ft level s
  | .overheadRead ft clear => Sys2Proof.Machine.execOverheadRead ft clear s
  | .replySent => Sys2Proof.Machine.execReplySent s
  | .noticeSent => Sys2Proof.Machine.execNoticeSent s
  | .engineFrameSent => Sys2Proof.Machine.execEngineFrameSent s
  | .engineFrame bytes => Sys2Proof.Machine.execEngineFrame bytes s
  | .engineGapDrop byte => Sys2Proof.Machine.execEngineGapDrop byte s
  | .engineState state code => Sys2Proof.Machine.execEngineState state code s
  | .swath tag index feed drops => Sys2Proof.Machine.execSwath tag index feed drops s
  | .endPrint tag status => Sys2Proof.Machine.execEndPrint tag status s
  | .maint drops => Sys2Proof.Machine.execMaint drops s
  | .swathTimerExpiry => Sys2Proof.Machine.execSwathTimerExpiry s
  | .dryOutTimerExpiry => Sys2Proof.Machine.execDryOutTimerExpiry s
  | .encoderCount a b => Sys2Proof.Machine.execEncoderCount a b s
  | .edgeSearchLimit => Sys2Proof.Machine.execEdgeSearchLimit s
  | .settleTimeout => Sys2Proof.Machine.execSettleTimeout s
  | .stallWindowEnd => Sys2Proof.Machine.execStallWindowEnd s
  | .edgeChange present => Sys2Proof.Machine.execEdgeChange present s
  | .knifeHomeChange active => Sys2Proof.Machine.execKnifeHomeChange active s
  | .knifeStrokeTimeout => Sys2Proof.Machine.execKnifeStrokeTimeout s
  | .knifeReturnTimeout => Sys2Proof.Machine.execKnifeReturnTimeout s
  | .scan ain cart => Sys2Proof.Machine.execScan ain cart s
  | .pumpStroke ch => Sys2Proof.Machine.execPumpStroke ch s
  | .mountHeadersRead marks => Sys2Proof.Machine.execMountHeadersRead marks s
  | .eraseDone verified mark => Sys2Proof.Machine.execEraseDone verified mark s
  | .programDone verified mark => Sys2Proof.Machine.execProgramDone verified mark s
  | .dwellExpiry => Sys2Proof.Machine.execDwellExpiry s
  | .measureCommandDone ack => Sys2Proof.Machine.execMeasureCommandDone ack s
  | .resultReadDone ack bytes => Sys2Proof.Machine.execResultReadDone ack bytes s
  | .readingTimeout => Sys2Proof.Machine.execReadingTimeout s

end Sys2Proof.Machine
end

