-- ==== Sys2Proof/Machine/Tick.lean ====
section
/-!
DEFINITION. The passing of one millisecond on an empty queue (log 1): every running timer's time left falls by one, not
below 0, and nothing else changes. Expiries are commands.
-/

namespace Sys2Proof.Machine

/-- Timers of the print context. -/
def PrintContext.tick (x : PrintContext) : PrintContext :=
  { x with swathTimer := x.swathTimer.map (· - 1), dryTimer := x.dryTimer.map (· - 1) }

/-- Timers of the feed controller. -/
def Feed.tick (f : Feed) : Feed :=
  { f with
    settleLeft := f.settleLeft.map (· - 1)
    window := f.window.map fun w => { w with left := w.left - 1 }
    knifeCycle := f.knifeCycle.map fun k =>
      match k with
      | .stroke n => .stroke (n - 1)
      | .return_ n => .return_ (n - 1) }

/-- Timers of the ink controller. -/
def Ink.tick (k : Ink) : Ink :=
  { k with scanLeft := k.scanLeft - 1,
           chans := k.chans.map fun c => { c with strokeLeft := c.strokeLeft.map (· - 1) } }

/-- Timers of the edition controller. -/
def Editions.tick (d : Editions) : Editions :=
  { d with mountLeft := d.mountLeft - 1, rot := d.rot.map fun r => { r with left := r.left - 1 } }

/-- Timers of the colour checker. -/
def Checker.tick (k : Checker) : Checker :=
  { k with
    ctx := k.ctx.map fun x => { x with dwell := x.dwell.map (· - 1) }
    reading := k.reading.map fun r =>
      match r.phase with
      | .command => r
      | .result n => { r with phase := .result (n - 1) } }

/-- One millisecond. -/
def tick (s : State) : State :=
  ((((s.mapEng fun e => { e with ctx := e.ctx.map PrintContext.tick }).mapFeed Feed.tick).mapInk Ink.tick).mapEd
    Editions.tick).mapChk Checker.tick

end Sys2Proof.Machine
end

