-- ==== Sys2Proof/Machine/Step.lean ====
section
/-!
DEFINITION. One step of the block: the front command of the queue is taken, or a millisecond passes on an empty queue
(log 1).
-/

namespace Sys2Proof.Machine

/-- The command at the front of the queue is taken with the queue's rest; on an empty queue a millisecond passes. -/
def step (s : State) : Host.Outcome State Fault Refusal :=
  match s.pending with
  | [] => .next (tick s)
  | c :: rest => exec c (s.setPending rest)

/-- The state with the command that a word spells at the front of the queue; unchanged where the word spells none. -/
def State.withFetchWord (s : State) (nbits w : Nat) : State :=
  match decodeTableWord nbits w with
  | some c => s.setPending (c :: s.pending)
  | none => s

end Sys2Proof.Machine
end

