-- ==== Sys2Proof/Safety.lean ====
section
/-!
DEFINITION. What counts as a safe state: the laws that the manual says the blocks keep (R2, R11, R28, R54, R86, R104,
R112, R167, R172, R185 among them), each with the facts about the block's other fields that make a step keep it. No
command stops the machine, so a run is safe when every state of it keeps the laws.
-/

namespace Sys2Proof.Machine

/-- The host link's law: no subject twice in the notice queue (R185); the notice being sent is the queue's front and
only it can be marked (R186); the reply being sent is the one in the reply slot, and a busy answer waits behind a reply
(R182); the counters do not pass 65,535 (R187). -/
structure HostLink.Law (h : HostLink) : Prop where
  nodup : h.queue.Nodup
  front : ∀ sub rel seq body, h.tx = some (.notice sub rel seq body) → h.queue.head? = some sub
  marked : h.marked = true → ∃ sub rel seq body, h.tx = some (.notice sub rel seq body)
  reply : ∀ r, h.tx = some (.reply r) → h.reply = some r
  busy : h.busy.isSome = true → h.reply.isSome = true
  counts : h.crcDrops ≤ 65535 ∧ h.overDrops ≤ 65535 ∧ h.gapDrops ≤ 65535 ∧ h.busyCount ≤ 65535

/-- The feed axis's law: every output is off in UNREFERENCED, IDLE and FAULT (R54); a move is under way only in
MOVING, REVERSING and LOADING (R59); every output is off in a settle phase (R62); KNIFE is on only in a knife cycle,
which runs with the media still (R81); a load is under way only in LOADING (R53), its edge search without a move and
without a knife cycle (R76). -/
structure Feed.Law (f : Feed) : Prop where
  quiet : f.axis = .unreferenced ∨ f.axis = .idle ∨ f.axis = .fault → f.drive = .off ∧ f.knife = false
  moving : f.move.isSome = true → f.axis = .moving ∨ f.axis = .reversing ∨ f.axis = .loading
  settling : ∀ m, f.move = some m → m.phase = .settle → f.drive = .off
  timing : f.settleLeft.isSome = true → ∃ m, f.move = some m ∧ m.phase = .settle
  knife : f.knife = true → f.knifeCycle.isSome = true
  cycle : f.knifeCycle.isSome = true → f.drive = .off ∧ f.move = none ∧ (f.axis = .knife ∨ f.axis = .loading)
  search : ∀ p, f.load = some (.search p) → f.move = none ∧ f.knifeCycle = none
  loading : f.load.isSome = true → f.axis = .loading

/-- The ink controller's law: a pump runs exactly for a channel in REFILLING, which holds exactly one of the three
grants (R104); the wait list holds exactly the WAITING channels, each once (R103). -/
structure Ink.Law (k : Ink) : Prop where
  pump : ∀ c : Chan, k.chans[c].pump = true ↔ k.chans[c].supply = .refilling
  grant : ∀ c : Chan, k.chans[c].supply = .refilling ↔ ∃ g : Fin 3, k.grants[g] = some c
  once : ∀ (g h : Fin 3) (c : Chan), k.grants[g] = some c → k.grants[h] = some c → g = h
  waiting : ∀ c : Chan, k.chans[c].supply = .waiting ↔ c ∈ k.wait
  nodup : k.wait.Nodup

/-- The edition store's law: the pending-write list holds no block twice (R40); no persisted generation is above the
change generation (R39), nor is the generation a rotation has captured; nothing is written before the headers have been
read (R46). -/
structure Editions.Law (d : Editions) : Prop where
  nodup : d.writes.Nodup
  below : ∀ b : LBlock, d.persisted[b] ≤ d.change[b]
  captured : ∀ r, d.rot = some r → r.gen ≤ d.change[r.block]
  unread : d.headersRead = false → d.store = .mounting ∧ d.formatting = false ∧ d.rot = none

/-- The cost unit's law: the log holds at most 32 records, and records wait only while it is full (R172). -/
structure Cost.Law (k : Cost) : Prop where
  room : k.log.length ≤ 32
  full : k.waiting ≠ [] → k.log.length = 32

/-- The ink account's law (R112): what was drawn from a reservation and what remains of it sum to it, on every entry
of every live job. -/
def JobTable.Law (t : JobTable) : Prop :=
  ∀ (i : JobIx) (j : Job), t.slots[i] = .live j → ∀ e ∈ j.ink, e.drawn + e.remaining = e.reservation

/-- The engine link's counters do not pass 65,535 (R137). -/
def EngineLink.Law (e : EngineLink) : Prop :=
  e.crcDrops ≤ 65535 ∧ e.overDrops ≤ 65535 ∧ e.gapDrops ≤ 65535 ∧ e.protoErrors ≤ 65535

/-- The colour checker's counters do not pass 65,535 (R154). -/
def CheckCounters.Law (n : CheckCounters) : Prop :=
  n.started ≤ 65535 ∧ n.passed ≤ 65535 ∧ n.failed ≤ 65535 ∧ n.voided ≤ 65535 ∧ n.evaluated ≤ 65535
    ∧ n.patchesFailed ≤ 65535 ∧ n.timeouts ≤ 65535

/-- The slot holds a live job that names a price slot. -/
def Slot.names (p : PriceIx) : Slot → Bool
  | .live j => j.priceSlot == p
  | _ => false

/-- The price references' law (R167): every price slot's reference count is the number of live jobs naming it, plus
one if it is current. -/
def State.PriceLaw (s : State) : Prop :=
  ∀ p : PriceIx,
    s.cost.slots[p].refs = s.jobs.slots.toList.countP (Slot.names p) + (if s.cost.current = some p then 1 else 0)

/-! ### The course of a job: queue order, media path and media reservations -/

/-- The job table's law (R2, R6): the queue order names exactly the live slots, each once, and no two live jobs have
one tag. -/
structure State.OrderLaw (s : State) : Prop where
  nodup : s.jobs.order.Nodup
  live : ∀ i : JobIx, i ∈ s.jobs.order ↔ (s.liveJob i).isSome = true
  tags : ∀ (i k : JobIx) (j l : Job), s.liveJob i = some j → s.liveJob k = some l → j.tag = l.tag → i = k

/-- The engine has a part in the job (R12, R127): START has been sent and neither END nor the spoil path has come. -/
def Job.engaged (j : Job) : Bool := j.state.keepsSwathTarget && j.startPos.isSome && !j.spoilWait

/-- The job can wait to take the spoil path (R19). -/
def Job.spoilable (j : Job) : Bool :=
  (j.state.keepsSwathTarget && j.startPos.isSome) || decide (j.state = .checking)

/-- The commit of the job's copy number has been taken (R31). -/
def Job.committed (j : Job) : Bool := j.commitGen.isSome || j.flags.unrecorded

/-- A move for a cut is under way, or a knife cycle that is not a load's (R81, R83). -/
def Feed.cutting (f : Feed) : Bool :=
  (f.move.any fun m => m.by_ == .cut) || (f.knifeCycle.isSome && f.load.isNone)

/-- A back-feed of a starting phase is under way (R12). -/
def Feed.backFeeding (f : Feed) : Bool := f.move.any fun m => m.by_ == .backFeed

/-- The media path's law (R11): at most one live job is in a media-path state; with it, which job the engine, the
checker, a back-feed and a cut have to do with; a copy number is committed in CLOSING alone (R31). -/
structure State.PathLaw (s : State) : Prop where
  one : ∀ (i k : JobIx) (j l : Job), s.liveJob i = some j → s.liveJob k = some l → j.state.onPath = true →
    l.state.onPath = true → i = k
  waiting : ∀ (i : JobIx) (j : Job), s.liveJob i = some j → j.state = .pending → j.startPos = none ∧ j.spoilWait = false
  spoil : ∀ (i : JobIx) (j : Job), s.liveJob i = some j → j.spoilWait = true → j.spoilable = true
  engine : ∀ x, s.eng.ctx = some x → ∃ i j, s.liveJob i = some j ∧ j.tag = x.tag ∧ j.engaged = true
  checker : ∀ x, s.chk.ctx = some x → ∃ j, s.liveJob x.slot = some j ∧ j.state = .checking ∧ j.spoilWait = false
  backFeed : s.feed.backFeeding = true → ∀ i j, s.liveJob i = some j → j.state.onPath = true → j.starting = true
  cut : s.feed.cutting = true → ∀ i j, s.liveJob i = some j → j.state.onPath = true → j.state = .cutting
  commits : ∀ (i : JobIx) (j : Job), s.liveJob i = some j → j.committed = true → j.state = .closing

/-- The media reservations' law (R86): the reserved length is never above the remaining length, which is 0 with no roll
LOADED, a job held NO_MEDIA is PENDING and reserves nothing, and a CLOSING job reserves nothing (R85); the roll's reach
is never behind its consumed count (R74), and no roll is LOADED during a load (R75, R77). -/
structure State.MediaLaw (s : State) : Prop where
  fits : s.reserved ≤ s.feed.roll.remaining
  held : ∀ (i : JobIx) (j : Job), s.liveJob i = some j → j.holds.noMedia = true → j.state = .pending ∧ j.mediaRes = 0
  closed : ∀ (i : JobIx) (j : Job), s.liveJob i = some j → j.state = .closing → j.mediaRes = 0
  reach : s.feed.roll.consumed ≤ s.feed.roll.reach
  load : s.feed.load.isSome = true → s.feed.roll.state ≠ .loaded

/-- The three laws of the jobs' course. -/
structure State.CourseLaw (s : State) : Prop where
  order : s.OrderLaw
  path : s.PathLaw
  media : s.MediaLaw

/-! ### The copy numbers (R28) -/

/-- The slot is OPEN or CLOSED: it holds an edition (R27). -/
def EdImage.isEdition (m : EdImage) : Bool := decide (m.state = .opened) || decide (m.state = .closed)

/-- What an image of a slot keeps, in the table and in the flash (R27): each number issued once and within the limit,
which is absent where there is no edition. -/
structure EdImage.Law (m : EdImage) : Prop where
  nodup : m.issued.Nodup
  range : ∀ n ∈ m.issued, 1 ≤ n ∧ n ≤ m.limit
  absent : m.isEdition = false → m.limit = 0

/-- An edition with this id is in this slot. -/
def Editions.holds (d : Editions) (e : EdIx) (id : Nat) : Prop := d.image[e].isEdition = true ∧ d.image[e].id = id

/-- The edition ids of the OPEN and CLOSED slots are all different (R27). -/
def Editions.DistinctIds (d : Editions) : Prop := ∀ (e f : EdIx) (id : Nat), d.holds e id → d.holds f id → e = f

/-- The three sets of a slot's numbers, one after another. -/
def Editions.numbers (d : Editions) (e : EdIx) : List Nat := d.image[e].issued ++ d.unrec[e] ++ d.resv[e]

/-- The edition table's law (R28): for every slot the issued, the issued-unrecorded and the reservation set are
pairwise disjoint, each with every number once and within the limit. With it, what makes a step keep it: the ids are
distinct (R27), the images in the flash and in the rotation obey R27, a rotation does not lower the persisted
generation, and no number is held while the store mounts (R31). -/
structure Editions.CopyLaw (d : Editions) : Prop where
  store : d.Law
  disjoint : ∀ e, (d.numbers e).Nodup
  range : ∀ e, ∀ n ∈ d.numbers e, 1 ≤ n ∧ n ≤ d.image[e].limit
  absent : ∀ e : EdIx, d.image[e].isEdition = false → d.image[e].limit = 0
  ids : d.DistinctIds
  flash : ∀ (p : PBlock) (k : Fin 16), d.flash[p].images[k].Law
  rotation : ∀ r, d.rot = some r → d.persisted[r.block] ≤ r.gen ∧ ∀ k : Fin 16, r.images[k].Law
  mounting : d.store = .mounting → ∀ e : EdIx, d.unrec[e] = [] ∧ d.resv[e] = []
  format : d.formatting = true → d.store = .mounting

/-- The copy number that a job holds in its edition: reserved, and neither given back nor committed (R29 to R31). -/
def Job.holdsCopy (j : Job) : Option JobEdition :=
  if j.outcome ≠ some .spoiled ∧ j.outcome ≠ some .cancelled ∧ j.committed = false then j.edition else none

/-- A live job holds this copy number. -/
def State.keeps (s : State) (i : JobIx) (x : JobEdition) : Prop := ∃ j, s.liveJob i = some j ∧ j.holdsCopy = some x

/-- A live job waits for its commit of this copy number, at a generation that is not yet persisted (R32). -/
def State.waits (s : State) (i : JobIx) (x : JobEdition) (g : Nat) : Prop :=
  (∃ j, s.liveJob i = some j ∧ j.commitOpen = true ∧ j.edition = some x ∧ j.commitGen = some g)
    ∧ s.ed.persisted[blockOf x.slot] < g

/-- Where the number of a waiting commit is: in the issued set of its slot, or nowhere, where the edition has been
removed since; then no slot has the id before that removal persists (R33, R35). -/
def Editions.carries (d : Editions) (x : JobEdition) (g : Nat) : Prop :=
  (d.holds x.slot x.id ∧ x.copy ∈ d.image[x.slot].issued) ∨
    ((∀ e, ¬ d.holds e x.id) ∧
      (d.store = .readOnly ∨ ∃ r ∈ d.removals, r.id = x.id ∧ r.block = blockOf x.slot ∧ g ≤ r.gen))

/-- The copy numbers' law: the edition table's (R28), and which numbers the live jobs hold in it. A job that has not
committed its number has it in the reservation set of its slot, no two jobs the same one (R29); a job that has committed
is FINISHED (R31), and its number is where the store finds it if the commit fails (R32). -/
structure State.CopyLaw (s : State) : Prop where
  table : s.ed.CopyLaw
  mounting : s.ed.store = .mounting → ∀ (i : JobIx) (j : Job), s.liveJob i = some j → j.edition = none
  held : ∀ i x, s.keeps i x → s.ed.holds x.slot x.id ∧ x.copy ∈ s.ed.resv[x.slot]
  once : ∀ i k x y, s.keeps i x → s.keeps k y → x.slot = y.slot → x.copy = y.copy → i = k
  finished : ∀ (i : JobIx) (j : Job), s.liveJob i = some j → j.committed = true → j.outcome = some .finished
  waiting : ∀ i x g, s.waits i x g → g ≤ s.ed.change[blockOf x.slot] ∧ s.ed.carries x g
  waitOnce : ∀ i k x y g h, s.waits i x g → s.waits k y h → x.id = y.id → x.copy = y.copy → i = k

/-! ### Every law -/

/-- The laws of one state that hold whatever the flash holds: all but the copy numbers' law. -/
structure State.Safe (s : State) : Prop where
  host : s.host.Law
  feed : s.feed.Law
  ink : s.ink.Law
  ed : s.ed.Law
  cost : s.cost.Law
  jobs : s.jobs.Law
  eng : s.eng.Law
  chk : s.chk.counters.Law
  price : s.PriceLaw
  course : s.CourseLaw

/-! ### Words for statements about one command -/

/-- The link can take a request: no reply waits (R182) and no RESTART is under way (R189). -/
abbrev State.takesRequest (s : State) : Prop := s.host.reply = none ∧ s.host.restart = .none

/-- The end of a request's event: its reply waits in the reply slot, and the line, where free, is given (R182, R184). -/
def answered (kind ft : Byte) (body : Bytes) (s : State) : State :=
  giveLine (s.mapHost fun h => { h with reply := some { kind := kind, tag := ft, body := body } })

/-- Every block at the reset effect (R26, R72, R109, R121, R138, R156, R165, R178, R190), from a state whose input pins
keep their levels; the store is mounting (R38). -/
structure AfterReset (rate1 rate0 : Bool) (s t : State) : Prop where
  link : t.host.rx = none ∧ t.host.reply = none ∧ t.host.busy = none ∧ t.host.tx = none ∧ t.host.restart = .none
  notices : t.host.queue = [] ∧ t.attn = false ∧ t.host.seq = 0
  counters : t.host.crcDrops = 0 ∧ t.host.overDrops = 0 ∧ t.host.gapDrops = 0 ∧ t.host.busyCount = 0
  rate : t.host.rate1 = rate1 ∧ t.host.rate0 = rate0
  slots : ∀ i : JobIx, t.jobs.slots[i] = .free
  order : t.jobs.order = []
  store : t.ed.store = .mounting ∧ t.ed.rot = none ∧ t.ed.writes = [] ∧ t.ed.removals = []
  volatile : ∀ e : EdIx, t.ed.resv[e] = [] ∧ t.ed.unrec[e] = []
  axis : t.feed.axis = .unreferenced ∧ t.feed.drive = .off ∧ t.feed.knife = false ∧ t.feed.pos = 0
    ∧ t.feed.referenced = false
  moves : t.feed.move = none ∧ t.feed.rest = none ∧ t.feed.fault = none ∧ t.feed.swathTarget = none
    ∧ t.feed.load = none ∧ t.feed.knifeCycle = none
  feedProfile : t.feed.profile = FeedProfile.default ∧ t.feed.trimBase = 0 ∧ t.feed.trimFine = 0
  roll : t.feed.roll = Roll.atReset
  pins : t.feed.encA = s.feed.encA ∧ t.feed.encB = s.feed.encB ∧ t.feed.edge = s.feed.edge
    ∧ t.feed.knifeHome = s.feed.knifeHome
  channels : ∀ c : Chan, t.ink.chans[c] = Channel.atReset
  pumps : t.ink.wait = [] ∧ (∀ g : Fin 3, t.ink.grants[g] = none) ∧ t.ink.humRing = [] ∧ t.ink.scanned = false
  account : ∀ c : Chan, t.acct.use[c] = 0 ∧ t.acct.useBegin[c] = 0 ∧ t.acct.carry[c] = 0
  engine : t.eng.state = .silent ∧ t.eng.code = 0 ∧ t.eng.ctx = none ∧ t.eng.rx = none
  messages : t.eng.txList = [.abort 0]
  engineCounters : t.eng.crcDrops = 0 ∧ t.eng.overDrops = 0 ∧ t.eng.gapDrops = 0 ∧ t.eng.protoErrors = 0
  checker : t.chk.state = .idle ∧ t.chk.ctx = none ∧ t.chk.last = none ∧ t.chk.reading = none
    ∧ t.chk.profile = StripProfile.default ∧ t.chk.counters = CheckCounters.zero
  patches : ∀ k : Fin 48, t.chk.patches[k] = none
  drift : (∀ c : Chan, t.drift.rings[c] = [] ∧ t.drift.states[c] = .unverified ∧ t.drift.lots[c] = none)
    ∧ t.drift.warn = 250 ∧ t.drift.out = 400
  prices : (∀ p : PriceIx, t.cost.slots[p] = { loaded := none, refs := 0 }) ∧ t.cost.current = none
    ∧ t.cost.genCounter = 0
  records : t.cost.log = [] ∧ t.cost.waiting = [] ∧ t.cost.critical = 24 ∧ t.cost.overhead = Overhead.zero

end Sys2Proof.Machine
end

