-- ==== Sys2Proof/WellFormed.lean ====
section
/-!
DEFINITION. Which commands can occur: the widths of the operand types bound every plain field, so what is left
to say concerns the body sizes that the host link controller admits (R181, R192), the frames of the two lines,
and the well-formed engine messages (R126). A command that is not well formed still has an effect in exec.
-/

namespace Sys2Proof

open Machine

/-- The command can arrive on its line as the row it is. -/
def Instr.wellFormed : Instr → Bool
  | .submitJob _ o => decide (21 ≤ (orderBody o).length ∧ (orderBody o).length ≤ 70)
  | .setPatches _ us => decide (us.length ≤ 4)
  | .hostFrame bs => !bs.isEmpty
  | .engineFrame bs => !bs.isEmpty
  | .engineState st code => (readEngineState st code).isSome
  | .swath _ _ feed drops => (readSwath feed drops).isSome
  | .endPrint _ st => (readEnd st).isSome
  | .maint drops => (readMaint drops).isSome
  | _ => true

end Sys2Proof
end

