-- ==== Sys2Proof/Certificates/Slice0/Obligations.lean ====
section
/-!
DEFINITION. The statements for the provers, in the order of the manual's chapters: the queue and the resets, the host
link, jobs, editions and the store, the feed axis and the roll, ink, the engine link, colour, costs, and the laws that
every step keeps. A request's statement speaks of a state whose link takes a request (R182); the discipline that refuses
it otherwise is a statement of its own.
-/

open Sys2Proof Sys2Proof.Machine

/-! ### The queue, the passing of time, resets -/

/-- The command at the front of the queue is taken, with the queue's rest left waiting. -/
def Obligations.StepTakesTheFrontCommand : Prop :=
  ∀ (c : Instr) (rest : List Instr) (s : State), step (s.setPending (c :: rest)) = exec c (s.setPending rest)

/-- On an empty queue a millisecond passes: every running timer's time left falls by one, and nothing else changes. The
model's own choice (log 1). -/
def Obligations.IdleStepLowersRunningTimers : Prop :=
  ∀ s : State, ∃ t, step (s.setPending []) = .next t ∧
    t = { s with
          pending := []
          eng := { s.eng with ctx := t.eng.ctx }
          feed := { s.feed with settleLeft := t.feed.settleLeft, window := t.feed.window,
                                knifeCycle := t.feed.knifeCycle }
          ink := { s.ink with scanLeft := s.ink.scanLeft - 1, chans := t.ink.chans }
          ed := { s.ed with mountLeft := s.ed.mountLeft - 1, rot := t.ed.rot }
          chk := { s.chk with ctx := t.chk.ctx, reading := t.chk.reading } } ∧
    t.eng.ctx = s.eng.ctx.map (fun x =>
      { x with swathTimer := x.swathTimer.map (· - 1), dryTimer := x.dryTimer.map (· - 1) }) ∧
    t.feed.settleLeft = s.feed.settleLeft.map (· - 1) ∧
    t.feed.window = s.feed.window.map (fun w => { w with left := w.left - 1 }) ∧
    (s.feed.knifeCycle = none → t.feed.knifeCycle = none) ∧
    (∀ n, s.feed.knifeCycle = some (.stroke n) → t.feed.knifeCycle = some (.stroke (n - 1))) ∧
    (∀ n, s.feed.knifeCycle = some (.return_ n) → t.feed.knifeCycle = some (.return_ (n - 1))) ∧
    t.ink.chans = s.ink.chans.map (fun c => { c with strokeLeft := c.strokeLeft.map (· - 1) }) ∧
    t.ed.rot = s.ed.rot.map (fun r => { r with left := r.left - 1 }) ∧
    t.chk.ctx = s.chk.ctx.map (fun x => { x with dwell := x.dwell.map (· - 1) }) ∧
    (∀ d, s.chk.reading = some { phase := .command, discard := d } → t.chk.reading = s.chk.reading) ∧
    (∀ n d, s.chk.reading = some { phase := .result n, discard := d } →
      t.chk.reading = some { phase := .result (n - 1), discard := d })

/-- Every command has a next state, and taking it leaves the commands that wait as they are. That a queue of commands
waits, and that a reset leaves it, is the model's own choice (logs 34 and 36). -/
def Obligations.EveryCommandAnswersANextState : Prop :=
  ∀ (c : Instr) (s : State), ∃ t, exec c s = .next t ∧ t.pending = s.pending

/-- A power-on reset takes the reset effect at once; RESET_EFFECT takes it where the store is drained, the RESTART reply
has gone and no frame is being sent (R189), and else changes nothing (log 4). What a power loss leaves of the block that
a rotation was writing (R49). RESTART is answered OK, and the restart begins. The model's own choices in it: the channels
and the humidity before the first scan (log 10), the input pins at their levels (log 7), and that the command says how far
a programming in flight had gone (log 12). -/
def Obligations.ResetsAndRestartTakeTheResetEffect : Prop :=
  (∀ (rate1 rate0 : Bool) (flight : FlightEnd) (s : State),
    (∃ t, exec (.powerOnReset rate1 rate0 flight) s = .next t ∧ AfterReset rate1 rate0 s t) ∧
    (s.host.restart = .replyGone → s.ed.store ≠ .mounting → s.ed.rot = none → s.ed.writes = [] → s.host.tx = none →
      ∃ t, exec (.resetEffect rate1 rate0) s = .next t ∧ AfterReset rate1 rate0 s t ∧ t.ed.flash = s.ed.flash) ∧
    (¬ (s.host.restart = .replyGone ∧ s.ed.store ≠ .mounting ∧ s.ed.rot = none ∧ s.ed.writes = [] ∧ s.host.tx = none) →
      exec (.resetEffect rate1 rate0) s = .next s)) ∧
  (∀ (rate1 rate0 : Bool) (s : State),
    (∀ flight, s.ed.rot = none →
      ∃ t, exec (.powerOnReset rate1 rate0 flight) s = .next t ∧ t.ed.flash = s.ed.flash) ∧
    (∀ flight r, s.ed.rot = some r → r.phase = .erasing →
      ∃ t, exec (.powerOnReset rate1 rate0 flight) s = .next t ∧ t.ed.flash = s.ed.flash) ∧
    (∀ r, s.ed.rot = some r → r.phase = .programming →
      (∃ t, exec (.powerOnReset rate1 rate0 .blank) s = .next t ∧
        t.ed.flash = s.ed.flash.set r.phys FlashBlock.erased) ∧
      (∃ t, exec (.powerOnReset rate1 rate0 .writing) s = .next t ∧ t.ed.flash = s.ed.flash) ∧
      (∃ t, exec (.powerOnReset rate1 rate0 .complete) s = .next t ∧
        t.ed.flash = s.ed.flash.set r.phys { s.ed.flash[r.phys] with mark := .complete }))) ∧
  (∀ (ft : Byte) (s : State), s.takesRequest →
    exec (.restart ft) s = .next (answered 0x84 ft [0x00] (s.mapHost fun h => { h with restart := .replyWaiting })))

/-- The state after reset keeps every law, those of the jobs' course and of the copy numbers among them. -/
def Obligations.ResetStateKeepsEveryLaw : Prop :=
  State.reset.Safe ∧ State.reset.CopyLaw

/-! ### The host link -/

/-- A request is executed, refused during a RESTART, answered LINK_BUSY or discarded, by the two outbound slots. -/
def Obligations.RequestsMeetTheOneRequestDiscipline : Prop :=
  ∀ (i : Instr) (k ft : Byte) (b : Bytes) (s : State), requestBody i = some (k, ft, b) →
    (s.takesRequest → exec i s = .next (answered (k + 0x80) ft (ownerOf i s).2 (ownerOf i s).1)) ∧
    (s.host.reply = none → s.host.restart ≠ .none → exec i s = .next (answered (k + 0x80) ft [0x20] s)) ∧
    (s.host.reply.isSome = true → s.host.busy = none →
      exec i s = .next (giveLine (s.mapHost fun h =>
        { h with busy := some { kind := k + 0x80, tag := ft, body := [0x11] },
                 busyCount := min (h.busyCount + 1) 65535 }))) ∧
    (s.host.reply.isSome = true → s.host.busy.isSome = true →
      exec i s = .next (giveLine (s.mapHost fun h => { h with busyCount := min (h.busyCount + 1) 65535 })))

/-- A whole frame, taken while hunting, is the request it carries: same state, same reply. That a request's own command
stands for its whole frame is the model's choice (log 6). -/
def Obligations.HostFrameIsTheRequestItCarries : Prop :=
  ∀ (i : Instr) (k ft : Byte) (b : Bytes) (s : State), i.wellFormed = true → requestBody i = some (k, ft, b) →
    s.host.rx = none → exec (.hostFrame (frameBytes k ft b)) s = exec i s

/-- A frame of a kind that is no request kind is answered BAD_REQUEST, with the kind 0xFF from 0x80 up; so is a frame of
a request kind whose body is shorter or longer than its kind allows. A byte that is no start byte is discarded while
hunting; a frame with a wrong CRC and a header that declares more than 512 are dropped and counted; nothing else changes.
A gap drops and counts the frame being assembled, and the byte that ends it is judged while hunting, on both lines. -/
def Obligations.BadHostFramesAndGapsAreDropped : Prop :=
  (∀ (k ft : Byte) (b : Bytes) (s : State), s.takesRequest → s.host.rx = none → b.length ≤ 512 →
    k ∉ ([0x01, 0x02, 0x03, 0x04, 0x10, 0x11, 0x12, 0x13, 0x20, 0x21, 0x22, 0x23, 0x24, 0x30, 0x31, 0x32, 0x33, 0x34,
      0x35, 0x36, 0x40, 0x41, 0x42, 0x48, 0x50, 0x51, 0x52, 0x53, 0x58, 0x59, 0x5A, 0x60, 0x61, 0x62, 0x63,
      0x64] : List Byte) →
    exec (.hostFrame (frameBytes k ft b)) s =
      .next (answered (if k.toNat < 128 then k + 0x80 else 0xFF) ft [0x10] s)) ∧
  (∀ (k ft : Byte) (least most : Nat) (b : Bytes) (s : State), s.takesRequest → s.host.rx = none → b.length ≤ 512 →
    (k, least, most) ∈ ([(0x01, 0, 0), (0x02, 0, 0), (0x03, 2, 2), (0x04, 0, 0), (0x10, 21, 70), (0x11, 2, 2),
      (0x12, 2, 2), (0x13, 0, 0), (0x20, 6, 6), (0x21, 5, 5), (0x22, 5, 5), (0x23, 5, 5), (0x24, 0, 0), (0x30, 15, 15),
      (0x31, 0, 0), (0x32, 0, 0), (0x33, 9, 9), (0x34, 0, 0), (0x35, 2, 2), (0x36, 3, 3), (0x40, 13, 13), (0x41, 2, 2),
      (0x42, 12, 12), (0x48, 0, 0), (0x50, 1, 37), (0x51, 0, 0), (0x52, 23, 23), (0x53, 0, 0), (0x58, 4, 4),
      (0x59, 1, 1), (0x5A, 0, 0), (0x60, 76, 76), (0x61, 0, 0), (0x62, 0, 0), (0x63, 1, 1),
      (0x64, 1, 1)] : List (Byte × Nat × Nat)) →
    b.length < least ∨ most < b.length →
    exec (.hostFrame (frameBytes k ft b)) s = .next (answered (k + 0x80) ft [0x10] s)) ∧
  (∀ (s : State), s.host.rx = none →
    (∀ c : Byte, c ≠ 0xA5 → exec (.hostFrame [c]) s = .next s) ∧
    (∀ (k ft x y : Byte) (b : Bytes), b.length ≤ 512 → word16 x y ≠ crc16 (frameCore k ft b) →
      exec (.hostFrame (0xA5 :: (frameCore k ft b ++ [x, y]))) s =
        .next (s.mapHost fun h => { h with crcDrops := min (h.crcDrops + 1) 65535 })) ∧
    (∀ k ft lo hi : Byte, 512 < (word16 lo hi).toNat →
      exec (.hostFrame [0xA5, k, ft, lo, hi]) s =
        .next (s.mapHost fun h => { h with overDrops := min (h.overDrops + 1) 65535 }))) ∧
  (∀ (c : Byte) (s : State),
    exec (.gapDrop c) s = .next (s.mapHost fun h =>
      { h with rx := if c = 0xA5 then some [] else none,
               gapDrops := if h.rx.isSome then min (h.gapDrops + 1) 65535 else h.gapDrops }) ∧
    exec (.engineGapDrop c) s = .next (s.mapEng fun e =>
      { e with rx := if c = 0xA5 then some [] else none,
               gapDrops := if e.rx.isSome then min (e.gapDrops + 1) 65535 else e.gapDrops }))

/-- The line carries one frame at a time; free, it is given to the reply, else to the front notice with the next
sequence number. A subject joins the end of the queue once; the one being sent is marked to be sent again. -/
def Obligations.NoticesQueueOnceAndTheLineIsGiven : Prop :=
  (∀ s : State,
    (s.host.tx.isSome = true ∨ s.lineClosed = true → giveLine s = s) ∧
    (s.host.tx = none → s.lineClosed = false →
      (∀ r, s.host.reply = some r → giveLine s = s.mapHost fun h => { h with tx := some (.reply r) }) ∧
      (∀ sub q, s.host.reply = none → s.host.queue = sub :: q →
        giveLine s = s.mapHost fun h =>
          { h with seq := h.seq + 1,
                   tx := some (.notice sub (s.showsReleasing sub) (h.seq + 1)
                     (BitVec.ofNat 8 sub.number :: snapshot s sub)) }) ∧
      (s.host.reply = none → s.host.queue = [] → giveLine s = s))) ∧
  (∀ (sub : Subject) (s : State),
    (sub ∉ s.host.queue → notify sub s = s.mapHost fun h => { h with queue := h.queue ++ [sub] }) ∧
    (sub ∈ s.host.queue → s.host.sending sub = false → notify sub s = s) ∧
    (sub ∈ s.host.queue → s.host.sending sub = true → notify sub s = s.mapHost fun h => { h with marked := true }))

/-- The last byte of a reply frees the reply slot for the busy answer; the last byte of a notice takes its entry from
the queue, or moves it to the end where it is marked, and frees the slot it showed RELEASING. -/
def Obligations.SentFramesLeaveTheLine : Prop :=
  ∀ s : State,
    (∀ r, s.host.tx = some (.reply r) →
      exec .replySent s = .next (giveLine (s.mapHost fun h =>
        { h with tx := none, reply := h.busy, busy := none,
                 restart := if h.restart = .replyWaiting then .replyGone else h.restart }))) ∧
    (∀ sub seq body q, s.host.tx = some (.notice sub false seq body) → s.host.queue = sub :: q →
      exec .noticeSent s = .next (giveLine (s.mapHost fun h =>
        { h with tx := none, marked := false, queue := if s.host.marked then q ++ [sub] else q }))) ∧
    (∀ i seq body q, s.host.tx = some (.notice (.jobSlot i) true seq body) → s.host.queue = .jobSlot i :: q →
      s.jobs.slots[i].isReleasing = true →
      exec .noticeSent s = .next (giveLine ((s.mapJobs fun t => { t with slots := t.slots.set i .free }).mapHost fun h =>
        { h with tx := none, marked := false, queue := if s.host.marked then q ++ [.jobSlot i] else q })))

/-- Each report is OK with its snapshot and changes nothing but the host link. IDENTIFY gives the vendor code, the part
code, the revision and the rate of the straps. -/
def Obligations.ReportsAnswerTheirSnapshotAndChangeNothing : Prop :=
  (∀ (ft : Byte) (s : State), s.takesRequest →
    exec (.identify ft) s = .next (answered 0x81 ft (0x00 :: identifyReport s.host) s) ∧
    exec (.status ft) s = .next (answered 0x82 ft (0x00 :: statusReport s) s) ∧
    exec (.listJobs ft) s = .next (answered 0x93 ft (0x00 :: listJobsReport s) s) ∧
    exec (.storeStatus ft) s = .next (answered 0xA4 ft (0x00 :: storeReport s.ed) s) ∧
    exec (.feedStatus ft) s = .next (answered 0xB2 ft (0x00 :: feedReport s) s) ∧
    exec (.engineStatus ft) s = .next (answered 0xC8 ft (0x00 :: engineReport s.eng) s) ∧
    exec (.readPatches ft) s = .next (answered 0xD1 ft (0x00 :: patchesReport s.chk) s) ∧
    exec (.checkStatus ft) s = .next (answered 0xD3 ft (0x00 :: checkReport s.chk) s) ∧
    exec (.driftStatus ft) s = .next (answered 0xDA ft (0x00 :: driftReport s) s) ∧
    exec (.priceStatus ft) s = .next (answered 0xE1 ft (0x00 :: priceReport s.cost) s)) ∧
  (∀ (ft : Byte) (s : State), s.takesRequest →
    exec (.identify ft) s = .next (answered 0x81 ft
      ([0x00, 0x5D, 0x0E, 0x47, 0x70, 0x01] ++
        (if s.host.rate1 = false ∧ s.host.rate0 = false then [0x00, 0xC2, 0x01, 0x00]
         else if s.host.rate1 = false then [0x00, 0x84, 0x03, 0x00]
         else if s.host.rate0 = false then [0x00, 0x08, 0x07, 0x00] else [0x00, 0x10, 0x0E, 0x00])) s))

/-- COUNTERS gives a group's four or seven counters, low byte first, and clears them when asked; other groups and clear
bytes are out of range. -/
def Obligations.CountersReadAndClearTheirGroup : Prop :=
  ∀ (ft group clear : Byte) (s : State), s.takesRequest →
    (exec (.counters ft 0 0) s = .next (answered 0x83 ft ([0x00, 0x00] ++ hostCounters s.host) s)) ∧
    (exec (.counters ft 0 1) s = .next (answered 0x83 ft ([0x00, 0x00] ++ hostCounters s.host)
      (s.mapHost fun h => { h with crcDrops := 0, overDrops := 0, gapDrops := 0, busyCount := 0 }))) ∧
    (exec (.counters ft 1 0) s = .next (answered 0x83 ft ([0x00, 0x01] ++ engineCounters s.eng) s)) ∧
    (exec (.counters ft 1 1) s = .next (answered 0x83 ft ([0x00, 0x01] ++ engineCounters s.eng)
      (s.mapEng fun e => { e with crcDrops := 0, overDrops := 0, gapDrops := 0, protoErrors := 0 }))) ∧
    (exec (.counters ft 2 0) s = .next (answered 0x83 ft ([0x00, 0x02] ++ checkCounters s.chk.counters) s)) ∧
    (exec (.counters ft 2 1) s = .next (answered 0x83 ft ([0x00, 0x02] ++ checkCounters s.chk.counters)
      (s.mapChk fun k => { k with counters := { started := 0, passed := 0, failed := 0, voided := 0, evaluated := 0,
                                                patchesFailed := 0, timeouts := 0 } }))) ∧
    (2 < group.toNat ∨ 1 < clear.toNat → exec (.counters ft group clear) s = .next (answered 0x83 ft [0x21] s))

/-! ### Jobs -/

/-- The checks of SUBMIT_JOB in their order: the first that fails gives the reply, and nothing else changes. What makes a
body well formed in its counts, colour mode and copy number (R5), and what step 4 finds in range, with the estimate it
takes (R7). -/
def Obligations.SubmitRefusalsComeInOrder : Prop :=
  (∀ (ft : Byte) (o : JobOrder) (s : State), s.takesRequest →
    (JobOrder.formed o = none → exec (.submitJob ft o) s = .next (answered 0x90 ft [0x10] s)) ∧
    (∀ mode, JobOrder.formed o = some mode →
      ((s.jobByTag o.tag.toNat).isSome = true → exec (.submitJob ft o) s = .next (answered 0x90 ft [0x22] s)) ∧
      (s.jobByTag o.tag.toNat = none →
        (s.slotsWhere Slot.isFree = [] → exec (.submitJob ft o) s = .next (answered 0x90 ft [0x23] s)) ∧
        (s.slotsWhere Slot.isFree ≠ [] →
          (JobOrder.inRange o mode s.chk.profile.geometry = none →
            exec (.submitJob ft o) s = .next (answered 0x90 ft [0x21] s)) ∧
          (∀ est, JobOrder.inRange o mode s.chk.profile.geometry = some est →
            (s.cost.current = none → exec (.submitJob ft o) s = .next (answered 0x90 ft [0x25] s)) ∧
            (s.cost.current.isSome = true →
              (s.feed.roll.state ≠ .loaded → exec (.submitJob ft o) s = .next (answered 0x90 ft [0x26] s)) ∧
              (s.feed.roll.state = .loaded →
                (∀ e, judgeEdition s o.edition.toNat o.copy.toNat = .error e →
                  exec (.submitJob ft o) s = .next (answered 0x90 ft [e] s)) ∧
                (∀ ed f fs, judgeEdition s o.edition.toNat o.copy.toNat = .ok ed → judgeEstimate s est = f :: fs →
                  exec (.submitJob ft o) s = .next (answered 0x90 ft (inkRefusal (f :: fs)) s))))))))) ∧
  (∀ (o : JobOrder) (counts : Prop),
    (counts ↔ (1 ≤ o.cuts.length ∧ o.cuts.length ≤ 3) ∧ (1 ≤ o.est.length ∧ o.est.length ≤ 10) ∧
      (o.copy = 0 ∨ o.edition ≠ 0)) →
    (¬ counts ∨ 2 < o.mode.toNat → JobOrder.formed o = none) ∧
    (counts →
      (o.mode = 0 → JobOrder.formed o = some .plain) ∧ (o.mode = 1 → JobOrder.formed o = some .check) ∧
      (o.mode = 2 → JobOrder.formed o = some .critical))) ∧
  (∀ (o : JobOrder) (mode : ColourMode) (g : Option Geometry) (strip : Nat) (fits : Prop),
    strip = (if mode = .plain then 0 else (g.map fun x => (x.m + x.t) * x.pitch).getD 0) →
    (fits ↔ o.tag ≠ 0 ∧ (100 ≤ o.printLen.toNat ∧ o.printLen.toNat ≤ 20000) ∧
      (o.cuts.map (·.toNat)).Pairwise (· < ·) ∧ (∀ c ∈ o.cuts, o.printLen.toNat ≤ c.toNat) ∧
      (∀ c ∈ o.cuts.getLast?, c.toNat ≤ o.printLen.toNat + strip + 1000) ∧ (mode = .plain ∨ g.isSome = true) ∧
      (∀ p ∈ o.est, p.1.toNat ≤ 9 ∧ 1 ≤ p.2.toNat ∧ p.2.toNat ≤ 30000000) ∧ (o.est.map (·.1)).Nodup) →
    (¬ fits → JobOrder.inRange o mode g = none) ∧
    (fits → ∃ est, JobOrder.inRange o mode g = some est ∧
      est.map (fun p => (p.1.val, p.2)) = o.est.map fun p => (p.1.toNat, p.2.toNat)))

/-- Step 7: the copy number that an order asks for, or the refusal (R6, R28). Step 8: each pair of an estimate is judged
on its own channel by the availability at that moment, in which the ink held is the sum of what the unreleased entries
of the live jobs still reserve (R110); every pair that fails is listed, in ascending channel order (R111). -/
def Obligations.OrdersTakeFreeNumbersAndAvailableInk : Prop :=
  (∀ (s : State) (id copy : Nat),
    judgeEdition s 0 copy = .ok none ∧
    (id ≠ 0 → s.ed.store ≠ .ready → judgeEdition s id copy = .error 0x28) ∧
    (id ≠ 0 → s.ed.store = .ready →
      (s.ed.slotOf id = none → judgeEdition s id copy = .error 0x27) ∧
      (∀ e, s.ed.slotOf id = some e →
        (s.ed.image[e].state ≠ .opened → judgeEdition s id copy = .error 0x27) ∧
        (s.ed.image[e].state = .opened →
          (∀ k, (1 ≤ k ∧ k ≤ s.ed.image[e].limit ∧ k ∉ s.ed.image[e].issued ∧ k ∉ s.ed.unrec[e] ∧ k ∉ s.ed.resv[e]) →
            (∀ m, 1 ≤ m → m < k → m ∈ s.ed.image[e].issued ∨ m ∈ s.ed.unrec[e] ∨ m ∈ s.ed.resv[e]) →
            judgeEdition s id 0 = .ok (some (e, k))) ∧
          ((∀ m, 1 ≤ m → m ≤ s.ed.image[e].limit →
              m ∈ s.ed.image[e].issued ∨ m ∈ s.ed.unrec[e] ∨ m ∈ s.ed.resv[e]) →
            judgeEdition s id 0 = .error 0x27) ∧
          (copy ≠ 0 →
            ((copy ≤ s.ed.image[e].limit ∧ copy ∉ s.ed.image[e].issued ∧ copy ∉ s.ed.unrec[e] ∧ copy ∉ s.ed.resv[e]) →
              judgeEdition s id copy = .ok (some (e, copy))) ∧
            (¬ (copy ≤ s.ed.image[e].limit ∧ copy ∉ s.ed.image[e].issued ∧ copy ∉ s.ed.unrec[e] ∧ copy ∉ s.ed.resv[e]) →
              judgeEdition s id copy = .error 0x27)))))) ∧
  (∀ (s : State) (c : Chan) (amount : Nat),
    s.availability c =
      (s.ink.chans[c].level : Int) + (((s.ink.chans[c].cart).map (·.remaining)).getD 0 : Nat)
        - s.ink.chans[c].profile.floor - ((s.heldNl c + 999) / 1000 : Nat) ∧
    (s.ink.chans[c].supply = .unfitted → judgePair s (c, amount) = some (c, .notFitted, 0)) ∧
    (s.ink.chans[c].supply = .undeclared → judgePair s (c, amount) = some (c, .notDeclared, 0)) ∧
    (s.ink.chans[c].supply ≠ .unfitted → s.ink.chans[c].supply ≠ .undeclared →
      (s.ink.chans[c].fault = true → judgePair s (c, amount) = some (c, .sensor, 0)) ∧
      (s.ink.chans[c].fault = false → s.availability c < amount →
        judgePair s (c, amount) = some (c, .short, s.availability c)) ∧
      (s.ink.chans[c].fault = false → (amount : Int) ≤ s.availability c → judgePair s (c, amount) = none))) ∧
  (∀ (s : State) (c : Chan),
    s.heldNl c = (s.liveJobs.map fun p =>
      (p.2.ink.map fun e => if e.chan = c ∧ e.released = false then e.remaining else 0).sum).sum) ∧
  (∀ (s : State) (est : List (Chan × Nat)), (est.map (·.1)).Nodup →
    (judgeEstimate s est).Pairwise (fun x y => x.1 < y.1) ∧
    (∀ x, x ∈ judgeEstimate s est ↔ ∃ p ∈ est, judgePair s p = some x))

/-- An order that passes every check becomes the job of the lowest FREE slot at the end of the queue order, with its
number reserved, its ink and media reserved and its price slot counted, and the start conditions are evaluated; one
whose media reservation does not fit is refused. -/
def Obligations.AcceptedOrderBecomesAPendingJob : Prop :=
  ∀ (ft : Byte) (o : JobOrder) (s : State) (mode : ColourMode) (i : JobIx) (is : List JobIx) (est : List (Chan × Nat))
    (price : PriceIx) (ed : Option (EdIx × Nat)) (forced : Bool) (geo : Option Geometry) (strip planned : Nat)
    (cuts : List Nat),
    s.takesRequest → JobOrder.formed o = some mode → s.jobByTag o.tag.toNat = none →
    s.slotsWhere Slot.isFree = i :: is → JobOrder.inRange o mode s.chk.profile.geometry = some est →
    s.cost.current = some price → s.feed.roll.state = .loaded →
    judgeEdition s o.edition.toNat o.copy.toNat = .ok ed → judgeEstimate s est = [] →
    (forced = true ↔ mode = .plain ∧ s.chk.profile.set.isSome = true ∧ s.chk.profile.learn = true ∧
      ∃ p ∈ est, s.drift.states[p.1] = .unverified) →
    geo = (if mode = .plain ∧ forced = false then none else s.chk.profile.geometry) →
    strip = (geo.map fun g => (g.m + g.t) * g.pitch).getD 0 →
    cuts = (if forced then
        (o.cuts.map (·.toNat)).dropLast ++ [max (((o.cuts.map (·.toNat)).getLast?).getD 0) (o.printLen.toNat + strip + 10)]
      else o.cuts.map (·.toNat)) →
    planned = (cuts.getLast?).getD 0 + s.feed.profile.lead + strip →
    (s.feed.roll.remaining < planned + s.reserved → exec (.submitJob ft o) s = .next (answered 0x90 ft [0x26] s)) ∧
    (planned + s.reserved ≤ s.feed.roll.remaining → ∃ j : Job,
      (j.tag = o.tag.toNat ∧ j.state = .pending ∧ j.outcome = none ∧ j.cause = none ∧ j.printLen = o.printLen.toNat ∧
        j.cuts = cuts ∧ j.est = est ∧ j.lots = none ∧ j.mode = mode ∧ j.forced = forced ∧
        j.priceSlot = price ∧ j.startPos = none ∧ j.cutsDone = 0 ∧ j.commitGen = none ∧ j.flags = JobFlags.none) ∧
      (j.holds.noMedia = false ∧
        (j.holds.colourOut = true ↔ mode = .critical ∧ ∃ p ∈ est, s.drift.states[p.1] = .out)) ∧
      j.edition = ed.map (fun x => { id := o.edition.toNat, copy := x.2, slot := x.1 }) ∧
      j.strip = geo.map (fun g =>
        { geo := g, length := (g.m + g.t) * g.pitch, order := none, marks := none, verdict := none }) ∧
      (j.mediaRes = planned ∧ j.planned = planned ∧ j.drawn = 0) ∧
      j.ink = est.map (fun p =>
        { chan := p.1, estimated := true, reservation := p.2 * 1000, drawn := 0, remaining := p.2 * 1000, overdraw := 0,
          drops := 0, used := 0, released := false }) ∧
      exec (.submitJob ft o) s =
        .next (answered 0x90 ft
          (0x00 :: (u8 i ++ u16 ((ed.map (·.2)).getD 0) ++ u32 (s.cost.generation price) ++ yesNo forced))
          (startEval (notify (.jobSlot i)
            { s with
              jobs := { slots := s.jobs.slots.set i (.live j), order := s.jobs.order ++ [i] }
              ed := (ed.map fun x => { s.ed with resv := s.ed.resv.set x.1 (insertNum x.2 s.ed.resv[x.1]) }).getD s.ed
              cost := { s.cost with
                        slots := s.cost.slots.set price
                          { s.cost.slots[price] with refs := s.cost.slots[price].refs + 1 } } }))))

/-- QUERY_JOB reports the live job with the tag and QUERY_EDITION the slot that its selector names; neither changes
anything. That the store is judged before the selector is the model's inference (log 64). -/
def Obligations.QueriesReportWhatTheyName : Prop :=
  ∀ (ft : Byte) (s : State), s.takesRequest →
    (∀ (tag : U16) (i : JobIx) (j : Job), s.jobByTag tag.toNat = some (i, j) →
      exec (.queryJob ft tag) s = .next (answered 0x92 ft (0x00 :: jobFields s i true j) s)) ∧
    (∀ tag : U16, s.jobByTag tag.toNat = none → exec (.queryJob ft tag) s = .next (answered 0x92 ft [0x24] s)) ∧
    (∀ (id : U32) (slot : Byte), s.ed.store = .mounting →
      exec (.queryEdition ft id slot) s = .next (answered 0xA3 ft [0x28] s)) ∧
    (s.ed.store ≠ .mounting →
      (∀ e : EdIx, exec (.queryEdition ft 0 (BitVec.ofNat 8 e)) s =
        .next (answered 0xA3 ft (0x00 :: editionReport s.ed e) s)) ∧
      (∀ slot : Byte, 64 ≤ slot.toNat → exec (.queryEdition ft 0 slot) s = .next (answered 0xA3 ft [0x21] s)) ∧
      (∀ (id : U32) (slot : Byte) (e : EdIx), id ≠ 0 → s.ed.slotOf id.toNat = some e →
        exec (.queryEdition ft id slot) s = .next (answered 0xA3 ft (0x00 :: editionReport s.ed e) s)) ∧
      (∀ (id : U32) (slot : Byte), id ≠ 0 → s.ed.slotOf id.toNat = none →
        exec (.queryEdition ft id slot) s = .next (answered 0xA3 ft [0x24] s)))

/-- CANCEL_JOB by the state of the job it names. What a job's closing does is said with the outcomes below. -/
def Obligations.CancelActsByTheJobsState : Prop :=
  ∀ (ft : Byte) (tag : U16) (s : State), s.takesRequest →
    (s.jobByTag tag.toNat = none → exec (.cancelJob ft tag) s = .next (answered 0x91 ft [0x24] s)) ∧
    (∀ i j, s.jobByTag tag.toNat = some (i, j) →
      (j.state = .closing → exec (.cancelJob ft tag) s = .next (answered 0x91 ft [0x30] s)) ∧
      (j.state = .pending → exec (.cancelJob ft tag) s =
        .next (answered 0x91 ft [0x00] (closeJob i 0 (decideOutcome i .cancelled none s)))) ∧
      (j.spoilWait = true → j.state ≠ .closing → j.state ≠ .pending →
        exec (.cancelJob ft tag) s = .next (answered 0x91 ft [0x00] s)) ∧
      (j.spoilWait = false →
        (j.state = .aborting → exec (.cancelJob ft tag) s = .next (answered 0x91 ft [0x00] s)) ∧
        (j.state = .suspended ∨ (j.state = .printing ∧ j.startPos.isSome = true) → exec (.cancelJob ft tag) s =
          .next (answered 0x91 ft [0x00] (enterAborting i (decideOutcome i .spoiled (some .cancel) s)))) ∧
        (j.state = .printing → j.startPos = none → s.feed.move.isSome = true → exec (.cancelJob ft tag) s =
          .next (answered 0x91 ft [0x00] (decideOutcome i .cancelled none s))) ∧
        (j.state = .printing → j.startPos = none → s.feed.move = none → exec (.cancelJob ft tag) s =
          .next (answered 0x91 ft [0x00] (closeJob i 0 (decideOutcome i .cancelled none s)))) ∧
        (j.state = .checking → exec (.cancelJob ft tag) s =
          .next (answered 0x91 ft [0x00] (takeSpoil i (decideOutcome i .spoiled (some .cancel) (stopChecker s))))) ∧
        (j.state = .cutting → exec (.cancelJob ft tag) s =
          .next (answered 0x91 ft [0x00] (decideOutcome i .spoiled (some .cancel) s)))))

/-- The outcome of a job is decided once; at SPOILED or CANCELLED a copy number is given back at once. A job in CLOSING
leaves the table exactly when its cost record is in the log and no commit of it is open: its slot becomes RELEASING, its
entry leaves the queue order, its price reference is dropped and its notice queued. On entry to CLOSING the media
reservation goes and the retry follows, the ink is released, the copy number of a finished copy is committed, the cost
record is built and filed, and the start conditions are evaluated again (R20, R21). A commit moves the number into the
issued set by an image change, or into the issued-unrecorded set in a READ_ONLY store (R31). An uncut job closes with the
flag UNCUT, and its piece ends at the fault's position (R84), or where there is no fault record at the position (log 39).
-/
def Obligations.OutcomesAreDecidedOnceAndClosedJobsDepart : Prop :=
  (∀ (i : JobIx) (j : Job) (o : JobOutcome) (c : Option SpoilCause) (s : State), s.liveJob i = some j →
    (j.outcome.isSome = true → decideOutcome i o c s = s) ∧
    (j.outcome = none → (o = .finished ∨ j.edition = none) →
      decideOutcome i o c s = notify (.jobSlot i) (s.mapJobs fun t =>
        { t with slots := t.slots.set i (.live { j with outcome := some o, cause := c }) })) ∧
    (∀ x, j.outcome = none → o ≠ .finished → j.edition = some x →
      decideOutcome i o c s = (notify (.jobSlot i) (s.mapJobs fun t =>
        { t with slots := t.slots.set i (.live { j with outcome := some o, cause := c }) })).mapEd fun d =>
          { d with resv := d.resv.set x.slot (d.resv[x.slot].erase x.copy) })) ∧
  (∀ (i : JobIx) (j : Job) (s : State), s.liveJob i = some j →
    (j.state = .closing → j.costIn = true → j.commitOpen = false →
      departIfReady i s = notify (.jobSlot i)
        { s with
          jobs := { slots := s.jobs.slots.set i (.releasing { j with ink := [] } (s.cost.generation j.priceSlot)),
                    order := s.jobs.order.erase i }
          cost := { s.cost with
                    slots := s.cost.slots.set j.priceSlot
                      { s.cost.slots[j.priceSlot] with refs := s.cost.slots[j.priceSlot].refs - 1 } } }) ∧
    (¬ (j.state = .closing ∧ j.costIn = true ∧ j.commitOpen = false) → departIfReady i s = s)) ∧
  (∀ (i : JobIx) (j : Job) (f : Job → Job) (s : State), s.liveJob i = some j →
    setJob i f s = s.mapJobs (fun t => { t with slots := t.slots.set i (.live (f j)) }) ∧
    changeJob i f s = notify (.jobSlot i) (s.mapJobs fun t => { t with slots := t.slots.set i (.live (f j)) })) ∧
  (∀ (i : JobIx) (j : Job) (piece : Nat) (s u v : State), s.liveJob i = some j →
    u = notify (.jobSlot i)
      { s with
        jobs := { s.jobs with
                  slots := s.jobs.slots.set i (.live
                    { j with state := .closing, mediaRes := 0, spoilWait := false,
                             holds := { noMedia := false, colourOut := false } }) }
        feed := { s.feed with
                  swathTarget := if j.state = .printing ∨ j.state = .suspended ∨ j.state = .aborting then none
                    else s.feed.swathTarget } } →
    v = commitCopy i (setJob i
      (fun j => { j with ink := j.ink.map fun e => if e.estimated then { e with released := true } else e })
      (retryMedia u)) →
    (∀ k, v.liveJob i = some k →
      closeJob i piece s = startEval (departIfReady i (fileRecord i (costRecord v k piece) v)))) ∧
  (∀ (i : JobIx) (j : Job) (s : State), s.liveJob i = some j →
    (j.edition = none ∨ j.outcome ≠ some .finished → commitCopy i s = s) ∧
    (∀ (x : JobEdition) (b : LBlock), j.edition = some x → j.outcome = some .finished → b.val = x.slot.val / 16 →
      (s.ed.store = .readOnly → commitCopy i s = notify (.jobSlot i)
        { s with
          jobs := { s.jobs with
                    slots := s.jobs.slots.set i (.live { j with flags := { j.flags with unrecorded := true } }) }
          ed := { s.ed with
                  resv := s.ed.resv.set x.slot (s.ed.resv[x.slot].erase x.copy)
                  unrec := s.ed.unrec.set x.slot (insertNum x.copy s.ed.unrec[x.slot]) } }) ∧
      (s.ed.store ≠ .readOnly → commitCopy i s = beginRotation
        { s with
          jobs := { s.jobs with
                    slots := s.jobs.slots.set i (.live
                      { j with commitGen := some (s.ed.change[b] + 1), commitOpen := true }) }
          ed := { s.ed with
                  resv := s.ed.resv.set x.slot (s.ed.resv[x.slot].erase x.copy)
                  image := s.ed.image.set x.slot
                    { s.ed.image[x.slot] with issued := insertNum x.copy s.ed.image[x.slot].issued }
                  change := s.ed.change.set b (s.ed.change[b] + 1)
                  writes := if b ∈ s.ed.writes then s.ed.writes else s.ed.writes ++ [b] } }))) ∧
  (∀ (k m : Nat) (xs : List Nat), m ∈ insertNum k xs ↔ m = k ∨ m ∈ xs) ∧
  (∀ (i : JobIx) (s t : State),
    t = changeJob i (fun j => { j with flags := { j.flags with uncut := true } }) s →
    (∀ x, s.feed.fault = some x →
      closeUncut i s = closeJob i (x.pos - s.feed.roll.pieceBase.getD 0).toNat t) ∧
    (s.feed.fault = none →
      closeUncut i s = closeJob i (s.feed.position - s.feed.roll.pieceBase.getD 0).toNat t))

/-- The start conditions: unless the media path is free, the axis IDLE, the roll LOADED and the engine READY, nothing
starts; where they hold, the first job of the queue order that is PENDING with an empty hold set starts, when it is not
a CRITICAL job with an estimate channel OUT; such a job is held COLOUR_OUT instead, and the jobs behind it are considered
(R11, R162). The chosen job enters PRINTING; after a cut the media is fed back first, and the job waits where that move is
refused (log 18). The START step fixes the start position, the lots and the strip order, and sends START with a new print
context; with the engine not READY the job returns to PENDING (R12, R13) with its planned reservation (log 23). -/
def Obligations.FirstEligibleJobStarts : Prop :=
  (∀ s : State,
    (¬ (s.pathFree = true ∧ s.feed.axis = .idle ∧ s.feed.roll.state = .loaded ∧ s.eng.state = .ready) →
      startEval s = s) ∧
    (∀ before i j after, s.pathFree = true → s.feed.axis = .idle → s.feed.roll.state = .loaded →
      s.eng.state = .ready → s.jobs.order = before ++ i :: after → s.liveJob i = some j →
      (∀ k ∈ before, ∀ x, s.liveJob k = some x → ¬ (x.state = .pending ∧ x.holds.isEmpty = true)) →
      j.state = .pending → j.holds.isEmpty = true →
      ((j.mode = .critical → ∀ p ∈ j.est, s.drift.states[p.1] ≠ .out) → startEval s = startJob i s) ∧
      (j.mode = .critical → (∃ p ∈ j.est, s.drift.states[p.1] = .out) →
        startEval s = after.foldl tryStart (notify (.jobSlot i) (s.mapJobs fun t =>
          { t with slots := t.slots.set i (.live { j with holds := { j.holds with colourOut := true } }) }))))) ∧
  (∀ (i : JobIx) (j : Job) (s : State), s.liveJob i = some j →
    (s.pathFree = false ∨ j.state ≠ .pending ∨ j.holds.isEmpty = false → tryStart s i = s) ∧
    (s.pathFree = true → j.state = .pending → j.holds.isEmpty = true →
      (j.mode = .critical → (∃ p ∈ j.est, s.drift.states[p.1] = .out) →
        tryStart s i = notify (.jobSlot i) (s.mapJobs fun t =>
          { t with slots := t.slots.set i (.live { j with holds := { j.holds with colourOut := true } }) })) ∧
      ((j.mode = .critical → ∀ p ∈ j.est, s.drift.states[p.1] ≠ .out) → tryStart s i = startJob i s))) ∧
  (∀ (i : JobIx) (j : Job) (s u : State), s.liveJob i = some j →
    u = notify (.jobSlot i) (s.mapJobs fun t =>
      { t with slots := t.slots.set i (.live { j with state := .printing, drawn := 0 }) }) →
    ((∀ p, s.feed.roll.lastEvent ≠ .cut p) → startJob i s = startStep i u) ∧
    (∀ p target t, s.feed.roll.lastEvent = .cut p →
      target = p - 100 * (s.feed.profile.knife : Int) + 100 * (s.feed.profile.lead : Int) →
      (requestMove target .backFeed u = (t, .done) → startJob i s = startStep i t) ∧
      (requestMove target .backFeed u = (t, .begun) → startJob i s = t) ∧
      (requestMove target .backFeed u = (t, .refused) → startJob i s = u))) ∧
  (∀ (i : JobIx) (j : Job) (marks : Nat) (strip : List Nat) (s : State), s.liveJob i = some j →
    (j.strip = none → marks = 0 ∧ strip = []) →
    (∀ x, j.strip = some x →
      marks = x.geo.m ∧ strip = (List.range x.geo.t).map fun k => (x.geo.seed + k * x.geo.stride) % x.geo.t) →
    (s.eng.state = .ready → startStep i s =
      { s with
        jobs := { s.jobs with
                  slots := s.jobs.slots.set i (.live
                    { j with
                      startPos := some s.feed.position
                      lots := some (j.est.map fun p => (p.1, (s.ink.chans[p.1].cart).map (·.lot)))
                      strip := j.strip.map fun x => { x with order := some strip, marks := some marks } }) }
        feed := { s.feed with swathTarget := some s.feed.position }
        eng := { s.eng with
                 txList := s.eng.txList ++ [.start j.tag j.printLen marks strip]
                 ctx := some { tag := j.tag, phase := .await, next := 0, inFeed := none, swathTimer := some 5000,
                               dryTimer := none, endingSwath := false } } }) ∧
    (s.eng.state ≠ .ready → startStep i s = holdRule (notify (.jobSlot i) (s.mapJobs fun t =>
      { t with slots := t.slots.set i (.live { j with state := .pending, mediaRes := j.planned, drawn := 0 }) }))) ∧
    returnPending i s = holdRule (notify (.jobSlot i) (s.mapJobs fun t =>
      { t with slots := t.slots.set i (.live { j with state := .pending, mediaRes := j.planned, drawn := 0 }) })))

/-! ### Editions and the store -/

/-- OPEN_EDITION: its checks in order, and the lowest EMPTY slot opened by an image change. -/
def Obligations.OpenEditionTakesTheLowestEmptySlot : Prop :=
  ∀ (ft : Byte) (id : U32) (limit : U16) (s : State), s.takesRequest →
    (s.ed.store ≠ .ready → exec (.openEdition ft id limit) s = .next (answered 0xA0 ft [0x28] s)) ∧
    (s.ed.store = .ready →
      (id = 0 ∨ limit.toNat = 0 ∨ 999 < limit.toNat →
        exec (.openEdition ft id limit) s = .next (answered 0xA0 ft [0x21] s)) ∧
      (id ≠ 0 → 1 ≤ limit.toNat → limit.toNat ≤ 999 →
        ((s.ed.slotOf id.toNat).isSome = true ∨ (∃ r ∈ s.ed.removals, r.id = id.toNat) →
          exec (.openEdition ft id limit) s = .next (answered 0xA0 ft [0x22] s)) ∧
        (s.ed.slotOf id.toNat = none → (∀ r ∈ s.ed.removals, r.id ≠ id.toNat) →
          ((∀ e : EdIx, s.ed.image[e].state ≠ .empty) →
            exec (.openEdition ft id limit) s = .next (answered 0xA0 ft [0x23] s)) ∧
          (∀ e : EdIx, s.ed.image[e].state = .empty → (∀ x : EdIx, x < e → s.ed.image[x].state ≠ .empty) →
            ∃ t, t = changeSlot e
                (fun _ => { state := .opened, id := id.toNat, limit := limit.toNat, issued := [] }) s ∧
              exec (.openEdition ft id limit) s =
                .next (answered 0xA0 ft (0x00 :: editionChanged t.ed e) t)))))

/-- CLOSE_EDITION and REMOVE_EDITION on a slot selected by number or by id: what each state of the slot gives.
That the store is judged before the selector is the model's inference (log 64). -/
def Obligations.CloseAndRemoveChangeTheSelectedSlot : Prop :=
  ∀ (ft slot : Byte) (id : U32) (e : EdIx) (s : State), s.takesRequest →
    (s.ed.store ≠ .ready →
      exec (.closeEdition ft id slot) s = .next (answered 0xA1 ft [0x28] s) ∧
      exec (.removeEdition ft id slot) s = .next (answered 0xA2 ft [0x28] s)) ∧
    (s.ed.store = .ready →
      (id = 0 → 64 ≤ slot.toNat →
        exec (.closeEdition ft id slot) s = .next (answered 0xA1 ft [0x21] s) ∧
        exec (.removeEdition ft id slot) s = .next (answered 0xA2 ft [0x21] s)) ∧
      (id ≠ 0 → s.ed.slotOf id.toNat = none →
        exec (.closeEdition ft id slot) s = .next (answered 0xA1 ft [0x24] s) ∧
        exec (.removeEdition ft id slot) s = .next (answered 0xA2 ft [0x24] s)) ∧
      ((id = 0 ∧ slot.toNat = e.val) ∨ (id ≠ 0 ∧ s.ed.slotOf id.toNat = some e) →
        (s.ed.image[e].state ≠ .opened →
          exec (.closeEdition ft id slot) s = .next (answered 0xA1 ft [0x20] s)) ∧
        (s.ed.image[e].state = .opened →
          ∃ t, t = changeSlot e (fun m => { m with state := .closed }) s ∧
            exec (.closeEdition ft id slot) s = .next (answered 0xA1 ft (0x00 :: editionChanged t.ed e) t)) ∧
        (s.ed.image[e].state = .opened ∨ s.ed.image[e].state = .empty ∨ s.ed.resv[e] ≠ [] →
          exec (.removeEdition ft id slot) s = .next (answered 0xA2 ft [0x20] s)) ∧
        (s.ed.image[e].state = .closed ∨ s.ed.image[e].state = .lost → s.ed.resv[e] = [] →
          ∃ t, t = changeSlot e (fun _ => { state := .empty, id := 0, limit := 0, issued := [] })
              (s.mapEd fun d =>
                { d with
                  unrec := d.unrec.set e []
                  removals := if d.image[e].state = .closed then
                      d.removals ++ [{ id := d.image[e].id, block := blockOf e, gen := d.change[blockOf e] + 1 }]
                    else d.removals }) ∧
            exec (.removeEdition ft id slot) s = .next (answered 0xA2 ft (0x00 :: editionChanged t.ed e) t))))

/-- An image change raises the change generation of the slot's block by one and puts the block on the pending-write list
once; the next rotation begins where none is in flight and the store may write. A rotation takes the oldest pending
write, captures its images and its change generation, and erases the spare with the fewest erases, the lowest-numbered
among equals; with no spare the store fails. The failure: READ_ONLY, no rotation, no pending write, no removal kept, and
every open commit fails, in queue order: its number moves into the issued-unrecorded set where the edition still stands,
its job gets the flag UNRECORDED, and so does the job's record where it is still held (R44, R32, R175). -/
def Obligations.ImageChangesQueueBlocksAndRotationsEraseSpares : Prop :=
  (∀ (e : EdIx) (f : EdImage → EdImage) (s : State),
    changeSlot e f s = beginRotation (s.mapEd fun d =>
      { d with
        image := d.image.set e (f d.image[e])
        change := d.change.set (blockOf e) (d.change[blockOf e] + 1)
        writes := if blockOf e ∈ d.writes then d.writes else d.writes ++ [blockOf e] }) ∧
    ((blockOf e : LBlock).val = e.val / 16)) ∧
  (∀ s : State,
    (s.ed.rot.isSome = true ∨ s.ed.writes = [] ∨ (s.ed.store ≠ .ready ∧ s.ed.formatting = false) →
      beginRotation s = s) ∧
    (∀ b rest, (s.ed.store = .ready ∨ s.ed.formatting = true) → s.ed.rot = none → s.ed.writes = b :: rest →
      ((∀ p : PBlock, s.ed.table[p].role ≠ .spare) →
        beginRotation s = storeFail (s.mapEd fun d => { d with writes := rest })) ∧
      (∀ p : PBlock, s.ed.table[p].role = .spare →
        (∀ q : PBlock, s.ed.table[q].role = .spare →
          s.ed.table[p].erases ≤ s.ed.table[q].erases ∧ (s.ed.table[q].erases = s.ed.table[p].erases → p ≤ q)) →
        beginRotation s = s.mapEd fun d =>
          { d with
            writes := rest
            table := d.table.set p { d.table[p] with erases := d.table[p].erases + 1, mark := .blank }
            flash := d.flash.set p FlashBlock.erased
            rot := some { block := b, phys := p, images := s.ed.blockImages b, gen := s.ed.change[b],
                          phase := .erasing, left := 20 } }))) ∧
  (∀ s : State, storeFail s = notify .store (s.jobs.order.foldl failCommit (s.mapEd fun d =>
    { d with store := .readOnly, rot := none, writes := [], removals := [], formatting := false }))) ∧
  (∀ (i : JobIx) (j : Job) (s : State), s.liveJob i = some j →
    (j.state ≠ .closing ∨ j.commitOpen = false ∨ j.edition = none ∨ j.commitGen = none ∨
      (∃ e g, j.edition = some e ∧ j.commitGen = some g ∧ g ≤ s.ed.persisted[blockOf e.slot]) → failCommit s i = s) ∧
    (∀ (e : JobEdition) (g : Nat) (d : Editions), j.state = .closing → j.commitOpen = true → j.edition = some e →
      j.commitGen = some g → s.ed.persisted[blockOf e.slot] < g →
      (s.ed.slotOf e.id = none → d = s.ed) →
      (∀ x, s.ed.slotOf e.id = some x → d =
        { s.ed with
          image := s.ed.image.set x { s.ed.image[x] with issued := s.ed.image[x].issued.erase e.copy }
          unrec := s.ed.unrec.set x (insertNum e.copy s.ed.unrec[x]) }) →
      failCommit s i = departIfReady i (notify (.jobSlot i)
        { s with
          jobs := { s.jobs with
                    slots := s.jobs.slots.set i (.live
                      { j with commitOpen := false, flags := { j.flags with unrecorded := true } }) }
          ed := d
          cost := markUnrecorded j s.cost }))) ∧
  (∀ (j : Job) (k : Cost),
    (j.flags.costPending = true → markUnrecorded j k = { k with waiting := markLast j.tag k.waiting }) ∧
    (j.flags.costPending = false → j.costIn = true → markUnrecorded j k = { k with log := markLast j.tag k.log }) ∧
    (j.flags.costPending = false → j.costIn = false → markUnrecorded j k = k)) ∧
  (∀ (tag : Nat) (before after : List CostRecord) (r : CostRecord), (∀ x ∈ after, x.tag ≠ tag) →
    (r.tag = tag → markLast tag (before ++ r :: after) =
      before ++ { r with flags := { r.flags with unrecorded := true } } :: after) ∧
    markLast tag after = after)

/-- The end of an erase: verified, the header is programmed with the next sequence number; failed, the block is retired
and the writing begins again. An end is taken whatever time is left, and without an erase under way nothing happens (log
2). The end of a programming: verified,
the rotation completes; failed, the block is retired and the writing begins again. Without a programming under way
nothing happens (log 2). A completed rotation settles the open commits that its persisted generation has reached, in queue
order, and the fourth of a format ends it: READY while a spare remains. A block given up reads RETIRED in the table, and
in its header where the mark programs (logs 41 and 42 say what else it reads). -/
def Obligations.EraseAndProgramEndsAdvanceOrRetire : Prop :=
  (∀ (mark : Bool) (s : State),
    (∀ v, (∀ r, s.ed.rot = some r → r.phase ≠ .erasing) → exec (.eraseDone v mark) s = .next (giveLine s)) ∧
    (∀ r, s.ed.rot = some r → r.phase = .erasing →
      exec (.eraseDone true mark) s = .next (giveLine (s.mapEd fun d =>
        { d with
          seqCounter := d.seqCounter + 1
          table := d.table.set r.phys { d.table[r.phys] with mark := .writing }
          flash := d.flash.set r.phys
            { mark := .writing, role := some r.block, seq := some (d.seqCounter + 1),
              erases := some d.table[r.phys].erases, images := r.images }
          rot := some { r with phase := .programming, left := 10 } })) ∧
      exec (.eraseDone false mark) s =
        .next (giveLine (beginWrite r.block r.images r.gen (notify .store (s.mapEd (Editions.retire r.phys mark))))))) ∧
  (∀ (mark : Bool) (s : State),
    (∀ v, (∀ r, s.ed.rot = some r → r.phase ≠ .programming) → exec (.programDone v mark) s = .next (giveLine s)) ∧
    (∀ r, s.ed.rot = some r → r.phase = .programming →
      exec (.programDone true mark) s = .next (giveLine (beginRotation
        ((notify .store (settleCommits r.block (s.mapEd (Editions.takeRole r mark)))).mapEd Editions.endFormat))) ∧
      exec (.programDone false mark) s =
        .next (giveLine (beginWrite r.block r.images r.gen (notify .store (s.mapEd (Editions.retire r.phys mark)))))) ∧
    (∀ r, s.ed.rot = some r →
      (Editions.takeRole r mark s.ed).rot = none ∧
      (Editions.takeRole r mark s.ed).persisted[r.block] = r.gen ∧
      (Editions.takeRole r mark s.ed).table[r.phys].role = .holds r.block ∧
      (Editions.takeRole r mark s.ed).flash[r.phys].mark = .complete ∧
      (∀ p : PBlock, p ≠ r.phys → s.ed.table[p].role = .holds r.block →
        (s.ed.table[p].erases < 10000 → (Editions.takeRole r mark s.ed).table[p].role = .spare) ∧
        (10000 ≤ s.ed.table[p].erases → (Editions.takeRole r mark s.ed).table[p].role = .retired)) ∧
      (∀ p : PBlock, p ≠ r.phys → s.ed.table[p].role ≠ .holds r.block →
        (Editions.takeRole r mark s.ed).table[p] = s.ed.table[p]) ∧
      (∀ x, x ∈ (Editions.takeRole r mark s.ed).removals ↔
        x ∈ s.ed.removals ∧ ¬ (x.block = r.block ∧ x.gen ≤ r.gen)))) ∧
  (∀ (b : LBlock) (s : State), settleCommits b s = s.jobs.order.foldl (settleCommit b) s) ∧
  (∀ (b : LBlock) (i : JobIx) (j : Job) (s : State), s.liveJob i = some j →
    (∀ e g, j.state = .closing → j.commitOpen = true → j.edition = some e → j.commitGen = some g → blockOf e.slot = b →
      g ≤ s.ed.persisted[b] →
      settleCommit b s i = departIfReady i (s.mapJobs fun t =>
        { t with slots := t.slots.set i (.live { j with commitOpen := false }) })) ∧
    (j.state ≠ .closing ∨ j.commitOpen = false ∨ j.edition = none ∨ j.commitGen = none ∨
      (∃ e g, j.edition = some e ∧ j.commitGen = some g ∧ (blockOf e.slot ≠ b ∨ s.ed.persisted[b] < g)) →
      settleCommit b s i = s)) ∧
  (∀ d : Editions,
    (d.formatting = false ∨ d.writes ≠ [] → d.endFormat = d) ∧
    (d.formatting = true → d.writes = [] →
      ((∃ p : PBlock, d.table[p].role = .spare) → d.endFormat = { d with formatting := false, store := .ready }) ∧
      ((∀ p : PBlock, d.table[p].role ≠ .spare) → d.endFormat = { d with formatting := false, store := .readOnly }))) ∧
  (∀ (p : PBlock) (d : Editions),
    Editions.retire p true d =
      { d with table := d.table.set p { d.table[p] with role := .retired, mark := .retired },
               flash := d.flash.set p { d.flash[p] with mark := .retired } } ∧
    Editions.retire p false d =
      { d with table := d.table.set p { d.table[p] with role := .retired, mark := .retired } })

/-- MOUNT_HEADERS_READ on a store without a COMPLETE block formats it; with one, each logical block takes its newest
copy or is LOST, and the store is READY while a spare remains. A block's erase count is the one its header reads, else the
highest that is read; a RETIRED block without a readable count takes the model's own free value `Config.retiredCount`,
whatever it is (log 16: no rule gives that count). A RETIRED block is retired; a block that holds no newest copy is a spare
below 10,000 erases, and is given up from 10,000 on, its header following where the mark programs. The sequence counter is
the highest number read; the generations of a logical block stay at their values of the reset, but for a LOST one's change.
A block given up has the mark RETIRED in the table also where its header keeps the old mark, which is the model's choice
(log 41). A mount by reading queues the store notice and, in a READY store, leaves the LOST blocks to be written in
ascending order. Later or in another state nothing happens (log 2). -/
def Obligations.MountReadsOrFormatsTheStore : Prop :=
  ∀ (marks : Vector Bool 6) (s : State),
    (s.ed.store ≠ .mounting ∨ s.ed.headersRead = true → exec (.mountHeadersRead marks) s = .next s) ∧
    (s.ed.store = .mounting → s.ed.headersRead = false →
      exec (.mountHeadersRead marks) s = .next (giveLine (mountHeaders marks s)) ∧
      ∃ u, mountHeaders marks s = beginRotation u ∧ u.ed.headersRead = true ∧
        (∀ p : PBlock,
          (∀ n, s.ed.flash[p].erases = some n → u.ed.table[p].erases = n) ∧
          (s.ed.flash[p].erases = none → s.ed.flash[p].mark = .retired →
            u.ed.table[p].erases = Config.retiredCount p) ∧
          (s.ed.flash[p].erases = none → s.ed.flash[p].mark ≠ .retired →
            (∀ (q : PBlock) (n : Nat), s.ed.flash[q].erases = some n → n ≤ u.ed.table[p].erases) ∧
            ((∃ q : PBlock, s.ed.flash[q].erases = some u.ed.table[p].erases) ∨ u.ed.table[p].erases = 0))) ∧
        (∀ p : PBlock, s.ed.flash[p].mark = .retired → u.ed.table[p].role = .retired ∧ u.ed.flash[p] = s.ed.flash[p]) ∧
        (∀ p : PBlock, s.ed.flash[p].mark ≠ .retired →
          (∀ b : LBlock, s.ed.flash[p].mark = .complete → s.ed.flash[p].role = some b →
            ∃ q : PBlock, s.ed.flash[q].mark = .complete ∧ s.ed.flash[q].role = some b ∧
              s.ed.flash[p].seq.getD 0 < s.ed.flash[q].seq.getD 0) →
          (u.ed.table[p].erases < 10000 → u.ed.table[p].role = .spare ∧ u.ed.flash[p] = s.ed.flash[p]) ∧
          (10000 ≤ u.ed.table[p].erases → u.ed.table[p].role = .retired ∧ u.ed.table[p].mark = .retired ∧
            u.ed.flash[p] = (if marks[p] then { s.ed.flash[p] with mark := .retired } else s.ed.flash[p]))) ∧
        (∀ (q : PBlock) (n : Nat), s.ed.flash[q].seq = some n → n ≤ u.ed.seqCounter) ∧
        ((∃ q : PBlock, s.ed.flash[q].seq = some u.ed.seqCounter) ∨ u.ed.seqCounter = 0) ∧
        ((∀ p : PBlock, s.ed.flash[p].mark ≠ .complete) →
          (∀ e : EdIx, u.ed.image[e].state = .empty) ∧ (∀ b : LBlock, u.ed.change[b] = 1 ∧ u.ed.persisted[b] = 0) ∧
          u.ed.writes = [0, 1, 2, 3] ∧ u.ed.formatting = true) ∧
        ((∃ p : PBlock, s.ed.flash[p].mark = .complete) →
          Subject.store ∈ u.host.queue ∧
          (s.ed.writes = [] → u.ed.store = .ready → u.ed.writes = (List.finRange 4).filter fun b =>
            decide (∀ q : PBlock, s.ed.flash[q].mark = .complete → s.ed.flash[q].role ≠ some b)) ∧
          (∀ (b : LBlock) (p : PBlock), s.ed.flash[p].mark = .complete → s.ed.flash[p].role = some b →
            (∀ q : PBlock, q ≠ p → s.ed.flash[q].mark = .complete → s.ed.flash[q].role = some b →
              s.ed.flash[q].seq.getD 0 < s.ed.flash[p].seq.getD 0) →
            u.ed.blockImages b = s.ed.flash[p].images ∧ u.ed.table[p].role = .holds b ∧
            u.ed.change[b] = s.ed.change[b]) ∧
          (∀ b : LBlock, (∀ q : PBlock, s.ed.flash[q].mark = .complete → s.ed.flash[q].role ≠ some b) →
            (∀ e : EdIx, blockOf e = b → u.ed.image[e].state = .lost) ∧
            u.ed.change[b] = s.ed.change[b] + 1) ∧
          (∀ b : LBlock, u.ed.persisted[b] = s.ed.persisted[b]) ∧
          (u.ed.store = .ready ↔ ∃ p : PBlock, u.ed.table[p].role = .spare) ∧
          (u.ed.store ≠ .ready → u.ed.store = .readOnly ∧ u.ed.writes = [])))

/-! ### The feed axis and the roll -/

/-- SET_FEED_PROFILE: its checks in order, and the whole profile replaced. -/
def Obligations.FeedProfileIsReplacedWhole : Prop :=
  ∀ (ft : Byte) (a : FeedProfileArgs) (s : State), s.takesRequest →
    (¬ ((s.feed.axis = .idle ∨ s.feed.axis = .unreferenced) ∧ s.pathFree = true) →
      exec (.setFeedProfile ft a) s = .next (answered 0xB0 ft [0x20] s)) ∧
    ((s.feed.axis = .idle ∨ s.feed.axis = .unreferenced) → s.pathFree = true →
      (1 < a.reversal.toNat ∨ 1 < a.invert.toNat ∨ ¬ (5 ≤ a.slow.toNat ∧ a.slow.toNat ≤ 200) ∨
        ¬ (2 ≤ a.window.toNat ∧ a.window.toNat ≤ 50) ∨ ¬ (10 ≤ a.settle.toNat ∧ a.settle.toNat ≤ 200) ∨
        ¬ (a.slow.toNat + 5 ≤ a.backoff.toNat ∧ a.backoff.toNat ≤ 300) ∨
        ¬ (a.window.toNat ≤ a.slip.toNat ∧ a.slip.toNat ≤ 500) ∨ ¬ (5 ≤ a.lead.toNat ∧ a.lead.toNat ≤ 100) ∨
        ¬ (5 ≤ a.trim.toNat ∧ a.trim.toNat ≤ 50) ∨ ¬ (20 ≤ a.sensor.toNat ∧ a.sensor.toNat ≤ 200) ∨
        ¬ (a.sensor.toNat + 420 ≤ a.knife.toNat ∧ a.knife.toNat ≤ 1000) →
        exec (.setFeedProfile ft a) s = .next (answered 0xB0 ft [0x21] s)) ∧
      (a.reversal.toNat ≤ 1 → a.invert.toNat ≤ 1 → (5 ≤ a.slow.toNat ∧ a.slow.toNat ≤ 200) →
        (2 ≤ a.window.toNat ∧ a.window.toNat ≤ 50) → (10 ≤ a.settle.toNat ∧ a.settle.toNat ≤ 200) →
        (a.slow.toNat + 5 ≤ a.backoff.toNat ∧ a.backoff.toNat ≤ 300) →
        (a.window.toNat ≤ a.slip.toNat ∧ a.slip.toNat ≤ 500) → (5 ≤ a.lead.toNat ∧ a.lead.toNat ≤ 100) →
        (5 ≤ a.trim.toNat ∧ a.trim.toNat ≤ 50) → (20 ≤ a.sensor.toNat ∧ a.sensor.toNat ≤ 200) →
        (a.sensor.toNat + 420 ≤ a.knife.toNat ∧ a.knife.toNat ≤ 1000) →
        (decide (a.invert = 1) ≠ s.feed.profile.invert → s.feed.axis = .idle →
          exec (.setFeedProfile ft a) s = .next (answered 0xB0 ft [0x20] s)) ∧
        (decide (a.invert = 1) = s.feed.profile.invert ∨ s.feed.axis = .unreferenced →
          exec (.setFeedProfile ft a) s = .next (answered 0xB0 ft [0x00] (notify .feedAxis (s.mapFeed fun f =>
            { f with profile :=
                { slow := a.slow.toNat, window := a.window.toNat, settle := a.settle.toNat, backoff := a.backoff.toNat,
                  reversal := decide (a.reversal = 1), slip := a.slip.toNat, invert := decide (a.invert = 1),
                  lead := a.lead.toNat, trim := a.trim.toNat, sensor := a.sensor.toNat, knife := a.knife.toNat } }))))))

/-- CLEAR_FEED takes a FAULT with the media path free to UNREFERENCED, outputs off, the fault record cleared.
UNLOAD_ROLL clears the roll record; an IDLE axis becomes UNREFERENCED without a rest target. -/
def Obligations.ClearFeedAndUnloadRollLeaveTheirStates : Prop :=
  (∀ (ft : Byte) (s : State), s.takesRequest →
    (s.feed.axis ≠ .fault ∨ s.pathFree = false → exec (.clearFeed ft) s = .next (answered 0xB1 ft [0x20] s)) ∧
    (s.feed.axis = .fault → s.pathFree = true →
      exec (.clearFeed ft) s = .next (answered 0xB1 ft [0x00] (notify .feedAxis (s.mapFeed fun f =>
        { f with axis := .unreferenced, fault := none, drive := .off, knife := false, window := none }))))) ∧
  (∀ (ft : Byte) (s : State), s.takesRequest →
    (s.pathFree = false ∨ (∃ p ∈ s.liveJobs, p.2.mediaRes ≠ 0) ∨
      (s.feed.axis ≠ .idle ∧ s.feed.axis ≠ .unreferenced ∧ s.feed.axis ≠ .fault) →
      exec (.unloadRoll ft) s = .next (answered 0xB4 ft [0x20] s)) ∧
    (s.pathFree = true → (∀ p ∈ s.liveJobs, p.2.mediaRes = 0) →
      (s.feed.axis = .idle →
        exec (.unloadRoll ft) s = .next (answered 0xB4 ft [0x00] (notify .feedAxis (s.mapFeed fun f =>
          { f with axis := .unreferenced, referenced := false, rest := none, roll := Roll.atReset, drive := .off,
                   knife := false, window := none })))) ∧
      (s.feed.axis = .unreferenced ∨ s.feed.axis = .fault →
        exec (.unloadRoll ft) s = .next (answered 0xB4 ft [0x00] (notify .feedAxis (s.mapFeed fun f =>
          { f with roll := Roll.atReset }))))))

/-- LOAD_ROLL: its checks in order; taken, the jobs give their media up, the roll record is new, the axis enters
LOADING, and the edge is referenced at once where media is present, else searched with FEED_SLOW. The hold rule (R86), by
which they give it up: while the reserved length, the sum over the live jobs, exceeds the remaining length, which is 0
unless the roll is LOADED, the PENDING jobs with a reservation lose it, newest first, and are held NO_MEDIA; then the
reservation of the job on the media path is lowered to the remaining length. -/
def Obligations.LoadRollBeginsTheEdgeSearch : Prop :=
  (∀ (ft mt : Byte) (id declared : U32) (s : State), s.takesRequest →
    (s.feed.axis ≠ .unreferenced → exec (.loadRoll ft id mt declared) s = .next (answered 0xB3 ft [0x20] s)) ∧
    (s.feed.axis = .unreferenced →
      (7 < mt.toNat ∨ declared.toNat < 1000 ∨ 200000 < declared.toNat →
        exec (.loadRoll ft id mt declared) s = .next (answered 0xB3 ft [0x21] s)) ∧
      (∀ m : Fin 8, m.val = mt.toNat → 1000 ≤ declared.toNat → declared.toNat ≤ 200000 → ∃ u,
        u = notify .feedAxis ((holdRule (s.mapFeed fun f =>
            { f with roll := { state := .none, id := id.toNat, mediaType := m, declared := declared.toNat, consumed := 0,
                               reach := 0, lastEvent := .none, pieceBase := none } })).mapFeed fun f =>
              { f with axis := .loading, load := some (.search f.pos) }) ∧
        (s.feed.edge = true → exec (.loadRoll ft id mt declared) s =
          .next (answered 0xB3 ft [0x00] (edgeReference u))) ∧
        (s.feed.edge = false → exec (.loadRoll ft id mt declared) s =
          .next (answered 0xB3 ft [0x00] (u.mapFeed (Feed.driveTo .slow))))))) ∧
  (∀ s : State,
    holdRule s = lowerPath (s.jobs.order.reverse.foldl holdStep s) ∧
    s.reserved = (s.liveJobs.map fun p => p.2.mediaRes).sum ∧
    (s.feed.roll.state = .loaded →
      s.feed.roll.remaining = ((s.feed.roll.declared : Int) - s.feed.roll.reach / 100).toNat) ∧
    (s.feed.roll.state ≠ .loaded → s.feed.roll.remaining = 0)) ∧
  (∀ (i : JobIx) (j : Job) (s : State), s.liveJob i = some j →
    (s.feed.roll.remaining < s.reserved → j.state = .pending → 0 < j.mediaRes →
      holdStep s i = notify (.jobSlot i) (s.mapJobs fun t =>
        { t with slots := t.slots.set i (.live { j with mediaRes := 0, holds := { j.holds with noMedia := true } }) })) ∧
    (s.reserved ≤ s.feed.roll.remaining ∨ j.state ≠ .pending ∨ j.mediaRes = 0 → holdStep s i = s)) ∧
  (∀ s : State,
    (s.reserved ≤ s.feed.roll.remaining ∨ s.pathJob = none → lowerPath s = s) ∧
    (∀ i j, s.feed.roll.remaining < s.reserved → s.pathJob = some (i, j) →
      lowerPath s = s.mapJobs fun t =>
        { t with slots := t.slots.set i (.live
            { j with mediaRes := s.feed.roll.remaining, planned := s.feed.roll.remaining + j.drawn }) }))

/-- JOG: range, state, and the move it asks for; one that the counter cannot reach is refused (log 18). That the range is
judged before the state, and that a length of 0 counts as a forward jog, are the model's choices (logs 46 and 47). -/
def Obligations.JogAsksForAMoveFromTheRestTarget : Prop :=
  ∀ (ft : Byte) (mm : U16) (s : State), s.takesRequest →
    (mm.toInt < -100 ∨ 1000 < mm.toInt → exec (.jog ft mm) s = .next (answered 0xB5 ft [0x21] s)) ∧
    (-100 ≤ mm.toInt → mm.toInt ≤ 1000 →
      (s.feed.axis ≠ .idle ∨ s.pathFree = false → exec (.jog ft mm) s = .next (answered 0xB5 ft [0x20] s)) ∧
      (∀ rest t, s.feed.axis = .idle → s.pathFree = true → s.feed.rest = some rest →
        (requestMove (rest + 100 * mm.toInt) (.jog (decide (0 ≤ mm.toInt))) s = (t, .begun) →
          exec (.jog ft mm) s = .next (answered 0xB5 ft [0x00] t)) ∧
        (requestMove (rest + 100 * mm.toInt) (.jog (decide (0 ≤ mm.toInt))) s = (t, .done) →
          exec (.jog ft mm) s = .next (answered 0xB5 ft [0x00] (notify .feedAxis t))) ∧
        (requestMove (rest + 100 * mm.toInt) (.jog (decide (0 ≤ mm.toInt))) s = (t, .refused) →
          exec (.jog ft mm) s = .next (answered 0xB5 ft [0x20] s))))

/-- A move is taken in IDLE, or in LOADING for a leg of the load, with its target in the counter's range, and begins by
the position against the target's window. A window of the drive begins from outputs off and at a change of direction, and
runs on otherwise (R66). The end point of a reverse leg is kept as the exact number, in the counter's range or not
(log 45). -/
def Obligations.MovesBeginByThePositionAgainstTheWindow : Prop :=
  ∀ (target : Int) (r : Requester) (s : State),
    (¬ (-2147483648 ≤ target ∧ target ≤ 2147483647) ∨
      (s.feed.axis ≠ .idle ∧ ¬ (s.feed.axis = .loading ∧ r = .load)) → requestMove target r s = (s, .refused)) ∧
    (-2147483648 ≤ target → target ≤ 2147483647 →
      (s.feed.axis = .idle ∨ (s.feed.axis = .loading ∧ r = .load)) →
      (target - s.feed.profile.window ≤ s.feed.position → s.feed.position ≤ target + s.feed.profile.window →
        requestMove target r s = (s.mapFeed fun f => { f with drive := .off, window := none, rest := some target }, .done)) ∧
      (s.feed.position < target - s.feed.profile.window → ∃ f : Feed,
        requestMove target r s = (s.mapFeed fun _ => f, .begun) ∧
        f.axis = (if s.feed.axis = .loading then .loading else .moving) ∧
        f.drive = (if 100 * (s.feed.profile.slow : Int) < target - s.feed.position then .fast else .slow) ∧
        f.move = some { target := target, by_ := r, phase := .approach, reversalUsed := false, endPoint := none } ∧
        f.window = (if s.feed.drive = .off ∨ s.feed.drive = .rev then some { net := 0, left := 50 } else s.feed.window) ∧
        f = { s.feed with axis := f.axis, drive := f.drive, window := f.window, move := f.move }) ∧
      (target + s.feed.profile.window < s.feed.position → ∃ f : Feed,
        requestMove target r s = (s.mapFeed fun _ => f, .begun) ∧
        f.axis = (if s.feed.axis = .loading then .loading else .reversing) ∧ f.drive = .rev ∧
        f.move = some { target := target, by_ := r, phase := .reverse, reversalUsed := false,
                        endPoint := some (target - 100 * (s.feed.profile.backoff : Int)) } ∧
        f.window = (if s.feed.drive = .rev then s.feed.window else some { net := 0, left := 50 }) ∧
        f = { s.feed with axis := f.axis, drive := f.drive, window := f.window, move := f.move }))

/-- SET_TRIM, fine and add, with the trims it answers; a cut's target takes the effective trim as it stands when its move
is planned (R83); a planned cut whose move is refused leaves the job as it stands (log 18); both parts are 0 after either
reset. -/
def Obligations.TrimIsSetAndReadWhenACutIsPlanned : Prop :=
  (∀ (ft mode : Byte) (v : U16) (s : State), s.takesRequest →
    (1 < mode.toNat ∨ v.toInt < -500 ∨ 500 < v.toInt →
      exec (.setTrim ft mode v) s = .next (answered 0xB6 ft [0x21] s)) ∧
    (-500 ≤ v.toInt → v.toInt ≤ 500 →
      exec (.setTrim ft 0 v) s = .next (answered 0xB6 ft
        (0x00 :: (s16 s.feed.trimBase ++ s16 v.toInt ++ s16 (max (-500) (min 500 (s.feed.trimBase + v.toInt)))))
        (notify .feedAxis (s.mapFeed fun f => { f with trimFine := v.toInt }))) ∧
      (∀ b : Int, b = max (-500) (min 500 (s.feed.trimBase + s.feed.trimFine + v.toInt)) →
        exec (.setTrim ft 1 v) s = .next (answered 0xB6 ft (0x00 :: (s16 b ++ s16 0 ++ s16 b))
          (notify .feedAxis (s.mapFeed fun f => { f with trimBase := b, trimFine := 0 })))))) ∧
  (∀ (i : JobIx) (j : Job) (start target : Int) (offset : Nat) (s t : State),
    s.liveJob i = some j → j.startPos = some start → j.cuts[j.cutsDone]? = some offset →
    target = start + 100 * (offset : Int) + 100 * (s.feed.profile.knife : Int)
      + max (-500) (min 500 (s.feed.trimBase + s.feed.trimFine)) →
    (requestMove target .cut s = (t, .begun) → planCut i s = t) ∧
    (requestMove target .cut s = (t, .done) → planCut i s = beginKnife t) ∧
    (requestMove target .cut s = (t, .refused) → planCut i s = s)) ∧
  (∀ (rate1 rate0 : Bool) (flight : FlightEnd) (s : State),
    (∃ t, exec (.powerOnReset rate1 rate0 flight) s = .next t ∧ t.feed.trimBase = 0 ∧ t.feed.trimFine = 0) ∧
    (s.host.restart = .replyGone → s.ed.store ≠ .mounting → s.ed.rot = none → s.ed.writes = [] → s.host.tx = none →
      ∃ t, exec (.resetEffect rate1 rate0) s = .next t ∧ t.feed.trimBase = 0 ∧ t.feed.trimFine = 0))

/-- A change of one encoder input is a count along the cycle or against it; a change of both inputs or of none counts
nothing. The count reaches the position, the consumed count, the reach and the drive window; the move under way or the
slip rule judges it after a forward jog's charge and the fall of the remaining length. A forward jog's rise of the reach is
charged to the overhead and raises the piece base (R80, R176), for each count while the jog's move is under way (log 38);
nothing else is charged. A fall of the remaining length is drawn from the reservation of the job on the media path (R85),
and the hold rule follows (R86). -/
def Obligations.EncoderCountsReachPositionAndRoll : Prop :=
  (∀ (a b : Bool) (s : State),
    ((a = s.feed.encA ↔ b = s.feed.encB) →
      exec (.encoderCount a b) s = .next (giveLine (s.mapFeed fun f => { f with encA := a, encB := b }))) ∧
    (∀ forward d t, ¬ (a = s.feed.encA ↔ b = s.feed.encB) →
      (forward = true ↔ (s.feed.encA, s.feed.encB, a, b) ∈
        [(false, false, true, false), (true, false, true, true), (true, true, false, true), (false, true, false, false)]) →
      d = (if forward = s.feed.profile.invert then (-1 : Int) else 1) →
      t = (s.mapFeed fun f =>
        { f with
          encA := a, encB := b, pos := f.pos + BitVec.ofInt 32 d
          roll := { f.roll with consumed := f.roll.consumed + d, reach := max f.roll.reach (f.roll.consumed + d) }
          window := f.window.map fun w => { w with net := w.net + (if f.drive = .rev then -d else d) } }) →
      exec (.encoderCount a b) s = .next (giveLine (judgeCount
        (mediaFell (s.feed.roll.remaining - t.feed.roll.remaining)
          (chargeJog (t.feed.roll.reach - s.feed.roll.reach).toNat t)))))) ∧
  (∀ (rise : Nat) (s : State),
    (∀ m, s.feed.move = some m → m.by_ = .jog true → 0 < rise → chargeJog rise s =
      { s with
        feed := { s.feed with
                  roll := { s.feed.roll with pieceBase := s.feed.roll.pieceBase.map (· + (rise : Int)) } }
        cost := { s.cost with
                  overhead :=
                    { s.cost.overhead with
                      jog := s.cost.overhead.jog.set s.feed.roll.mediaType
                        (min (s.cost.overhead.jog[s.feed.roll.mediaType] + rise) 4294967295) } } }) ∧
    (s.feed.move = none ∨ (∃ m, s.feed.move = some m ∧ m.by_ ≠ .jog true) ∨ rise = 0 → chargeJog rise s = s)) ∧
  (∀ (mm : Nat) (s : State),
    (mm = 0 → mediaFell mm s = s) ∧
    (0 < mm → s.pathJob = none → mediaFell mm s = holdRule s) ∧
    (∀ i j, 0 < mm → s.pathJob = some (i, j) → mediaFell mm s = holdRule (s.mapJobs fun t =>
      { t with slots := t.slots.set i (.live
          { j with drawn := j.drawn + mm, mediaRes := j.planned - (j.drawn + mm) }) })))

/-- What a count does to the move under way: zones and window in the approach, the settle phase, the overrun, the end of
a reverse leg. SETTLE_TIMEOUT completes the move in its settle phase: the record is discarded, the target is the rest
target, the last media event is a move, the requester acts, a waiting spoil path goes on and the start conditions are
evaluated, whatever time is left; without a settle time running nothing happens (log 2). A window of the drive begins where the drive turns from
off or from the other direction, runs on between fast and slow, and is abandoned with the outputs off (R66); an end point
is kept as the exact number (log 45). What each requester does (R62): the swath's FEED_DONE, the strip's reading,
which takes the place of one that still runs, the model's choice (log 31), the cut's knife cycle, the start step or the cancelled job's closing after a back-feed (R12, R13), the trim cut and the end of
a load, a jog's notice. -/
def Obligations.CountsAndTheSettleTimeCarryTheMove : Prop :=
  (∀ (m : Move) (s : State), s.feed.move = some m →
    (m.phase = .approach → s.feed.position < m.target - s.feed.profile.window →
      judgeCount s = s.mapFeed fun f =>
        { f with window := if f.drive = .off ∨ f.drive = .rev then some { net := 0, left := 50 } else f.window
                 drive := if 100 * (f.profile.slow : Int) < m.target - f.position then .fast else .slow }) ∧
    (m.phase = .approach → m.target - s.feed.profile.window ≤ s.feed.position →
      s.feed.position ≤ m.target + s.feed.profile.window →
      judgeCount s = s.mapFeed fun f =>
        { f with drive := .off, window := none, move := some { m with phase := .settle },
                 settleLeft := some f.profile.settle }) ∧
    (m.phase = .settle → s.feed.position < m.target - s.feed.profile.window →
      judgeCount s = s.mapFeed fun f =>
        { f with window := if f.drive = .off ∨ f.drive = .rev then some { net := 0, left := 50 } else f.window,
                 drive := .slow, axis := if f.axis = .loading then .loading else .moving,
                 settleLeft := none, move := some { m with phase := .approach, endPoint := none } }) ∧
    (m.phase = .settle → m.target - s.feed.profile.window ≤ s.feed.position →
      s.feed.position ≤ m.target + s.feed.profile.window → judgeCount s = s) ∧
    (m.phase ≠ .reverse → m.target + s.feed.profile.window < s.feed.position →
      (s.feed.profile.reversal = true → m.reversalUsed = false →
        judgeCount s = s.mapFeed fun f =>
          { f with window := if f.drive = .rev then f.window else some { net := 0, left := 50 },
                   drive := .rev, axis := if f.axis = .loading then .loading else .reversing,
                   settleLeft := none,
                   move := some { m with phase := .reverse, reversalUsed := true,
                                         endPoint := some (m.target - 100 * (f.profile.backoff : Int)) } }) ∧
      (s.feed.profile.reversal = false ∨ m.reversalUsed = true → judgeCount s = feedFault .overrun s)) ∧
    (∀ e, m.phase = .reverse → m.endPoint = some e →
      (e < s.feed.position → judgeCount s = s) ∧
      (s.feed.position ≤ e →
        judgeCount s = s.mapFeed fun f =>
          { f with window := if f.drive = .off ∨ f.drive = .rev then some { net := 0, left := 50 } else f.window,
                   drive := .fast, axis := if f.axis = .loading then .loading else .moving,
                   settleLeft := none, move := some { m with phase := .approach, endPoint := none } }))) ∧
  (∀ s : State,
    (s.feed.move = none ∨ s.feed.settleLeft = none → exec .settleTimeout s = .next (giveLine s)) ∧
    (∀ m n, s.feed.move = some m → s.feed.settleLeft = some n →
      exec .settleTimeout s = .next (giveLine (startEval (spoilAfterMove (moveDone m.by_ (s.mapFeed fun f =>
        { f with move := none, settleLeft := none, rest := some m.target,
                 axis := if f.axis = .loading then .loading else .idle,
                 roll := { f.roll with lastEvent := .move } }))))))) ∧
  (∀ s : State,
    moveDone .swath s = swathDone s ∧
    (s.chk.state = .idle → moveDone .strip s = s) ∧
    (s.chk.state ≠ .idle →
      moveDone .strip s = s.mapChk fun k => { k with reading := some { phase := .command, discard := false } }) ∧
    moveDone .cut s = beginKnife s ∧
    (s.pathJob = none → moveDone .backFeed s = s) ∧
    (∀ i j, s.pathJob = some (i, j) →
      (j.outcome = none → moveDone .backFeed s = startStep i s) ∧
      (j.outcome.isSome = true → moveDone .backFeed s = closeJob i 0 s)) ∧
    (s.feed.load = some .trimLeg →
      moveDone .load s = beginKnife (s.mapFeed fun f => { f with load := some .trimCut })) ∧
    (s.feed.load = some .backFeed → moveDone .load s = loadEnd s) ∧
    (s.feed.load ≠ some .trimLeg → s.feed.load ≠ some .backFeed → moveDone .load s = s) ∧
    (∀ forward, moveDone (.jog forward) s = notify .feedAxis s)) ∧
  (∀ s : State,
    (∀ i j, s.pathJob = some (i, j) → j.spoilWait = true → s.feed.axis = .idle → spoilAfterMove s = spoilCut i s) ∧
    (s.pathJob = none ∨ s.feed.axis ≠ .idle ∨ (∃ i j, s.pathJob = some (i, j) ∧ j.spoilWait = false) →
      spoilAfterMove s = s))

/-- The detectors: the stall window, the edge search's limit, the slip rule and the knife's two times each take their own
kind of fault, or none, whatever time is left; without what they watch nothing happens (log 2), and the edge search has its limit where the counts
from its beginning reach 100,000 (log 5). A fault's effect: every output off, the record set, not referenced, the move
discarded; media out on the roll besides; then the job on the media path takes its course, and the feed axis notice is
queued. Media out: the roll is EXHAUSTED, the job on the media path loses its reservation, and the hold rule takes the
others' (R88). -/
def Obligations.DetectorsTakeFaultsThatStopTheAxis : Prop :=
  (∀ s : State,
    (s.feed.window = none → exec .stallWindowEnd s = .next (giveLine s)) ∧
    (∀ w, s.feed.window = some w → w.net < 4 → exec .stallWindowEnd s = .next (giveLine (feedFault .stall s))) ∧
    (∀ w, s.feed.window = some w → 4 ≤ w.net → exec .stallWindowEnd s =
      .next (giveLine (s.mapFeed fun f => { f with window := some { net := 0, left := 50 } }))) ∧
    (∀ p, s.feed.load = some (.search p) → 100000 ≤ (s.feed.pos - p).toInt →
      exec .edgeSearchLimit s = .next (giveLine (feedFault .edgeNotFound s))) ∧
    ((∀ p, s.feed.load = some (.search p) → (s.feed.pos - p).toInt < 100000) →
      exec .edgeSearchLimit s = .next (giveLine s)) ∧
    (∀ n, s.feed.knifeCycle = some (.stroke n) →
      exec .knifeStrokeTimeout s = .next (giveLine (feedFault .knife s)) ∧
      exec .knifeReturnTimeout s = .next (giveLine s)) ∧
    (∀ n, s.feed.knifeCycle = some (.return_ n) →
      exec .knifeReturnTimeout s = .next (giveLine (feedFault .knife s)) ∧
      exec .knifeStrokeTimeout s = .next (giveLine s)) ∧
    (s.feed.knifeCycle = none →
      exec .knifeReturnTimeout s = .next (giveLine s) ∧ exec .knifeStrokeTimeout s = .next (giveLine s)) ∧
    (∀ r, s.feed.axis = .idle → s.feed.move = none → s.feed.rest = some r →
      (s.feed.position < r - s.feed.profile.slip ∨ r + s.feed.profile.slip < s.feed.position →
        judgeCount s = feedFault .slip s) ∧
      (r - s.feed.profile.slip ≤ s.feed.position → s.feed.position ≤ r + s.feed.profile.slip → judgeCount s = s)) ∧
    (s.feed.axis ≠ .idle → s.feed.move = none → judgeCount s = s)) ∧
  (∀ (k : FaultKind) (s u v : State),
    u = (s.mapFeed fun f =>
      { f with
        drive := .off, knife := false, window := none
        fault := some { kind := k, axis := f.axis, pos := f.position }
        axis := .fault, referenced := false, move := none, settleLeft := none, knifeCycle := none, load := none,
        rest := none }) →
    (k = .mediaOut → v = mediaOut u) → (k ≠ .mediaOut → v = u) →
    (v.pathJob = none → feedFault k s = notify .feedAxis v) ∧
    (∀ i j, v.pathJob = some (i, j) → feedFault k s = notify .feedAxis (faultJob i j v))) ∧
  (∀ (s u : State), u = (s.mapFeed fun f => { f with roll := { f.roll with state := .exhausted } }) →
    (s.pathJob = none → mediaOut s = holdRule u) ∧
    (∀ i j, s.pathJob = some (i, j) → mediaOut s = holdRule (u.mapJobs fun t =>
      { t with slots := t.slots.set i (.live { j with mediaRes := 0 }) })))

/-- EDGE_CHANGE: media out in a forward approach, the edge reference in an edge search, and else the level alone. A
forward approach (R68) is the approach or settle phase of a move in MOVING, or of a load's leg, whose settle phase counts
in (log 19). A trim leg whose move is refused leaves the load where it stands (log 18). -/
def Obligations.EdgeChangeIsMediaOutOrTheReference : Prop :=
  ∀ (present : Bool) (s : State) (u : State), u = (s.mapFeed fun f => { f with edge := present }) →
    ((∀ p, s.feed.load ≠ some (.search p)) → s.feed.edge = true → present = false → s.feed.forwardApproach = true →
      exec (.edgeChange present) s = .next (giveLine (feedFault .mediaOut u))) ∧
    ((∀ p, s.feed.load ≠ some (.search p)) → (s.feed.edge = false ∨ present = true ∨ s.feed.forwardApproach = false) →
      exec (.edgeChange present) s = .next (giveLine u)) ∧
    (∀ p, s.feed.load = some (.search p) →
      (s.feed.edge = false → present = true → exec (.edgeChange present) s = .next (giveLine (edgeReference u))) ∧
      (s.feed.edge = true ∨ present = false → exec (.edgeChange present) s = .next (giveLine u))) ∧
    (∀ v : State, v = (s.mapFeed fun f =>
        { f with pos := 0, referenced := true, load := some .trimLeg,
                 roll := { f.roll with consumed := 0, reach := 0 } }) →
      (∀ t, requestMove (100 * (s.feed.profile.trim : Int)) .load v = (t, .done) → edgeReference s = trimCut t) ∧
      (∀ t, requestMove (100 * (s.feed.profile.trim : Int)) .load v = (t, .begun) → edgeReference s = t) ∧
      (∀ t, requestMove (100 * (s.feed.profile.trim : Int)) .load v = (t, .refused) → edgeReference s = v)) ∧
    (trimCut s = beginKnife (s.mapFeed fun f => { f with load := some .trimCut })) ∧
    (s.feed.forwardApproach = true ↔ ∃ m, s.feed.move = some m ∧
      (s.feed.axis = .moving ∨ s.feed.axis = .loading) ∧ (m.phase = .approach ∨ m.phase = .settle))

/-- The knife cycle: away from rest at its beginning it faults; the stroke drives KNIFE until home is left, the return
until home is reached, and the cut of a plan then counts. The trim cut of a load sets the piece base, is charged to the
overhead with its knife cycle (R176), and the back-feed follows (R77); refused, it leaves the load where it stands
(log 18). The end of a load: IDLE, LOADED, the retry (R87), by which held jobs get their reservations again, oldest first,
while a roll is LOADED, and the start conditions. -/
def Obligations.KnifeCycleStrokesAndReturns : Prop :=
  (∀ s : State,
    (∀ f, f = { s.feed with axis := if s.feed.axis = .loading then .loading else .knife } →
      (s.feed.knifeHome = true →
        beginKnife s = s.mapFeed fun _ => { f with knife := true, knifeCycle := some (.stroke 50) }) ∧
      (s.feed.knifeHome = false → beginKnife s = feedFault .knife (s.mapFeed fun _ => f))) ∧
    (∀ n, s.feed.knifeCycle = some (.stroke n) →
      exec (.knifeHomeChange false) s = .next (giveLine (s.mapFeed fun f =>
        { f with knifeHome := false, knifeCycle := some (.return_ 500) })) ∧
      exec (.knifeHomeChange true) s = .next (giveLine (s.mapFeed fun f => { f with knifeHome := true }))) ∧
    (∀ n, s.feed.knifeCycle = some (.return_ n) →
      exec (.knifeHomeChange false) s = .next (giveLine (s.mapFeed fun f => { f with knifeHome := false })) ∧
      (s.feed.load.isSome = true → exec (.knifeHomeChange true) s =
        .next (giveLine (trimCutDone (s.mapFeed fun f => { f with knifeHome := true })))) ∧
      (∀ i j, s.feed.load = none → s.pathJob = some (i, j) → exec (.knifeHomeChange true) s =
        .next (giveLine (planCutDone i j (s.mapFeed fun f => { f with knifeHome := true }))))) ∧
    (∀ active, s.feed.knifeCycle = none →
      exec (.knifeHomeChange active) s = .next (giveLine (s.mapFeed fun f => { f with knifeHome := active }))) ∧
    (∀ i j t, t = changeJob i (fun j => { j with cutsDone := j.cutsDone + 1 }) (s.mapFeed fun f =>
        { f with knife := false, knifeCycle := none, axis := .idle,
                 roll := { f.roll with reach := f.roll.consumed, lastEvent := .cut f.position } }) →
      (j.cutsDone + 1 < j.cuts.length → planCutDone i j s = planCut i t) ∧
      (j.cuts.length ≤ j.cutsDone + 1 → planCutDone i j s =
        closeJob i (s.feed.position - s.feed.roll.pieceBase.getD 0).toNat
          (decideOutcome i .finished none
            (t.mapFeed fun f => { f with roll := { f.roll with pieceBase := some s.feed.position } }))))) ∧
  (∀ (cut target : Int) (s u t : State), cut = s.feed.position →
    u = { s with
          feed := { s.feed with
                    knife := false, knifeCycle := none, load := some .backFeed
                    roll := { s.feed.roll with reach := s.feed.roll.consumed, lastEvent := .cut cut,
                                               pieceBase := some cut } }
          cost := { s.cost with
                    overhead :=
                      { s.cost.overhead with
                        trim := s.cost.overhead.trim.set s.feed.roll.mediaType
                          (min (s.cost.overhead.trim[s.feed.roll.mediaType] + cut.toNat) 4294967295)
                        knife := min (s.cost.overhead.knife + 1) 4294967295 } } } →
    target = cut - 100 * (s.feed.profile.knife : Int) + 100 * (s.feed.profile.lead : Int) →
    (requestMove target .load u = (t, .done) → trimCutDone s = loadEnd t) ∧
    (requestMove target .load u = (t, .begun) → trimCutDone s = t) ∧
    (requestMove target .load u = (t, .refused) → trimCutDone s = u)) ∧
  (∀ s : State,
    loadEnd s = startEval (retryMedia (notify .feedAxis (s.mapFeed fun f =>
      { f with axis := .idle, load := none, roll := { f.roll with state := .loaded } }))) ∧
    (s.feed.roll.state = .loaded → retryMedia s = s.jobs.order.foldl retryStep s) ∧
    (s.feed.roll.state ≠ .loaded → retryMedia s = s)) ∧
  (∀ (i : JobIx) (j : Job) (planned : Nat) (s : State), s.liveJob i = some j →
    planned = (j.cuts.getLast?).getD 0 + s.feed.profile.lead + (j.strip.map (·.length)).getD 0 →
    (j.state = .pending → j.holds.noMedia = true → planned + s.reserved ≤ s.feed.roll.remaining →
      retryStep s i = notify (.jobSlot i) (s.mapJobs fun t =>
        { t with slots := t.slots.set i (.live
            { j with mediaRes := planned, planned := planned, drawn := 0,
                     holds := { j.holds with noMedia := false } }) })) ∧
    (j.state ≠ .pending ∨ j.holds.noMedia = false ∨ s.feed.roll.remaining < planned + s.reserved →
      retryStep s i = s))

/-! ### Ink channels, reservations and consumption -/

/-- FIT_CARTRIDGE: its checks in order; taken, the cartridge, the supply state, the level at last refill end, CART_LOW
and the use since refill are set, the lot goes to the drift monitor, and the refill start test and the arbiter act; the
COLOUR_OUT holds are settled at the end of the event (R161). -/
def Obligations.FitCartridgeDeclaresTheContents : Prop :=
  ∀ (ft ch : Byte) (cap rem lot : U32) (s : State), s.takesRequest →
    (9 < ch.toNat ∨ cap.toNat < 1000 ∨ 2000000 < cap.toNat ∨ cap.toNat < rem.toNat →
      exec (.fitCartridge ft ch cap rem lot) s = .next (answered 0xC0 ft [0x21] s)) ∧
    (∀ c : Chan, c.val = ch.toNat → 1000 ≤ cap.toNat → cap.toNat ≤ 2000000 → rem.toNat ≤ cap.toNat →
      (s.ink.chans[c].supply ≠ .undeclared →
        exec (.fitCartridge ft ch cap rem lot) s = .next (answered 0xC0 ft [0x20] s)) ∧
      (∀ u : State, s.ink.chans[c].supply = .undeclared →
        u = ((s.mapInk fun k =>
          { k with
            chans := k.chans.set c
              { k.chans[c] with
                cart := some { capacity := cap.toNat, remaining := rem.toNat, lot := lot.toNat }
                supply := if 0 < rem.toNat then .ready else .empty
                levelEnd := k.chans[c].level
                sticky := { k.chans[c].sticky with
                            cartLow := k.chans[c].sticky.cartLow || decide (rem.toNat < cap.toNat / 10) } } }).mapAcct
          fun a => { a with use := a.use.set c 0 }) →
        exec (.fitCartridge ft ch cap rem lot) s = .next (answered 0xC0 ft [0x00]
          (settleDrift s.drift (noticeChannels s.ink.chans
            (arbiter (refillTest (notify (.channel c) (u.mapDrift (Drift.fit c lot.toNat))) c))))))) ∧
    (∀ (c : Chan) (d : Drift),
      (d.lots[c] = none ∨ d.lots[c] = some lot.toNat →
        Drift.fit c lot.toNat d = { d with lots := d.lots.set c (some lot.toNat) }) ∧
      (∀ l, d.lots[c] = some l → l ≠ lot.toNat →
        Drift.fit c lot.toNat d =
          { d with lots := d.lots.set c (some lot.toNat), rings := d.rings.set c [],
                   states := d.states.set c .unverified }))

/-- INK_STATUS reports the selected channels as they stand, and with the clear option clears each reported sticky event
whose holding condition has ended. The channels' parts follow one another with neither a count nor a channel number, which
is the model's choice (log 61). -/
def Obligations.InkStatusReportsAndClears : Prop :=
  ∀ (ft sel clear : Byte) (s : State), s.takesRequest →
    ((9 < sel.toNat ∧ sel ≠ 0xFF) ∨ 1 < clear.toNat →
      exec (.inkStatus ft sel clear) s = .next (answered 0xC1 ft [0x21] s)) ∧
    (exec (.inkStatus ft 0xFF 0) s = .next (answered 0xC1 ft
      (0x00 :: ((List.finRange 10).flatMap (channelReport s) ++ inkShared s.ink)) s)) ∧
    (exec (.inkStatus ft 0xFF 1) s = .next (answered 0xC1 ft
      (0x00 :: ((List.finRange 10).flatMap (channelReport s) ++ inkShared s.ink))
      ((List.finRange 10).foldl clearSticky s))) ∧
    (∀ c : Chan,
      exec (.inkStatus ft (BitVec.ofNat 8 c) 0) s =
        .next (answered 0xC1 ft (0x00 :: (channelReport s c ++ inkShared s.ink)) s) ∧
      exec (.inkStatus ft (BitVec.ofNat 8 c) 1) s =
        .next (answered 0xC1 ft (0x00 :: (channelReport s c ++ inkShared s.ink)) (clearSticky s c)) ∧
      (∀ k : Sticky,
        k = { cartLow := s.ink.chans[c].sticky.cartLow && ((s.ink.chans[c].cart).map (·.isLow)).getD false
              refillFail := false
              leakSuspect := false
              sensorFault := s.ink.chans[c].sticky.sensorFault && s.ink.chans[c].fault
              dry := s.ink.chans[c].sticky.dry && decide (s.ink.chans[c].cond = .dry) } →
        (k = s.ink.chans[c].sticky → clearSticky s c = s) ∧
        (k ≠ s.ink.chans[c].sticky → clearSticky s c = notify (.channel c) (s.mapInk fun x =>
          { x with chans := x.chans.set c { x.chans[c] with sticky := k } }))))

/-- SET_INK_PROFILE: its checks in order; taken, the profile is replaced, the level and the level condition are worked
out again, and the refill start test, the arbiter and, where the channel has returned, the resume test follow. A channel
with no reading yet keeps its level, which is the model's choice (log 10). The refill start test (R103): a READY channel
below its refill start, without a sensor fault and with ink left in its cartridge, joins the wait list. The arbiter
(R104): up to three times, the lowest free grant (log 26) goes to the waiting channel with the lowest level, the lowest
number among equals, whose refill begins with its pump on (R105, R116). -/
def Obligations.InkProfileIsReplacedWhole : Prop :=
  (∀ (ft ch : Byte) (a : InkProfileArgs) (s : State), s.takesRequest →
    (9 < ch.toNat ∨ ¬ (1 ≤ a.drop.toNat ∧ a.drop.toNat ≤ 20) ∨ 1023 < a.emptyAt.toNat ∨ 1023 < a.fullAt.toNat ∨
      (a.fullAt.toNat < a.emptyAt.toNat + 100 ∧ a.emptyAt.toNat < a.fullAt.toNat + 100) ∨
      ¬ (a.floor.toNat < a.start.toNat ∧ a.start.toNat < a.stop.toNat ∧ a.stop.toNat ≤ 29000) ∨
      ¬ (1000 ≤ a.floor.toNat ∧ a.floor.toNat ≤ 10000) →
      exec (.setInkProfile ft ch a) s = .next (answered 0xC2 ft [0x21] s)) ∧
    (∀ (c : Chan) (p : InkProfile), c.val = ch.toNat → (1 ≤ a.drop.toNat ∧ a.drop.toNat ≤ 20) →
      a.emptyAt.toNat ≤ 1023 → a.fullAt.toNat ≤ 1023 →
      (a.emptyAt.toNat + 100 ≤ a.fullAt.toNat ∨ a.fullAt.toNat + 100 ≤ a.emptyAt.toNat) →
      (a.floor.toNat < a.start.toNat ∧ a.start.toNat < a.stop.toNat ∧ a.stop.toNat ≤ 29000) →
      (1000 ≤ a.floor.toNat ∧ a.floor.toNat ≤ 10000) →
      p = { drop := a.drop.toNat, emptyAt := a.emptyAt.toNat, fullAt := a.fullAt.toNat, start := a.start.toNat,
            stop := a.stop.toNat, floor := a.floor.toNat } →
      ((∃ x ∈ s.liveJobs, x.2.state = .printing ∨ x.2.state = .suspended ∨ x.2.state = .aborting) →
        exec (.setInkProfile ft ch a) s = .next (answered 0xC2 ft [0x20] s)) ∧
      ((∀ x ∈ s.liveJobs, x.2.state ≠ .printing ∧ x.2.state ≠ .suspended ∧ x.2.state ≠ .aborting) →
        ∃ (x : Channel) (u : State),
          x.profile = p ∧
          x.level = (if s.ink.chans[c].fault = true ∨ s.ink.chans[c].ring = [] then s.ink.chans[c].level
            else levelOf p (s.ink.chans[c].ring.sum / s.ink.chans[c].ring.length)) ∧
          x.cond = (if p.start ≤ x.level then .normal else if p.floor ≤ x.level then .low else .dry) ∧
          x.above = (!s.ink.chans[c].fault && decide (p.floor + 1000 ≤ x.level)) ∧
          x.sticky = (if x.cond = .dry ∧ s.ink.chans[c].cond ≠ .dry then { s.ink.chans[c].sticky with dry := true }
            else s.ink.chans[c].sticky) ∧
          x = { s.ink.chans[c] with profile := x.profile, level := x.level, cond := x.cond, above := x.above,
                                    sticky := x.sticky } ∧
          u = noticeChannels s.ink.chans (arbiter (refillTest (notify (.channel c)
            (s.mapInk fun k => { k with chans := k.chans.set c x })) c)) ∧
          (x.above = true → s.ink.chans[c].above = false →
            exec (.setInkProfile ft ch a) s = .next (answered 0xC2 ft [0x00] (resumeTest u))) ∧
          (x.above = false ∨ s.ink.chans[c].above = true →
            exec (.setInkProfile ft ch a) s = .next (answered 0xC2 ft [0x00] u))))) ∧
  (∀ (c : Chan) (s : State) (starts : Prop),
    (starts ↔ s.ink.chans[c].supply = .ready ∧ s.ink.chans[c].fault = false ∧
      s.ink.chans[c].level < s.ink.chans[c].profile.start ∧ ∃ k, s.ink.chans[c].cart = some k ∧ 0 < k.remaining) →
    (starts → refillTest s c = s.mapInk fun i =>
      { i with chans := i.chans.set c { i.chans[c] with supply := .waiting }, wait := i.wait ++ [c] }) ∧
    (¬ starts → refillTest s c = s)) ∧
  (∀ s : State,
    arbiter s = grantOne (grantOne (grantOne s)) ∧
    ((∀ g : Fin 3, s.ink.grants[g].isSome = true) ∨ s.ink.wait = [] → grantOne s = s) ∧
    (∀ (g : Fin 3) (c : Chan), s.ink.grants[g] = none → (∀ h : Fin 3, h < g → s.ink.grants[h].isSome = true) →
      c ∈ s.ink.wait →
      (∀ d ∈ s.ink.wait, s.ink.chans[c].level < s.ink.chans[d].level ∨
        (s.ink.chans[c].level = s.ink.chans[d].level ∧ c ≤ d)) →
      grantOne s =
        { s with
          ink := { s.ink with
                   chans := s.ink.chans.set c
                     { s.ink.chans[c] with
                       supply := .refilling, levelBegin := s.ink.chans[c].level, pump := true, strokeLeft := some 250
                       progress := some { strokes := 0, ring := [s.ink.chans[c].level] } }
                   wait := s.ink.wait.erase c
                   grants := s.ink.grants.set g (some c) }
          acct := { s.acct with useBegin := s.acct.useBegin.set c s.acct.use[c] } }))

/-- A scan: each channel's sensor fault, ring, level and level condition after it, the humidity's fault, and the supply
state of a channel whose cartridge input shows none, or shows one on an UNFITTED channel; the level of a mean reading;
and what a scan leaves alone. Its order (R92): the readings, the endings that a sensor fault brings to a WAITING or
REFILLING channel (R94, R106), the levels, the cartridge inputs (R97), the refill endings at the stop level (R106), the
start tests, the arbiter, the notices, and the resume test where a channel has returned; each pass takes the channels in
channel order (log 49). -/
def Obligations.ScanTakesRingsLevelsAndCartridges : Prop :=
  (∀ (ain : Vector (BitVec 10) 11) (cart : Vector Bool 10) (s : State), s.ink.Law → ∃ t,
    exec (.scan ain cart) s = .next t ∧ t.ink.scanned = true ∧ t.ink.scanLeft = 100 ∧
    t.ink.humFault = !decide (8 ≤ ain[10].toNat ∧ ain[10].toNat ≤ 1015) ∧
    (∀ (c : Chan) (r : Nat), r = (ain[c.val]'(by omega)).toNat →
      (r < 8 ∨ 1015 < r →
        t.ink.chans[c].fault = true ∧ t.ink.chans[c].ring = s.ink.chans[c].ring ∧ t.ink.chans[c].level = 0 ∧
        t.ink.chans[c].sticky.sensorFault = true) ∧
      (8 ≤ r → r ≤ 1015 →
        t.ink.chans[c].fault = false ∧
        (s.ink.scanned = false ∨ s.ink.chans[c].fault = true → t.ink.chans[c].ring = List.replicate 8 r) ∧
        (s.ink.scanned = true → s.ink.chans[c].fault = false → s.ink.chans[c].ring.length = 8 →
          t.ink.chans[c].ring = s.ink.chans[c].ring.drop 1 ++ [r]) ∧
        t.ink.chans[c].level =
          levelOf s.ink.chans[c].profile (t.ink.chans[c].ring.sum / t.ink.chans[c].ring.length)) ∧
      t.ink.chans[c].profile = s.ink.chans[c].profile ∧
      t.ink.chans[c].cond = (if s.ink.chans[c].profile.start ≤ t.ink.chans[c].level then .normal
        else if s.ink.chans[c].profile.floor ≤ t.ink.chans[c].level then .low else .dry) ∧
      (cart[c] = false → t.ink.chans[c].supply = .unfitted ∧
        (s.ink.chans[c].supply ≠ .unfitted → t.ink.chans[c].cart = none)) ∧
      (cart[c] = true → s.ink.chans[c].supply = .unfitted → t.ink.chans[c].supply = .undeclared)) ∧
    (t.pending = s.pending ∧ t.ed = s.ed ∧ t.feed = s.feed ∧ t.chk = s.chk ∧ t.drift = s.drift ∧
      t.cost = { s.cost with overhead := t.cost.overhead } ∧ t.jobs.order = s.jobs.order ∧
      t.host = { s.host with queue := t.host.queue, marked := t.host.marked, seq := t.host.seq, tx := t.host.tx }) ∧
    (∀ (p : InkProfile) (mean : Nat),
      (p.emptyAt < p.fullAt → p.emptyAt ≤ mean → mean ≤ p.fullAt →
        levelOf p mean = (mean - p.emptyAt) * 30000 / (p.fullAt - p.emptyAt)) ∧
      (p.emptyAt < p.fullAt → mean ≤ p.emptyAt → levelOf p mean = 0) ∧
      (p.emptyAt < p.fullAt → p.fullAt ≤ mean → levelOf p mean = 30000) ∧
      (p.fullAt < p.emptyAt → p.fullAt ≤ mean → mean ≤ p.emptyAt →
        levelOf p mean = (p.emptyAt - mean) * 30000 / (p.emptyAt - p.fullAt)) ∧
      (p.fullAt < p.emptyAt → p.emptyAt ≤ mean → levelOf p mean = 0) ∧
      (p.fullAt < p.emptyAt → mean ≤ p.fullAt → levelOf p mean = 30000))) ∧
  (∀ (ain : Vector (BitVec 10) 11) (cart : Vector Bool 10) (s a b d e : State),
    a = (List.finRange 10).foldl faultRefill (s.mapInk (Ink.readAll (!s.ink.scanned) ain)) →
    b = (List.finRange 10).foldl (cartInput cart) (a.mapInk (Ink.measureAll (!s.ink.scanned))) →
    d = arbiter ((List.finRange 10).foldl refillTest ((List.finRange 10).foldl scanEnding b)) →
    e = noticeChannels s.ink.chans (d.mapInk fun k => { k with chans := k.chans.map fun x =>
      { x with above := !x.fault && decide (x.profile.floor + 1000 ≤ x.level) } }) →
    ((∃ c : Chan, d.ink.chans[c].fault = false ∧ d.ink.chans[c].profile.floor + 1000 ≤ d.ink.chans[c].level ∧
        d.ink.chans[c].above = false) → exec (.scan ain cart) s = .next (giveLine (resumeTest e))) ∧
    ((∀ c : Chan, d.ink.chans[c].fault = true ∨ d.ink.chans[c].level < d.ink.chans[c].profile.floor + 1000 ∨
        d.ink.chans[c].above = true) → exec (.scan ain cart) s = .next (giveLine e))) ∧
  (∀ (c : Chan) (x : Channel) (s : State), x = s.ink.chans[c] →
    (x.fault = true →
      (x.supply = .waiting → faultRefill s c = s.mapInk fun i =>
        { i with chans := i.chans.set c { x with supply := .ready }, wait := i.wait.erase c }) ∧
      (x.supply = .refilling → faultRefill s c = stopPump c .ready s) ∧
      (x.supply ≠ .waiting → x.supply ≠ .refilling → faultRefill s c = s)) ∧
    (x.fault = false → faultRefill s c = s) ∧
    (x.supply = .refilling → x.profile.stop ≤ x.level → scanEnding s c = endRefill c .ready s) ∧
    (x.supply ≠ .refilling ∨ x.level < x.profile.stop → scanEnding s c = s) ∧
    (∀ cart : Vector Bool 10,
      (cart[c] = true →
        (x.supply = .unfitted → cartInput cart s c = s.mapInk fun i =>
          { i with chans := i.chans.set c { x with supply := .undeclared } }) ∧
        (x.supply ≠ .unfitted → cartInput cart s c = s)) ∧
      (cart[c] = false →
        (x.supply = .unfitted → cartInput cart s c = s) ∧
        (x.supply = .refilling → cartInput cart s c =
          (stopPump c .unfitted s).mapInk fun i =>
            { i with chans := i.chans.set c { i.chans[c] with cart := none } }) ∧
        (x.supply = .waiting → cartInput cart s c = s.mapInk fun i =>
          { i with chans := i.chans.set c { x with supply := .unfitted, cart := none }, wait := i.wait.erase c }) ∧
        (x.supply = .undeclared ∨ x.supply = .ready ∨ x.supply = .empty → cartInput cart s c = s.mapInk fun i =>
          { i with chans := i.chans.set c { x with supply := .unfitted, cart := none } }))))

/-- A stroke of a REFILLING channel's pump: 50 µL of the cartridge, the progress ring, and the two endings that a stroke
decides, whatever time is left to it; on any other channel nothing happens (log 2). What the end of a refill does (R107): the pump off, the grant
released, the progress discarded, and, but for the endings without one, the leak check with the level at last refill
end. -/
def Obligations.PumpStrokeMovesInkAndJudgesTheRefill : Prop :=
  (∀ (c : Chan) (s : State),
    (s.ink.chans[c].supply ≠ .refilling → exec (.pumpStroke c) s = .next (giveLine s)) ∧
    (∀ (k : Cartridge) (p q : Progress) (x : Channel) (u : State), s.ink.chans[c].supply = .refilling →
      s.ink.chans[c].cart = some k → s.ink.chans[c].progress = some p →
      q = { strokes := p.strokes + 1,
            ring := (if p.ring.length < 41 then p.ring else p.ring.drop 1) ++ [s.ink.chans[c].level] } →
      x = { s.ink.chans[c] with
            cart := some { k with remaining := k.remaining - 50 }
            progress := some q
            strokeLeft := some 250
            sticky := { s.ink.chans[c].sticky with
                        cartLow := s.ink.chans[c].sticky.cartLow || decide (k.remaining - 50 < k.capacity / 10) } } →
      u = (s.mapInk fun i => { i with chans := i.chans.set c x }) →
      (40 ≤ q.strokes → x.level < q.ring.headD 0 + 500 →
        exec (.pumpStroke c) s = .next (giveLine (noticeChannels s.ink.chans (arbiter (endRefill c .empty
          (u.mapInk fun i =>
            { i with
              chans := i.chans.set c
                { x with cart := some { k with remaining := 0 },
                         sticky := { x.sticky with refillFail := true, cartLow := true } } })))))) ∧
      (q.strokes < 40 ∨ q.ring.headD 0 + 500 ≤ x.level → k.remaining ≤ 50 →
        exec (.pumpStroke c) s =
          .next (giveLine (noticeChannels s.ink.chans (arbiter (endRefill c .empty u))))) ∧
      (q.strokes < 40 ∨ q.ring.headD 0 + 500 ≤ x.level → 50 < k.remaining →
        exec (.pumpStroke c) s = .next (giveLine (noticeChannels s.ink.chans u))))) ∧
  (∀ (c : Chan) (supply : Supply) (s : State),
    stopPump c supply s = s.mapInk (fun i =>
      { i with
        chans := i.chans.set c
          { i.chans[c] with supply := supply, pump := false, strokeLeft := none, progress := none }
        grants := i.grants.map fun g => if g = some c then none else g }) ∧
    endRefill c supply s = (leakCheck c (stopPump c supply s)).mapInk fun i =>
      { i with chans := i.chans.set c { i.chans[c] with levelEnd := i.chans[c].level } })

/-- The ink account's figures: the debit of a job's entry, an overhead report's pair, and the leak check. A job report
takes its pairs in turn: a channel without an entry gets one outside the estimate (R115), at a pair of 0 drops too
(log 33), the use since refill rises with the used figure (R116), and OVERDRAW is set when the sum of the job's overdraws
has risen (R113, R114) or a pair with drops names a channel outside the estimate (R115). MAINT is an overhead report of all
its pairs in turn; ENGINE_FRAME_SENT takes the front message from the transmit list. -/
def Obligations.DropsAreDebitedAsInkOrOverhead : Prop :=
  ((∀ (e : InkEntry) (count volume drops used rise : Nat),
    drops = min (e.drops + count) 4294967295 → used = drops * volume / 1000 → rise = used - e.used →
    (rise ≤ e.remaining → e.debit count volume =
      { e with drops := drops, used := used, remaining := e.remaining - rise, drawn := e.drawn + rise,
               overdraw := min e.overdraw 4294967295 }) ∧
    (e.remaining < rise → e.debit count volume =
      { e with drops := drops, used := used, remaining := 0, drawn := e.drawn + e.remaining,
               overdraw := min (e.overdraw + (rise - e.remaining)) 4294967295 })) ∧
  (∀ (s : State) (c : Chan) (count pl : Nat), pl = count * s.ink.chans[c].profile.drop + s.acct.carry[c] →
    overheadPair s (c, count) =
      { s with
        acct := { s.acct with carry := s.acct.carry.set c (pl % 1000),
                              use := s.acct.use.set c (min (s.acct.use[c] + pl / 1000) 4294967295) }
        cost :=
          { s.cost with
            overhead :=
              { s.cost.overhead with
                maint := s.cost.overhead.maint.set c (min (s.cost.overhead.maint[c] + pl / 1000) 4294967295) } } }) ∧
  (∀ (s : State) (c : Chan) (excess : Int),
    excess = (s.ink.chans[c].levelEnd : Int) - s.ink.chans[c].levelBegin - (s.acct.useBegin[c] / 1000 : Nat) →
    (excess ≤ 2000 → leakCheck c s = s.mapAcct fun a => { a with use := a.use.set c 0 }) ∧
    (2000 < excess → leakCheck c s =
      { s with
        ink :=
          { s.ink with
            chans := s.ink.chans.set c
              { s.ink.chans[c] with sticky := { s.ink.chans[c].sticky with leakSuspect := true } } }
        acct := { s.acct with use := s.acct.use.set c 0 }
        cost :=
          { s.cost with
            overhead :=
              { s.cost.overhead with
                unaccounted := s.cost.overhead.unaccounted.set c
                  (min (s.cost.overhead.unaccounted[c] + excess.toNat * 1000) 4294967295) } } }))) ∧
  (∀ (i : JobIx) (j : Job) (c : Chan) (count before after : Nat) (es fs : List InkEntry) (s : State),
    s.liveJob i = some j →
    ((∃ e ∈ j.ink, e.chan = c) → es = j.ink) →
    ((∀ e ∈ j.ink, e.chan ≠ c) → es = j.ink ++
      [{ chan := c, estimated := false, reservation := 0, drawn := 0, remaining := 0, overdraw := 0, drops := 0,
         used := 0, released := false }]) →
    fs = es.map (fun e => if e.chan = c then e.debit count s.ink.chans[c].profile.drop else e) →
    before = ((j.ink.find? fun e => e.chan == c).map (·.used)).getD 0 →
    after = ((fs.find? fun e => e.chan == c).map (·.used)).getD 0 →
    debitPair i s (c, count) =
      { s with
        jobs := { s.jobs with slots := s.jobs.slots.set i (.live { j with ink := fs }) }
        acct := { s.acct with use := s.acct.use.set c (min (s.acct.use[c] + (after - before)) 4294967295) } }) ∧
  (∀ (i : JobIx) (j k : Job) (drops : List (Chan × Nat)) (s t : State), s.liveJob i = some j →
    t = drops.foldl (debitPair i) s → t.liveJob i = some k →
    ((j.ink.map (·.overdraw)).sum < (k.ink.map (·.overdraw)).sum ∨
        (∃ p ∈ drops, 0 < p.2 ∧ ∀ q ∈ j.est, q.1 ≠ p.1) → k.flags.overdraw = false →
      jobReport i drops s = changeJob i (fun j => { j with flags := { j.flags with overdraw := true } }) t) ∧
    (((k.ink.map (·.overdraw)).sum ≤ (j.ink.map (·.overdraw)).sum ∧
        ∀ p ∈ drops, 0 < p.2 → ∃ q ∈ j.est, q.1 = p.1) ∨ k.flags.overdraw = true →
      jobReport i drops s = t)) ∧
  ((∀ (drops : List (Byte × U32)) (xs : List (Chan × Nat)) (s : State), readMaint drops = some xs →
    exec (.maint drops) s = .next (giveLine (xs.foldl overheadPair s))) ∧
  (∀ (drops : List (Byte × U32)) (s : State), readMaint drops = none →
    exec (.maint drops) s = .next (giveLine (protocolError s))) ∧
  (∀ s : State, exec .engineFrameSent s = .next (s.mapEng fun e => { e with txList := e.txList.drop 1 })))

/-! ### The engine link -/

/-- A whole engine frame, taken while hunting, is the message it carries; its own tag byte is not read. That a message's
own command stands for its whole frame is the model's choice (log 6). -/
def Obligations.EngineFrameIsTheMessageItCarries : Prop :=
  ∀ (i : Instr) (k tag : Byte) (b : Bytes) (s : State), i.wellFormed = true → engineBody i = some (k, b) →
    s.eng.rx = none → exec (.engineFrame (frameBytes k tag b)) s = exec i s

/-- A damaged engine frame is dropped and counted; a frame of an unknown kind is a protocol error; an ill-formed message
is one too; a protocol error counts and, in phase AWAIT or FEED, aborts the print. -/
def Obligations.BadEngineFramesAreCounted : Prop :=
  ∀ (s : State),
    (∀ (k tag x y : Byte) (b : Bytes), s.eng.rx = none → b.length ≤ 512 → word16 x y ≠ crc16 (frameCore k tag b) →
      exec (.engineFrame (0xA5 :: (frameCore k tag b ++ [x, y]))) s =
        .next (s.mapEng fun e => { e with crcDrops := min (e.crcDrops + 1) 65535 })) ∧
    (∀ k tag lo hi : Byte, s.eng.rx = none → 512 < (word16 lo hi).toNat →
      exec (.engineFrame [0xA5, k, tag, lo, hi]) s =
        .next (s.mapEng fun e => { e with overDrops := min (e.overDrops + 1) 65535 })) ∧
    (∀ (k tag : Byte) (b : Bytes), s.eng.rx = none → b.length ≤ 512 → k ∉ ([0x81, 0x82, 0x83, 0x84] : List Byte) →
      exec (.engineFrame (frameBytes k tag b)) s = .next (giveLine (protocolError s))) ∧
    (∀ (tag index : U16) (feed : U32) (drops : List (Byte × U32)), readSwath feed drops = none →
      exec (.swath tag index feed drops) s = .next (giveLine (protocolError s))) ∧
    (∀ (tag : U16) (status : Byte), 1 < status.toNat →
      exec (.endPrint tag status) s = .next (giveLine (protocolError s))) ∧
    (∀ u : State, u = (s.mapEng fun e => { e with protoErrors := min (e.protoErrors + 1) 65535 }) →
      (s.eng.ctx = none → protocolError s = u) ∧
      (∀ x, s.eng.ctx = some x → (x.phase = .held ∨ x.phase = .ending) → protocolError s = u) ∧
      (∀ x i j, s.eng.ctx = some x → (x.phase = .await ∨ x.phase = .feed) → s.contextJob = some (i, j) →
        protocolError s = enterAborting i (decideOutcome i .spoiled (some .engineProtocol) u)))

/-- ENGINE_STATE sets the engine state; READY evaluates the start conditions, FAULT ends the engine's part in a print;
the state it already has changes nothing, and a state or code that is none is a protocol error. -/
def Obligations.EngineStateSetsTheState : Prop :=
  ∀ (s : State) (t : EngineState → Byte → State),
    t = (fun x code => s.mapEng fun e => { e with state := x, code := code }) →
    (s.eng.state = .ready → s.eng.code = 0 → exec (.engineState 1 0) s = .next (giveLine s)) ∧
    (s.eng.state ≠ .ready → exec (.engineState 1 0) s = .next (giveLine (startEval (t .ready 0)))) ∧
    (exec (.engineState 2 0) s = .next (giveLine (t .busy 0))) ∧
    (∀ code : Byte, code ≠ 0 →
      (s.eng.state = .fault → s.eng.code = code → exec (.engineState 3 code) s = .next (giveLine s)) ∧
      (¬ (s.eng.state = .fault ∧ s.eng.code = code) →
        (s.eng.ctx = none → exec (.engineState 3 code) s = .next (giveLine (t .fault code))) ∧
        (∀ i j, s.contextJob = some (i, j) → exec (.engineState 3 code) s =
          .next (giveLine (takeSpoil i (decideOutcome i .spoiled (some .engineFault) (dropContext (t .fault code)))))))) ∧
    (∀ st code : Byte, st = 0 ∨ 3 < st.toNat ∨ (st.toNat < 3 ∧ code ≠ 0) ∨ (st = 3 ∧ code = 0) →
      exec (.engineState st code) s = .next (giveLine (protocolError s)))

/-- A SWATH with the context's tag and the next index in phase AWAIT is taken: its drops are the job's, the timer stops,
and the move to the swath target plus its feed is asked for; where that move is refused, phase FEED stays with the timer
stopped, which is the model's choice (log 18). Any SWATH's drops count first; one that breaks the course is a protocol
error, the one of phase ENDING apart. -/
def Obligations.SwathIsDebitedAndFed : Prop :=
  ∀ (tag index : U16) (feed : U32) (drops : List (Byte × U32)) (n : Nat) (xs : List (Chan × Nat)) (s : State),
    readSwath feed drops = some (n, xs) →
    (∀ x i j target u, s.eng.ctx = some x → x.tag = tag.toNat → s.contextJob = some (i, j) →
      u = jobReport i xs s →
      (x.phase = .await → x.next = index → s.feed.swathTarget = some target →
        (∀ v w, v = (mapContext (fun y => { y with phase := .feed, inFeed := some index, swathTimer := none }) u) →
          (requestMove (target + n) .swath v = (w, .begun) → exec (.swath tag index feed drops) s =
            .next (giveLine (w.mapFeed fun f => { f with swathTarget := some (target + n) }))) ∧
          (requestMove (target + n) .swath v = (w, .done) → exec (.swath tag index feed drops) s =
            .next (giveLine (swathDone (w.mapFeed fun f => { f with swathTarget := some (target + n) })))) ∧
          (requestMove (target + n) .swath v = (w, .refused) → exec (.swath tag index feed drops) s =
            .next (giveLine v)))) ∧
      (x.phase = .ending → x.next = index → x.endingSwath = false → exec (.swath tag index feed drops) s =
        .next (giveLine (mapContext (fun y => { y with endingSwath := true }) u))) ∧
      (x.phase = .feed ∨ x.phase = .held ∨ x.next ≠ index ∨ (x.phase = .ending ∧ x.endingSwath = true) →
        exec (.swath tag index feed drops) s = .next (giveLine (protocolError u)))) ∧
    (s.eng.ctx = none → exec (.swath tag index feed drops) s =
      .next (giveLine (protocolError (xs.foldl overheadPair s)))) ∧
    (∀ x, s.eng.ctx = some x → x.tag ≠ tag.toNat → exec (.swath tag index feed drops) s =
      .next (giveLine (protocolError (xs.foldl overheadPair s))))

/-- The completion of a swath move makes FEED_DONE, and then HOLD where the job is dry; a returned event makes RESUME
where all of the job's channels have returned. The job's channels are those of its estimate and those it has used
(R112, R131). -/
def Obligations.FeedDoneHoldAndResume : Prop :=
  ∀ (s : State) (x : PrintContext) (i : JobIx) (j : Job), s.eng.ctx = some x → s.contextJob = some (i, j) →
    (∀ k u, x.phase = .feed → x.inFeed = some k →
      u = (s.mapEng fun e =>
        { e with txList := e.txList ++ [.feedDone x.tag k],
                 ctx := some { x with phase := .await, next := k + 1, inFeed := none, swathTimer := some 5000 } }) →
      (s.jobDry j = false → swathDone s = u) ∧
      (s.jobDry j = true → swathDone s =
        changeJob i (fun j => { j with state := .suspended, flags := { j.flags with suspendedOnce := true } })
          (u.mapEng fun e =>
            { e with txList := e.txList ++ [.hold j.tag],
                     ctx := some { x with phase := .held, next := k + 1, inFeed := none, swathTimer := none,
                                          dryTimer := some 600000 } }))) ∧
    (x.phase ≠ .feed → swathDone s = s) ∧
    (s.jobDry j = true ↔ ∃ c ∈ j.inkChannels, s.ink.chans[c].cond = .dry) ∧
    (∀ c, c ∈ j.inkChannels ↔ (∃ p ∈ j.est, p.1 = c) ∨ (∃ e ∈ j.ink, e.chan = c ∧ 0 < e.drops)) ∧
    (x.phase = .held → (∀ c ∈ j.inkChannels, s.ink.chans[c].fault = false ∧
        s.ink.chans[c].profile.floor + 1000 ≤ s.ink.chans[c].level) →
      resumeTest s = changeJob i (fun j => { j with state := .printing }) (s.mapEng fun e =>
        { e with txList := e.txList ++ [.resume j.tag],
                 ctx := some { x with phase := .await, dryTimer := none, swathTimer := some 5000 } })) ∧
    (x.phase ≠ .held ∨ (∃ c ∈ j.inkChannels, s.ink.chans[c].fault = true ∨
        s.ink.chans[c].level < s.ink.chans[c].profile.floor + 1000) → resumeTest s = s)

/-- END and the two timers of a print by the phase of the print context. A change of job state discards the swath target
when the job leaves PRINTING, SUSPENDED and ABORTING (R65). The entry into CHECKING begins the dwell of the humidity's band
(R142, R145, R95), which ends at once where it is 0 s. The model's own choices in it: an expiry is taken whatever time is
left, and without its timer running it changes nothing (log 2); the fields of the strip context that have no value in DWELL
are 0, no or empty (log 54); the humidity of an empty ring is 0 (log 11). -/
def Obligations.EndAndTimersEndTheEnginesPart : Prop :=
  (∀ s : State, s.eng.ctx = none →
    (∀ tag status, exec (.endPrint tag status) s = .next (giveLine (protocolError s))) ∧
    exec .swathTimerExpiry s = .next (giveLine s) ∧ exec .dryOutTimerExpiry s = .next (giveLine s)) ∧
  (∀ (s : State) (x : PrintContext) (i : JobIx) (j : Job), s.eng.ctx = some x → s.contextJob = some (i, j) →
    (∀ tag : U16, x.tag = tag.toNat →
      (x.phase = .await →
        (j.strip = none → exec (.endPrint tag 0) s = .next (giveLine (enterCutting i (dropContext s)))) ∧
        (∀ p, j.strip = some p → exec (.endPrint tag 0) s = .next (giveLine (enterChecking i j p (dropContext s)))) ∧
        (exec (.endPrint tag 1) s =
          .next (giveLine (takeSpoil i (decideOutcome i .spoiled (some .engineFault) (dropContext s)))))) ∧
      (x.phase = .ending →
        exec (.endPrint tag 0) s = .next (giveLine (takeSpoil i (dropContext s))) ∧
        exec (.endPrint tag 1) s = .next (giveLine (takeSpoil i (dropContext s)))) ∧
      (x.phase = .feed ∨ x.phase = .held →
        exec (.endPrint tag 0) s = .next (giveLine (protocolError s)) ∧
        exec (.endPrint tag 1) s = .next (giveLine (protocolError s)))) ∧
    (∀ tag status, x.tag ≠ BitVec.toNat (tag : U16) →
      exec (.endPrint tag status) s = .next (giveLine (protocolError s))) ∧
    (x.swathTimer.isSome = true → x.phase = .await → exec .swathTimerExpiry s =
      .next (giveLine (enterAborting i (decideOutcome i .spoiled (some .engineStall) s)))) ∧
    (x.swathTimer.isSome = true → x.phase = .ending → exec .swathTimerExpiry s =
      .next (giveLine (takeSpoil i (dropContext s)))) ∧
    (x.swathTimer = none ∨ x.phase = .feed ∨ x.phase = .held → exec .swathTimerExpiry s = .next (giveLine s)) ∧
    (x.dryTimer.isSome = true → x.phase = .held → exec .dryOutTimerExpiry s =
      .next (giveLine (enterAborting i (decideOutcome i .spoiled (some .dryout) s)))) ∧
    (x.dryTimer = none ∨ x.phase ≠ .held → exec .dryOutTimerExpiry s = .next (giveLine s)) ∧
    (enterAborting i s = setJobState i .aborting (s.mapEng fun e =>
      { e with txList := e.txList ++ [.abort x.tag],
               ctx := some { x with phase := .ending, inFeed := none, dryTimer := none, swathTimer := some 5000,
                                    endingSwath := false } }))) ∧
  (∀ (i : JobIx) (j : Job) (st : JobState) (s : State) (engine : JobState → Prop), s.liveJob i = some j →
    (∀ x, engine x ↔ x = .printing ∨ x = .suspended ∨ x = .aborting) →
    (engine j.state → ¬ engine st → setJobState i st s = notify (.jobSlot i)
      { s with
        jobs := { s.jobs with slots := s.jobs.slots.set i (.live { j with state := st }) }
        feed := { s.feed with swathTarget := none } }) ∧
    (¬ engine j.state ∨ engine st → setJobState i st s = notify (.jobSlot i) (s.mapJobs fun t =>
      { t with slots := t.slots.set i (.live { j with state := st }) }))) ∧
  (∀ (i : JobIx) (j : Job) (x : Strip) (band dwell : Nat) (s u : State),
    (s.ink.humFault = true ∨ 60 < s.ink.humidity → band = s.chk.profile.dwellHigh) →
    (s.ink.humFault = false → s.ink.humidity < 40 → band = s.chk.profile.dwellLow) →
    (s.ink.humFault = false → 40 ≤ s.ink.humidity → s.ink.humidity ≤ 60 → band = s.chk.profile.dwellMid) →
    dwell = 1000 * band →
    u = notify .checker ((setJobState i .checking s).mapChk fun k =>
      { k with
        state := .dwell
        ctx := some { slot := i, tag := j.tag, geo := x.geo, order := x.order.getD [], dwell := some dwell,
                      stripStart := none, n := 0, inSearch := 0, run := 0, voids := 0, patch := 0, lastGross := false,
                      failing := 0, sum := 0, results := [] }
        counters := { k.counters with started := min (k.counters.started + 1) 65535 } }) →
    (dwell = 0 → enterChecking i j x s = dwellExpired u) ∧ (0 < dwell → enterChecking i j x s = u)) ∧
  (∀ k : Ink, k.humFault = false → k.humidity = min 100 ((k.humRing.sum / k.humRing.length - 8) * 100 / 1007))

/-! ### Colour checks and drift -/

/-- SET_PATCHES: its refusals, the count before the strip on the path (log 64), one result per update by the codes of log
67 behind a count byte (log 69), and the notice when one is DONE; what each update does.
SET_STRIP_PROFILE: its checks in order, and the whole profile replaced and set. -/
def Obligations.PatchAndStripProfileRequests : Prop :=
  ((∀ (ft : Byte) (us : List PatchUpdate) (s : State), s.takesRequest →
    (us.length < 1 ∨ 4 < us.length → exec (.setPatches ft us) s = .next (answered 0xD0 ft [0x10] s)) ∧
    (1 ≤ us.length → us.length ≤ 4 →
      ((∃ p ∈ s.liveJobs, p.2.strip.isSome = true ∧ (p.2.state = .printing ∨ p.2.state = .suspended ∨
          p.2.state = .aborting ∨ p.2.state = .checking)) →
        exec (.setPatches ft us) s = .next (answered 0xD0 ft [0x20] s)) ∧
      ((∀ p ∈ s.liveJobs, ¬ (p.2.strip.isSome = true ∧ (p.2.state = .printing ∨ p.2.state = .suspended ∨
          p.2.state = .aborting ∨ p.2.state = .checking))) →
        ∀ t results, us.foldl applyPatch (s, []) = (t, results) →
          results.length = us.length ∧
          exec (.setPatches ft us) s = .next (answered 0xD0 ft
            (0x00 :: BitVec.ofNat 8 us.length :: results)
            (if (0x00 : Byte) ∈ results then notify .checker t else t))))) ∧
  (∀ (u : PatchUpdate) (s : State) (bs : Bytes),
    (47 < u.index.toNat → applyPatch (s, bs) u = (s, bs ++ [0x01])) ∧
    (∀ k : Fin 48, k.val = u.index.toNat →
      (u.define = 0 →
        ((∃ g, s.chk.profile.set = some g ∧ k.val < g.t) ∨
          (∃ p ∈ s.liveJobs, ∃ x, p.2.strip = some x ∧ k.val < x.geo.t) →
          applyPatch (s, bs) u = (s, bs ++ [0x02])) ∧
        ((∀ g, s.chk.profile.set = some g → g.t ≤ k.val) →
          (∀ p ∈ s.liveJobs, ∀ x, p.2.strip = some x → x.geo.t ≤ k.val) →
          applyPatch (s, bs) u = (s.mapChk fun c => { c with patches := c.patches.set k none }, bs ++ [0x00]))) ∧
      (u.define = 1 →
        (10000 < u.l.toNat ∨ u.a.toInt < -12800 ∨ 12700 < u.a.toInt ∨ u.b.toInt < -12800 ∨ 12700 < u.b.toInt ∨
            (9 < u.dominant.toNat ∧ u.dominant ≠ 0xFF) →
          applyPatch (s, bs) u = (s, bs ++ [0x01])) ∧
        (∀ d : Option Chan, u.l.toNat ≤ 10000 → (-12800 ≤ u.a.toInt ∧ u.a.toInt ≤ 12700) →
          (-12800 ≤ u.b.toInt ∧ u.b.toInt ≤ 12700) →
          ((u.dominant = 0xFF ∧ d = none) ∨ (∃ c : Chan, c.val = u.dominant.toNat ∧ d = some c)) →
          applyPatch (s, bs) u = (s.mapChk fun c =>
            { c with
              patches := c.patches.set k
                (some { target := { l := u.l.toNat, a := u.a.toInt, b := u.b.toInt }, dominant := d }) },
            bs ++ [0x00])))))) ∧
  (∀ (ft : Byte) (a : StripProfileArgs) (s : State) (inRange : Prop), s.takesRequest →
    (inRange ↔ (8 ≤ a.t.toNat ∧ a.t.toNat ≤ 48) ∧ (1 ≤ a.stride.toNat ∧ a.stride.toNat < a.t.toNat) ∧
      Nat.gcd a.stride.toNat a.t.toNat = 1 ∧ a.seed.toNat < a.t.toNat ∧ (2 ≤ a.m.toNat ∧ a.m.toNat ≤ 4) ∧
      (1 ≤ a.runMin.toNat ∧ a.runMin.toNat ≤ a.m.toNat) ∧ (a.m.toNat ≤ a.runMax.toNat ∧ a.runMax.toNat ≤ a.m.toNat + 1) ∧
      (4 ≤ a.pitch.toNat ∧ a.pitch.toNat ≤ 8) ∧ (100 ≤ a.markThreshold.toNat ∧ a.markThreshold.toNat ≤ 9000) ∧
      (10 ≤ a.tolerance.toNat ∧ a.tolerance.toNat ≤ 5000) ∧ a.allowed.toNat ≤ a.t.toNat ∧
      (10 ≤ a.meanTolerance.toNat ∧ a.meanTolerance.toNat ≤ 5000) ∧
      (a.tolerance.toNat < a.gross.toNat ∧ a.gross.toNat ≤ 20000) ∧ a.learn.toNat ≤ 1 ∧
      a.dwellLow.toNat ≤ 900 ∧ a.dwellMid.toNat ≤ 900 ∧ a.dwellHigh.toNat ≤ 900) →
    (s.stripOnPath = true → exec (.setStripProfile ft a) s = .next (answered 0xD2 ft [0x20] s)) ∧
    (s.stripOnPath = false →
      (¬ inRange → exec (.setStripProfile ft a) s = .next (answered 0xD2 ft [0x21] s)) ∧
      (inRange →
        ((∃ k : Fin 48, k.val < a.t.toNat ∧ s.chk.patches[k] = none) →
          exec (.setStripProfile ft a) s = .next (answered 0xD2 ft [0x20] s)) ∧
        ((∀ k : Fin 48, k.val < a.t.toNat → s.chk.patches[k].isSome = true) →
          exec (.setStripProfile ft a) s = .next (answered 0xD2 ft [0x00] (notify .checker (s.mapChk fun c =>
            { c with profile :=
                { set := some { t := a.t.toNat, stride := a.stride.toNat, seed := a.seed.toNat }, m := a.m.toNat,
                  runMin := a.runMin.toNat, runMax := a.runMax.toNat, pitch := a.pitch.toNat,
                  markThreshold := a.markThreshold.toNat, tolerance := a.tolerance.toNat, allowed := a.allowed.toNat,
                  meanTolerance := a.meanTolerance.toNat, gross := a.gross.toNat, learn := decide (a.learn = 1),
                  dwellLow := a.dwellLow.toNat, dwellMid := a.dwellMid.toNat, dwellHigh := a.dwellHigh.toNat } })))))))

/-- SET_DRIFT_LIMITS and RECALIBRATED, and how a change of the drift states settles the COLOUR_OUT holds, at the end of
the event that made it (R161). That RECALIBRATED judges its channel before the strip on the path is the model's choice
(log 60). -/
def Obligations.DriftLimitsAndClearingsSettleTheHolds : Prop :=
  (∀ (ft ch : Byte) (warn out : U16) (s : State), s.takesRequest →
    (warn.toNat < 10 ∨ 5000 < warn.toNat ∨ out.toNat ≤ warn.toNat ∨ 10000 < out.toNat →
      exec (.setDriftLimits ft warn out) s = .next (answered 0xD8 ft [0x21] s)) ∧
    (10 ≤ warn.toNat → warn.toNat ≤ 5000 → warn.toNat < out.toNat → out.toNat ≤ 10000 →
      exec (.setDriftLimits ft warn out) s = .next (answered 0xD8 ft [0x00] (changeDrift (fun d =>
        { d with
          warn := warn.toNat, out := out.toNat
          states := Vector.ofFn fun c : Chan =>
            if d.rings[c] = [] then .unverified
            else if d.rings[c].sum / d.rings[c].length < warn.toNat then .verified
            else if d.rings[c].sum / d.rings[c].length < out.toNat then .warn else .out }) s))) ∧
    (9 < ch.toNat → exec (.recalibrated ft ch) s = .next (answered 0xD9 ft [0x21] s)) ∧
    (∀ c : Chan, c.val = ch.toNat →
      (s.stripOnPath = true → exec (.recalibrated ft ch) s = .next (answered 0xD9 ft [0x20] s)) ∧
      (s.stripOnPath = false → exec (.recalibrated ft ch) s = .next (answered 0xD9 ft
        [0x00, BitVec.ofNat 8 s.drift.states[c].code]
        (changeDrift (fun d => { d with rings := d.rings.set c [], states := d.states.set c .unverified }) s))))) ∧
  (∀ (f : Drift → Drift) (s : State),
    ((∀ c : Chan, (f s.drift).states[c] = .out ↔ s.drift.states[c] = .out) → changeDrift f s = s.mapDrift f) ∧
    ((∃ c : Chan, ¬ ((f s.drift).states[c] = .out ↔ s.drift.states[c] = .out)) →
      changeDrift f s = startEval (s.jobs.order.foldl settleHold (s.mapDrift f)))) ∧
  (∀ (before : Drift) (s : State),
    ((∀ c : Chan, s.drift.states[c] = .out ↔ before.states[c] = .out) → settleDrift before s = s) ∧
    ((∃ c : Chan, ¬ (s.drift.states[c] = .out ↔ before.states[c] = .out)) →
      settleDrift before s = startEval (s.jobs.order.foldl settleHold s))) ∧
  (∀ (i : JobIx) (j : Job) (s : State), s.liveJob i = some j →
    (j.state ≠ .pending ∨ j.mode ≠ .critical → settleHold s i = s) ∧
    (j.state = .pending → j.mode = .critical →
      ((∃ p ∈ j.est, s.drift.states[p.1] = .out) →
        (j.holds.colourOut = true → settleHold s i = s) ∧
        (j.holds.colourOut = false →
          settleHold s i = changeJob i (fun j => { j with holds := { j.holds with colourOut := true } }) s)) ∧
      ((∀ p ∈ j.est, s.drift.states[p.1] ≠ .out) →
        (j.holds.colourOut = false → settleHold s i = s) ∧
        (j.holds.colourOut = true →
          settleHold s i = changeJob i (fun j => { j with holds := { j.holds with colourOut := false } }) s))))

/-- DWELL_EXPIRY enters SEARCH and moves to read position 0, whatever time is left, and does nothing where no dwell runs
(log 2); a strip move
that is refused leaves the strip where it stands (log 18). The three events of the sensor link end a reading good or void;
one that comes without its reading does nothing (log 2), and a reading to be discarded ends without a result (log 20). A
good reading sets the void count to 0 and goes to the search or to the comparison; a void reading is tried again until
the third. A reading that begins takes the place of one that still runs, which is the model's choice (log 31). -/
def Obligations.DwellAndReadingsOnTheSensorLink : Prop :=
  (∀ s : State,
    ((∀ x, s.chk.ctx = some x → x.dwell = none) → exec .dwellExpiry s = .next (giveLine s)) ∧
    (∀ x j n start, s.chk.ctx = some x → x.dwell = some n → s.liveJob x.slot = some j →
      start = j.startPos.getD 0 + 100 * (j.printLen : Int) + 100 * (s.feed.profile.sensor : Int) →
      exec .dwellExpiry s = .next (giveLine (stripMove (notify .checker (s.mapChk fun k =>
        { k with state := .search,
                 ctx := some { x with dwell := none, stripStart := some start, n := 0, inSearch := 0, run := 0,
                                      voids := 0 } }))))) ∧
    (∀ x start, s.chk.ctx = some x → x.stripStart = some start →
      (∀ t, requestMove (start - 200 * x.geo.pitch + 100 * (x.n * x.geo.pitch)) .strip s = (t, .begun) → stripMove s = t) ∧
      (∀ t, requestMove (start - 200 * x.geo.pitch + 100 * (x.n * x.geo.pitch)) .strip s = (t, .done) →
        stripMove s = beginReading t) ∧
      (∀ t, requestMove (start - 200 * x.geo.pitch + 100 * (x.n * x.geo.pitch)) .strip s = (t, .refused) →
        stripMove s = s)) ∧
    (∀ x j start, s.chk.ctx = some x → s.liveJob x.slot = some j →
      start = j.startPos.getD 0 + 100 * (j.printLen : Int) + 100 * (s.feed.profile.sensor : Int) →
      dwellExpired s = stripMove (notify .checker (s.mapChk fun k =>
        { k with state := .search,
                 ctx := some { x with dwell := none, stripStart := some start, n := 0, inSearch := 0, run := 0,
                                      voids := 0 } }))) ∧
    beginReading s = s.mapChk (fun k => { k with reading := some { phase := .command, discard := false } })) ∧
  (∀ (c : Colour) (s u : State), u = (s.mapChk fun k => { k with ctx := k.ctx.map fun x => { x with voids := 0 } }) →
    (s.chk.state = .search → goodReading c s = searchReading c u) ∧
    (s.chk.state = .locked → goodReading c s = comparePatch c u) ∧
    (s.chk.state = .idle ∨ s.chk.state = .dwell → goodReading c s = u)) ∧
  (∀ (s u : State), u = (s.mapChk fun k => { k with reading := none }) →
    (∀ ack b, s.chk.reading = none →
      exec (.measureCommandDone ack) s = .next (giveLine s) ∧ exec (.resultReadDone ack b) s = .next (giveLine s) ∧
      exec .readingTimeout s = .next (giveLine s)) ∧
    (∀ ack b d, s.chk.reading = some { phase := .command, discard := d } →
      exec (.measureCommandDone true) s = .next (giveLine (s.mapChk fun k =>
        { k with reading := some { phase := .result 20, discard := d } })) ∧
      exec (.measureCommandDone false) s = .next (giveLine (if d then u else voidReading u)) ∧
      exec (.resultReadDone ack b) s = .next (giveLine s) ∧ exec .readingTimeout s = .next (giveLine s)) ∧
    (∀ ack d n (b : Vector Byte 8) (l a c : Int), s.chk.reading = some { phase := .result n, discard := d } →
      l = (word16 b[1] b[2]).toNat → a = (word16 b[3] b[4]).toInt → c = (word16 b[5] b[6]).toInt →
      exec (.measureCommandDone ack) s = .next (giveLine s) ∧
      exec .readingTimeout s = .next (giveLine (if d then u else voidReading u)) ∧
      exec (.resultReadDone false b) s = .next (giveLine (if d then u else voidReading u)) ∧
      (b[0] = 0 → exec (.resultReadDone true b) s = .next (giveLine s)) ∧
      (b[0] = 1 → (b.toList.map (·.toNat)).sum % 256 = 0 → l ≤ 10000 → (-12800 ≤ a ∧ a ≤ 12700) →
        (-12800 ≤ c ∧ c ≤ 12700) →
        exec (.resultReadDone true b) s = .next (giveLine (if d then u else goodReading { l := l, a := a, b := c } u))) ∧
      (b[0] ≠ 0 → b[0] ≠ 1 → exec (.resultReadDone true b) s = .next (giveLine (if d then u else voidReading u))) ∧
      (b[0] = 1 → ((b.toList.map (·.toNat)).sum % 256 ≠ 0 ∨ 10000 < l ∨ a < -12800 ∨ 12700 < a ∨ c < -12800 ∨ 12700 < c) →
        exec (.resultReadDone true b) s = .next (giveLine (if d then u else voidReading u))))) ∧
  (∀ (s u : State) (x : StripContext), s.chk.ctx = some x →
    u = (s.mapChk fun k =>
      { k with counters := { k.counters with timeouts := min (k.counters.timeouts + 1) 65535 },
               ctx := some { x with voids := x.voids + 1 } }) →
    (2 ≤ x.voids → voidReading s = endStrip (.void .sensor) u) ∧
    (x.voids < 2 → voidReading s = u.mapChk fun k => { k with reading := some { phase := .command, discard := false } }))

/-- A good reading in SEARCH counts marks, locks the strip, goes on or ends it NO_MARKS; in LOCKED it is compared with
its entry, and the strip goes on, ends LOST_LOCK, or is complete with its verdict. The verdict: the last strip record is
set, the checker is IDLE, the job's strip carries the verdict, the drift monitor files it, and the job goes on by its
colour mode, in this order (log 21); the COLOUR_OUT holds are settled last (R161). The filing (R159): nothing for VOID;
else each result with a dominant channel goes into that channel's ring of eight where the lot at START is the lot now, and
the state of each channel that received a value is worked out again. A strip stopped by its job's end has no verdict, and
its reading under way is to be discarded (R153); that its last strip record holds the failing count and the mean ΔE of the
patches compared until then is the model's choice (log 59). -/
def Obligations.ReadingsAreJudgedAndVerdictsActedOn : Prop :=
  ((∀ (s : State) (x : StripContext) (c : Colour), s.chk.ctx = some x →
    (∀ u, u = (s.mapChk fun k => { k with ctx := some { x with inSearch := x.inSearch + 1, run := x.run + 1 } }) →
      c.l < s.chk.profile.markThreshold →
      (x.inSearch + 1 < x.geo.m + 6 → searchReading c s = nextRead u) ∧
      (x.geo.m + 6 ≤ x.inSearch + 1 → searchReading c s = endStrip (.void .noMarks) u)) ∧
    (∀ u, u = (s.mapChk fun k => { k with ctx := some { x with inSearch := x.inSearch + 1, run := 0 } }) →
      s.chk.profile.markThreshold ≤ c.l → (x.run < s.chk.profile.runMin ∨ s.chk.profile.runMax < x.run) →
      (x.inSearch + 1 < x.geo.m + 6 → searchReading c s = nextRead u) ∧
      (x.geo.m + 6 ≤ x.inSearch + 1 → searchReading c s = endStrip (.void .noMarks) u)) ∧
    (s.chk.profile.markThreshold ≤ c.l → s.chk.profile.runMin ≤ x.run → x.run ≤ s.chk.profile.runMax →
      searchReading c s = comparePatch c (notify .checker (s.mapChk fun k =>
        { k with state := .locked,
                 ctx := some { x with inSearch := x.inSearch + 1, patch := 0, lastGross := false, failing := 0,
                                      sum := 0 } })))) ∧
  (∀ (s u : State) (x : StripContext) (c : Colour) (e : Nat) (p : Patch) (d : Nat) (r : PatchResult),
    s.chk.ctx = some x → e = x.order.getD x.patch 0 → s.chk.patches[e]? = some (some p) → d = deltaE c p.target →
    r = { index := e, dominant := p.dominant, colour := c, deltaE := d,
          failing := decide (s.chk.profile.tolerance < d) } →
    u = (s.mapChk fun k =>
      { k with
        counters :=
          { k.counters with
            evaluated := min (k.counters.evaluated + 1) 65535
            patchesFailed := if s.chk.profile.tolerance < d then min (k.counters.patchesFailed + 1) 65535
              else k.counters.patchesFailed }
        ctx := some { x with results := x.results ++ [r],
                             failing := if s.chk.profile.tolerance < d then x.failing + 1 else x.failing,
                             sum := x.sum + d,
                             lastGross := decide (s.chk.profile.gross < d) } }) →
    (s.chk.profile.gross < d → x.lastGross = true → comparePatch c s = endStrip (.void .lostLock) u) ∧
    (¬ (s.chk.profile.gross < d ∧ x.lastGross = true) →
      (x.patch + 1 < x.geo.t → comparePatch c s = nextRead (u.mapChk fun k =>
        { k with ctx := k.ctx.map fun y => { y with patch := y.patch + 1 } })) ∧
      (x.geo.t ≤ x.patch + 1 →
        ((if s.chk.profile.tolerance < d then x.failing + 1 else x.failing) ≤ s.chk.profile.allowed →
          (x.sum + d) / x.geo.t ≤ s.chk.profile.meanTolerance → comparePatch c s = endStrip .pass u) ∧
        (s.chk.profile.allowed < (if s.chk.profile.tolerance < d then x.failing + 1 else x.failing) ∨
          s.chk.profile.meanTolerance < (x.sum + d) / x.geo.t → comparePatch c s = endStrip .fail u))))) ∧
  (∀ s : State, nextRead s = stripMove (s.mapChk fun k => { k with ctx := k.ctx.map fun x => { x with n := x.n + 1 } })) ∧
  (∀ s : State,
    (s.chk.ctx = none → stopChecker s = s) ∧
    (∀ x, s.chk.ctx = some x → stopChecker s = notify .checker (s.mapChk fun k =>
      { k with
        state := .idle, ctx := none
        last := some { tag := x.tag, verdict := none, stopped := true, evaluated := x.results.length,
                       failing := x.failing, mean := x.sum / x.results.length, results := x.results }
        reading := k.reading.map fun r => { r with discard := true } }))) ∧
  (∀ (j : Job) (rs : List PatchResult) (s : State),
    (∀ cause, fileVerdict j (.void cause) rs s = s) ∧
    (∀ v, v = .pass ∨ v = .fail → ∃ d : Drift,
      fileVerdict j v rs s = s.mapDrift (fun _ => d) ∧ d.warn = s.drift.warn ∧ d.out = s.drift.out ∧
      d.lots = s.drift.lots ∧
      (∀ (c : Chan) (values : List Nat) (sameLot : Prop),
        (sameLot ↔ ∃ ls p lot k, j.lots = some ls ∧ (ls.find? fun q => q.1 == c) = some p ∧ p.2 = some lot ∧
          s.ink.chans[c].cart = some k ∧ k.lot = lot) →
        (sameLot → values = (rs.filter fun r => r.dominant == some c).map (·.deltaE)) →
        (¬ sameLot → values = []) →
        d.rings[c] = values.foldl
          (fun ring x => (if ring.length < 8 then ring else ring.drop 1) ++ [x]) s.drift.rings[c] ∧
        (values = [] → d.states[c] = s.drift.states[c]) ∧
        (∀ mean, values ≠ [] → mean = d.rings[c].sum / d.rings[c].length →
          d.states[c] = if mean < s.drift.warn then .verified else if mean < s.drift.out then .warn else .out)))) ∧
  ((∀ (s t : State) (x : StripContext) (j : Job) (v : Verdict), s.chk.ctx = some x → s.liveJob x.slot = some j →
    t = notify .checker (changeJob x.slot
      (fun j => { j with strip := j.strip.map fun y => { y with verdict := some v } })
      (s.mapChk fun k =>
        { k with
          state := .idle, ctx := none
          last := some { tag := x.tag, verdict := some v, stopped := false, evaluated := x.results.length,
                         failing := x.failing, mean := x.sum / x.results.length, results := x.results }
          counters :=
            { k.counters with
              passed := if v = .pass then min (k.counters.passed + 1) 65535 else k.counters.passed
              failed := if v = .fail then min (k.counters.failed + 1) 65535 else k.counters.failed
              voided := if v = .pass ∨ v = .fail then k.counters.voided
                else min (k.counters.voided + 1) 65535 } })) →
    ∃ k : Job, t.liveJob x.slot = some k ∧ k.mode = j.mode ∧
      endStrip v s = settleDrift s.drift (verdictCourse x.slot k v (fileVerdict k v x.results t))) ∧
  (∀ (i : JobIx) (j : Job) (v : Verdict) (s : State),
    (j.mode ≠ .critical ∨ v = .pass → verdictCourse i j v s = enterCutting i s) ∧
    (j.mode = .critical → v = .fail →
      verdictCourse i j v s = takeSpoil i (decideOutcome i .spoiled (some .colourFail) s)) ∧
    (∀ c, j.mode = .critical → v = .void c →
      verdictCourse i j v s = takeSpoil i (decideOutcome i .spoiled (some .colourVoid) s))))

/-! ### Costs -/

/-- LOAD_PRICES: its checks in order; the lowest slot that is not current and not referenced takes the list and becomes
current. -/
def Obligations.LoadPricesFillsTheLowestOpenSlot : Prop :=
  ∀ (ft : Byte) (a : PriceArgs) (s : State), s.takesRequest →
    ((∃ c : Fin 10, 1000000 < a.ink[c].toNat) ∨ (∃ m : Fin 8, 10000000 < a.media[m].toNat) ∨ 1000000 < a.cut.toNat →
      exec (.loadPrices ft a) s = .next (answered 0xE0 ft [0x21] s)) ∧
    ((∀ c : Fin 10, a.ink[c].toNat ≤ 1000000) → (∀ m : Fin 8, a.media[m].toNat ≤ 10000000) → a.cut.toNat ≤ 1000000 →
      ((∀ p : PriceIx, s.cost.current = some p ∨ s.cost.slots[p].refs ≠ 0) →
        exec (.loadPrices ft a) s = .next (answered 0xE0 ft [0x23] s)) ∧
      (∀ (p : PriceIx) (gen : Nat) (slots : Vector PriceSlot 4), s.cost.current ≠ some p → s.cost.slots[p].refs = 0 →
        (∀ q : PriceIx, q < p → s.cost.current = some q ∨ s.cost.slots[q].refs ≠ 0) →
        gen = (if s.cost.genCounter = 4294967295 then 1 else s.cost.genCounter + 1) →
        (s.cost.current = none → slots = s.cost.slots) →
        (∀ q, s.cost.current = some q →
          slots = s.cost.slots.set q { s.cost.slots[q] with refs := s.cost.slots[q].refs - 1 }) →
        exec (.loadPrices ft a) s = .next (answered 0xE0 ft (0x00 :: (u8 p ++ u32 gen)) (s.mapCost fun k =>
          { k with
            slots := slots.set p
              { loaded := some (gen, { ink := a.ink.map (·.toNat), media := a.media.map (·.toNat),
                                       cut := a.cut.toNat })
                refs := 1 }
            current := some p
            genCounter := gen }))))

/-- COST_TAKE: EMPTY on an empty log; else the front record leaves and is returned (R173), the first pending record enters
the log's end with its job's flag COST_PENDING cleared (R172), which may queue the notice of the log (R174), and its job
departs where its commit is settled (R22). -/
def Obligations.CostTakeReturnsTheFrontRecord : Prop :=
  ∀ (ft : Byte) (s : State), s.takesRequest →
    (s.cost.log = [] → exec (.costTake ft) s = .next (answered 0xE2 ft [0x01] s)) ∧
    (∀ r rest, s.cost.log = r :: rest →
      (s.cost.waiting = [] →
        exec (.costTake ft) s = .next (answered 0xE2 ft
          (0x00 :: (u8 rest.length ++ u8 0 ++ costRecordBytes r)) (s.mapCost fun k => { k with log := rest }))) ∧
      (∀ w ws t, s.cost.waiting = w :: ws →
        t = (s.mapCost fun k => { k with log := rest ++ [w], waiting := ws }) →
        ∃ u, u = (if s.cost.critical ≤ rest.length + 1 then notify .costLog t else t) ∧
          (s.jobByTag w.tag = none →
            exec (.costTake ft) s = .next (answered 0xE2 ft
              (0x00 :: (u8 (rest.length + 1) ++ u8 ws.length ++ costRecordBytes r)) u)) ∧
          (∀ i j, s.jobByTag w.tag = some (i, j) →
            exec (.costTake ft) s = .next (answered 0xE2 ft
              (0x00 :: (u8 (rest.length + 1) ++ u8 ws.length ++ costRecordBytes r))
              (departIfReady i (changeJob i
                (fun j => { j with costIn := true, flags := { j.flags with costPending := false } }) u))))))

/-- The cost record of a job: its quantities and the four costs at the prices of its slot; where it goes when built.
SET_COST_LEVEL and OVERHEAD_READ. -/
def Obligations.CostRecordsLevelsAndOverhead : Prop :=
  ((∀ (s : State) (j : Job) (piece gen : Nat) (l : Prices) (r : CostRecord),
    s.cost.slots[j.priceSlot].loaded = some (gen, l) → r = costRecord s j piece →
    (r.tag = j.tag ∧ r.outcome = j.outcome ∧ r.cause = j.cause ∧ r.commitGen = j.commitGen ∧ r.priceGen = gen ∧
      r.ink = j.inkList ∧ r.mediaType = s.feed.roll.mediaType ∧ r.piece = piece ∧ r.cuts = j.cutsDone ∧
      r.strip = j.strip.map (fun x => (x.length, x.verdict)) ∧ r.flags = { j.flags with costPending := false }) ∧
    r.ink = (List.finRange 10).filterMap (fun c =>
      (j.ink.find? fun e => e.chan == c && decide (0 < e.drops)).map fun e => (c, e.used)) ∧
    (j.edition = none → r.edition = 0 ∧ r.copy = 0) ∧
    (∀ x, j.edition = some x → r.edition = x.id ∧ r.copy = x.copy) ∧
    r.inkCost = min ((r.ink.map fun p => p.2 * l.ink[p.1] / 10000000).sum) 4294967295 ∧
    r.mediaCost = min (piece * l.media[r.mediaType] / 100000) 4294967295 ∧
    r.cutCost = min (j.cutsDone * l.cut) 4294967295 ∧
    r.total = min (r.inkCost + r.mediaCost + r.cutCost) 4294967295) ∧
  (∀ (i : JobIx) (r : CostRecord) (s : State),
    (s.cost.log.length < 32 → s.cost.waiting = [] → ∀ t, t = (s.mapCost fun k => { k with log := k.log ++ [r] }) →
      (s.cost.log.length + 1 < s.cost.critical → fileRecord i r s = setJob i (fun j => { j with costIn := true }) t) ∧
      (s.cost.critical ≤ s.cost.log.length + 1 →
        fileRecord i r s = setJob i (fun j => { j with costIn := true }) (notify .costLog t))) ∧
    (32 ≤ s.cost.log.length ∨ s.cost.waiting ≠ [] →
      fileRecord i r s = changeJob i (fun j => { j with flags := { j.flags with costPending := true } })
        (s.mapCost fun k => { k with waiting := k.waiting ++ [r] })))) ∧
  (∀ (ft b : Byte) (s : State), s.takesRequest →
    (b.toNat < 1 ∨ 32 < b.toNat → exec (.setCostLevel ft b) s = .next (answered 0xE3 ft [0x21] s)) ∧
    (1 ≤ b.toNat → b.toNat ≤ 32 → ∀ t, t = (s.mapCost fun k => { k with critical := b.toNat }) →
      (s.cost.log.length < b.toNat → exec (.setCostLevel ft b) s =
        .next (answered 0xE3 ft (0x00 :: (u8 s.cost.log.length ++ u8 s.cost.waiting.length)) t)) ∧
      (b.toNat ≤ s.cost.log.length → exec (.setCostLevel ft b) s =
        .next (answered 0xE3 ft (0x00 :: (u8 s.cost.log.length ++ u8 s.cost.waiting.length)) (notify .costLog t)))) ∧
    (1 < b.toNat → exec (.overheadRead ft b) s = .next (answered 0xE4 ft [0x21] s)) ∧
    (exec (.overheadRead ft 0) s = .next (answered 0xE4 ft (0x00 :: overheadReport s.cost) s)) ∧
    (exec (.overheadRead ft 1) s = .next (answered 0xE4 ft (0x00 :: overheadReport s.cost) (s.mapCost fun k =>
      { k with overhead := { maint := Vector.replicate 10 0, unaccounted := Vector.replicate 10 0,
                             trim := Vector.replicate 8 0, jog := Vector.replicate 8 0, knife := 0 } }))))

/-! ### The spoil path -/

/-- A feed fault moves the job on the media path by its state; the spoil path cuts with the axis IDLE, waits for a move
under way, and closes the job uncut in FAULT, as it does in the states that no path job finds (log 39). The spoil cut
becomes the plan; a reservation raised by it is answered by the hold rule and one lowered by the retry (R85). -/
def Obligations.FeedFaultsAndTheSpoilPathByState : Prop :=
  (∀ (i : JobIx) (j : Job) (s : State),
    (j.spoilWait = true → faultJob i j s = closeUncut i s) ∧
    (j.spoilWait = false →
      (j.state = .printing → j.startPos = none → j.outcome = none → faultJob i j s = returnPending i s) ∧
      (j.state = .printing → j.startPos = none → j.outcome.isSome = true → faultJob i j s = closeJob i 0 s) ∧
      (j.state = .suspended ∨ (j.state = .printing ∧ j.startPos.isSome = true) →
        faultJob i j s = enterAborting i (decideOutcome i .spoiled (some .feedFault) s)) ∧
      (j.state = .aborting → faultJob i j s = decideOutcome i .spoiled (some .feedFault) s) ∧
      (j.state = .checking →
        faultJob i j s = closeUncut i (decideOutcome i .spoiled (some .feedFault) (stopChecker s))) ∧
      (j.state = .cutting → faultJob i j s = closeUncut i (decideOutcome i .spoiled (some .feedFault) s)) ∧
      (j.state = .pending ∨ j.state = .closing → faultJob i j s = s))) ∧
  (∀ (i : JobIx) (s : State),
    (s.feed.axis = .moving ∨ s.feed.axis = .reversing →
      takeSpoil i s = setJob i (fun j => { j with spoilWait := true }) s) ∧
    (s.feed.axis = .fault → takeSpoil i s = closeUncut i s) ∧
    (s.feed.axis = .unreferenced ∨ s.feed.axis = .loading ∨ s.feed.axis = .knife → takeSpoil i s = closeUncut i s) ∧
    (s.feed.axis = .idle → takeSpoil i s = spoilCut i s)) ∧
  (∀ (i : JobIx) (j k : Job) (s u : State), s.liveJob i = some j → k = j.spoilPlan s.feed →
    u = notify (.jobSlot i)
      { s with
        jobs := { s.jobs with slots := s.jobs.slots.set i (.live { k with state := .cutting }) }
        feed := { s.feed with
                  swathTarget := if j.state = .printing ∨ j.state = .suspended ∨ j.state = .aborting then none
                    else s.feed.swathTarget } } →
    (j.mediaRes < k.mediaRes → spoilCut i s = planCut i (holdRule u)) ∧
    (k.mediaRes < j.mediaRes → spoilCut i s = planCut i (retryMedia u)) ∧
    (k.mediaRes = j.mediaRes → spoilCut i s = planCut i u)) ∧
  (∀ (j : Job) (f : Feed) (start : Int) (off : Nat), j.startPos = some start →
    off = ((f.position - start).toNat + 99) / 100 + 10 →
    (j.spoilPlan f).cuts = [off] ∧ (j.spoilPlan f).cutsDone = 0 ∧ (j.spoilPlan f).spoilWait = false ∧
      (j.spoilPlan f).planned = off + f.profile.lead ∧ (j.spoilPlan f).mediaRes = off + f.profile.lead - j.drawn)

/-! ### Laws that every step keeps -/

/-- The host link's law: no subject stands twice in the notice queue, the notice being sent is its front, the reply
being sent is the one in the slot, and no counter passes 65,535; with it the engine link's and the checker's counters. -/
def Obligations.StepKeepsTheHostLinkLaw : Prop :=
  ∀ s t : State, step s = .next t →
    (s.host.Law → t.host.Law) ∧ (s.eng.Law → t.eng.Law) ∧ (s.chk.counters.Law → t.chk.counters.Law)

/-- The feed axis's law: every output off in UNREFERENCED, IDLE and FAULT, moves only where the axis moves, KNIFE on
only in a knife cycle with the media still. -/
def Obligations.StepKeepsTheFeedLaw : Prop :=
  ∀ s t : State, step s = .next t → s.feed.Law → t.feed.Law

/-- The ink controller's law: a pump runs exactly for a channel in REFILLING, which holds exactly one of the three
grants; the wait list holds exactly the WAITING channels, each once. -/
def Obligations.StepKeepsTheInkLaw : Prop :=
  ∀ s t : State, step s = .next t → s.ink.Law → t.ink.Law

/-- The edition store's law: no block twice on the pending-write list, no persisted generation above the change
generation, nothing written before the headers have been read. -/
def Obligations.StepKeepsTheStoreLaw : Prop :=
  ∀ s t : State, step s = .next t → s.ed.Law → t.ed.Law

/-- The laws of the accounts: what a reservation gave and what remains of it sum to it, every price slot's reference
count is the number of live jobs that name it and one more where it is current, and records wait only while the log of
32 is full. The laws of the jobs' course: the queue order names the live jobs, each once, and a step takes entries out
of it and appends entries of slots that were FREE, so that no entry moves (R2); at most one live job is on the media
path (R11); the reserved length is not above the remaining length, and a job held NO_MEDIA reserves nothing (R86). The
copy numbers' law: the three sets of an edition are pairwise disjoint and their sizes sum to no more than its limit
(R28). Where the step reads the store's headers, that the editions read have different ids is assumed: an arbitrary
state's flash can hold one id twice. -/
def Obligations.StepKeepsTheAccountLaws : Prop :=
  ∀ s t : State, step s = .next t →
    (s.jobs.Law → t.jobs.Law) ∧ (s.PriceLaw → t.PriceLaw) ∧ (s.cost.Law → t.cost.Law) ∧
    (s.feed.Law → s.CourseLaw →
      t.CourseLaw ∧
      (∃ kept new, kept.Sublist s.jobs.order ∧ t.jobs.order = kept ++ new ∧ ∀ i ∈ new, s.jobs.slots[i] = .free) ∧
      (s.CopyLaw → (s.ed.headersRead = false → t.ed.headersRead = true → t.ed.DistinctIds) →
        t.CopyLaw ∧
        ∀ e : EdIx, t.ed.image[e].issued.length + t.ed.unrec[e].length + t.ed.resv[e].length ≤ t.ed.image[e].limit))
end

