-- ==== Sys2Proof/Laws/State.lean ====
section
/-!
SUPPORT. One lemma for each field of State under each of its updates, all true by definition, so that no later proof
unfolds an update of the state.
-/

-- One theorem after another: waiting proofs would each hold a thread.
set_option Elab.async false

namespace Sys2Proof.Machine.State

section MapHost
variable (s : State) (f : HostLink → HostLink)

@[simp] theorem mapHost_pending : (s.mapHost f).pending = s.pending := rfl
@[simp] theorem mapHost_host : (s.mapHost f).host = f s.host := rfl
@[simp] theorem mapHost_jobs : (s.mapHost f).jobs = s.jobs := rfl
@[simp] theorem mapHost_ed : (s.mapHost f).ed = s.ed := rfl
@[simp] theorem mapHost_feed : (s.mapHost f).feed = s.feed := rfl
@[simp] theorem mapHost_ink : (s.mapHost f).ink = s.ink := rfl
@[simp] theorem mapHost_acct : (s.mapHost f).acct = s.acct := rfl
@[simp] theorem mapHost_eng : (s.mapHost f).eng = s.eng := rfl
@[simp] theorem mapHost_chk : (s.mapHost f).chk = s.chk := rfl
@[simp] theorem mapHost_drift : (s.mapHost f).drift = s.drift := rfl
@[simp] theorem mapHost_cost : (s.mapHost f).cost = s.cost := rfl

end MapHost

section MapJobs
variable (s : State) (f : JobTable → JobTable)

@[simp] theorem mapJobs_pending : (s.mapJobs f).pending = s.pending := rfl
@[simp] theorem mapJobs_host : (s.mapJobs f).host = s.host := rfl
@[simp] theorem mapJobs_jobs : (s.mapJobs f).jobs = f s.jobs := rfl
@[simp] theorem mapJobs_ed : (s.mapJobs f).ed = s.ed := rfl
@[simp] theorem mapJobs_feed : (s.mapJobs f).feed = s.feed := rfl
@[simp] theorem mapJobs_ink : (s.mapJobs f).ink = s.ink := rfl
@[simp] theorem mapJobs_acct : (s.mapJobs f).acct = s.acct := rfl
@[simp] theorem mapJobs_eng : (s.mapJobs f).eng = s.eng := rfl
@[simp] theorem mapJobs_chk : (s.mapJobs f).chk = s.chk := rfl
@[simp] theorem mapJobs_drift : (s.mapJobs f).drift = s.drift := rfl
@[simp] theorem mapJobs_cost : (s.mapJobs f).cost = s.cost := rfl

end MapJobs

section MapEd
variable (s : State) (f : Editions → Editions)

@[simp] theorem mapEd_pending : (s.mapEd f).pending = s.pending := rfl
@[simp] theorem mapEd_host : (s.mapEd f).host = s.host := rfl
@[simp] theorem mapEd_jobs : (s.mapEd f).jobs = s.jobs := rfl
@[simp] theorem mapEd_ed : (s.mapEd f).ed = f s.ed := rfl
@[simp] theorem mapEd_feed : (s.mapEd f).feed = s.feed := rfl
@[simp] theorem mapEd_ink : (s.mapEd f).ink = s.ink := rfl
@[simp] theorem mapEd_acct : (s.mapEd f).acct = s.acct := rfl
@[simp] theorem mapEd_eng : (s.mapEd f).eng = s.eng := rfl
@[simp] theorem mapEd_chk : (s.mapEd f).chk = s.chk := rfl
@[simp] theorem mapEd_drift : (s.mapEd f).drift = s.drift := rfl
@[simp] theorem mapEd_cost : (s.mapEd f).cost = s.cost := rfl

end MapEd

section MapFeed
variable (s : State) (f : Feed → Feed)

@[simp] theorem mapFeed_pending : (s.mapFeed f).pending = s.pending := rfl
@[simp] theorem mapFeed_host : (s.mapFeed f).host = s.host := rfl
@[simp] theorem mapFeed_jobs : (s.mapFeed f).jobs = s.jobs := rfl
@[simp] theorem mapFeed_ed : (s.mapFeed f).ed = s.ed := rfl
@[simp] theorem mapFeed_feed : (s.mapFeed f).feed = f s.feed := rfl
@[simp] theorem mapFeed_ink : (s.mapFeed f).ink = s.ink := rfl
@[simp] theorem mapFeed_acct : (s.mapFeed f).acct = s.acct := rfl
@[simp] theorem mapFeed_eng : (s.mapFeed f).eng = s.eng := rfl
@[simp] theorem mapFeed_chk : (s.mapFeed f).chk = s.chk := rfl
@[simp] theorem mapFeed_drift : (s.mapFeed f).drift = s.drift := rfl
@[simp] theorem mapFeed_cost : (s.mapFeed f).cost = s.cost := rfl

end MapFeed

section MapInk
variable (s : State) (f : Ink → Ink)

@[simp] theorem mapInk_pending : (s.mapInk f).pending = s.pending := rfl
@[simp] theorem mapInk_host : (s.mapInk f).host = s.host := rfl
@[simp] theorem mapInk_jobs : (s.mapInk f).jobs = s.jobs := rfl
@[simp] theorem mapInk_ed : (s.mapInk f).ed = s.ed := rfl
@[simp] theorem mapInk_feed : (s.mapInk f).feed = s.feed := rfl
@[simp] theorem mapInk_ink : (s.mapInk f).ink = f s.ink := rfl
@[simp] theorem mapInk_acct : (s.mapInk f).acct = s.acct := rfl
@[simp] theorem mapInk_eng : (s.mapInk f).eng = s.eng := rfl
@[simp] theorem mapInk_chk : (s.mapInk f).chk = s.chk := rfl
@[simp] theorem mapInk_drift : (s.mapInk f).drift = s.drift := rfl
@[simp] theorem mapInk_cost : (s.mapInk f).cost = s.cost := rfl

end MapInk

section MapAcct
variable (s : State) (f : Account → Account)

@[simp] theorem mapAcct_pending : (s.mapAcct f).pending = s.pending := rfl
@[simp] theorem mapAcct_host : (s.mapAcct f).host = s.host := rfl
@[simp] theorem mapAcct_jobs : (s.mapAcct f).jobs = s.jobs := rfl
@[simp] theorem mapAcct_ed : (s.mapAcct f).ed = s.ed := rfl
@[simp] theorem mapAcct_feed : (s.mapAcct f).feed = s.feed := rfl
@[simp] theorem mapAcct_ink : (s.mapAcct f).ink = s.ink := rfl
@[simp] theorem mapAcct_acct : (s.mapAcct f).acct = f s.acct := rfl
@[simp] theorem mapAcct_eng : (s.mapAcct f).eng = s.eng := rfl
@[simp] theorem mapAcct_chk : (s.mapAcct f).chk = s.chk := rfl
@[simp] theorem mapAcct_drift : (s.mapAcct f).drift = s.drift := rfl
@[simp] theorem mapAcct_cost : (s.mapAcct f).cost = s.cost := rfl

end MapAcct

section MapEng
variable (s : State) (f : EngineLink → EngineLink)

@[simp] theorem mapEng_pending : (s.mapEng f).pending = s.pending := rfl
@[simp] theorem mapEng_host : (s.mapEng f).host = s.host := rfl
@[simp] theorem mapEng_jobs : (s.mapEng f).jobs = s.jobs := rfl
@[simp] theorem mapEng_ed : (s.mapEng f).ed = s.ed := rfl
@[simp] theorem mapEng_feed : (s.mapEng f).feed = s.feed := rfl
@[simp] theorem mapEng_ink : (s.mapEng f).ink = s.ink := rfl
@[simp] theorem mapEng_acct : (s.mapEng f).acct = s.acct := rfl
@[simp] theorem mapEng_eng : (s.mapEng f).eng = f s.eng := rfl
@[simp] theorem mapEng_chk : (s.mapEng f).chk = s.chk := rfl
@[simp] theorem mapEng_drift : (s.mapEng f).drift = s.drift := rfl
@[simp] theorem mapEng_cost : (s.mapEng f).cost = s.cost := rfl

end MapEng

section MapChk
variable (s : State) (f : Checker → Checker)

@[simp] theorem mapChk_pending : (s.mapChk f).pending = s.pending := rfl
@[simp] theorem mapChk_host : (s.mapChk f).host = s.host := rfl
@[simp] theorem mapChk_jobs : (s.mapChk f).jobs = s.jobs := rfl
@[simp] theorem mapChk_ed : (s.mapChk f).ed = s.ed := rfl
@[simp] theorem mapChk_feed : (s.mapChk f).feed = s.feed := rfl
@[simp] theorem mapChk_ink : (s.mapChk f).ink = s.ink := rfl
@[simp] theorem mapChk_acct : (s.mapChk f).acct = s.acct := rfl
@[simp] theorem mapChk_eng : (s.mapChk f).eng = s.eng := rfl
@[simp] theorem mapChk_chk : (s.mapChk f).chk = f s.chk := rfl
@[simp] theorem mapChk_drift : (s.mapChk f).drift = s.drift := rfl
@[simp] theorem mapChk_cost : (s.mapChk f).cost = s.cost := rfl

end MapChk

section MapDrift
variable (s : State) (f : Drift → Drift)

@[simp] theorem mapDrift_pending : (s.mapDrift f).pending = s.pending := rfl
@[simp] theorem mapDrift_host : (s.mapDrift f).host = s.host := rfl
@[simp] theorem mapDrift_jobs : (s.mapDrift f).jobs = s.jobs := rfl
@[simp] theorem mapDrift_ed : (s.mapDrift f).ed = s.ed := rfl
@[simp] theorem mapDrift_feed : (s.mapDrift f).feed = s.feed := rfl
@[simp] theorem mapDrift_ink : (s.mapDrift f).ink = s.ink := rfl
@[simp] theorem mapDrift_acct : (s.mapDrift f).acct = s.acct := rfl
@[simp] theorem mapDrift_eng : (s.mapDrift f).eng = s.eng := rfl
@[simp] theorem mapDrift_chk : (s.mapDrift f).chk = s.chk := rfl
@[simp] theorem mapDrift_drift : (s.mapDrift f).drift = f s.drift := rfl
@[simp] theorem mapDrift_cost : (s.mapDrift f).cost = s.cost := rfl

end MapDrift

section MapCost
variable (s : State) (f : Cost → Cost)

@[simp] theorem mapCost_pending : (s.mapCost f).pending = s.pending := rfl
@[simp] theorem mapCost_host : (s.mapCost f).host = s.host := rfl
@[simp] theorem mapCost_jobs : (s.mapCost f).jobs = s.jobs := rfl
@[simp] theorem mapCost_ed : (s.mapCost f).ed = s.ed := rfl
@[simp] theorem mapCost_feed : (s.mapCost f).feed = s.feed := rfl
@[simp] theorem mapCost_ink : (s.mapCost f).ink = s.ink := rfl
@[simp] theorem mapCost_acct : (s.mapCost f).acct = s.acct := rfl
@[simp] theorem mapCost_eng : (s.mapCost f).eng = s.eng := rfl
@[simp] theorem mapCost_chk : (s.mapCost f).chk = s.chk := rfl
@[simp] theorem mapCost_drift : (s.mapCost f).drift = s.drift := rfl
@[simp] theorem mapCost_cost : (s.mapCost f).cost = f s.cost := rfl

end MapCost

section SetPending
variable (s : State) (q : List Instr)

@[simp] theorem setPending_pending : (s.setPending q).pending = q := rfl
@[simp] theorem setPending_host : (s.setPending q).host = s.host := rfl
@[simp] theorem setPending_jobs : (s.setPending q).jobs = s.jobs := rfl
@[simp] theorem setPending_ed : (s.setPending q).ed = s.ed := rfl
@[simp] theorem setPending_feed : (s.setPending q).feed = s.feed := rfl
@[simp] theorem setPending_ink : (s.setPending q).ink = s.ink := rfl
@[simp] theorem setPending_acct : (s.setPending q).acct = s.acct := rfl
@[simp] theorem setPending_eng : (s.setPending q).eng = s.eng := rfl
@[simp] theorem setPending_chk : (s.setPending q).chk = s.chk := rfl
@[simp] theorem setPending_drift : (s.setPending q).drift = s.drift := rfl
@[simp] theorem setPending_cost : (s.setPending q).cost = s.cost := rfl

end SetPending

/-- Two states that agree on every block and on the queue are equal. -/
theorem ext_blocks {s t : State} (p : s.pending = t.pending) (h : s.host = t.host) (j : s.jobs = t.jobs)
    (e : s.ed = t.ed) (f : s.feed = t.feed) (k : s.ink = t.ink) (a : s.acct = t.acct) (g : s.eng = t.eng)
    (c : s.chk = t.chk) (d : s.drift = t.drift) (x : s.cost = t.cost) : s = t := by
  cases s; cases t; simp_all

end Sys2Proof.Machine.State
end

