-- ==== Sys2Proof/Laws/Keeps.lean ====
section
/-!
SUPPORT. What a shared operation keeps: the laws of Safety.lean, the queue, and the frame being sent with the two reply
slots. `Rest` leaves the feed axis's law out, for the operations that keep it only in some states. Each update of the
state has one lemma here; an operation's lemma is then the chain of its updates.
-/

-- One theorem after another: waiting proofs would each hold a thread.
set_option Elab.async false

namespace Sys2Proof.Machine

/-- Every entry of a job obeys the law of R112. -/
def Job.inkLaw (j : Job) : Prop := ∀ e ∈ j.ink, e.drawn + e.remaining = e.reservation

/-- What is kept from `s` to `t`, the feed axis's law apart. -/
structure Rest (s t : State) : Prop where
  pending : t.pending = s.pending
  tx : t.host.tx = s.host.tx
  reply : t.host.reply = s.host.reply
  busy : t.host.busy = s.host.busy
  host : s.host.Law → t.host.Law
  ink : s.ink.Law → t.ink.Law
  ed : s.ed.Law → t.ed.Law
  cost : s.cost.Law → t.cost.Law
  jobs : s.jobs.Law → t.jobs.Law
  eng : s.eng.Law → t.eng.Law
  chk : s.chk.counters.Law → t.chk.counters.Law
  price : s.PriceLaw → t.PriceLaw

/-- What is kept from `s` to `t`. -/
structure Keeps (s t : State) : Prop extends Rest s t where
  feed : s.feed.Law → t.feed.Law

theorem Rest.refl (s : State) : Rest s s :=
  ⟨rfl, rfl, rfl, rfl, id, id, id, id, id, id, id, id⟩

theorem Rest.trans {s t u : State} (a : Rest s t) (b : Rest t u) : Rest s u where
  pending := b.pending.trans a.pending
  tx := b.tx.trans a.tx
  reply := b.reply.trans a.reply
  busy := b.busy.trans a.busy
  host := b.host ∘ a.host
  ink := b.ink ∘ a.ink
  ed := b.ed ∘ a.ed
  cost := b.cost ∘ a.cost
  jobs := b.jobs ∘ a.jobs
  eng := b.eng ∘ a.eng
  chk := b.chk ∘ a.chk
  price := b.price ∘ a.price

theorem Keeps.refl (s : State) : Keeps s s := ⟨Rest.refl s, id⟩

theorem Keeps.trans {s t u : State} (a : Keeps s t) (b : Keeps t u) : Keeps s u :=
  ⟨a.toRest.trans b.toRest, b.feed ∘ a.feed⟩

/-- A choice between two operations keeps what both keep. -/
theorem Keeps.ite {s a b : State} {c : Prop} [Decidable c] (h : c → Keeps s a) (k : ¬ c → Keeps s b) :
    Keeps s (if c then a else b) := by
  split
  · exact h ‹_›
  · exact k ‹_›

theorem Rest.ite {s a b : State} {c : Prop} [Decidable c] (h : c → Rest s a) (k : ¬ c → Rest s b) :
    Rest s (if c then a else b) := by
  split
  · exact h ‹_›
  · exact k ‹_›

/-- An operation repeated along a list. -/
theorem Keeps.foldl {α : Type} (f : State → α → State) (h : ∀ s a, Keeps s (f s a)) :
    ∀ (xs : List α) (s : State), Keeps s (xs.foldl f s)
  | [], s => Keeps.refl s
  | a :: xs, s => (h s a).trans (Keeps.foldl f h xs (f s a))

/-- The law of R167 looks at the references, the current slot and the count of jobs that name a slot. -/
theorem priceLaw_congr {s t : State} (slots : t.cost.slots = s.cost.slots) (current : t.cost.current = s.cost.current)
    (count : ∀ p, t.jobs.slots.toList.countP (Slot.names p) = s.jobs.slots.toList.countP (Slot.names p))
    (h : s.PriceLaw) : t.PriceLaw := fun p => by
  have := h p
  rw [slots, current, count]
  exact this

/-! ### One lemma for each update -/

section Updates
variable {s : State}

theorem keeps_mapHost {f : HostLink → HostLink} (tx : (f s.host).tx = s.host.tx)
    (reply : (f s.host).reply = s.host.reply) (busy : (f s.host).busy = s.host.busy)
    (h : s.host.Law → (f s.host).Law) : Keeps s (s.mapHost f) :=
  ⟨⟨rfl, tx, reply, busy, h, id, id, id, id, id, id, id⟩, id⟩

theorem rest_mapFeed (f : Feed → Feed) : Rest s (s.mapFeed f) :=
  ⟨rfl, rfl, rfl, rfl, id, id, id, id, id, id, id, id⟩

theorem keeps_mapFeed {f : Feed → Feed} (h : s.feed.Law → (f s.feed).Law) : Keeps s (s.mapFeed f) :=
  ⟨rest_mapFeed f, h⟩

theorem keeps_mapInk {f : Ink → Ink} (h : s.ink.Law → (f s.ink).Law) : Keeps s (s.mapInk f) :=
  ⟨⟨rfl, rfl, rfl, rfl, id, h, id, id, id, id, id, id⟩, id⟩

theorem keeps_mapEd {f : Editions → Editions} (h : s.ed.Law → (f s.ed).Law) : Keeps s (s.mapEd f) :=
  ⟨⟨rfl, rfl, rfl, rfl, id, id, h, id, id, id, id, id⟩, id⟩

theorem keeps_mapAcct (f : Account → Account) : Keeps s (s.mapAcct f) :=
  ⟨⟨rfl, rfl, rfl, rfl, id, id, id, id, id, id, id, id⟩, id⟩

theorem keeps_mapDrift (f : Drift → Drift) : Keeps s (s.mapDrift f) :=
  ⟨⟨rfl, rfl, rfl, rfl, id, id, id, id, id, id, id, id⟩, id⟩

theorem keeps_mapEng {f : EngineLink → EngineLink} (h : s.eng.Law → (f s.eng).Law) : Keeps s (s.mapEng f) :=
  ⟨⟨rfl, rfl, rfl, rfl, id, id, id, id, id, h, id, id⟩, id⟩

theorem keeps_mapChk {f : Checker → Checker} (h : s.chk.counters.Law → (f s.chk).counters.Law) :
    Keeps s (s.mapChk f) :=
  ⟨⟨rfl, rfl, rfl, rfl, id, id, id, id, id, id, h, id⟩, id⟩

/-- A change of the cost unit that leaves the price references alone. -/
theorem keeps_mapCost {f : Cost → Cost} (h : s.cost.Law → (f s.cost).Law)
    (slots : (f s.cost).slots = s.cost.slots) (current : (f s.cost).current = s.cost.current) :
    Keeps s (s.mapCost f) :=
  ⟨⟨rfl, rfl, rfl, rfl, id, id, id, h, id, id, id,
    priceLaw_congr slots current fun _ => rfl⟩, id⟩

theorem keeps_mapJobs {f : JobTable → JobTable} (h : s.jobs.Law → (f s.jobs).Law)
    (count : ∀ p, (f s.jobs).slots.toList.countP (Slot.names p) = s.jobs.slots.toList.countP (Slot.names p)) :
    Keeps s (s.mapJobs f) :=
  ⟨⟨rfl, rfl, rfl, rfl, id, id, id, id, h, id, id,
    priceLaw_congr rfl rfl count⟩, id⟩

end Updates

/-! ### The notice queue (R185) -/

theorem HostLink.queueNotice_tx (h : HostLink) (sub : Subject) : (h.queueNotice sub).tx = h.tx := by
  unfold HostLink.queueNotice; split <;> [split; skip] <;> rfl

theorem HostLink.queueNotice_reply (h : HostLink) (sub : Subject) : (h.queueNotice sub).reply = h.reply := by
  unfold HostLink.queueNotice; split <;> [split; skip] <;> rfl

theorem HostLink.queueNotice_busy (h : HostLink) (sub : Subject) : (h.queueNotice sub).busy = h.busy := by
  unfold HostLink.queueNotice; split <;> [split; skip] <;> rfl

/-- A subject is being sent exactly when the frame on the line is its notice. -/
theorem HostLink.sending_iff (h : HostLink) (sub : Subject) :
    h.sending sub = true ↔ ∃ rel seq body, h.tx = some (.notice sub rel seq body) := by
  unfold HostLink.sending
  split
  · next x rel seq body e => simp [e, eq_comm]
  · next hne => simp only [Bool.false_eq_true, false_iff]; rintro ⟨rel, seq, body, e⟩; exact hne _ _ _ _ e

theorem HostLink.Law.queueNotice {h : HostLink} (l : h.Law) (sub : Subject) : (h.queueNotice sub).Law := by
  unfold HostLink.queueNotice
  split
  · next hin =>
    split
    · next hs =>
      obtain ⟨rel, seq, body, e⟩ := (h.sending_iff sub).1 hs
      exact { l with marked := fun _ => ⟨sub, rel, seq, body, e⟩ }
    · exact l
  · next hout =>
    exact { l with
      nodup := by
        have := l.nodup
        simp only [List.nodup_append, List.nodup_cons, List.not_mem_nil, not_false_eq_true, List.nodup_nil,
          and_self, List.mem_singleton, true_and]
        exact ⟨this, fun a ha b hb hab => hout (by rw [← hb, ← hab]; exact ha)⟩
      front := fun x rel seq body e => by
        have := l.front x rel seq body e
        cases hq : h.queue with
        | nil => simp [hq] at this
        | cons a q => simpa [hq] using this }

/-- Queuing a notice keeps every law. -/
theorem notify_keeps (sub : Subject) (s : State) : Keeps s (notify sub s) :=
  keeps_mapHost (HostLink.queueNotice_tx ..) (HostLink.queueNotice_reply ..) (HostLink.queueNotice_busy ..)
    (fun l => l.queueNotice sub)

/-! ### The job table -/

theorem State.liveJob_eq {s : State} {i : JobIx} {j : Job} : s.liveJob i = some j ↔ s.jobs.slots[i] = .live j := by
  unfold State.liveJob
  split <;> simp_all

/-- A count along a list changes by the place that is set. -/
theorem countP_set_add {α : Type} (p : α → Bool) (x : α) :
    ∀ (l : List α) (i : Nat) (h : i < l.length),
      (l.set i x).countP p + (p l[i]).toNat = l.countP p + (p x).toNat
  | a :: l, 0, _ => by
    simp only [List.set_cons_zero, List.countP_cons, List.getElem_cons_zero]
    cases p a <;> cases p x <;> simp
  | a :: l, i + 1, h => by
    have := countP_set_add p x l i (by simpa using h)
    simp only [List.set_cons_succ, List.countP_cons, List.getElem_cons_succ]
    omega

/-- A count over a vector changes by the place that is set. -/
theorem countP_set {n : Nat} {α : Type} (p : α → Bool) (v : Vector α n) (i : Fin n) (x : α) :
    (v.set i x).toList.countP p + (p v[i]).toNat = v.toList.countP p + (p x).toNat := by
  have := countP_set_add p x v.toList i (by simp)
  rw [Vector.toList_set]
  simpa using this

/-- The job of a live slot may be changed in its ink entries as long as the law of R112 holds of them. -/
theorem setJob_keeps' {i : JobIx} {f : Job → Job} {s : State}
    (h : ∀ j, s.liveJob i = some j → (j.inkLaw → (f j).inkLaw) ∧ (f j).priceSlot = j.priceSlot) :
    Keeps s (setJob i f s) := by
  unfold setJob
  split
  · next j hj =>
    have hs := State.liveJob_eq.1 hj
    obtain ⟨hi, hp⟩ := h j hj
    refine keeps_mapJobs (fun l k j' hk => ?_) (fun p => ?_)
    · by_cases e : i = k
      · subst e
        simp only [Fin.getElem_fin, Vector.getElem_set_self, Slot.live.injEq] at hk
        subst hk
        exact hi (l i j hs)
      · have : (i : Nat) ≠ k := fun h => e (Fin.ext h)
        simp only [Fin.getElem_fin] at hk
        rw [Vector.getElem_set_ne _ _ this] at hk
        exact l k j' hk
    · have := countP_set (Slot.names p) s.jobs.slots i (.live (f j))
      rw [hs] at this
      simp only [Slot.names, hp] at this
      exact Nat.add_right_cancel this
  · exact Keeps.refl s

/-- The job of a live slot may be changed in everything but its ink entries and its price slot. -/
theorem setJob_keeps {i : JobIx} {f : Job → Job} (s : State)
    (h : ∀ j, (f j).ink = j.ink ∧ (f j).priceSlot = j.priceSlot := by intro j; exact ⟨rfl, rfl⟩) :
    Keeps s (setJob i f s) :=
  setJob_keeps' fun j _ => ⟨fun l => by unfold Job.inkLaw; rw [(h j).1]; exact l, (h j).2⟩

theorem changeJob_keeps {i : JobIx} {f : Job → Job} (s : State)
    (h : ∀ j, (f j).ink = j.ink ∧ (f j).priceSlot = j.priceSlot := by intro j; exact ⟨rfl, rfl⟩) : Keeps s (changeJob i f s) :=
  (setJob_keeps s h).trans (notify_keeps _ _)

/-! ### The channel records -/

/-- A place of an updated vector. -/
theorem getElem_modifyAt {α : Type} {n : Nat} (v : Vector α n) (i k : Fin n) (f : α → α) :
    (modifyAt v i f)[k] = if k = i then f v[i] else v[k] := by
  unfold modifyAt
  by_cases h : k = i
  · subst h; simp
  · have : (i : Nat) ≠ k := fun e => h (Fin.ext e.symm)
    simp only [Fin.getElem_fin, h, if_false]
    exact Vector.getElem_set_ne _ _ this

/-- The ink controller's law looks at supply states, pumps, grants and the wait list. -/
theorem Ink.Law.congr {k m : Ink} (l : k.Law) (supply : ∀ c : Chan, m.chans[c].supply = k.chans[c].supply)
    (pump : ∀ c : Chan, m.chans[c].pump = k.chans[c].pump) (grants : m.grants = k.grants) (wait : m.wait = k.wait) :
    m.Law where
  pump := fun c => by rw [supply, pump]; exact l.pump c
  grant := fun c => by rw [supply, grants]; exact l.grant c
  once := by rw [grants]; exact l.once
  waiting := fun c => by rw [supply, wait]; exact l.waiting c
  nodup := by rw [wait]; exact l.nodup

/-- A channel record may be changed in everything but its supply state and its pump. -/
theorem setChan_keeps {c : Chan} {f : Channel → Channel} (s : State)
    (h : ∀ x, (f x).supply = x.supply ∧ (f x).pump = x.pump := by intro x; exact ⟨rfl, rfl⟩) :
    Keeps s (setChan c f s) :=
  keeps_mapInk fun l => l.congr
    (fun k => by
      change (modifyAt s.ink.chans c f)[k].supply = _
      rw [getElem_modifyAt]
      split
      · next e => subst e; exact (h _).1
      · rfl)
    (fun k => by
      change (modifyAt s.ink.chans c f)[k].pump = _
      rw [getElem_modifyAt]
      split
      · next e => subst e; exact (h _).2
      · rfl)
    rfl rfl

/-- A message to the engine joins the transmit list and nothing else changes. -/
theorem sendEngine_keeps (m : EngineMsg) (s : State) : Keeps s (sendEngine m s) := keeps_mapEng fun l => l

end Sys2Proof.Machine
end

