-- ==== Sys2Proof/Laws/Host.lean ====
section
/-!
SUPPORT. What a whole event keeps: the laws and the queue of waiting commands. The reply discipline, the line, and the
resets (R182, R184, R186, R190).
-/

-- One theorem after another: waiting proofs would each hold a thread.
set_option Elab.async false

namespace Sys2Proof.Machine

/-- What an event keeps from `s` to `t`. -/
structure Lawful (s t : State) : Prop where
  pending : t.pending = s.pending
  host : s.host.Law → t.host.Law
  feed : s.feed.Law → t.feed.Law
  ink : s.ink.Law → t.ink.Law
  ed : s.ed.Law → t.ed.Law
  cost : s.cost.Law → t.cost.Law
  jobs : s.jobs.Law → t.jobs.Law
  eng : s.eng.Law → t.eng.Law
  chk : s.chk.counters.Law → t.chk.counters.Law
  price : s.PriceLaw → t.PriceLaw

theorem Lawful.refl (s : State) : Lawful s s := ⟨rfl, id, id, id, id, id, id, id, id, id⟩

theorem Lawful.trans {s t u : State} (a : Lawful s t) (b : Lawful t u) : Lawful s u where
  pending := b.pending.trans a.pending
  host := b.host ∘ a.host
  feed := b.feed ∘ a.feed
  ink := b.ink ∘ a.ink
  ed := b.ed ∘ a.ed
  cost := b.cost ∘ a.cost
  jobs := b.jobs ∘ a.jobs
  eng := b.eng ∘ a.eng
  chk := b.chk ∘ a.chk
  price := b.price ∘ a.price

theorem Keeps.lawful {s t : State} (k : Keeps s t) : Lawful s t :=
  ⟨k.pending, k.host, k.feed, k.ink, k.ed, k.cost, k.jobs, k.eng, k.chk, k.price⟩

/-- A change of the host link alone. -/
theorem lawful_mapHost {s : State} {f : HostLink → HostLink} (h : s.host.Law → (f s.host).Law) :
    Lawful s (s.mapHost f) :=
  ⟨rfl, h, id, id, id, id, id, id, id, id⟩

/-- An event repeated along a list. -/
theorem Lawful.foldl {α : Type} (f : State → α → State) (h : ∀ s a, Lawful s (f s a)) :
    ∀ (xs : List α) (s : State), Lawful s (xs.foldl f s)
  | [], s => Lawful.refl s
  | a :: xs, s => (h s a).trans (Lawful.foldl f h xs (f s a))

/-! ### The line (R184, R186) -/

/-- Where no frame is being sent, no entry is marked and no reply is on the line. -/
theorem HostLink.Law.free {h : HostLink} (l : h.Law) (e : h.tx = none) : h.marked = false := by
  cases m : h.marked with
  | false => rfl
  | true => obtain ⟨_, _, _, _, x⟩ := l.marked m; simp [e] at x

/-- The line is given to the reply, else to the front notice (R184, R186). -/
theorem giveLine_lawful (s : State) : Lawful s (giveLine s) := by
  unfold giveLine
  split
  · exact Lawful.refl s
  · next h =>
    have free : s.host.tx = none := by
      cases e : s.host.tx with
      | none => rfl
      | some x => simp [e] at h
    split
    · next r hr =>
      refine lawful_mapHost fun l => ⟨l.nodup, by simp, fun m => absurd (l.free free ▸ m) (by simp), fun x hx => ?_, l.busy, l.counts⟩
      simp only [Option.some.injEq, TxFrame.reply.injEq] at hx
      subst hx
      exact hr
    · next sub q _ hq =>
      unfold beginNotice
      dsimp only
      refine lawful_mapHost fun l => ⟨l.nodup, fun x rel seq body hx => ?_,
        fun m => absurd (l.free free ▸ m) (by simp), fun r h => (nomatch h), l.busy, l.counts⟩
      simp only [Option.some.injEq, TxFrame.notice.injEq] at hx
      simp [hq, hx.1]
    · exact Lawful.refl s

/-- A RELEASING slot becomes FREE (R1); every law is kept. -/
theorem freeSlot_keeps (sub : Subject) (s : State) : Keeps s (freeSlot sub s) := by
  unfold freeSlot
  split
  · next i =>
    split
    · next h =>
      have notLive : ∀ p, Slot.names p s.jobs.slots[i] = false := fun p => by
        cases e : s.jobs.slots[i] with
        | free => rfl
        | live j => rw [e] at h; simp [Slot.isReleasing] at h
        | releasing j => rfl
      refine keeps_mapJobs (fun l k j hk => ?_) fun p => ?_
      · by_cases e : i = k
        · subst e; simp at hk
        · have : (i : Nat) ≠ k := fun h => e (Fin.ext h)
          simp only [Fin.getElem_fin] at hk
          rw [Vector.getElem_set_ne _ _ this] at hk
          exact l k j hk
      · have := countP_set (Slot.names p) s.jobs.slots i .free
        rw [notLive p] at this
        exact Nat.add_right_cancel this
    · exact Keeps.refl s
  · exact Keeps.refl s

/-- The end of a notice keeps every law (R186). -/
theorem noticeGone_lawful (s : State) : Lawful s (noticeGone s) := by
  unfold noticeGone
  split
  · next sub rel seq body hx =>
    have base : Lawful s (if rel then freeSlot sub s else s) := by
      split
      · exact (freeSlot_keeps sub s).lawful
      · exact Lawful.refl s
    have same : (if rel then freeSlot sub s else s).host = s.host := by
      split
      · unfold freeSlot
        split
        · split <;> rfl
        · rfl
      · rfl
    refine base.trans (lawful_mapHost fun l => ?_)
    rw [same] at l ⊢
    have front := l.front sub rel seq body hx
    cases hq : s.host.queue with
    | nil => simp [hq] at front
    | cons a q =>
      simp only [hq, List.head?_cons, Option.some.injEq] at front
      subst front
      have nd := l.nodup
      rw [hq] at nd
      obtain ⟨out, nd⟩ := List.nodup_cons.1 nd
      refine ⟨?_, by simp, by simp, by simp, l.busy, l.counts⟩
      dsimp only
      split
      · exact List.nodup_append.2 ⟨nd, by simp, fun x hx y hy e => out (by simp_all)⟩
      · exact nd
  · exact Lawful.refl s

/-- The end of a reply keeps every law (R182). -/
theorem replyGone_lawful (s : State) : Lawful s (replyGone s) := by
  unfold replyGone
  split
  · refine lawful_mapHost fun l => ⟨l.nodup, by simp, fun m => ?_, by simp, by simp, l.counts⟩
    next r hr => obtain ⟨_, _, _, _, x⟩ := l.marked m; simp [hr] at x
  · exact Lawful.refl s

/-! ### The reply discipline (R181, R182) -/

theorem sat16_le' (n : Nat) : sat16 n ≤ 65535 := Nat.min_le_right n _

/-- A request is served whatever its owner is, as long as the owner keeps the laws, the line and the two slots. -/
theorem serve_lawful (kind ft : Byte) {owner : State → Answer} (h : ∀ s, Keeps s (owner s).1) (s : State) :
    Lawful s (serve kind ft owner s) := by
  unfold serve
  dsimp only
  split
  · next e =>
    split
    · refine (h s).lawful.trans (lawful_mapHost fun l => ⟨l.nodup, l.front, l.marked, fun r hr => ?_, by simp, l.counts⟩)
      have := l.reply r hr
      rw [(h s).reply, e] at this
      simp at this
    · refine lawful_mapHost fun l => ⟨l.nodup, l.front, l.marked, fun r hr => ?_, by simp, l.counts⟩
      have := l.reply r hr
      rw [e] at this
      simp at this
  · next r e _ =>
    exact lawful_mapHost fun l => ⟨l.nodup, l.front, l.marked, l.reply, by simp [e],
      l.counts.1, l.counts.2.1, l.counts.2.2.1, sat16_le' _⟩
  · exact lawful_mapHost fun l => { l with
      counts := ⟨l.counts.1, l.counts.2.1, l.counts.2.2.1, sat16_le' _⟩ }

/-- A request command keeps every law. -/
theorem requestEvent_lawful (kind ft : Byte) {owner : State → Answer} (h : ∀ s, Keeps s (owner s).1) (s : State) :
    Lawful s (requestEvent kind ft owner s) :=
  (serve_lawful kind ft h s).trans (giveLine_lawful _)

/-- Where the link takes a request, the owner's answer is the reply (R181, R182). -/
theorem requestEvent_taken {kind ft : Byte} {owner : State → Answer} {s : State} (h : s.takesRequest) :
    requestEvent kind ft owner s = answered (replyKind kind) ft (owner s).2 (owner s).1 := by
  unfold requestEvent serve answered
  rw [h.1]
  exact congrArg giveLine (if_pos h.2)

/-! ### Resets -/

theorem HostLink.atReset_law (rate1 rate0 : Bool) : (HostLink.atReset rate1 rate0).Law :=
  ⟨List.nodup_nil, by simp [HostLink.atReset], by simp [HostLink.atReset], by simp [HostLink.atReset],
    by simp [HostLink.atReset], by simp [HostLink.atReset]⟩

theorem Feed.atReset_law (a b edge knifeHome : Bool) : (Feed.atReset a b edge knifeHome).Law :=
  ⟨fun _ => ⟨rfl, rfl⟩, by simp [Feed.atReset], by simp [Feed.atReset], by simp [Feed.atReset], by simp [Feed.atReset],
    by simp [Feed.atReset], by simp [Feed.atReset], by simp [Feed.atReset]⟩

theorem Ink.atReset_law : Ink.atReset.Law :=
  ⟨by simp [Ink.atReset, Channel.atReset], by simp [Ink.atReset, Channel.atReset], by simp [Ink.atReset],
    by simp [Ink.atReset, Channel.atReset], List.nodup_nil⟩

theorem Editions.atReset_law (flash : Vector FlashBlock 6) : (Editions.atReset flash).Law :=
  ⟨List.nodup_nil, by simp [Editions.atReset], by simp [Editions.atReset], fun _ => ⟨rfl, rfl, rfl⟩⟩

theorem Cost.atReset_law : Cost.atReset.Law := ⟨by simp [Cost.atReset], by simp [Cost.atReset]⟩

theorem JobTable.atReset_law : JobTable.atReset.Law := fun i j h => by simp [JobTable.atReset] at h

/-- A reset leaves the course's laws in force, whatever stood before (R26, R190). -/
theorem resetAll_course (rate1 rate0 : Bool) (flash : Vector FlashBlock 6) (s : State) :
    (resetAll rate1 rate0 flash s).CourseLaw := by
  have no : ∀ i, (resetAll rate1 rate0 flash s).liveJob i = none := fun i => by
    simp [State.liveJob, resetAll, JobTable.atReset]
  refine ⟨⟨List.nodup_nil, fun i => by rw [no]; simp [resetAll, JobTable.atReset], fun i k j l h => by simp [no] at h⟩,
    ⟨fun i k j l h => by simp [no] at h, fun i j h => by simp [no] at h, fun i j h => by simp [no] at h,
      fun x h => (nomatch h), fun x h => (nomatch h), fun _ i j h => by simp [no] at h, fun _ i j h => by simp [no] at h,
      fun i j h => by simp [no] at h⟩,
    ⟨Nat.zero_le _, fun i j h => by simp [no] at h, fun i j h => by simp [no] at h, Int.le_refl 0, fun h => by
      simp [resetAll, Feed.atReset] at h⟩⟩

/-- A reset leaves every law in force, whatever stood before (R190). -/
theorem resetAll_safe (rate1 rate0 : Bool) (flash : Vector FlashBlock 6) (s : State) :
    (resetAll rate1 rate0 flash s).Safe where
  host := HostLink.atReset_law rate1 rate0
  feed := Feed.atReset_law _ _ _ _
  ink := Ink.atReset_law
  ed := Editions.atReset_law flash
  cost := Cost.atReset_law
  jobs := JobTable.atReset_law
  eng := by simp [resetAll, EngineLink.atReset, EngineLink.Law]
  chk := by simp [resetAll, Checker.atReset, CheckCounters.zero, CheckCounters.Law]
  price := fun p => by
    have : (Vector.replicate 16 Slot.free).toList.countP (Slot.names p) = 0 := by
      simp [Slot.names]
    change (Vector.replicate 4 ({ loaded := none, refs := 0 } : PriceSlot))[p].refs
      = (Vector.replicate 16 Slot.free).toList.countP (Slot.names p) + (if (none : Option PriceIx) = some p then 1 else 0)
    rw [this]
    simp
  course := resetAll_course rate1 rate0 flash s

theorem resetAll_lawful (rate1 rate0 : Bool) (flash : Vector FlashBlock 6) (s : State) :
    Lawful s (resetAll rate1 rate0 flash s) :=
  have h := resetAll_safe rate1 rate0 flash s
  ⟨rfl, fun _ => h.host, fun _ => h.feed, fun _ => h.ink, fun _ => h.ed, fun _ => h.cost, fun _ => h.jobs,
    fun _ => h.eng, fun _ => h.chk, fun _ => h.price⟩

end Sys2Proof.Machine
end

