-- ==== Sys2Proof/Laws/Account.lean ====
section
/-!
SUPPORT. What the ink account's operations keep: ink moves between drawn and remaining only (R112, R114).
-/

-- One theorem after another: waiting proofs would each hold a thread.
set_option Elab.async false

namespace Sys2Proof.Machine

/-- A debit takes from the remaining what it adds to the drawn (R114). -/
theorem InkEntry.debit_law {e : InkEntry} (h : e.drawn + e.remaining = e.reservation) (count volume : Nat) :
    (e.debit count volume).drawn + (e.debit count volume).remaining = (e.debit count volume).reservation := by
  simp only [InkEntry.debit]
  omega

/-- The entries of an accepted job obey the law (R112). -/
theorem freshEntries_law (est : List (Chan × Nat)) :
    ∀ e ∈ freshEntries est, e.drawn + e.remaining = e.reservation := by
  simp only [freshEntries, List.mem_map]
  rintro e ⟨p, -, rfl⟩
  simp [InkEntry.fresh]

/-- One pair of a report keeps the law on every entry (R114, R115). -/
theorem debitEntries_law {es : List InkEntry} (h : ∀ e ∈ es, e.drawn + e.remaining = e.reservation) (c : Chan)
    (count volume : Nat) : ∀ e ∈ debitEntries es c count volume, e.drawn + e.remaining = e.reservation := by
  have w : ∀ e ∈ withEntry c es, e.drawn + e.remaining = e.reservation := by
    unfold withEntry
    split
    · exact h
    · intro e he
      rcases List.mem_append.1 he with he | he
      · exact h e he
      · rw [List.mem_singleton.1 he]; rfl
  simp only [debitEntries, List.mem_map]
  rintro e ⟨x, hx, rfl⟩
  split
  · exact InkEntry.debit_law (w x hx) _ _
  · exact w x hx

/-- A release marks entries and leaves their figures (R119). -/
theorem releaseInk_law {es : List InkEntry} (h : ∀ e ∈ es, e.drawn + e.remaining = e.reservation) :
    ∀ e ∈ releaseInk es, e.drawn + e.remaining = e.reservation := by
  simp only [releaseInk, List.mem_map]
  rintro e ⟨x, hx, rfl⟩
  split <;> exact h x hx

theorem debitPair_keeps (i : JobIx) (s : State) (p : Chan × Nat) : Keeps s (debitPair i s p) := by
  unfold debitPair
  split
  · next j hj =>
    dsimp only
    refine Keeps.trans (setJob_keeps' ?_) (keeps_mapAcct _)
    refine fun k hk => ⟨fun l => ?_, rfl⟩
    rw [hj, Option.some.injEq] at hk
    subst hk
    exact debitEntries_law l _ _ _
  · exact Keeps.refl s

/-- A job report keeps every law (R113, R114). -/
theorem jobReport_keeps (i : JobIx) (drops : List (Chan × Nat)) (s : State) : Keeps s (jobReport i drops s) := by
  have h := Keeps.foldl (debitPair i) (debitPair_keeps i) drops s
  unfold jobReport
  dsimp only
  split
  · split
    · exact h.trans (changeJob_keeps _)
    · exact h
  · exact h

theorem overheadPair_keeps (s : State) (p : Chan × Nat) : Keeps s (overheadPair s p) := by
  unfold overheadPair
  dsimp only
  exact Keeps.trans (keeps_mapAcct _) (keeps_mapCost (fun l => ⟨l.room, l.full⟩) rfl rfl)

/-- An overhead report keeps every law (R117). -/
theorem overheadDrops_keeps (drops : List (Chan × Nat)) (s : State) : Keeps s (overheadDrops drops s) :=
  Keeps.foldl overheadPair overheadPair_keeps drops s

/-- The leak check keeps every law (R118). -/
theorem leakCheck_keeps (c : Chan) (s : State) : Keeps s (leakCheck c s) := by
  unfold leakCheck
  dsimp only
  refine Keeps.trans ?_ (keeps_mapAcct _)
  split
  · exact (setChan_keeps s).trans (keeps_mapCost (fun l => ⟨l.room, l.full⟩) rfl rfl)
  · exact Keeps.refl s

end Sys2Proof.Machine
end

