-- ==== Sys2Proof/Laws/Axis.lean ====
section
/-!
SUPPORT. What the feed axis's own operations keep of its law (R53, R54, R59, R62, R76, R81).
-/

-- One theorem after another: waiting proofs would each hold a thread.
set_option Elab.async false

namespace Sys2Proof.Machine

section Drive
variable (d : Drive) (f : Feed)

@[simp] theorem Feed.driveTo_axis : (f.driveTo d).axis = f.axis := by unfold Feed.driveTo; split <;> [skip; split] <;> rfl
@[simp] theorem Feed.driveTo_knife : (f.driveTo d).knife = f.knife := by unfold Feed.driveTo; split <;> [skip; split] <;> rfl
@[simp] theorem Feed.driveTo_move : (f.driveTo d).move = f.move := by unfold Feed.driveTo; split <;> [skip; split] <;> rfl
@[simp] theorem Feed.driveTo_settleLeft : (f.driveTo d).settleLeft = f.settleLeft := by
  unfold Feed.driveTo; split <;> [skip; split] <;> rfl
@[simp] theorem Feed.driveTo_knifeCycle : (f.driveTo d).knifeCycle = f.knifeCycle := by
  unfold Feed.driveTo; split <;> [skip; split] <;> rfl
@[simp] theorem Feed.driveTo_load : (f.driveTo d).load = f.load := by unfold Feed.driveTo; split <;> [skip; split] <;> rfl
@[simp] theorem Feed.driveTo_pos : (f.driveTo d).pos = f.pos := by unfold Feed.driveTo; split <;> [skip; split] <;> rfl
@[simp] theorem Feed.driveTo_profile : (f.driveTo d).profile = f.profile := by
  unfold Feed.driveTo; split <;> [skip; split] <;> rfl
@[simp] theorem Feed.driveTo_roll : (f.driveTo d).roll = f.roll := by unfold Feed.driveTo; split <;> [skip; split] <;> rfl

/-- The drive outputs become what was asked (R54). -/
@[simp] theorem Feed.driveTo_drive : (f.driveTo d).drive = d := by
  unfold Feed.driveTo; split <;> [simp_all; split] <;> rfl

end Drive

/-- The law looks at seven fields only. -/
theorem Feed.Law.congr {f g : Feed} (l : f.Law) (axis : g.axis = f.axis) (drive : g.drive = f.drive)
    (knife : g.knife = f.knife) (move : g.move = f.move) (settle : g.settleLeft = f.settleLeft)
    (cycle : g.knifeCycle = f.knifeCycle) (load : g.load = f.load) : g.Law := by
  cases f; cases g
  simp only at axis drive knife move settle cycle load
  subst axis drive knife move settle cycle load
  exact ⟨l.quiet, l.moving, l.settling, l.timing, l.knife, l.cycle, l.search, l.loading⟩

/-- A state of the axis in which no move, no load and no knife cycle is under way, with every output off. -/
theorem Feed.Law.atRest {f : Feed} (drive : f.drive = .off) (knife : f.knife = false) (move : f.move = none)
    (settle : f.settleLeft = none) (cycle : f.knifeCycle = none) (load : f.load = none) : f.Law := by
  constructor <;> simp_all

/-- Without a move in LOADING, and outside a knife cycle, no settle time runs. -/
theorem Feed.Law.settle_none {f : Feed} (l : f.Law) (h : f.move = none) : f.settleLeft = none := by
  cases e : f.settleLeft with
  | none => rfl
  | some n => obtain ⟨m, hm, -⟩ := l.timing (by simp [e]); simp [h] at hm

/-- In IDLE nothing is under way and every output is off. -/
theorem Feed.Law.idle {f : Feed} (l : f.Law) (h : f.axis = .idle) :
    f.drive = .off ∧ f.knife = false ∧ f.move = none ∧ f.settleLeft = none ∧ f.knifeCycle = none ∧ f.load = none := by
  have hm : f.move = none := by
    cases e : f.move with
    | none => rfl
    | some m => have := l.moving (by simp [e]); simp [h] at this
  refine ⟨(l.quiet (by simp [h])).1, (l.quiet (by simp [h])).2, hm, l.settle_none hm, ?_, ?_⟩
  · cases e : f.knifeCycle with
    | none => rfl
    | some k => have := (l.cycle (by simp [e])).2.2; simp [h] at this
  · cases e : f.load with
    | none => rfl
    | some k => have := l.loading (by simp [e]); simp [h] at this

/-- In UNREFERENCED and FAULT too. -/
theorem Feed.Law.stopped {f : Feed} (l : f.Law) (h : f.axis = .unreferenced ∨ f.axis = .fault) :
    f.drive = .off ∧ f.knife = false ∧ f.move = none ∧ f.settleLeft = none ∧ f.knifeCycle = none ∧ f.load = none := by
  have hm : f.move = none := by
    cases e : f.move with
    | none => rfl
    | some m => have := l.moving (by simp [e]); rcases h with h | h <;> simp [h] at this
  refine ⟨(l.quiet (by tauto)).1, (l.quiet (by tauto)).2, hm, l.settle_none hm, ?_, ?_⟩
  · cases e : f.knifeCycle with
    | none => rfl
    | some k => have := (l.cycle (by simp [e])).2.2; rcases h with h | h <;> simp [h] at this
  · cases e : f.load with
    | none => rfl
    | some k => have := l.loading (by simp [e]); rcases h with h | h <;> simp [h] at this

/-- A move under way keeps the knife and the edge search out. -/
theorem Feed.Law.inMove {f : Feed} (l : f.Law) {m : Move} (h : f.move = some m) :
    f.knife = false ∧ f.knifeCycle = none ∧ ∀ p, f.load ≠ some (.search p) := by
  have hc : f.knifeCycle = none := by
    cases e : f.knifeCycle with
    | none => rfl
    | some k => have := (l.cycle (by simp [e])).2.1; simp [h] at this
  refine ⟨?_, hc, fun p e => ?_⟩
  · cases e : f.knife with
    | false => rfl
    | true => have := l.knife e; simp [hc] at this
  · have := (l.search p e).1; simp [h] at this

/-- A move's record may be replaced while the axis is in a state of a move, the drive being off where it settles. -/
theorem Feed.Law.newMove {g : Feed} (knife : g.knife = false) (cycle : g.knifeCycle = none)
    (search : ∀ p, g.load ≠ some (.search p)) (loading : g.load.isSome = true → g.axis = .loading)
    (axis : g.axis = .moving ∨ g.axis = .reversing ∨ g.axis = .loading) {m : Move} (move : g.move = some m)
    (settle : m.phase = .settle → g.drive = .off) (timing : g.settleLeft.isSome = true → m.phase = .settle) : g.Law where
  quiet := by rcases axis with h | h | h <;> simp [h]
  moving := fun _ => axis
  settling := fun k hk hp => by rw [move, Option.some.injEq] at hk; subst hk; exact settle hp
  timing := fun h => ⟨m, move, timing h⟩
  knife := by simp [knife]
  cycle := by simp [cycle]
  search := fun p h => absurd h (search p)
  loading := loading

/-! ### The state of a leg -/

theorem Feed.legState_cases (f : Feed) (a : Axis) : f.legState a = a ∨ f.legState a = .loading := by
  unfold Feed.legState; split <;> simp

theorem Feed.legState_loading {f : Feed} (a : Axis) (h : f.axis = .loading) : f.legState a = .loading := by
  simp [Feed.legState, h]

/-- A load keeps the axis in LOADING through its legs (R53). -/
theorem Feed.Law.leg {f : Feed} (l : f.Law) (a : Axis) (h : f.load.isSome = true) : f.legState a = .loading :=
  Feed.legState_loading a (l.loading h)

/-! ### Moves -/

/-- A taken move begins (R60) from a state with nothing under way. -/
theorem Feed.Law.beginMove {f : Feed} (l : f.Law) (target : Int) (r : Requester) (knife : f.knife = false)
    (move : f.move = none) (cycle : f.knifeCycle = none) (search : ∀ p, f.load ≠ some (.search p)) :
    (f.beginMove target r).1.Law := by
  have settle := l.settle_none move
  unfold Feed.beginMove
  split
  · refine ⟨fun _ => ⟨by simp, by simp [knife]⟩, by simp [move], by simp, by simp [settle], by simp [knife],
      by simp [cycle], fun p h => absurd h (by simpa using search p), by simpa using l.loading⟩
  · split
    · refine Feed.Law.newMove (by simp [knife]) (by simp [cycle]) (by simpa using search) ?_ ?_ rfl (by simp)
        (by simp [settle])
      · simpa using l.leg _
      · rcases f.legState_cases .moving with h | h <;> simp [h]
    · refine Feed.Law.newMove (by simp [knife]) (by simp [cycle]) (by simpa using search) ?_ ?_ rfl (by simp)
        (by simp [settle])
      · simpa using l.leg _
      · rcases f.legState_cases .reversing with h | h <;> simp [h]

/-- The three outcomes of a request for a move (R59, R60). -/
theorem requestMove_refused {target : Int} {r : Requester} {s : State} (h : s.feed.takesMove target r = false) :
    requestMove target r s = (s, .refused) := by
  simp [requestMove, h]

theorem requestMove_taken {target : Int} {r : Requester} {s : State} (h : s.feed.takesMove target r = true) :
    requestMove target r s = (s.mapFeed fun _ => (s.feed.beginMove target r).1, (s.feed.beginMove target r).2) := by
  simp [requestMove, h]

theorem requestMove_rest (target : Int) (r : Requester) (s : State) : Rest s (requestMove target r s).1 := by
  cases h : s.feed.takesMove target r with
  | false => rw [requestMove_refused h]; exact Rest.refl s
  | true => rw [requestMove_taken h]; exact rest_mapFeed (s := s) fun _ => (s.feed.beginMove target r).1

/-- A move that is not a load's is taken in IDLE only. -/
theorem Feed.takesMove_idle {target : Int} {r : Requester} {f : Feed} (hr : r ≠ .load) (h : f.takesMove target r = true) :
    f.axis = .idle := by
  unfold Feed.takesMove at h
  simp only [Bool.and_eq_true, Bool.or_eq_true, beq_iff_eq] at h
  rcases h.2 with h | h
  · exact h
  · exact absurd h.2 hr

/-- A request for a move that is not a load's keeps the law. -/
theorem requestMove_keeps (target : Int) {r : Requester} (hr : r ≠ .load) (s : State) :
    Keeps s (requestMove target r s).1 := by
  refine ⟨requestMove_rest target r s, fun l => ?_⟩
  cases h : s.feed.takesMove target r with
  | false => rw [requestMove_refused h]; exact l
  | true =>
    rw [requestMove_taken h]
    obtain ⟨-, k, m, -, c, o⟩ := l.idle (Feed.takesMove_idle hr h)
    exact l.beginMove target r k m c (by simp [o])

/-- A load's leg keeps the law outside the edge search and a knife cycle. -/
theorem requestMove_load_feed {target : Int} {s : State} (l : s.feed.Law) (knife : s.feed.knife = false)
    (move : s.feed.move = none) (cycle : s.feed.knifeCycle = none) (search : ∀ p, s.feed.load ≠ some (.search p)) :
    (requestMove target .load s).1.feed.Law := by
  cases h : s.feed.takesMove target .load with
  | false => rw [requestMove_refused h]; exact l
  | true => rw [requestMove_taken h]; exact l.beginMove target .load knife move cycle search

/-- A move that completes at once leaves the axis where it was, with the drive off and no move under way. -/
theorem requestMove_done {target : Int} {r : Requester} {s t : State} (h : requestMove target r s = (t, .done)) :
    s.feed.takesMove target r = true
      ∧ t = s.mapFeed fun f => { f.driveTo .off with rest := some target } := by
  cases e : s.feed.takesMove target r with
  | false => rw [requestMove_refused e] at h; simp at h
  | true =>
    rw [requestMove_taken e] at h
    refine ⟨rfl, ?_⟩
    simp only [Prod.mk.injEq] at h
    obtain ⟨ht, hd⟩ := h
    subst ht
    unfold Feed.beginMove at hd ⊢
    split
    · rfl
    · split at hd <;> [simp_all; split at hd <;> simp at hd]

/-! ### Counts, windows and faults -/

/-- A count reaches neither the outputs nor the move (R55). -/
theorem Feed.Law.count {f : Feed} (l : f.Law) (d : Int) : (f.count d).Law := l.congr rfl rfl rfl rfl rfl rfl rfl

/-- An overrun keeps the law (R63). -/
theorem Feed.Law.overrun {f : Feed} (l : f.Law) {m : Move} (h : f.move = some m) : (f.overrun m).1.Law := by
  obtain ⟨k, c, o⟩ := l.inMove h
  unfold Feed.overrun
  split
  · refine Feed.Law.newMove (by simp [k]) (by simp [c]) (by simpa using o) ?_ ?_ rfl (by simp) (by simp)
    · simpa using l.leg _
    · rcases f.legState_cases .reversing with h | h <;> simp [h]
  · exact l

/-- A forward approach begins (R62, R63). -/
theorem Feed.Law.approach {f : Feed} (l : f.Law) {m : Move} (h : f.move = some m) (d : Drive) : (f.approach m d).Law := by
  obtain ⟨k, c, o⟩ := l.inMove h
  refine Feed.Law.newMove (by simp [Feed.approach, k]) (by simp [Feed.approach, c])
    (by simpa [Feed.approach] using o) ?_ ?_ rfl (by simp) (by simp [Feed.approach])
  · simpa [Feed.approach] using l.leg _
  · rcases f.legState_cases .moving with h | h <;> simp [Feed.approach, h]

/-- A count judged by the move under way keeps the law (R61 to R63). -/
theorem Feed.Law.moveCount {f : Feed} (l : f.Law) {m : Move} (h : f.move = some m) : (f.moveCount m).1.Law := by
  obtain ⟨k, c, o⟩ := l.inMove h
  have a := l.moving (by simp [h])
  have g := l.loading
  unfold Feed.moveCount
  split
  · split
    · split
      · exact l.approach h _
      · exact l
    · exact l
  · split
    · exact l.overrun h
    · split
      · exact Feed.Law.newMove (by simp [Feed.enterWindow, k]) (by simp [Feed.enterWindow, c])
          (by simpa [Feed.enterWindow] using o) (by simpa [Feed.enterWindow] using g)
          (by simpa [Feed.enterWindow] using a) rfl (by simp [Feed.enterWindow]) (by simp)
      · next hp _ _ =>
        refine Feed.Law.newMove (m := m) (by simp [k]) (by simp [c]) (by simpa using o) (by simpa using g)
          (by simpa using a) (by simpa using h) (by simp [hp]) (fun e => ?_)
        obtain ⟨n, hn, hs⟩ := l.timing (by simpa using e)
        rw [h, Option.some.injEq] at hn
        subst hn; exact hs
  · split
    · exact l.overrun h
    · split
      · exact l.approach h _
      · exact l

/-- A fault stops everything (R69), whatever was under way. -/
theorem Feed.enterFault_law (k : FaultKind) (f : Feed) : (f.enterFault k).Law :=
  Feed.Law.atRest (by simp [Feed.enterFault, Feed.outputsOff]) (by simp [Feed.enterFault, Feed.outputsOff]) rfl rfl rfl rfl

end Sys2Proof.Machine
end

