-- ==== Sys2Proof/Laws/Media.lean ====
section
/-!
SUPPORT. What the media reservation rules keep (R85 to R88).
-/

-- One theorem after another: waiting proofs would each hold a thread.
set_option Elab.async false

namespace Sys2Proof.Machine

theorem holdStep_keeps (s : State) (i : JobIx) : Keeps s (holdStep s i) := by
  unfold holdStep
  split
  · split
    · exact changeJob_keeps s
    · exact Keeps.refl s
  · exact Keeps.refl s

theorem lowerPath_keeps (s : State) : Keeps s (lowerPath s) := by
  unfold lowerPath
  split
  · dsimp only
    split
    · exact setJob_keeps s
    · exact Keeps.refl s
  · exact Keeps.refl s

/-- The hold rule keeps every law (R86). -/
theorem holdRule_keeps (s : State) : Keeps s (holdRule s) :=
  (Keeps.foldl holdStep holdStep_keeps _ s).trans (lowerPath_keeps _)

theorem retryStep_keeps (s : State) (i : JobIx) : Keeps s (retryStep s i) := by
  unfold retryStep
  split
  · dsimp only
    split
    · exact changeJob_keeps s
    · exact Keeps.refl s
  · exact Keeps.refl s

/-- The retry keeps every law (R87). -/
theorem retryMedia_keeps (s : State) : Keeps s (retryMedia s) :=
  Keeps.ite (fun _ => Keeps.foldl retryStep retryStep_keeps _ s) fun _ => Keeps.refl s

/-- A fall of the remaining length keeps every law (R85). -/
theorem mediaFell_keeps (mm : Nat) (s : State) : Keeps s (mediaFell mm s) := by
  unfold mediaFell
  split
  · exact Keeps.refl s
  · refine Keeps.trans ?_ (holdRule_keeps _)
    split
    · exact setJob_keeps s
    · exact Keeps.refl s

/-- Media out keeps every law (R88). -/
theorem mediaOut_keeps (s : State) : Keeps s (mediaOut s) := by
  unfold mediaOut
  dsimp only
  refine Keeps.trans (t := s.mapFeed fun f => { f with roll := { f.roll with state := .exhausted } }) ?_ ?_
  · exact keeps_mapFeed fun l => ⟨l.quiet, l.moving, l.settling, l.timing, l.knife, l.cycle, l.search, l.loading⟩
  · refine Keeps.trans ?_ (holdRule_keeps _)
    split
    · exact setJob_keeps _
    · exact Keeps.refl _

end Sys2Proof.Machine
end

