-- ==== Sys2Proof/Laws/Costing.lean ====
section
/-!
SUPPORT. What the cost unit's operations keep (R167, R172).
-/

-- One theorem after another: waiting proofs would each hold a thread.
set_option Elab.async false

namespace Sys2Proof.Machine

/-- The price references of R167 when one reference is dropped with the job that held it. -/
theorem depart_price {s : State} {i : JobIx} {j k : Job} {gen : Nat} (h : s.jobs.slots[i] = .live j) (q : List JobIx)
    (l : s.PriceLaw) :
    ((s.mapJobs fun t => { t with slots := t.slots.set i (.releasing k gen), order := q }).mapCost
      (Cost.dropRef j.priceSlot)).PriceLaw := fun p => by
  have hp := l p
  have hc := countP_set (Slot.names p) s.jobs.slots i (.releasing k gen)
  rw [h] at hc
  simp only [Slot.names, Bool.toNat_false, Nat.add_zero] at hc
  have e : (s.jobs.slots.set i (.releasing k gen)).toList.countP (Slot.names p) + (j.priceSlot == p).toNat
      = s.jobs.slots.toList.countP (Slot.names p) := hc
  change (modifyAt s.cost.slots j.priceSlot fun x => { x with refs := x.refs - 1 })[p].refs
    = (s.jobs.slots.set i (.releasing k gen)).toList.countP (Slot.names p)
      + (if s.cost.current = some p then 1 else 0)
  by_cases hj : j.priceSlot = p
  · subst hj
    simp only [beq_self_eq_true, Bool.toNat_true] at e
    simp only [modifyAt, Fin.getElem_fin, Vector.getElem_set_self]
    simp only [Fin.getElem_fin] at hp
    omega
  · have hv : (j.priceSlot : Nat) ≠ p := fun h => hj (Fin.ext h)
    simp only [beq_eq_false_iff_ne.2 hj, Bool.toNat_false, Nat.add_zero] at e
    simp only [modifyAt, Fin.getElem_fin]
    rw [Vector.getElem_set_ne _ _ hv]
    simp only [Fin.getElem_fin] at hp
    rw [hp, e]

/-- A closing job that leaves the table takes its reference with it (R22, R167). -/
theorem departIfReady_keeps (i : JobIx) (s : State) : Keeps s (departIfReady i s) := by
  unfold departIfReady
  split
  · next j hj =>
    split
    · have hs := State.liveJob_eq.1 hj
      refine Keeps.trans (t := (s.mapJobs fun t =>
        { t with slots := t.slots.set i (.releasing { j with ink := [] } (s.cost.generation j.priceSlot)),
                 order := t.order.erase i }).mapCost
          (Cost.dropRef j.priceSlot)) ?_ (notify_keeps _ _)
      refine ⟨⟨rfl, rfl, rfl, rfl, id, id, id, fun l => ⟨l.room, l.full⟩, fun l k j' hk => ?_, id, id,
        depart_price hs _⟩, id⟩
      by_cases e : i = k
      · subst e
        simp at hk
      · have : (i : Nat) ≠ k := fun h => e (Fin.ext h)
        simp only [State.mapCost_jobs, State.mapJobs_jobs, Fin.getElem_fin] at hk
        rw [Vector.getElem_set_ne _ _ this] at hk
        exact l k j' hk
    · exact Keeps.refl s
  · exact Keeps.refl s

/-- A record joins the log where it has room (R172, R174). -/
theorem logRecord_keeps (r : CostRecord) {s : State} (room : s.cost.log.length < 32) (w : s.cost.waiting = []) :
    Keeps s (logRecord r s) := by
  have h : Keeps s (s.mapCost fun k => { k with log := k.log ++ [r] }) :=
    keeps_mapCost (fun _ => ⟨by simp; omega, fun h => absurd w h⟩) rfl rfl
  exact Keeps.ite (fun _ => h.trans (notify_keeps _ _)) fun _ => h

/-- A built record goes into the log or on the pending list (R172). -/
theorem fileRecord_keeps (i : JobIx) (r : CostRecord) (s : State) : Keeps s (fileRecord i r s) := by
  unfold fileRecord
  split
  · next h => exact (logRecord_keeps r h.1 h.2).trans (setJob_keeps _)
  · next h =>
    refine Keeps.trans ?_ (changeJob_keeps _)
    refine keeps_mapCost (fun l => ⟨l.room, fun _ => ?_⟩) rfl rfl
    by_cases hw : s.cost.waiting = []
    · have := l.room
      simp only [hw, and_true, Config.costLogSize] at h
      exact Nat.le_antisymm this (Nat.not_lt.1 h)
    · exact l.full hw

/-- The first pending record takes the place of the record removed from the front of the log (R172, R173). -/
theorem enterWaiting_keeps {s : State} {r : CostRecord} {rest : List CostRecord} (h : s.cost.log = r :: rest) :
    Keeps s (enterWaiting (s.mapCost fun k => { k with log := rest })) := by
  unfold enterWaiting
  split
  · next hw =>
    refine keeps_mapCost (fun l => ⟨?_, fun w => absurd hw w⟩) rfl rfl
    have := l.room
    simp only [h, List.length_cons] at this
    exact Nat.le_of_succ_le this
  · next x w hw =>
    have hk : Keeps s (logRecord x ((s.mapCost fun k => { k with log := rest }).mapCost fun k =>
        { k with waiting := w })) := by
      have base : Keeps s (s.mapCost fun k => { k with log := rest ++ [x], waiting := w }) := by
        refine keeps_mapCost (fun l => ?_) rfl rfl
        have := l.full (by rw [show s.cost.waiting = x :: w from hw]; simp)
        simp only [h, List.length_cons] at this
        exact ⟨by simp; omega, fun _ => by simp; omega⟩
      have e : (((s.mapCost fun k => { k with log := rest }).mapCost fun k => { k with waiting := w }).mapCost
          fun k => { k with log := k.log ++ [x] }) = s.mapCost fun k => { k with log := rest ++ [x], waiting := w } :=
        rfl
      unfold logRecord
      dsimp only
      rw [e]
      split
      · exact base.trans (notify_keeps _ _)
      · exact base
    dsimp only
    split
    · exact (hk.trans (changeJob_keeps _)).trans (departIfReady_keeps _ _)
    · exact hk

@[simp] theorem markLast_length (tag : Nat) (rs : List CostRecord) : (markLast tag rs).length = rs.length := by
  simp [markLast]

/-- Marking a record leaves the log and the pending list as long as they were (R175). -/
theorem markUnrecorded_keeps (j : Job) (s : State) : Keeps s (s.mapCost (markUnrecorded j)) := by
  have nil : ∀ rs : List CostRecord, markLast j.tag rs ≠ [] → rs ≠ [] := fun rs h e => h (by simp [e, markLast])
  refine keeps_mapCost (fun l => ?_) ?_ ?_
  · unfold markUnrecorded
    split
    · exact ⟨l.room, fun w => l.full (nil _ w)⟩
    · split
      · exact ⟨by simpa using l.room, fun w => by simpa using l.full w⟩
      · exact l
  · unfold markUnrecorded; split <;> [skip; split] <;> rfl
  · unfold markUnrecorded; split <;> [skip; split] <;> rfl

end Sys2Proof.Machine
end

