-- ==== Sys2Proof/Laws/Store.lean ====
section
/-!
SUPPORT. What the edition store's operations keep (R39, R40, R46).
-/

-- One theorem after another: waiting proofs would each hold a thread.
set_option Elab.async false

namespace Sys2Proof.Machine

/-! ### The law of the store -/

/-- The law looks at seven fields only. -/
theorem Editions.Law.congr {d e : Editions} (l : d.Law) (writes : e.writes = d.writes) (persisted : e.persisted = d.persisted)
    (change : e.change = d.change) (rot : e.rot = d.rot) (headers : e.headersRead = d.headersRead)
    (store : e.store = d.store) (formatting : e.formatting = d.formatting) : e.Law := by
  cases d; cases e
  simp only at writes persisted change rot headers store formatting
  subst writes persisted change rot headers store formatting
  exact ⟨l.nodup, l.below, l.captured, l.unread⟩

/-- What writes has read the headers. -/
theorem Editions.Law.headers_of_mayRotate {d : Editions} (l : d.Law) (h : d.mayRotate = true) : d.headersRead = true := by
  cases e : d.headersRead with
  | true => rfl
  | false =>
    have := l.unread e
    simp [Editions.mayRotate, this.1, this.2.1] at h

theorem Editions.Law.headers_of_rot {d : Editions} (l : d.Law) {r : Rotation} (h : d.rot = some r) :
    d.headersRead = true := by
  cases e : d.headersRead with
  | true => rfl
  | false => simp [(l.unread e).2.2] at h

/-- An image change keeps the law (R39, R40). -/
theorem Editions.Law.imageChange {d : Editions} (l : d.Law) (b : LBlock) : (d.imageChange b).Law where
  nodup := by
    unfold Editions.imageChange
    dsimp only
    split
    · exact l.nodup
    · next h => exact List.nodup_append.2 ⟨l.nodup, by simp, fun a ha c hc e => h (by simp_all)⟩
  below := fun c => by
    change d.persisted[c] ≤ (modifyAt d.change b (· + 1))[c]
    rw [getElem_modifyAt]
    have := l.below c
    split
    · next e => subst e; omega
    · exact this
  captured := fun r hr => by
    change r.gen ≤ (modifyAt d.change b (· + 1))[r.block]
    rw [getElem_modifyAt]
    have := l.captured r hr
    split
    · next e => subst e; exact Nat.le_succ_of_le this
    · exact this
  unread := l.unread

theorem Editions.Law.retire {d : Editions} (l : d.Law) (p : PBlock) (mark : Bool) : (d.retire p mark).Law :=
  l.congr rfl rfl rfl rfl rfl rfl rfl

/-- A property that every operation of a fold keeps holds at its end. -/
theorem foldl_holds {α β : Type} {P : β → Prop} (f : β → α → β) (h : ∀ b a, P b → P (f b a)) :
    ∀ (xs : List α) (b : β), P b → P (xs.foldl f b)
  | [], _, hb => hb
  | a :: xs, b, hb => foldl_holds f h xs (f b a) (h b a hb)

/-! ### Failure and settling -/

/-- A number that leaves the issued set touches nothing of the law (R32). -/
theorem Editions.Law.unrecord {d : Editions} (l : d.Law) (id copy : Nat) : (d.unrecord id copy).Law := by
  unfold Editions.unrecord
  split
  · exact l.congr rfl rfl rfl rfl rfl rfl rfl
  · exact l

theorem failCommit_keeps (s : State) (i : JobIx) : Keeps s (failCommit s i) := by
  unfold failCommit
  split
  · next j _ =>
    dsimp only
    refine Keeps.trans ?_ (departIfReady_keeps _ _)
    refine Keeps.trans ?_ (changeJob_keeps _)
    refine Keeps.trans ?_ (markUnrecorded_keeps j _)
    refine keeps_mapEd fun l => ?_
    cases j.edition with
    | none => exact l
    | some e => exact l.unrecord _ _
  · exact Keeps.refl s

/-- The failure of the store keeps every law once the headers have been read (R44). -/
theorem storeFail_keeps {s : State} (h : s.ed.Law → s.ed.headersRead = true) : Keeps s (storeFail s) := by
  unfold storeFail
  dsimp only
  refine Keeps.trans (keeps_mapEd fun l => ?_) ((Keeps.foldl failCommit failCommit_keeps _ _).trans (notify_keeps _ _))
  exact ⟨List.nodup_nil, l.below, fun r hr => by simp at hr, fun e => by simp [h l] at e⟩

theorem settleCommit_keeps (b : LBlock) (s : State) (i : JobIx) : Keeps s (settleCommit b s i) := by
  unfold settleCommit
  split
  · refine Keeps.trans ?_ (departIfReady_keeps _ _)
    exact setJob_keeps _
  · exact Keeps.refl s

/-- Settling commits keeps every law (R32). -/
theorem settleCommits_keeps (b : LBlock) (s : State) : Keeps s (settleCommits b s) :=
  Keeps.foldl _ (settleCommit_keeps b) _ s

/-! ### Rotations -/

/-- A rotation that chooses keeps every law where what it captured is not above the change generation (R41 to R44). -/
theorem beginWrite_keeps {b : LBlock} {images : Vector EdImage 16} {gen : Nat} {s : State}
    (h : s.ed.Law → s.ed.headersRead = true ∧ gen ≤ s.ed.change[b]) : Keeps s (beginWrite b images gen s) := by
  unfold beginWrite
  split
  · refine keeps_mapEd fun l => ⟨l.nodup, l.below, fun r hr => ?_, fun e => ?_⟩
    · simp only [Option.some.injEq] at hr
      subst hr
      exact (h l).2
    · exact absurd ((h l).1.symm.trans e) (by simp)
  · exact storeFail_keeps fun l => (h l).1

/-- The beginning of the next rotation keeps every law (R41). -/
theorem beginRotation_keeps (s : State) : Keeps s (beginRotation s) := by
  unfold beginRotation
  split
  · next h =>
    split
    · exact Keeps.refl s
    · next b rest hw =>
      refine Keeps.trans (t := s.mapEd fun d => { d with writes := rest }) (keeps_mapEd fun l => ?_)
        (beginWrite_keeps fun l => ⟨l.headers_of_mayRotate h.1, Nat.le_refl _⟩)
      have := l.nodup
      rw [hw] at this
      exact ⟨(List.nodup_cons.1 this).2, l.below, l.captured, l.unread⟩
  · exact Keeps.refl s

/-- A failed verify keeps every law (R43). -/
theorem verifyFail_keeps {r : Rotation} (mark : Bool) {s : State} (h : s.ed.rot = some r) :
    Keeps s (verifyFail r mark s) :=
  ((keeps_mapEd fun l => l.retire _ _).trans (notify_keeps _ _)).trans
    (beginWrite_keeps (s := notify .store (s.mapEd (Editions.retire r.phys mark))) fun l =>
      ⟨l.headers_of_rot (r := r) h, l.captured r h⟩)

/-- Releasing a role touches the table and the flash only (R42). -/
theorem Editions.releaseFormer_holds {P : Editions → Prop} (b : LBlock) (mark : Bool)
    (same : ∀ d t f, P d → P { d with table := t, flash := f }) (d : Editions) (h : P d) : P (d.releaseFormer b mark) := by
  refine foldl_holds _ (fun d p hd => ?_) _ d h
  split
  · exact same d _ d.flash hd
  · exact same d _ _ hd

/-- The written block takes the role (R42). -/
theorem Editions.Law.takeRole {d : Editions} (l : d.Law) {r : Rotation} (h : d.rot = some r) (mark : Bool) :
    (d.takeRole r mark).Law := by
  have k := Editions.releaseFormer_holds (P := fun d => d.Law ∧ r.gen ≤ d.change[r.block] ∧ d.headersRead = true)
    r.block mark (fun d _ _ h => ⟨h.1.congr rfl rfl rfl rfl rfl rfl rfl, h.2⟩) d ⟨l, l.captured r h, l.headers_of_rot h⟩
  obtain ⟨k, g, hr⟩ := k
  refine ⟨k.nodup, fun b => ?_, fun x hx => by simp [Editions.takeRole] at hx, fun e => ?_⟩
  · change ((d.releaseFormer r.block mark).persisted.set r.block r.gen)[b] ≤ (d.releaseFormer r.block mark).change[b]
    by_cases e : r.block = b
    · subst e; simpa using g
    · have : (r.block : Nat) ≠ b := fun h => e (Fin.ext h)
      simp only [Fin.getElem_fin]
      rw [Vector.getElem_set_ne _ _ this]
      exact k.below b
  · exact absurd (hr.symm.trans e) (by simp)

/-- A format ends in READY or READ_ONLY (R46). -/
theorem Editions.Law.endFormat {d : Editions} (l : d.Law) : d.endFormat.Law := by
  unfold Editions.endFormat
  split
  · next h =>
    refine ⟨l.nodup, l.below, l.captured, fun e => ?_⟩
    have := (l.unread e).2.1
    simp [h.1] at this
  · exact l

/-- The completion of a rotation keeps every law (R42). -/
theorem completeRotation_keeps {r : Rotation} (mark : Bool) {s : State} (h : s.ed.rot = some r) :
    Keeps s (completeRotation r mark s) := by
  unfold completeRotation
  refine Keeps.trans ?_ (beginRotation_keeps _)
  refine Keeps.trans ?_ (keeps_mapEd fun l => l.endFormat)
  refine Keeps.trans ?_ (notify_keeps _ _)
  refine Keeps.trans ?_ (settleCommits_keeps _ _)
  exact keeps_mapEd fun l => l.takeRole h mark

theorem Editions.Law.beginProgram {d : Editions} (l : d.Law) {r : Rotation} (h : d.rot = some r) :
    (Sys2Proof.Machine.beginProgram r d).Law where
  nodup := l.nodup
  below := l.below
  captured := fun x hx => by
    simp only [Sys2Proof.Machine.beginProgram, Option.some.injEq] at hx
    subst hx
    exact l.captured r h
  unread := fun e => absurd ((l.headers_of_rot h).symm.trans e) (by simp)

/-- The end of an erase keeps every law (R42, R43). -/
theorem eraseEnded_keeps (verified mark : Bool) (s : State) : Keeps s (eraseEnded verified mark s) := by
  unfold eraseEnded
  split
  · next r hr =>
    split
    · split
      · exact keeps_mapEd fun l => l.beginProgram hr
      · exact verifyFail_keeps mark hr
    · exact Keeps.refl s
  · exact Keeps.refl s

/-- The end of a programming keeps every law (R42, R43). -/
theorem programEnded_keeps (verified mark : Bool) (s : State) : Keeps s (programEnded verified mark s) := by
  unfold programEnded
  split
  · next r hr =>
    split
    · split
      · exact completeRotation_keeps mark hr
      · exact verifyFail_keeps mark hr
    · exact Keeps.refl s
  · exact Keeps.refl s

/-! ### Image changes and copy numbers -/

/-- A change of one slot's image keeps every law (R39 to R41). -/
theorem changeSlot_keeps (e : EdIx) (f : EdImage → EdImage) (s : State) : Keeps s (changeSlot e f s) := by
  unfold changeSlot
  refine Keeps.trans ?_ (beginRotation_keeps _)
  exact keeps_mapEd fun l =>
    Editions.Law.imageChange (d := { s.ed with image := modifyAt s.ed.image e f })
      (l.congr rfl rfl rfl rfl rfl rfl rfl) _

theorem reserve_keeps (e : EdIx) (k : Nat) (s : State) : Keeps s (s.mapEd (Editions.reserve e k)) :=
  keeps_mapEd fun l => l.congr rfl rfl rfl rfl rfl rfl rfl

theorem giveBack_keeps (x : JobEdition) (s : State) : Keeps s (s.mapEd (Editions.giveBack x)) :=
  keeps_mapEd fun l => l.congr rfl rfl rfl rfl rfl rfl rfl

/-- The commit of a finished copy keeps every law (R31). -/
theorem commitCopy_keeps (i : JobIx) (s : State) : Keeps s (commitCopy i s) := by
  unfold commitCopy
  split
  · split
    · next x _ _ =>
      dsimp only
      refine Keeps.trans (giveBack_keeps x s) ?_
      split
      · refine Keeps.trans ?_ (changeJob_keeps _)
        exact keeps_mapEd fun l => l.congr rfl rfl rfl rfl rfl rfl rfl
      · refine Keeps.trans ?_ (beginRotation_keeps _)
        refine Keeps.trans ?_ (setJob_keeps _)
        exact keeps_mapEd fun l =>
          Editions.Law.imageChange (d := { (s.mapEd (Editions.giveBack x)).ed with
            image := modifyAt (s.mapEd (Editions.giveBack x)).ed.image x.slot
              fun m => { m with issued := insertNum x.copy m.issued } })
            (l.congr rfl rfl rfl rfl rfl rfl rfl) _
    · exact Keeps.refl s
  · exact Keeps.refl s

/-! ### Mount -/

theorem Editions.Law.retireWorn {d : Editions} (l : d.Law) (marks : Vector Bool 6) : (d.retireWorn marks).Law :=
  foldl_holds (P := Editions.Law) _ (fun _ p l => l.retire p _) _ d l

/-- The image alone may be replaced. -/
theorem Editions.Law.withImage {d : Editions} (h : d.Law ∧ d.headersRead = true) (v : Vector EdImage 64) :
    ({ d with image := v } : Editions).Law ∧ ({ d with image := v } : Editions).headersRead = true :=
  ⟨h.1.congr rfl rfl rfl rfl rfl rfl rfl, h.2⟩

/-- Loading one block keeps the law, and that the headers have been read (R47, R48). -/
theorem Editions.Law.loadBest {d : Editions} (h : d.Law ∧ d.headersRead = true) (b : LBlock) :
    (d.loadBest b).Law ∧ (d.loadBest b).headersRead = true := by
  unfold Editions.loadBest Editions.loadBlock
  split
  · exact Editions.Law.withImage h _
  · have k := Editions.Law.withImage h (Vector.ofFn fun e : Fin 64 =>
      if e.val / 16 = b.val then (Vector.replicate 16 EdImage.lostSlot)[e.val % 16]'(by omega) else d.image[e])
    exact ⟨k.1.imageChange b, k.2⟩

theorem Editions.Law.loadImages {d : Editions} (h : d.Law ∧ d.headersRead = true) :
    d.loadImages.Law ∧ d.loadImages.headersRead = true := by
  unfold Editions.loadImages
  generalize List.finRange 4 = xs
  exact foldl_holds (P := fun d : Editions => d.Law ∧ d.headersRead = true) Editions.loadBest
    (fun _ b h => Editions.Law.loadBest h b) xs d h

/-- After the headers have been read, the end of a mount by reading keeps the law (R47, R48). -/
theorem Editions.Law.mounted {d : Editions} (l : d.Law) (h : d.headersRead = true) : d.loadImages.endMount.Law := by
  obtain ⟨k, hr⟩ := Editions.Law.loadImages ⟨l, h⟩
  generalize d.loadImages = e at k hr
  unfold Editions.endMount
  split
  · exact ⟨k.nodup, k.below, k.captured, fun e => absurd (hr.symm.trans e) (by simp)⟩
  · exact ⟨List.nodup_nil, k.below, k.captured, fun e => absurd (hr.symm.trans e) (by simp)⟩

/-- A fresh store keeps the law (R46). -/
theorem Editions.format_law {d : Editions} (h : d.headersRead = true) (r : d.rot = none) : d.format.Law where
  nodup := List.nodup_finRange 4
  below := fun b => by simp [Editions.format]
  captured := fun x hx => by simp [Editions.format, r] at hx
  unread := fun e => absurd (h.symm.trans e) (by simp)

theorem Editions.Law.readHeaders {d : Editions} (l : d.Law) : d.readHeaders.Law :=
  ⟨l.nodup, l.below, l.captured, fun e => by simp [Editions.readHeaders] at e⟩

theorem retireWorn_headers (marks : Vector Bool 6) (d : Editions) : (d.retireWorn marks).headersRead = d.headersRead := by
  refine foldl_holds (P := fun e : Editions => e.headersRead = d.headersRead) _ (fun _ _ h => ?_) _ d rfl
  exact h

theorem retireWorn_rot (marks : Vector Bool 6) (d : Editions) : (d.retireWorn marks).rot = d.rot := by
  refine foldl_holds (P := fun e : Editions => e.rot = d.rot) _ (fun _ _ h => ?_) _ d rfl
  exact h

/-- What the retirement of a list of blocks leaves of each block's table row and header (R37). -/
theorem retireAll_block (marks : Vector Bool 6) (p : PBlock) (ps : List PBlock) (d : Editions) :
    (ps.foldl (fun d p => d.retire p marks[p]) d).table[p] =
      (if p ∈ ps then { d.table[p] with role := .retired, mark := .retired } else d.table[p]) ∧
    (ps.foldl (fun d p => d.retire p marks[p]) d).flash[p] =
      (if p ∈ ps ∧ marks[p] = true then { d.flash[p] with mark := .retired } else d.flash[p]) := by
  induction ps generalizing d with
  | nil => simp
  | cons q qs ih =>
    rw [List.foldl_cons, (ih _).1, (ih _).2]
    by_cases hq : q = p
    · subst hq
      cases hm : marks[q] <;> by_cases hp : q ∈ qs <;> simp [Editions.retire, modifyAt, hp]
    · have hv : q.val ≠ p.val := fun e => hq (Fin.ext e)
      have hpq : p ≠ q := fun e => hq e.symm
      cases hm : marks[q] <;> by_cases hp : p ∈ qs <;> simp [Editions.retire, modifyAt, hp, hv, hpq]

/-- What the retirement of the worn spares leaves of each block (R37, R46, R47). -/
theorem retireWorn_block (marks : Vector Bool 6) (d : Editions) (p : PBlock) :
    (d.retireWorn marks).table[p] =
      (if d.table[p].role = .spare ∧ Config.eraseLimit ≤ d.table[p].erases
        then { d.table[p] with role := .retired, mark := .retired } else d.table[p]) ∧
    (d.retireWorn marks).flash[p] =
      (if (d.table[p].role = .spare ∧ Config.eraseLimit ≤ d.table[p].erases) ∧ marks[p] = true
        then { d.flash[p] with mark := .retired } else d.flash[p]) := by
  have mem : p ∈ (d.blocksWhere Role.isSpare).filter (fun p => decide (Config.eraseLimit ≤ d.table[p].erases)) ↔
      d.table[p].role = .spare ∧ Config.eraseLimit ≤ d.table[p].erases := by
    have spare (r : Role) : r.isSpare = true ↔ r = .spare := by cases r <;> simp [Role.isSpare]
    simp [Editions.blocksWhere, spare, and_comm]
  have h := retireAll_block marks p ((d.blocksWhere Role.isSpare).filter
    fun p => decide (Config.eraseLimit ≤ d.table[p].erases)) d
  simp only [mem] at h
  exact h

/-- The winning block of a logical block is a COMPLETE copy of it that no other exceeds (R47). -/
theorem winner_marks (flash : Vector FlashBlock 6) (b : LBlock) (p : PBlock) (h : winner flash b = some p) :
    flash[p].mark = .complete ∧ flash[p].role = some b ∧
    ∀ q : PBlock, flash[q].mark = .complete → flash[q].role = some b → flash[q].seq.getD 0 ≤ flash[p].seq.getD 0 := by
  have run : ∀ (ps : List PBlock) (best : Option PBlock),
      ps.foldl (fun best p => match best with
        | none => some p
        | some q => if flash[q].seq.getD 0 < flash[p].seq.getD 0 then some p else some q) best = some p →
      (best = some p ∨ p ∈ ps) ∧ (∀ q, best = some q ∨ q ∈ ps → flash[q].seq.getD 0 ≤ flash[p].seq.getD 0) := by
    intro ps
    induction ps with
    | nil => intro best h; subst h; simp
    | cons r rs ih =>
      intro best h
      rw [List.foldl_cons] at h
      obtain ⟨h1, h2⟩ := ih _ h
      cases best with
      | none =>
        dsimp only at h1 h2
        refine ⟨Or.inr (by simpa [eq_comm] using h1), fun q hq => h2 q (by simpa [eq_comm] using hq)⟩
      | some q0 =>
        dsimp only at h1 h2
        split at h1
        · next lt =>
          rw [if_pos lt] at h2
          refine ⟨?_, fun q hq => ?_⟩
          · rcases h1 with h1 | h1
            · injection h1 with e; subst e; simp
            · simp [h1]
          · rcases hq with hq | hq
            · injection hq with e; subst e
              exact Nat.le_trans (Nat.le_of_lt lt) (h2 r (Or.inl rfl))
            · rcases List.mem_cons.mp hq with e | e
              · subst e; exact h2 _ (Or.inl rfl)
              · exact h2 q (Or.inr e)
        · next lt =>
          rw [if_neg lt] at h2
          refine ⟨?_, fun q hq => ?_⟩
          · rcases h1 with h1 | h1
            · exact Or.inl h1
            · simp [h1]
          · rcases hq with hq | hq
            · exact h2 q (Or.inl hq)
            · rcases List.mem_cons.mp hq with e | e
              · subst e; exact Nat.le_trans (Nat.le_of_not_lt lt) (h2 q0 (Or.inl rfl))
              · exact h2 q (Or.inr e)
  unfold winner at h
  obtain ⟨m, le⟩ := run _ _ h
  have m : flash[p].mark = .complete ∧ flash[p].role = some b := by simpa using m
  exact ⟨m.1, m.2, fun q c r => le q (Or.inr (by simpa using And.intro c r))⟩

/-- The images read at mount leave the blocks (R47, R48). -/
theorem loadImages_table (d : Editions) : d.loadImages.table = d.table ∧ d.loadImages.flash = d.flash := by
  unfold Editions.loadImages
  refine foldl_holds (P := fun e : Editions => e.table = d.table ∧ e.flash = d.flash) _ (fun e b h => ?_) _ d ⟨rfl, rfl⟩
  unfold Editions.loadBest Editions.loadBlock Editions.imageChange
  split
  · exact h
  · exact h

/-- The end of a mount by reading leaves the blocks (R48). -/
theorem endMount_table (d : Editions) : d.endMount.table = d.table ∧ d.endMount.flash = d.flash := by
  unfold Editions.endMount
  split <;> exact ⟨rfl, rfl⟩

/-- A logical block has no winning block where no COMPLETE block names it (R47, R48). -/
theorem winner_none (flash : Vector FlashBlock 6) (b : LBlock) :
    winner flash b = none ↔ ∀ q : PBlock, flash[q].mark = .complete → flash[q].role ≠ some b := by
  have run : ∀ (ps : List PBlock) (best : Option PBlock),
      ps.foldl (fun best p => match best with
        | none => some p
        | some q => if flash[q].seq.getD 0 < flash[p].seq.getD 0 then some p else some q) best = none ↔
      best = none ∧ ps = [] := by
    intro ps
    induction ps with
    | nil => simp
    | cons r rs ih =>
      intro best
      rw [List.foldl_cons, ih]
      cases best with
      | none => simp
      | some q => dsimp only; split <;> simp
  unfold winner
  refine (run _ _).trans ?_
  simp [List.filter_eq_nil_iff]

/-- What the loading of one block does to the pending-write list (R48). -/
theorem loadBest_writes (d : Editions) (b : LBlock) :
    (d.loadBest b).flash = d.flash ∧
    (d.loadBest b).writes = if winner d.flash b = none ∧ b ∉ d.writes then d.writes ++ [b] else d.writes := by
  unfold Editions.loadBest Editions.loadBlock Editions.imageChange
  cases h : winner d.flash b with
  | some p => simp
  | none =>
    by_cases k : b ∈ d.writes <;> simp [k]

/-- A mount by reading leaves the LOST blocks to be written, in ascending order (R48). -/
theorem loadImages_writes (d : Editions) (h : d.writes = []) :
    d.loadImages.writes = (List.finRange 4).filter fun b =>
      decide (∀ q : PBlock, d.flash[q].mark = .complete → d.flash[q].role ≠ some b) := by
  have run : ∀ (bs : List LBlock) (e : Editions), e.flash = d.flash → bs.Nodup → (∀ b ∈ bs, b ∉ e.writes) →
      (bs.foldl Editions.loadBest e).writes = e.writes ++ bs.filter fun b =>
        decide (∀ q : PBlock, d.flash[q].mark = .complete → d.flash[q].role ≠ some b) := by
    intro bs
    induction bs with
    | nil => simp
    | cons b bs ih =>
      intro e he nd out
      obtain ⟨hf, hw⟩ := loadBest_writes e b
      have nb := (List.nodup_cons.mp nd)
      rw [he] at hw
      have hb := out b (by simp)
      rw [List.foldl_cons, ih _ (hf.trans he) nb.2 ?_, hw]
      · by_cases w : winner d.flash b = none
        · have w' := (winner_none _ _).mp w
          rw [if_pos ⟨w, hb⟩, List.filter_cons_of_pos (by simpa using w')]
          simp
        · have w' : ¬ _ := fun x => w ((winner_none d.flash b).mpr x)
          rw [if_neg (fun x => w x.1), List.filter_cons_of_neg (by simpa using w')]
      · intro c hc
        have ne : c ≠ b := fun e => nb.1 (e ▸ hc)
        have := out c (by simp [hc])
        rw [hw]
        split <;> simp [this, ne]
  unfold Editions.loadImages
  rw [run _ d rfl (List.nodup_finRange 4) (by simp [h]), h, List.nil_append]

/-- A subject that is queued stands in the queue (R185). -/
theorem notify_queued (x : Subject) (s : State) : x ∈ (notify x s).host.queue := by
  show x ∈ (s.host.queueNotice x).queue
  unfold HostLink.queueNotice
  split
  · split <;> assumption
  · simp
theorem retireWorn_writes (marks : Vector Bool 6) (d : Editions) : (d.retireWorn marks).writes = d.writes := by
  refine foldl_holds (P := fun e : Editions => e.writes = d.writes) _ (fun _ _ h => ?_) _ d rfl
  exact h

/-- The reading of the headers keeps every law where it is taken for the first time (R46 to R48). -/
theorem mountHeaders_keeps (marks : Vector Bool 6) {s : State} (h : s.ed.headersRead = false) :
    Keeps s (mountHeaders marks s) := by
  have hr : (s.ed.readHeaders.retireWorn marks).headersRead = true := retireWorn_headers marks _
  unfold mountHeaders
  dsimp only
  split
  · refine Keeps.trans ?_ (beginRotation_keeps _)
    refine Keeps.trans ?_ (notify_keeps _ _)
    exact keeps_mapEd fun l => (l.readHeaders.retireWorn marks).mounted hr
  · have k : Keeps s (s.mapEd fun _ => (s.ed.readHeaders.retireWorn marks).format) :=
      keeps_mapEd fun l => Editions.format_law hr ((retireWorn_rot marks _).trans (l.unread h).2.2)
    refine Keeps.trans ?_ (beginRotation_keeps _)
    split
    · exact k
    · exact k.trans (notify_keeps _ _)

end Sys2Proof.Machine
end

