-- ==== Sys2Proof/Laws/Course.lean ====
section
/-!
SUPPORT. What the operations on a job's course keep: outcomes, starting, closing, feed faults, cutting, the spoil path
and cancelling (R4, R11 to R22).
-/

-- One theorem after another: waiting proofs would each hold a thread.
set_option Elab.async false

namespace Sys2Proof.Machine

/-- A change of feed fields that the law does not look at. -/
theorem keeps_feedFields {s : State} {f : Feed → Feed} (axis : (f s.feed).axis = s.feed.axis)
    (drive : (f s.feed).drive = s.feed.drive) (knife : (f s.feed).knife = s.feed.knife)
    (move : (f s.feed).move = s.feed.move) (settle : (f s.feed).settleLeft = s.feed.settleLeft)
    (cycle : (f s.feed).knifeCycle = s.feed.knifeCycle) (load : (f s.feed).load = s.feed.load) :
    Keeps s (s.mapFeed f) :=
  keeps_mapFeed fun l => l.congr axis drive knife move settle cycle load

/-- A request for a move, with its outcome. -/
theorem requestMove_to {target : Int} {r : Requester} (hr : r ≠ .load) {s t : State} {m : MoveStart}
    (h : requestMove target r s = (t, m)) : Keeps s t := by
  have := requestMove_keeps target hr s
  rwa [h] at this

theorem requestMove_toRest {target : Int} {r : Requester} {s t : State} {m : MoveStart}
    (h : requestMove target r s = (t, m)) : Rest s t := by
  have := requestMove_rest target r s
  rwa [h] at this

/-! ### Outcome and state -/

/-- Deciding an outcome keeps every law (R4, R30). -/
theorem decideOutcome_keeps (i : JobIx) (o : JobOutcome) (c : Option SpoilCause) (s : State) :
    Keeps s (decideOutcome i o c s) := by
  unfold decideOutcome
  split
  · split
    · exact Keeps.refl s
    · dsimp only
      split
      · exact changeJob_keeps s
      · refine Keeps.trans ?_ (giveBack_keeps _ _)
        exact changeJob_keeps s
      · exact changeJob_keeps s
  · exact Keeps.refl s

theorem setJobState_keeps (i : JobIx) (st : JobState) (s : State) : Keeps s (setJobState i st s) := by
  unfold setJobState
  refine Keeps.trans ?_ (changeJob_keeps _)
  split
  · exact keeps_feedFields rfl rfl rfl rfl rfl rfl rfl
  · exact Keeps.refl s

theorem mapContext_keeps (f : PrintContext → PrintContext) (s : State) : Keeps s (mapContext f s) :=
  keeps_mapEng fun l => l

theorem dropContext_keeps (s : State) : Keeps s (dropContext s) := keeps_mapEng fun l => l

/-- The entry into ABORTING keeps every law (R134). -/
theorem enterAborting_keeps (i : JobIx) (s : State) : Keeps s (enterAborting i s) := by
  unfold enterAborting
  split
  · refine Keeps.trans ?_ (setJobState_keeps _ _ _)
    refine Keeps.trans ?_ (mapContext_keeps _ _)
    exact sendEngine_keeps _ s
  · exact Keeps.refl s

/-! ### Starting -/

theorem returnPending_keeps (i : JobIx) (s : State) : Keeps s (returnPending i s) := by
  unfold returnPending
  refine Keeps.trans ?_ (holdRule_keeps _)
  exact changeJob_keeps s

/-- The START step keeps every law (R12). -/
theorem startStep_keeps (i : JobIx) (s : State) : Keeps s (startStep i s) := by
  unfold startStep
  split
  · split
    · refine Keeps.trans ?_ (sendEngine_keeps _ _)
      refine Keeps.trans ?_ (keeps_mapEng fun l => l)
      refine Keeps.trans ?_ (keeps_feedFields rfl rfl rfl rfl rfl rfl rfl)
      exact setJob_keeps s
    · exact returnPending_keeps i s
  · exact Keeps.refl s

/-- The start of a chosen job keeps every law (R12). -/
theorem startJob_keeps (i : JobIx) (s : State) : Keeps s (startJob i s) := by
  unfold startJob
  dsimp only
  refine Keeps.trans (changeJob_keeps (i := i) (f := fun j => { j with state := .printing, drawn := 0 }) s) ?_
  split
  · split
    · next h => exact (requestMove_to (by simp) h).trans (startStep_keeps _ _)
    · next h => exact requestMove_to (by simp) h
  · exact startStep_keeps _ _

theorem tryStart_keeps (s : State) (i : JobIx) : Keeps s (tryStart s i) := by
  unfold tryStart
  split
  · split
    · split
      · exact changeJob_keeps s
      · exact startJob_keeps i s
    · exact Keeps.refl s
  · exact Keeps.refl s

/-- The evaluation of the start conditions keeps every law (R11). -/
theorem startEval_keeps (s : State) : Keeps s (startEval s) :=
  Keeps.ite (fun _ => Keeps.foldl tryStart tryStart_keeps _ s) fun _ => Keeps.refl s

/-! ### Closing -/

/-- The entry into CLOSING keeps every law (R20 to R22). -/
theorem closeJob_keeps (i : JobIx) (piece : Nat) (s : State) : Keeps s (closeJob i piece s) := by
  unfold closeJob
  refine (setJobState_keeps i .closing s).trans ?_
  generalize setJobState i .closing s = u
  dsimp only
  refine Keeps.trans ?_ (startEval_keeps _)
  refine Keeps.trans ?_ (departIfReady_keeps _ _)
  have file : ∀ t, Keeps t (match t.liveJob i with
      | some j => fileRecord i (costRecord t j piece) t
      | none => t) := fun t => by
    split
    · exact fileRecord_keeps _ _ t
    · exact Keeps.refl t
  refine Keeps.trans ?_ (file _)
  refine Keeps.trans ?_ (commitCopy_keeps _ _)
  refine Keeps.trans ?_ (setJob_keeps' fun j _ => ⟨fun l => releaseInk_law l, rfl⟩)
  refine Keeps.trans ?_ (retryMedia_keeps _)
  exact setJob_keeps u

theorem closeUncut_keeps (i : JobIx) (s : State) : Keeps s (closeUncut i s) := by
  unfold closeUncut
  refine Keeps.trans ?_ (closeJob_keeps _ _ _)
  exact changeJob_keeps s

/-! ### Feed faults -/

theorem stopChecker_keeps (s : State) : Keeps s (stopChecker s) := by
  unfold stopChecker
  split
  · refine Keeps.trans ?_ (notify_keeps _ _)
    exact keeps_mapChk fun l => l
  · exact Keeps.refl s

/-- A feed fault's effect on the job keeps every law (R13, R18, R19). -/
theorem faultJob_keeps (i : JobIx) (j : Job) (s : State) : Keeps s (faultJob i j s) := by
  unfold faultJob
  have spoil := decideOutcome_keeps i .spoiled (some .feedFault)
  split
  · exact closeUncut_keeps i s
  · split
    · split
      · split
        · exact closeJob_keeps i 0 s
        · exact returnPending_keeps i s
      · exact (spoil s).trans (enterAborting_keeps i _)
    · exact (spoil s).trans (enterAborting_keeps i _)
    · exact spoil s
    · exact ((stopChecker_keeps s).trans (spoil _)).trans (closeUncut_keeps i _)
    · exact (spoil s).trans (closeUncut_keeps i _)
    · exact Keeps.refl s
    · exact Keeps.refl s

/-- A feed fault keeps every law, whatever was under way (R69). -/
theorem feedFault_keeps (k : FaultKind) (s : State) : Keeps s (feedFault k s) := by
  unfold feedFault
  dsimp only
  refine Keeps.trans (t := s.mapFeed (Feed.enterFault k)) (keeps_mapFeed fun _ => Feed.enterFault_law k _) ?_
  refine Keeps.trans ?_ (notify_keeps _ _)
  have job : ∀ t : State, Keeps t (match t.pathJob with
      | some (i, j) => faultJob i j t
      | none => t) := fun t => by
    split
    · exact faultJob_keeps _ _ t
    · exact Keeps.refl t
  refine Keeps.trans ?_ (job _)
  split
  · exact mediaOut_keeps _
  · exact Keeps.refl _

/-- Whatever the axis did before, a feed fault leaves its law in force. -/
theorem feedFault_feed (k : FaultKind) (s : State) : (feedFault k s).feed.Law := by
  have job : ∀ t : State, t.feed.Law → (match t.pathJob with
      | some (i, j) => faultJob i j t
      | none => t).feed.Law := fun t l => by
    split
    · exact (faultJob_keeps _ _ t).feed l
    · exact l
  unfold feedFault
  dsimp only
  refine (notify_keeps _ _).feed (job _ ?_)
  split
  · exact (mediaOut_keeps _).feed (Feed.enterFault_law k _)
  · exact Feed.enterFault_law k _

/-! ### The knife and cut plans -/

theorem beginKnife_rest (s : State) : Rest s (beginKnife s) := by
  unfold beginKnife
  dsimp only
  refine Rest.trans (t := s.mapFeed fun f => { f with axis := f.legState .knife }) (rest_mapFeed _) ?_
  split
  · exact rest_mapFeed _
  · exact (feedFault_keeps _ _).toRest

/-- A knife cycle begins with the media still (R81). -/
theorem beginKnife_feed {s : State} (l : s.feed.Law) (move : s.feed.move = none) (drive : s.feed.drive = .off)
    (search : ∀ p, s.feed.load ≠ some (.search p)) : (beginKnife s).feed.Law := by
  unfold beginKnife
  dsimp only
  split
  · have a := s.feed.legState_cases .knife
    refine ⟨fun h => ?_, by simp [move], by simp [move], ?_, by simp, fun _ => ⟨by simpa using drive, by simpa using move, ?_⟩,
      fun p h => absurd h (by simpa using search p), ?_⟩
    · rcases a with a | a <;> simp [a] at h
    · simp [l.settle_none move]
    · simpa using a
    · simpa using l.leg .knife
  · exact feedFault_feed _ _

/-- Planning a cut keeps every law (R83). -/
theorem planCut_keeps (i : JobIx) (s : State) : Keeps s (planCut i s) := by
  unfold planCut
  split
  · split
    · split
      · next t h =>
        have k := requestMove_to (by simp) h
        refine ⟨k.toRest.trans (beginKnife_rest _), fun l => ?_⟩
        obtain ⟨taken, e⟩ := requestMove_done h
        obtain ⟨-, -, m, -, -, o⟩ := l.idle (Feed.takesMove_idle (by simp) taken)
        subst e
        exact beginKnife_feed (k.feed l) (by simp [m]) (by simp) (by simp [o])
      · next h => exact requestMove_to (by simp) h
    · exact Keeps.refl s
  · exact Keeps.refl s

theorem enterCutting_keeps (i : JobIx) (s : State) : Keeps s (enterCutting i s) :=
  (setJobState_keeps i .cutting s).trans (planCut_keeps i _)

/-! ### The spoil path and cancelling -/

/-- The spoil cut keeps every law (R19). -/
theorem spoilCut_keeps (i : JobIx) (s : State) : Keeps s (spoilCut i s) := by
  unfold spoilCut
  split
  · dsimp only
    refine Keeps.trans ?_ (planCut_keeps _ _)
    have base : Keeps s (setJobState i .cutting (setJob i (fun j => j.spoilPlan s.feed) s)) := by
      refine Keeps.trans ?_ (setJobState_keeps _ _ _)
      exact setJob_keeps s
    split
    · exact base.trans (holdRule_keeps _)
    · split
      · exact base.trans (retryMedia_keeps _)
      · exact base
  · exact Keeps.refl s

/-- The spoil path keeps every law (R19). -/
theorem takeSpoil_keeps (i : JobIx) (s : State) : Keeps s (takeSpoil i s) := by
  unfold takeSpoil
  split
  · exact setJob_keeps s
  · exact setJob_keeps s
  · exact spoilCut_keeps i s
  · exact closeUncut_keeps i s

/-- A cancel on the media path keeps every law (R13, R17). -/
theorem cancelOnPath_keeps (i : JobIx) (j : Job) (s : State) : Keeps s (cancelOnPath i j s) := by
  unfold cancelOnPath
  have spoil := decideOutcome_keeps i .spoiled (some .cancel)
  split
  · exact Keeps.refl s
  · split
    · split
      · dsimp only
        split
        · exact decideOutcome_keeps _ _ _ s
        · exact (decideOutcome_keeps _ _ _ s).trans (closeJob_keeps i 0 _)
      · exact (spoil s).trans (enterAborting_keeps i _)
    · exact (spoil s).trans (enterAborting_keeps i _)
    · exact ((stopChecker_keeps s).trans (spoil _)).trans (takeSpoil_keeps i _)
    · exact spoil s
    · exact Keeps.refl s
    · exact Keeps.refl s
    · exact Keeps.refl s

/-- CANCEL_JOB keeps every law (R16, R17). -/
theorem cancelJob_keeps (i : JobIx) (j : Job) (s : State) : Keeps s (cancelJob i j s) :=
  Keeps.ite (fun _ => (decideOutcome_keeps _ _ _ s).trans (closeJob_keeps i 0 _)) fun _ => cancelOnPath_keeps i j s

end Sys2Proof.Machine
end

