-- ==== Sys2Proof/Laws/Colour.lean ====
section
/-!
SUPPORT. What the drift monitor's and the colour checker's operations keep (R145 to R161).
-/

-- One theorem after another: waiting proofs would each hold a thread.
set_option Elab.async false

namespace Sys2Proof.Machine

/-- A saturated counter of 16 bits does not pass 65,535. -/
theorem sat16_le (n : Nat) : sat16 n ≤ 65535 := Nat.min_le_right n _

/-! ### Drift -/

theorem settleHold_keeps (s : State) (i : JobIx) : Keeps s (settleHold s i) := by
  unfold settleHold
  split
  · split
    · exact changeJob_keeps s
    · exact Keeps.refl s
  · exact Keeps.refl s

/-- The settling of the holds at the end of an event keeps every law (R161). -/
theorem settleDrift_keeps (before : Drift) (s : State) : Keeps s (settleDrift before s) :=
  Keeps.ite (fun _ => Keeps.refl s) fun _ =>
    (Keeps.foldl settleHold settleHold_keeps _ s).trans (startEval_keeps _)

/-- A change of the drift monitor keeps every law (R158, R160). -/
theorem changeDrift_keeps (f : Drift → Drift) (s : State) : Keeps s (changeDrift f s) :=
  (keeps_mapDrift f).trans (settleDrift_keeps _ _)

theorem fileVerdict_keeps (j : Job) (v : Verdict) (rs : List PatchResult) (s : State) :
    Keeps s (fileVerdict j v rs s) := by
  unfold fileVerdict
  split
  · exact Keeps.refl s
  · exact keeps_mapDrift _

/-! ### Moves and readings -/

theorem mapStrip_keeps (f : StripContext → StripContext) (s : State) : Keeps s (mapStrip f s) := keeps_mapChk fun l => l

/-- Counting keeps every law where each counter stays within its 16 bits. -/
theorem mapCounters_keeps {f : CheckCounters → CheckCounters} {s : State}
    (h : s.chk.counters.Law → (f s.chk.counters).Law) : Keeps s (mapCounters f s) := keeps_mapChk h

theorem beginReading_keeps (s : State) : Keeps s (beginReading s) := keeps_mapChk fun l => l

/-- A strip move keeps every law (R144). -/
theorem stripMove_keeps (s : State) : Keeps s (stripMove s) := by
  unfold stripMove
  split
  · split
    · next h => exact (requestMove_to (by simp) h).trans (beginReading_keeps _)
    · next h => exact requestMove_to (by simp) h
  · exact Keeps.refl s

/-! ### Dwell -/

theorem dwellExpired_keeps (s : State) : Keeps s (dwellExpired s) := by
  unfold dwellExpired
  split
  · split
    · dsimp only
      refine Keeps.trans ?_ (stripMove_keeps _)
      refine Keeps.trans ?_ (notify_keeps _ _)
      refine Keeps.trans ?_ (keeps_mapChk fun l => l)
      exact mapStrip_keeps _ s
    · exact Keeps.refl s
  · exact Keeps.refl s

/-- The end of the dwell keeps every law (R146). -/
theorem dwellEnded_keeps (s : State) : Keeps s (dwellEnded s) := by
  unfold dwellEnded
  split
  · exact Keeps.ite (fun _ => dwellExpired_keeps s) fun _ => Keeps.refl s
  · exact Keeps.refl s

/-- The entry into CHECKING keeps every law (R14, R145). -/
theorem enterChecking_keeps (i : JobIx) (j : Job) (x : Strip) (s : State) : Keeps s (enterChecking i j x s) := by
  have base : Keeps s (notify .checker (mapCounters (fun n => { n with started := sat16 (n.started + 1) })
      ((setJobState i .checking s).mapChk fun k =>
        { k with state := .dwell, ctx := some (StripContext.atDwell i j x (s.chk.profile.dwellMs s.ink)) }))) := by
    refine Keeps.trans ?_ (notify_keeps _ _)
    refine Keeps.trans ?_ (mapCounters_keeps fun l => ⟨sat16_le _, l.2⟩)
    refine Keeps.trans ?_ (keeps_mapChk fun l => l)
    exact setJobState_keeps i .checking s
  unfold enterChecking
  dsimp only
  split
  · exact base.trans (dwellExpired_keeps _)
  · exact base

/-! ### The end of a strip -/

theorem CheckCounters.Law.judged {n : CheckCounters} (l : n.Law) (v : Verdict) : (n.judged v).Law := by
  unfold CheckCounters.Law at l
  cases v <;> simp only [CheckCounters.judged, CheckCounters.Law] <;> refine ⟨?_, ?_, ?_, ?_, ?_, ?_, ?_⟩ <;>
    first | exact sat16_le _ | omega

theorem verdictCourse_keeps (i : JobIx) (j : Job) (v : Verdict) (s : State) : Keeps s (verdictCourse i j v s) := by
  unfold verdictCourse
  split
  · exact (decideOutcome_keeps _ _ _ s).trans (takeSpoil_keeps _ _)
  · exact (decideOutcome_keeps _ _ _ s).trans (takeSpoil_keeps _ _)
  · exact enterCutting_keeps i s

/-- The end of a strip keeps every law (R151, R152). -/
theorem endStrip_keeps (v : Verdict) (s : State) : Keeps s (endStrip v s) := by
  unfold endStrip
  split
  · next x _ =>
    dsimp only
    have course : ∀ t : State, Keeps t (match t.liveJob x.slot with
        | some j => settleDrift t.drift (verdictCourse x.slot j v (fileVerdict j v x.results t))
        | none => t) := fun t => by
      split
      · exact ((fileVerdict_keeps _ _ _ t).trans (verdictCourse_keeps _ _ _ _)).trans (settleDrift_keeps _ _)
      · exact Keeps.refl t
    refine Keeps.trans ?_ (course _)
    refine Keeps.trans ?_ (notify_keeps _ _)
    refine Keeps.trans ?_ (changeJob_keeps _)
    refine Keeps.trans ?_ (keeps_mapChk fun l => l)
    exact mapCounters_keeps fun l => l.judged v
  · exact Keeps.refl s

/-! ### Readings taken -/

/-- A void reading keeps every law (R148). -/
theorem voidReading_keeps (s : State) : Keeps s (voidReading s) := by
  have base : Keeps s (mapStrip (fun x => { x with voids := x.voids + 1 })
      (mapCounters (fun n => { n with timeouts := sat16 (n.timeouts + 1) }) s)) := by
    refine Keeps.trans ?_ (mapStrip_keeps _ _)
    exact mapCounters_keeps fun l => ⟨l.1, l.2.1, l.2.2.1, l.2.2.2.1, l.2.2.2.2.1, l.2.2.2.2.2.1, sat16_le _⟩
  unfold voidReading
  dsimp only
  split
  · split
    · exact base.trans (endStrip_keeps _ _)
    · exact base.trans (beginReading_keeps _)
  · exact base

theorem nextRead_keeps (s : State) : Keeps s (nextRead s) := (mapStrip_keeps _ s).trans (stripMove_keeps _)

/-- The comparison of a patch keeps every law (R150). -/
theorem comparePatch_keeps (c : Colour) (s : State) : Keeps s (comparePatch c s) := by
  unfold comparePatch
  split
  · next x _ =>
    dsimp only
    have count : ∀ (r : PatchResult), Keeps s (mapCounters (fun n => { n with
        evaluated := sat16 (n.evaluated + 1)
        patchesFailed := if r.failing then sat16 (n.patchesFailed + 1) else n.patchesFailed }) s) := fun r =>
      mapCounters_keeps fun l => ⟨l.1, l.2.1, l.2.2.1, l.2.2.2.1, sat16_le _, by
        have := l.2.2.2.2.2.1
        dsimp only
        split
        · exact sat16_le _
        · exact this, l.2.2.2.2.2.2⟩
    split
    · refine Keeps.trans ?_ (endStrip_keeps _ _)
      refine Keeps.trans ?_ (mapStrip_keeps _ _)
      exact count _
    · split
      · refine Keeps.trans ?_ (endStrip_keeps _ _)
        refine Keeps.trans ?_ (mapStrip_keeps _ _)
        refine Keeps.trans ?_ (mapStrip_keeps _ _)
        exact count _
      · refine Keeps.trans ?_ (nextRead_keeps _)
        refine Keeps.trans ?_ (mapStrip_keeps _ _)
        refine Keeps.trans ?_ (mapStrip_keeps _ _)
        refine Keeps.trans ?_ (mapStrip_keeps _ _)
        exact count _
  · exact Keeps.refl s

theorem lockStrip_keeps (c : Colour) (s : State) : Keeps s (lockStrip c s) := by
  unfold lockStrip
  refine Keeps.trans ?_ (comparePatch_keeps _ _)
  refine Keeps.trans ?_ (notify_keeps _ _)
  refine Keeps.trans ?_ (keeps_mapChk fun l => l)
  exact mapStrip_keeps _ s

/-- A reading in the search keeps every law (R149). -/
theorem searchReading_keeps (c : Colour) (s : State) : Keeps s (searchReading c s) := by
  unfold searchReading
  split
  · dsimp only
    split
    · exact (mapStrip_keeps _ s).trans (lockStrip_keeps _ _)
    · split
      · refine Keeps.trans ?_ (endStrip_keeps _ _)
        exact (mapStrip_keeps _ s).trans (mapStrip_keeps _ _)
      · refine Keeps.trans ?_ (nextRead_keeps _)
        exact (mapStrip_keeps _ s).trans (mapStrip_keeps _ _)
  · exact Keeps.refl s

theorem goodReading_keeps (c : Colour) (s : State) : Keeps s (goodReading c s) := by
  unfold goodReading
  dsimp only
  split
  · exact (mapStrip_keeps _ s).trans (searchReading_keeps _ _)
  · exact (mapStrip_keeps _ s).trans (comparePatch_keeps _ _)
  · exact mapStrip_keeps _ s

/-! ### The sensor link -/

/-- The end of a reading keeps what its judgement keeps (R147, R153). -/
theorem endReading_keeps (r : Reading) {f : State → State} (h : ∀ t, Keeps t (f t)) (s : State) :
    Keeps s (endReading r f s) := by
  unfold endReading
  dsimp only
  split
  · exact keeps_mapChk fun l => l
  · refine Keeps.trans ?_ (h _)
    exact keeps_mapChk fun l => l

theorem measured_keeps (ack : Bool) (s : State) : Keeps s (measured ack s) := by
  unfold measured
  split
  · split
    · split
      · exact keeps_mapChk fun l => l
      · exact endReading_keeps _ voidReading_keeps s
    · exact Keeps.refl s
  · exact Keeps.refl s

theorem resultRead_keeps (ack : Bool) (b : Vector Byte 8) (s : State) : Keeps s (resultRead ack b s) := by
  unfold resultRead
  split
  · split
    · exact Keeps.refl s
    · split
      · split
        · exact Keeps.refl s
        · exact endReading_keeps _ voidReading_keeps s
        · exact endReading_keeps _ (goodReading_keeps _) s
      · exact endReading_keeps _ voidReading_keeps s
  · exact Keeps.refl s

theorem readingExpired_keeps (s : State) : Keeps s (readingExpired s) := by
  unfold readingExpired
  split
  · split
    · exact Keeps.refl s
    · exact endReading_keeps _ voidReading_keeps s
  · exact Keeps.refl s

end Sys2Proof.Machine
end

