-- ==== Sys2Proof/Laws/Engine.lean ====
section
/-!
SUPPORT. What the engine link controller's operations keep (R128 to R136).
-/

-- One theorem after another: waiting proofs would each hold a thread.
set_option Elab.async false

namespace Sys2Proof.Machine

theorem abortContext_keeps (c : SpoilCause) (s : State) : Keeps s (abortContext c s) := by
  unfold abortContext
  split
  · exact (decideOutcome_keeps _ _ _ s).trans (enterAborting_keeps _ _)
  · exact Keeps.refl s

/-- The end of the engine's part keeps every law (R130, R134 to R136). -/
theorem endToSpoil_keeps (c : Option SpoilCause) (s : State) : Keeps s (endToSpoil c s) := by
  unfold endToSpoil
  split
  · dsimp only
    refine Keeps.trans ?_ (takeSpoil_keeps _ _)
    split
    · exact (dropContext_keeps s).trans (decideOutcome_keeps _ _ _ _)
    · exact dropContext_keeps s
  · exact dropContext_keeps s

/-- A protocol error keeps every law (R128). -/
theorem protocolError_keeps (s : State) : Keeps s (protocolError s) := by
  have base : Keeps s (s.mapEng fun e => { e with protoErrors := sat16 (e.protoErrors + 1) }) :=
    keeps_mapEng fun l => ⟨l.1, l.2.1, l.2.2.1, sat16_le _⟩
  unfold protocolError
  dsimp only
  split
  · split
    · exact base.trans (abortContext_keeps _ _)
    · exact base
  · exact base

/-- The dry test keeps every law (R131). -/
theorem dryTest_keeps (s : State) : Keeps s (dryTest s) := by
  unfold dryTest
  split
  · split
    · refine Keeps.trans ?_ (changeJob_keeps _)
      exact (sendEngine_keeps _ s).trans (mapContext_keeps _ _)
    · exact Keeps.refl s
  · exact Keeps.refl s

/-- The resume test keeps every law (R132). -/
theorem resumeTest_keeps (s : State) : Keeps s (resumeTest s) := by
  unfold resumeTest
  split
  · split
    · refine Keeps.trans ?_ (setJobState_keeps _ _ _)
      exact (sendEngine_keeps _ s).trans (mapContext_keeps _ _)
    · exact Keeps.refl s
  · exact Keeps.refl s

/-- The completion of a swath move keeps every law (R129). -/
theorem swathDone_keeps (s : State) : Keeps s (swathDone s) := by
  unfold swathDone
  split
  · split
    · refine Keeps.trans ?_ (dryTest_keeps _)
      exact (sendEngine_keeps _ s).trans (mapContext_keeps _ _)
    · exact Keeps.refl s
  · exact Keeps.refl s

theorem swathTarget_keeps (t : Option Int) (s : State) : Keeps s (s.mapFeed fun f => { f with swathTarget := t }) :=
  keeps_feedFields rfl rfl rfl rfl rfl rfl rfl

/-- Taking a SWATH keeps every law (R129). -/
theorem takeSwath_keeps (index : U16) (feed : Nat) (s : State) : Keeps s (takeSwath index feed s) := by
  unfold takeSwath
  dsimp only
  refine Keeps.trans (mapContext_keeps (fun x => { x with phase := .feed, inFeed := some index, swathTimer := none }) s) ?_
  split
  · split
    · next h =>
      refine Keeps.trans ?_ (swathDone_keeps _)
      exact (requestMove_to (by simp) h).trans (swathTarget_keeps _ _)
    · next h => exact (requestMove_to (by simp) h).trans (swathTarget_keeps _ _)
    · next h => exact requestMove_to (by simp) h
  · exact Keeps.refl _

theorem swathDrops_keeps (tag : U16) (drops : List (Chan × Nat)) (s : State) : Keeps s (swathDrops tag drops s) := by
  unfold swathDrops
  split
  · split
    · exact jobReport_keeps _ _ s
    · exact overheadDrops_keeps _ s
  · exact overheadDrops_keeps _ s

/-- A SWATH keeps every law (R128, R129, R134). -/
theorem swathMessage_keeps (tag index : U16) (feed : Nat) (drops : List (Chan × Nat)) (s : State) :
    Keeps s (swathMessage tag index feed drops s) := by
  have base := swathDrops_keeps tag drops s
  unfold swathMessage
  dsimp only
  split
  · split
    · exact base.trans (takeSwath_keeps _ _ _)
    · split
      · exact base.trans (mapContext_keeps _ _)
      · exact base.trans (protocolError_keeps _)
  · exact base.trans (protocolError_keeps _)

theorem printDone_keeps (s : State) : Keeps s (printDone s) := by
  unfold printDone
  split
  · dsimp only
    split
    · exact (dropContext_keeps s).trans (enterChecking_keeps _ _ _ _)
    · exact (dropContext_keeps s).trans (enterCutting_keeps _ _)
  · exact dropContext_keeps s

/-- An END keeps every law (R134, R135). -/
theorem endMessage_keeps (tag : U16) (complete : Bool) (s : State) : Keeps s (endMessage tag complete s) := by
  unfold endMessage
  split
  · split
    · split
      · exact printDone_keeps s
      · exact endToSpoil_keeps _ s
    · split
      · exact endToSpoil_keeps _ s
      · exact protocolError_keeps s
  · exact protocolError_keeps s

/-- An ENGINE_STATE keeps every law (R123, R136). -/
theorem stateMessage_keeps (st : EngineState) (code : Byte) (s : State) : Keeps s (stateMessage st code s) := by
  have base : Keeps s (s.mapEng fun e => { e with state := st, code := code }) := keeps_mapEng fun l => l
  unfold stateMessage
  split
  · exact Keeps.refl s
  · dsimp only
    split
    · split
      · exact base.trans (endToSpoil_keeps _ _)
      · exact base
    · split
      · exact base.trans (startEval_keeps _)
      · exact base

theorem swathExpired_keeps (s : State) : Keeps s (swathExpired s) := by
  unfold swathExpired
  split
  · split
    · exact Keeps.refl s
    · split
      · exact abortContext_keeps _ s
      · exact endToSpoil_keeps _ s
      · exact Keeps.refl s
      · exact Keeps.refl s
  · exact Keeps.refl s

theorem dryOutExpired_keeps (s : State) : Keeps s (dryOutExpired s) := by
  unfold dryOutExpired
  split
  · exact Keeps.ite (fun _ => abortContext_keeps _ s) fun _ => Keeps.refl s
  · exact Keeps.refl s

end Sys2Proof.Machine
end

