-- ==== Sys2Proof/Laws/Mechanism.lean ====
section
/-!
SUPPORT. What the mechanism's events keep (R55, R62, R66, R68, R76, R77, R81). The operations that keep the feed axis's
law only where the axis stands as they expect it have two lemmas, one for the rest and one for that law.
-/

-- One theorem after another: waiting proofs would each hold a thread.
set_option Elab.async false

namespace Sys2Proof.Machine

/-! ### The load -/

theorem loadEnd_rest (s : State) : Rest s (loadEnd s) := by
  unfold loadEnd
  dsimp only
  refine Rest.trans ?_ (startEval_keeps _).toRest
  refine Rest.trans ?_ (retryMedia_keeps _).toRest
  refine Rest.trans ?_ (notify_keeps _ _).toRest
  exact rest_mapFeed _

/-- The load ends with nothing under way (R77). -/
theorem loadEnd_feed {s : State} (drive : s.feed.drive = .off) (knife : s.feed.knife = false)
    (move : s.feed.move = none) (settle : s.feed.settleLeft = none) (cycle : s.feed.knifeCycle = none) :
    (loadEnd s).feed.Law := by
  unfold loadEnd
  dsimp only
  refine (startEval_keeps _).feed ((retryMedia_keeps _).feed ((notify_keeps _ _).feed ?_))
  exact Feed.Law.atRest drive knife move settle cycle rfl

theorem trimCut_rest (s : State) : Rest s (trimCut s) := by
  unfold trimCut
  refine Rest.trans ?_ (beginKnife_rest _)
  exact rest_mapFeed _

/-- The trim cut begins with the media still (R77). -/
theorem trimCut_feed {s : State} (l : s.feed.Law) (load : s.feed.axis = .loading) (move : s.feed.move = none)
    (drive : s.feed.drive = .off) (knife : s.feed.knife = false) (cycle : s.feed.knifeCycle = none) :
    (trimCut s).feed.Law := by
  unfold trimCut
  refine beginKnife_feed ?_ move drive (by simp)
  exact ⟨by simp [load], by simp [move], by simp [move], by simp [l.settle_none move], by simp [knife],
    by simp [cycle], by simp, fun _ => load⟩

theorem requestMove_loadDone {target : Int} {s t : State} (h : requestMove target .load s = (t, .done)) :
    t = s.mapFeed fun f => { f.driveTo .off with rest := some target } := (requestMove_done h).2

theorem edgeReference_rest (s : State) : Rest s (edgeReference s) := by
  unfold edgeReference
  dsimp only
  refine Rest.trans (t := s.mapFeed Feed.reference) (rest_mapFeed _) ?_
  split
  · next h => exact (requestMove_toRest h).trans (trimCut_rest _)
  · next h => exact requestMove_toRest h

/-- The edge reference is made in LOADING without a move and without a knife cycle (R76). -/
theorem edgeReference_feed {s : State} (axis : s.feed.axis = .loading) (move : s.feed.move = none)
    (settle : s.feed.settleLeft = none) (knife : s.feed.knife = false) (cycle : s.feed.knifeCycle = none) :
    (edgeReference s).feed.Law := by
  have base : s.feed.reference.Law :=
    ⟨by simp [Feed.reference, axis], by simp [Feed.reference, move], by simp [Feed.reference, move],
      by simp [Feed.reference, settle], by simp [Feed.reference, knife], by simp [Feed.reference, cycle],
      by simp [Feed.reference], fun _ => axis⟩
  have leg : ∀ target, (requestMove target .load (s.mapFeed Feed.reference)).1.feed.Law := fun target =>
    requestMove_load_feed (s := s.mapFeed Feed.reference) base knife move cycle (by simp [Feed.reference])
  unfold edgeReference
  dsimp only
  split
  · next t h =>
    have k := leg (100 * (s.feed.profile.trim : Int))
    have e := requestMove_loadDone h
    rw [show requestMove (100 * (s.feed.profile.trim : Int)) .load (s.mapFeed Feed.reference) = (t, .done) from h] at k
    subst e
    exact trimCut_feed k (by simpa [Feed.reference] using axis) (by simpa [Feed.reference] using move) (by simp)
      (by simpa [Feed.reference] using knife) (by simpa [Feed.reference] using cycle)
  · next t m _ h =>
    have k := leg (100 * (s.feed.profile.trim : Int))
    rw [show requestMove (100 * (s.feed.profile.trim : Int)) .load (s.mapFeed Feed.reference) = (t, m) from h] at k
    exact k

theorem trimCutDone_rest (s : State) : Rest s (trimCutDone s) := by
  unfold trimCutDone
  dsimp only
  split
  · next h =>
    refine Rest.trans ?_ (loadEnd_rest _)
    refine Rest.trans ?_ (requestMove_toRest h)
    refine Rest.trans ?_ (keeps_mapCost (fun l => ⟨l.room, l.full⟩) rfl rfl).toRest
    exact rest_mapFeed _
  · next h =>
    refine Rest.trans ?_ (requestMove_toRest h)
    refine Rest.trans ?_ (keeps_mapCost (fun l => ⟨l.room, l.full⟩) rfl rfl).toRest
    exact rest_mapFeed _

/-- The trim cut is made in LOADING with the media still (R77). -/
theorem trimCutDone_feed {s : State} (axis : s.feed.axis = .loading) (move : s.feed.move = none)
    (settle : s.feed.settleLeft = none) : (trimCutDone s).feed.Law := by
  unfold trimCutDone
  dsimp only
  split
  · next t h =>
    have e := requestMove_loadDone h
    subst e
    exact loadEnd_feed (by simp) rfl (by simpa [Feed.trimCutMade, Feed.cutMade] using move)
      (by simpa [Feed.trimCutMade, Feed.cutMade] using settle) rfl
  · next t m _ h =>
    have k : t = (t, m).1 := rfl
    rw [k, ← h]
    refine requestMove_load_feed ?_ rfl move rfl (by simp [Feed.trimCutMade])
    exact ⟨by simp [Feed.trimCutMade, Feed.cutMade, axis], by simp [Feed.trimCutMade, Feed.cutMade, move],
      by simp [Feed.trimCutMade, Feed.cutMade, move], by simp [Feed.trimCutMade, Feed.cutMade, settle],
      by simp [Feed.trimCutMade, Feed.cutMade], by simp [Feed.trimCutMade, Feed.cutMade],
      by simp [Feed.trimCutMade], by simp [Feed.trimCutMade, Feed.cutMade, axis]⟩

/-! ### The completion of a move -/

theorem backFeedDone_keeps (s : State) : Keeps s (backFeedDone s) := by
  unfold backFeedDone
  split
  · split
    · exact closeJob_keeps _ _ s
    · exact startStep_keeps _ s
  · exact Keeps.refl s

theorem moveDone_rest (r : Requester) (s : State) : Rest s (moveDone r s) := by
  unfold moveDone
  split
  · exact (swathDone_keeps s).toRest
  · split
    · exact Rest.refl s
    · exact (beginReading_keeps s).toRest
  · exact beginKnife_rest s
  · exact (backFeedDone_keeps s).toRest
  · split
    · exact trimCut_rest s
    · exact loadEnd_rest s
    · exact Rest.refl s
  · exact (notify_keeps _ s).toRest

/-- A completed move hands over with the media still (R62). -/
theorem moveDone_feed (r : Requester) {s : State} (l : s.feed.Law) (move : s.feed.move = none)
    (drive : s.feed.drive = .off) (knife : s.feed.knife = false) (cycle : s.feed.knifeCycle = none)
    (search : ∀ p, s.feed.load ≠ some (.search p)) : (moveDone r s).feed.Law := by
  unfold moveDone
  split
  · exact (swathDone_keeps s).feed l
  · split
    · exact l
    · exact (beginReading_keeps s).feed l
  · exact beginKnife_feed l move drive search
  · exact (backFeedDone_keeps s).feed l
  · split
    · next h => exact trimCut_feed l (l.loading (by simp [h])) move drive knife cycle
    · exact loadEnd_feed drive knife move (l.settle_none move) cycle
    · exact l
  · exact (notify_keeps _ s).feed l

theorem spoilAfterMove_keeps (s : State) : Keeps s (spoilAfterMove s) := by
  unfold spoilAfterMove
  split
  · exact Keeps.ite (fun _ => spoilCut_keeps _ s) fun _ => Keeps.refl s
  · exact Keeps.refl s

/-- The completed move's record is gone, and the axis is in IDLE or in LOADING still (R62). -/
theorem Feed.Law.completeMove {f : Feed} (l : f.Law) {m : Move} (h : f.move = some m) (drive : f.drive = .off) :
    (f.completeMove m).Law := by
  obtain ⟨k, c, o⟩ := l.inMove h
  refine ⟨fun _ => ⟨drive, k⟩, by simp [Feed.completeMove], by simp [Feed.completeMove], by simp [Feed.completeMove],
    by simp [Feed.completeMove, k], by simp [Feed.completeMove, c], fun p e => absurd e (o p), fun e => l.leg .idle e⟩

/-- The end of the settle time keeps every law (R62). -/
theorem settleEnded_keeps (s : State) : Keeps s (settleEnded s) := by
  unfold settleEnded
  split
  · next m n hm hn =>
    refine Keeps.trans ?_ (startEval_keeps _)
    refine Keeps.trans ?_ (spoilAfterMove_keeps _)
    refine ⟨Rest.trans (rest_mapFeed (s := s) (Feed.completeMove m)) (moveDone_rest m.by_ _), fun l => ?_⟩
    obtain ⟨k, c, o⟩ := l.inMove hm
    obtain ⟨x, hx, hp⟩ := l.timing (by simp [hn])
    have d := l.settling x hx hp
    exact moveDone_feed m.by_ (s := s.mapFeed (Feed.completeMove m)) (l.completeMove hm d) rfl d k c o
  · exact Keeps.refl s

/-! ### Counts -/

theorem chargeJog_keeps (rise : Nat) (s : State) : Keeps s (chargeJog rise s) := by
  unfold chargeJog
  split
  · split
    · refine Keeps.trans ?_ (keeps_mapCost (fun l => ⟨l.room, l.full⟩) rfl rfl)
      exact keeps_feedFields rfl rfl rfl rfl rfl rfl rfl
    · exact Keeps.refl s
  · exact Keeps.refl s

/-- A count judged keeps every law (R61 to R63, R67). -/
theorem judgeCount_keeps (s : State) : Keeps s (judgeCount s) := by
  unfold judgeCount
  split
  · next m hm =>
    dsimp only
    split
    · exact keeps_mapFeed fun l => l.moveCount hm
    · exact feedFault_keeps _ s
  · exact Keeps.ite (fun _ => feedFault_keeps _ s) fun _ => Keeps.refl s

/-- A change of the encoder inputs keeps every law (R55). -/
theorem encoderChange_keeps (a b : Bool) (s : State) : Keeps s (encoderChange a b s) := by
  have pins : Keeps s (s.mapFeed fun f => { f with encA := a, encB := b }) :=
    keeps_feedFields rfl rfl rfl rfl rfl rfl rfl
  unfold encoderChange
  dsimp only
  split
  · exact pins
  · refine Keeps.trans ?_ (judgeCount_keeps _)
    refine Keeps.trans ?_ (mediaFell_keeps _ _)
    refine Keeps.trans ?_ (chargeJog_keeps _ _)
    refine pins.trans (keeps_mapFeed fun l => l.count _)

/-! ### Detectors -/

theorem windowEnded_keeps (s : State) : Keeps s (windowEnded s) := by
  unfold windowEnded
  split
  · split
    · exact feedFault_keeps _ s
    · exact keeps_feedFields rfl rfl rfl rfl rfl rfl rfl
  · exact Keeps.refl s

/-- A change of EDGE keeps every law (R68, R76). -/
theorem edgeChanged_keeps (present : Bool) (s : State) : Keeps s (edgeChanged present s) := by
  have pin : Keeps s (s.mapFeed fun f => { f with edge := present }) := keeps_feedFields rfl rfl rfl rfl rfl rfl rfl
  unfold edgeChanged
  dsimp only
  split
  · next p hp =>
    split
    · refine ⟨pin.toRest.trans (edgeReference_rest _), fun l => ?_⟩
      have hl : s.feed.load = some (.search p) := hp
      obtain ⟨m, c⟩ := l.search p hl
      refine edgeReference_feed (l.loading (by simp [hl])) m (l.settle_none m) ?_ c
      cases e : s.feed.knife with
      | false => exact e
      | true => have := l.knife e; simp [c] at this
    · exact pin
  · split
    · exact pin.trans (feedFault_keeps _ _)
    · exact pin

theorem searchLimit_keeps (s : State) : Keeps s (searchLimit s) := by
  unfold searchLimit
  split
  · exact Keeps.ite (fun _ => feedFault_keeps _ s) fun _ => Keeps.refl s
  · exact Keeps.refl s

/-! ### The knife cycle -/

theorem planCutDone_rest (i : JobIx) (j : Job) (s : State) : Rest s (planCutDone i j s) := by
  have cut : Rest s (changeJob i (fun j => { j with cutsDone := j.cutsDone + 1 })
      (s.mapFeed fun f => { f.cutMade with axis := .idle })) :=
    (rest_mapFeed _).trans (changeJob_keeps _).toRest
  unfold planCutDone
  dsimp only
  split
  · exact cut.trans (planCut_keeps _ _).toRest
  · refine Rest.trans ?_ (closeJob_keeps _ _ _).toRest
    refine Rest.trans ?_ (decideOutcome_keeps _ _ _ _).toRest
    exact cut.trans (rest_mapFeed _)

/-- A plan cut ends with the axis in IDLE and nothing under way (R81). -/
theorem planCutDone_feed (i : JobIx) (j : Job) {s : State} (drive : s.feed.drive = .off) (move : s.feed.move = none)
    (settle : s.feed.settleLeft = none) (load : s.feed.load = none) : (planCutDone i j s).feed.Law := by
  have cut : (changeJob i (fun j => { j with cutsDone := j.cutsDone + 1 })
      (s.mapFeed fun f => { f.cutMade with axis := .idle })).feed.Law :=
    (changeJob_keeps _).feed (Feed.Law.atRest (by simpa [Feed.cutMade] using drive) rfl
      (by simpa [Feed.cutMade] using move) (by simpa [Feed.cutMade] using settle) rfl
      (by simpa [Feed.cutMade] using load))
  unfold planCutDone
  dsimp only
  split
  · exact (planCut_keeps _ _).feed cut
  · refine (closeJob_keeps _ _ _).feed ((decideOutcome_keeps _ _ _ _).feed ?_)
    exact cut.congr rfl rfl rfl rfl rfl rfl rfl

/-- The completion of a knife cycle keeps every law (R81). -/
theorem knifeDone_keeps {s : State} (h : s.feed.knifeCycle.isSome = true) : Keeps s (knifeDone s) := by
  unfold knifeDone
  split
  · next x hx =>
    refine ⟨trimCutDone_rest s, fun l => ?_⟩
    obtain ⟨-, m, -⟩ := l.cycle h
    exact trimCutDone_feed (l.loading (by simp [hx])) m (l.settle_none m)
  · next hx =>
    split
    · refine ⟨planCutDone_rest _ _ s, fun l => ?_⟩
      obtain ⟨d, m, -⟩ := l.cycle h
      exact planCutDone_feed _ _ d m (l.settle_none m) hx
    · refine keeps_mapFeed fun l => ?_
      obtain ⟨d, m, -⟩ := l.cycle h
      exact Feed.Law.atRest d rfl m (l.settle_none m) rfl hx

/-- A change of KNIFE_HOME keeps every law (R81). -/
theorem knifeHomeChanged_keeps (active : Bool) (s : State) : Keeps s (knifeHomeChanged active s) := by
  have pin : Keeps s (s.mapFeed fun f => { f with knifeHome := active }) :=
    keeps_feedFields rfl rfl rfl rfl rfl rfl rfl
  unfold knifeHomeChanged
  dsimp only
  split
  · next n hn =>
    split
    · exact pin
    · refine pin.trans (keeps_mapFeed fun l => ?_)
      have c := l.cycle (by rw [hn]; rfl)
      have hk : s.feed.knifeCycle = some (.stroke n) := hn
      exact ⟨l.quiet, l.moving, l.settling, l.timing, fun _ => rfl, fun _ => c,
        fun p e => by have := (l.search p e).2; simp [hk] at this, l.loading⟩
  · next n hn =>
    split
    · refine pin.trans (knifeDone_keeps ?_)
      rw [hn]; rfl
    · exact pin
  · exact pin

theorem strokeExpired_keeps (s : State) : Keeps s (strokeExpired s) := by
  unfold strokeExpired
  split
  · exact feedFault_keeps _ s
  · exact Keeps.refl s

theorem returnExpired_keeps (s : State) : Keeps s (returnExpired s) := by
  unfold returnExpired
  split
  · exact feedFault_keeps _ s
  · exact Keeps.refl s

end Sys2Proof.Machine
end

