-- ==== Sys2Proof/Laws/Refill.lean ====
section
/-!
SUPPORT. What the ink controller's operations keep (R97, R103, R104, R106, R107).
-/

-- One theorem after another: waiting proofs would each hold a thread.
set_option Elab.async false

namespace Sys2Proof.Machine

/-- A supply state in which a channel neither waits nor refills. -/
def Supply.atRest (x : Supply) : Prop := x ≠ .waiting ∧ x ≠ .refilling

section Law
variable {k : Ink} {c : Chan} {f : Channel → Channel}

theorem chans_modify (k : Ink) (c x : Chan) (f : Channel → Channel) :
    (modifyAt k.chans c f)[x] = if x = c then f k.chans[c] else k.chans[x] := getElem_modifyAt ..

/-- A channel may pass from one resting supply state to another (R97, R98). -/
theorem Ink.Law.settle (l : k.Law) (was : k.chans[c].supply.atRest) (now : (f k.chans[c]).supply.atRest)
    (pump : (f k.chans[c]).pump = k.chans[c].pump) : ({ k with chans := modifyAt k.chans c f } : Ink).Law where
  pump := fun x => by
    simp only [chans_modify]
    split
    · next e => subst e; rw [pump, l.pump]; exact iff_of_false was.2 now.2
    · exact l.pump x
  grant := fun x => by
    simp only [chans_modify]
    split
    · next e => subst e; exact iff_of_false now.2 fun h => was.2 ((l.grant x).2 h)
    · exact l.grant x
  once := l.once
  waiting := fun x => by
    simp only [chans_modify]
    split
    · next e => subst e; exact iff_of_false now.1 fun h => was.1 ((l.waiting x).2 h)
    · exact l.waiting x
  nodup := l.nodup

/-- A WAITING channel leaves the wait list with its state (R94, R97). -/
theorem Ink.Law.leaveWait (l : k.Law) (was : k.chans[c].supply = .waiting) (now : (f k.chans[c]).supply.atRest)
    (pump : (f k.chans[c]).pump = k.chans[c].pump) :
    ({ k with chans := modifyAt k.chans c f, wait := k.wait.erase c } : Ink).Law := by
  have still : k.chans[c].supply ≠ .refilling := by rw [was]; simp
  refine ⟨fun x => ?_, fun x => ?_, l.once, fun x => ?_, l.nodup.erase c⟩
  · simp only [chans_modify]
    split
    · next e => subst e; rw [pump, l.pump]; exact iff_of_false still now.2
    · exact l.pump x
  · simp only [chans_modify]
    split
    · next e => subst e; exact iff_of_false now.2 fun h => still ((l.grant x).2 h)
    · exact l.grant x
  · simp only [chans_modify, l.nodup.mem_erase_iff]
    split
    · next e => subst e; exact iff_of_false now.1 fun h => h.1 rfl
    · next e => rw [l.waiting x]; simp [e]

/-- A READY channel joins the end of the wait list (R103). -/
theorem Ink.Law.joinWait (l : k.Law) (was : k.chans[c].supply.atRest) (now : (f k.chans[c]).supply = .waiting)
    (pump : (f k.chans[c]).pump = k.chans[c].pump) :
    ({ k with chans := modifyAt k.chans c f, wait := k.wait ++ [c] } : Ink).Law := by
  have out : c ∉ k.wait := fun h => was.1 ((l.waiting c).2 h)
  have still : (f k.chans[c]).supply ≠ .refilling := by rw [now]; simp
  refine ⟨fun x => ?_, fun x => ?_, l.once, fun x => ?_, ?_⟩
  · simp only [chans_modify]
    split
    · next e => subst e; rw [pump, l.pump]; exact iff_of_false was.2 still
    · exact l.pump x
  · simp only [chans_modify]
    split
    · next e => subst e; exact iff_of_false still fun h => was.2 ((l.grant x).2 h)
    · exact l.grant x
  · simp only [chans_modify, List.mem_append, List.mem_singleton]
    split
    · next e => subst e; exact iff_of_true now (Or.inr rfl)
    · next e => rw [l.waiting x]; simp [e]
  · exact List.nodup_append.2 ⟨l.nodup, by simp, fun a ha b hb e => out (by simp_all)⟩

/-- A WAITING channel takes a free grant, and its pump turns on (R104). -/
theorem Ink.Law.takeGrant (l : k.Law) {g : Fin 3} (free : k.grants[g] = none) (was : k.chans[c].supply = .waiting)
    (now : (f k.chans[c]).supply = .refilling) (pump : (f k.chans[c]).pump = true) :
    ({ k with chans := modifyAt k.chans c f, wait := k.wait.erase c, grants := k.grants.set g (some c) } : Ink).Law := by
  have still : k.chans[c].supply ≠ .refilling := by rw [was]; simp
  have quit : (f k.chans[c]).supply ≠ .waiting := by rw [now]; simp
  have at_ : ∀ h : Fin 3, (k.grants.set g (some c))[h] = if h = g then some c else k.grants[h] :=
    fun h => getElem_modifyAt k.grants g h fun _ => some c
  have none_ : ∀ h : Fin 3, k.grants[h] ≠ some c := fun h e => still ((l.grant c).2 ⟨h, e⟩)
  refine ⟨fun x => ?_, fun x => ?_, fun a b x ha hb => ?_, fun x => ?_, l.nodup.erase c⟩
  · simp only [chans_modify]
    split
    · next e => subst e; exact iff_of_true pump now
    · exact l.pump x
  · simp only [chans_modify, at_]
    split
    · next e => subst e; exact iff_of_true now ⟨g, if_pos rfl⟩
    · next e =>
      rw [l.grant x]
      refine ⟨fun ⟨h, hh⟩ => ⟨h, ?_⟩, fun ⟨h, hh⟩ => ⟨h, ?_⟩⟩
      · have : h ≠ g := fun e => by rw [e, free] at hh; exact absurd hh (by simp)
        rwa [if_neg this]
      · by_cases e' : h = g
        · rw [if_pos e', Option.some.injEq] at hh; exact absurd hh.symm e
        · rwa [if_neg e'] at hh
  · simp only [at_] at ha hb
    by_cases e : a = g <;> by_cases e' : b = g
    · rw [e, e']
    · rw [if_pos e, Option.some.injEq] at ha
      rw [if_neg e', ← ha] at hb
      exact absurd hb (none_ b)
    · rw [if_pos e', Option.some.injEq] at hb
      rw [if_neg e, ← hb] at ha
      exact absurd ha (none_ a)
    · rw [if_neg e] at ha
      rw [if_neg e'] at hb
      exact l.once a b x ha hb
  · simp only [chans_modify, l.nodup.mem_erase_iff]
    split
    · next e => subst e; exact iff_of_false quit fun h => h.1 rfl
    · next e => rw [l.waiting x]; simp [e]

/-- A REFILLING channel gives its grant up, and its pump turns off (R104, R107). -/
theorem Ink.Law.dropGrant (l : k.Law) (was : k.chans[c].supply = .refilling) (now : (f k.chans[c]).supply.atRest)
    (pump : (f k.chans[c]).pump = false) :
    ({ k with chans := modifyAt k.chans c f, grants := k.grants.map fun g => if g = some c then none else g } : Ink).Law := by
  have still : k.chans[c].supply ≠ .waiting := by rw [was]; simp
  have off : (f k.chans[c]).pump ≠ true := by rw [pump]; simp
  have at_ : ∀ h : Fin 3, (k.grants.map fun g => if g = some c then none else g)[h]
      = if k.grants[h] = some c then none else k.grants[h] := fun h => by simp
  refine ⟨fun x => ?_, fun x => ?_, fun a b x ha hb => ?_, fun x => ?_, l.nodup⟩
  · simp only [chans_modify]
    split
    · next e => subst e; exact iff_of_false off now.2
    · exact l.pump x
  · simp only [chans_modify, at_]
    split
    · next e =>
      subst e
      refine iff_of_false now.2 fun ⟨h, hh⟩ => ?_
      split at hh
      · simp at hh
      · next e => exact e hh
    · next e =>
      rw [l.grant x]
      refine exists_congr fun h => ?_
      split
      · next e' => rw [e', Option.some.injEq]; exact iff_of_false (Ne.symm e) (by simp)
      · rfl
  · simp only [at_] at ha hb
    split at ha
    · simp at ha
    · split at hb
      · simp at hb
      · exact l.once a b x ha hb
  · simp only [chans_modify]
    split
    · next e => subst e; rw [← l.waiting x]; exact iff_of_false now.1 still
    · exact l.waiting x

end Law

/-! ### The operations -/

/-- An operation on each channel keeps what it keeps on one. -/
theorem eachChan_keeps {f : State → Chan → State} (h : ∀ s c, Keeps s (f s c)) (s : State) : Keeps s (eachChan f s) :=
  Keeps.foldl f h _ s

theorem noticeChannels_keeps (before : Vector Channel 10) (s : State) : Keeps s (noticeChannels before s) := by
  refine eachChan_keeps (fun t c => ?_) s
  dsimp only
  split
  · exact Keeps.refl t
  · exact notify_keeps _ t

/-- A refill ends without a leak check (R107). -/
theorem stopPump_keeps {c : Chan} {supply : Supply} {s : State} (was : s.ink.chans[c].supply = .refilling)
    (now : supply.atRest) : Keeps s (stopPump c supply s) :=
  ⟨⟨rfl, rfl, rfl, rfl, id, fun l => l.dropGrant
    (f := fun x => { x with supply := supply, pump := false, strokeLeft := none, progress := none }) was now rfl, id, id, id, id, id, id⟩, id⟩

/-- A refill ends with its leak check (R107). -/
theorem endRefill_keeps {c : Chan} {supply : Supply} {s : State} (was : s.ink.chans[c].supply = .refilling)
    (now : supply.atRest) : Keeps s (endRefill c supply s) := by
  unfold endRefill
  refine Keeps.trans ?_ (setChan_keeps _)
  exact (stopPump_keeps was now).trans (leakCheck_keeps _ _)

theorem refillTest_keeps (s : State) (c : Chan) : Keeps s (refillTest s c) := by
  unfold refillTest
  split
  · next h =>
    have r : s.ink.chans[c].supply = .ready := by
      simp only [Channel.needsRefill, Bool.and_eq_true, decide_eq_true_eq] at h
      exact h.1.1.1
    have rest : s.ink.chans[c].supply.atRest := by rw [r]; simp [Supply.atRest]
    exact ⟨⟨rfl, rfl, rfl, rfl, id, fun l => l.joinWait (f := fun x => { x with supply := .waiting }) rest rfl rfl, id, id, id, id, id, id⟩, id⟩
  · exact Keeps.refl s

/-- The arbiter's choice is among the waiting channels (R104). -/
theorem Ink.lowestWaiting_mem {k : Ink} {c : Chan} (h : k.lowestWaiting = some c) : c ∈ k.wait := by
  have key : ∀ (xs : List Chan) (best : Option Chan), (∀ x ∈ xs, x ∈ k.wait) → (∀ b, best = some b → b ∈ k.wait) →
      ∀ b, xs.foldl (fun best c =>
        match best with
        | none => some c
        | some b => if k.chans[c].level < k.chans[b].level then some c else some b) best = some b → b ∈ k.wait := by
    intro xs
    induction xs with
    | nil => intro best _ hb b e; exact hb b e
    | cons x xs ih =>
      intro best hx hb b e
      refine ih _ (fun y hy => hx y (by simp [hy])) (fun y hy => ?_) b e
      have hxw := hx x (by simp)
      dsimp only at hy
      split at hy
      · rw [Option.some.injEq] at hy; exact hy ▸ hxw
      · split at hy
        · rw [Option.some.injEq] at hy; exact hy ▸ hxw
        · rw [Option.some.injEq] at hy; exact hy ▸ hb _ rfl
  refine key _ none (fun x hx => ?_) (by simp) c h
  simpa using (List.mem_filter.1 hx).2

theorem Ink.freeGrant_free {k : Ink} {g : Fin 3} (h : k.freeGrant = some g) : k.grants[g] = none := by
  have := List.find?_some h
  simpa using this

theorem grantOne_keeps (s : State) : Keeps s (grantOne s) := by
  unfold grantOne
  split
  · next g c hg hc =>
    refine ⟨⟨rfl, rfl, rfl, rfl, id, fun l => ?_, id, id, id, id, id, id⟩, id⟩
    exact l.takeGrant (f := fun x =>
      { x with supply := .refilling, levelBegin := x.level, progress := some { strokes := 0, ring := [x.level] },
               pump := true, strokeLeft := some Config.pumpMs })
      (Ink.freeGrant_free hg) ((l.waiting c).2 (Ink.lowestWaiting_mem hc)) rfl rfl
  · exact Keeps.refl s

/-- The pump arbiter keeps every law (R104). -/
theorem arbiter_keeps (s : State) : Keeps s (arbiter s) :=
  ((grantOne_keeps s).trans (grantOne_keeps _)).trans (grantOne_keeps _)

/-! ### The scan -/

theorem faultRefill_keeps (s : State) (c : Chan) : Keeps s (faultRefill s c) := by
  unfold faultRefill
  dsimp only
  split
  · split
    · next h =>
      exact ⟨⟨rfl, rfl, rfl, rfl, id, fun l => l.leaveWait (f := fun x => { x with supply := .ready }) h
        (by simp [Supply.atRest]) rfl, id, id, id, id, id, id⟩, id⟩
    · next h => exact stopPump_keeps h (by simp [Supply.atRest])
    · exact Keeps.refl s
  · exact Keeps.refl s

/-- The cartridge inputs keep every law (R97). -/
theorem cartInput_keeps (cart : Vector Bool 10) (s : State) (c : Chan) : Keeps s (cartInput cart s c) := by
  unfold cartInput
  dsimp only
  split
  · split
    · next h =>
      have rest : s.ink.chans[c].supply.atRest := by rw [h]; simp [Supply.atRest]
      exact keeps_mapInk fun l => l.settle (f := fun x => { x with supply := .undeclared }) rest
        (by simp [Supply.atRest]) rfl
    · exact Keeps.refl s
  · split
    · exact Keeps.refl s
    · next h =>
      refine Keeps.trans ?_ (setChan_keeps _)
      exact stopPump_keeps h (by simp [Supply.atRest])
    · next h =>
      exact ⟨⟨rfl, rfl, rfl, rfl, id, fun l => l.leaveWait
        (f := fun x => { x with supply := .unfitted, cart := none }) h (by simp [Supply.atRest]) rfl,
        id, id, id, id, id, id⟩, id⟩
    · next h₁ h₂ h₃ => 
      exact keeps_mapInk fun l => l.settle (f := fun x => { x with supply := .unfitted, cart := none }) ⟨h₃, h₂⟩
        (by simp [Supply.atRest]) rfl

theorem scanEnding_keeps (s : State) (c : Chan) : Keeps s (scanEnding s c) := by
  unfold scanEnding
  dsimp only
  split
  · next h => exact endRefill_keeps h.1 (by simp [Supply.atRest])
  · exact Keeps.refl s

theorem Ink.Law.readAll {k : Ink} (l : k.Law) (first : Bool) (ain : Vector (BitVec 10) 11) : (k.readAll first ain).Law :=
  l.congr (fun c => by simp [Ink.readAll, Ink.readHumidity, Channel.read])
    (fun c => by simp [Ink.readAll, Ink.readHumidity, Channel.read]) rfl rfl

theorem Ink.Law.measureAll {k : Ink} (l : k.Law) (first : Bool) : (k.measureAll first).Law :=
  l.congr (fun c => by simp [Ink.measureAll, Channel.measure]) (fun c => by simp [Ink.measureAll, Channel.measure]) rfl rfl

theorem Ink.Law.markAbove {k : Ink} (l : k.Law) : k.markAbove.Law :=
  l.congr (fun c => by simp [Ink.markAbove]) (fun c => by simp [Ink.markAbove]) rfl rfl

/-- A scan keeps every law (R92). -/
theorem scanAll_keeps (ain : Vector (BitVec 10) 11) (cart : Vector Bool 10) (s : State) : Keeps s (scanAll ain cart s) := by
  unfold scanAll
  dsimp only
  generalize (!s.ink.scanned) = first
  have base : Keeps s (arbiter (eachChan refillTest (eachChan scanEnding (eachChan (cartInput cart)
      ((eachChan faultRefill (s.mapInk (Ink.readAll first ain))).mapInk (Ink.measureAll first)))))) := by
    refine Keeps.trans ?_ (arbiter_keeps _)
    refine Keeps.trans ?_ (eachChan_keeps refillTest_keeps _)
    refine Keeps.trans ?_ (eachChan_keeps scanEnding_keeps _)
    refine Keeps.trans ?_ (eachChan_keeps (cartInput_keeps cart) _)
    refine Keeps.trans ?_ (keeps_mapInk fun l => l.measureAll first)
    refine Keeps.trans ?_ (eachChan_keeps faultRefill_keeps _)
    exact keeps_mapInk fun l => l.readAll first ain
  generalize arbiter _ = t at base
  have noticed := (base.trans (keeps_mapInk fun l => l.markAbove)).trans (noticeChannels_keeps s.ink.chans _)
  split
  · exact noticed.trans (resumeTest_keeps _)
  · exact noticed

/-! ### Strokes and requests -/

/-- A stroke keeps every law (R105, R106). -/
theorem strokePump_keeps (c : Chan) (s : State) : Keeps s (strokePump c s) := by
  unfold strokePump
  dsimp only
  split
  · next h =>
    refine Keeps.trans (t := setChan c Channel.stroke s) (setChan_keeps s) ?_
    have r : (setChan c Channel.stroke s).ink.chans[c].supply = .refilling := by
      change (modifyAt s.ink.chans c Channel.stroke)[c].supply = _
      rw [getElem_modifyAt]
      simpa [Channel.stroke] using h
    refine Keeps.trans ?_ (noticeChannels_keeps _ _)
    split
    · refine Keeps.trans ?_ (arbiter_keeps _)
      refine Keeps.trans (t := setChan c Channel.failed (setChan c Channel.stroke s)) (setChan_keeps _) ?_
      refine endRefill_keeps ?_ (by simp [Supply.atRest])
      change (modifyAt (setChan c Channel.stroke s).ink.chans c Channel.failed)[c].supply = _
      rw [getElem_modifyAt]
      simpa [Channel.failed] using r
    · split
      · exact (endRefill_keeps r (by simp [Supply.atRest])).trans (arbiter_keeps _)
      · exact Keeps.refl _
  · exact Keeps.refl s

/-- FIT_CARTRIDGE keeps every law (R98). -/
theorem fitCartridge_keeps {c : Chan} (k : Cartridge) {s : State} (h : s.ink.chans[c].supply = .undeclared) :
    Keeps s (fitCartridge c k s) := by
  unfold fitCartridge
  dsimp only
  refine Keeps.trans ?_ (settleDrift_keeps _ _)
  refine Keeps.trans ?_ (noticeChannels_keeps _ _)
  refine Keeps.trans ?_ (arbiter_keeps _)
  refine Keeps.trans ?_ (refillTest_keeps _ _)
  refine Keeps.trans ?_ (notify_keeps _ _)
  refine Keeps.trans ?_ (keeps_mapDrift _)
  refine Keeps.trans ?_ (keeps_mapAcct _)
  have rest : s.ink.chans[c].supply.atRest := by rw [h]; simp [Supply.atRest]
  exact keeps_mapInk fun l => l.settle (f := fun x =>
    { x with cart := some k, supply := if 0 < k.remaining then .ready else .empty, levelEnd := x.level,
             sticky := if k.isLow then { x.sticky with cartLow := true } else x.sticky }) rest
    (by dsimp only; split <;> simp [Supply.atRest]) rfl

/-- SET_INK_PROFILE keeps every law (R102). -/
theorem setProfile_keeps (c : Chan) (p : InkProfile) (s : State) : Keeps s (setProfile c p s) := by
  have base : Keeps s (noticeChannels s.ink.chans (arbiter (refillTest (notify (.channel c)
      (setChan c (Channel.withProfile p) s)) c))) := by
    refine Keeps.trans ?_ (noticeChannels_keeps _ _)
    refine Keeps.trans ?_ (arbiter_keeps _)
    refine Keeps.trans ?_ (refillTest_keeps _ _)
    refine Keeps.trans ?_ (notify_keeps _ _)
    exact setChan_keeps s
  unfold setProfile
  dsimp only
  split
  · exact base.trans (resumeTest_keeps _)
  · exact base

theorem clearSticky_keeps (s : State) (c : Chan) : Keeps s (clearSticky s c) := by
  unfold clearSticky
  dsimp only
  split
  · exact Keeps.refl s
  · refine Keeps.trans ?_ (notify_keeps _ _)
    exact setChan_keeps s

end Sys2Proof.Machine
end

