-- ==== Sys2Proof/Laws/Submit.lean ====
section
/-!
SUPPORT. What the acceptance of a job keeps (R9, R112, R167).
-/

-- One theorem after another: waiting proofs would each hold a thread.
set_option Elab.async false

namespace Sys2Proof.Machine

/-- The price references of R167 when a job that names a slot is accepted. -/
theorem accept_price {s : State} {i : JobIx} {j : Job} (h : s.jobs.slots[i] = .free) (q : List JobIx)
    (l : s.PriceLaw) :
    ((s.mapJobs fun t => { t with slots := t.slots.set i (.live j), order := q }).mapCost fun k =>
      { k with slots := modifyAt k.slots j.priceSlot fun p => { p with refs := p.refs + 1 } }).PriceLaw := fun p => by
  have hp := l p
  have hc := countP_set (Slot.names p) s.jobs.slots i (.live j)
  rw [h] at hc
  have e : (s.jobs.slots.set i (.live j)).toList.countP (Slot.names p)
      = s.jobs.slots.toList.countP (Slot.names p) + (j.priceSlot == p).toNat := by
    simpa only [Slot.names, Bool.toNat_false, Nat.add_zero] using hc
  change (modifyAt s.cost.slots j.priceSlot fun x => { x with refs := x.refs + 1 })[p].refs
    = (s.jobs.slots.set i (.live j)).toList.countP (Slot.names p) + (if s.cost.current = some p then 1 else 0)
  rw [e, getElem_modifyAt]
  by_cases hj : p = j.priceSlot
  · subst hj
    simp only [beq_self_eq_true, Bool.toNat_true, if_true]
    omega
  · simp only [hj, if_false, beq_eq_false_iff_ne.2 (Ne.symm hj), Bool.toNat_false]
    omega

/-- An acceptance keeps every law where the slot was FREE (R9). -/
theorem acceptJob_keeps {i : JobIx} {j : Job} {s : State} (h : s.jobs.slots[i] = .free) (ink : j.inkLaw) :
    Keeps s (acceptJob i j s) := by
  have table : s.jobs.Law →
      JobTable.Law { s.jobs with slots := s.jobs.slots.set i (.live j), order := s.jobs.order ++ [i] } := by
    intro l k j' hk
    by_cases e : i = k
    · subst e
      simp only [Fin.getElem_fin, Vector.getElem_set_self, Slot.live.injEq] at hk
      subst hk
      exact ink
    · have : (i : Nat) ≠ k := fun h => e (Fin.ext h)
      simp only [Fin.getElem_fin] at hk
      rw [Vector.getElem_set_ne _ _ this] at hk
      exact l k j' hk
  unfold acceptJob
  dsimp only
  refine Keeps.trans ?_ (notify_keeps _ _)
  cases j.edition with
  | none =>
    exact ⟨⟨rfl, rfl, rfl, rfl, id, id, id, fun l => ⟨l.room, l.full⟩, table, id, id, accept_price h _⟩, id⟩
  | some x =>
    exact ⟨⟨rfl, rfl, rfl, rfl, id, id, (reserve_keeps x.slot x.copy s).ed, fun l => ⟨l.room, l.full⟩, table, id, id,
      accept_price h _⟩, id⟩

theorem State.slotsWhere_mem {s : State} {p : Slot → Bool} {i : JobIx} {xs : List JobIx} (h : s.slotsWhere p = i :: xs) :
    p s.jobs.slots[i] = true := by
  have : i ∈ s.slotsWhere p := by rw [h]; simp
  unfold State.slotsWhere at this
  exact (List.mem_filter.1 this).2

/-- The lowest FREE slot is FREE. -/
theorem State.free_slot {s : State} {i : JobIx} {xs : List JobIx} (h : s.slotsWhere Slot.isFree = i :: xs) :
    s.jobs.slots[i] = .free := by
  have := State.slotsWhere_mem h
  cases e : s.jobs.slots[i] with
  | free => rfl
  | live j => rw [e] at this; simp [Slot.isFree] at this
  | releasing j => rw [e] at this; simp [Slot.isFree] at this

theorem newJob_ink (s : State) (o : JobOrder) (mode : ColourMode) (est : List (Chan × Nat)) (ed : Option (EdIx × Nat))
    (g : Option Geometry) (forced : Bool) (price : PriceIx) : (newJob s o mode est ed g forced price).inkLaw :=
  freshEntries_law est

/-- SUBMIT_JOB keeps every law (R5 to R9). -/
theorem submitOwner_keeps (o : JobOrder) (s : State) : Keeps s (submitOwner o s).1 := by
  unfold submitOwner
  split
  · exact Keeps.refl s
  · split
    · exact Keeps.refl s
    · split
      · exact Keeps.refl s
      · next i _ hi =>
        split
        · exact Keeps.refl s
        · split
          · exact Keeps.refl s
          · split
            · exact Keeps.refl s
            · split
              · exact Keeps.refl s
              · unfold submitLast
                split
                · dsimp only
                  split
                  · exact (acceptJob_keeps (State.free_slot hi) (newJob_ink _ _ _ _ _ _ _ _)).trans (startEval_keeps _)
                  · exact Keeps.refl s
                · exact Keeps.refl s

end Sys2Proof.Machine
end

