-- ==== Sys2Proof/Laws/Owners.lean ====
section
/-!
SUPPORT. What the owner of each request keeps (section 11.5).
-/

-- One theorem after another: waiting proofs would each hold a thread.
set_option Elab.async false

namespace Sys2Proof.Machine

/-! ### Host link -/

/-- COUNTERS clears counters and changes nothing else (R187). -/
theorem countersOwner_keeps (group clear : Byte) (s : State) : Keeps s (countersOwner group clear s).1 := by
  unfold countersOwner
  split
  · exact Keeps.refl s
  · split
    · dsimp only
      split
      · exact keeps_mapHost rfl rfl rfl fun l => { l with counts := by simp }
      · exact Keeps.refl s
    · split
      · dsimp only
        split
        · exact keeps_mapEng fun l => by simp [EngineLink.Law]
        · exact Keeps.refl s
      · split
        · dsimp only
          split
          · exact keeps_mapChk fun l => by simp [CheckCounters.Law, CheckCounters.zero]
          · exact Keeps.refl s
        · exact Keeps.refl s

theorem restartOwner_keeps (s : State) : Keeps s (restartOwner s).1 :=
  keeps_mapHost (f := fun h => { h with restart := .replyWaiting }) rfl rfl rfl fun l => { l with }

/-! ### Jobs -/

theorem cancelOwner_keeps (tag : U16) (s : State) : Keeps s (cancelOwner tag s).1 := by
  unfold cancelOwner
  split
  · split
    · exact Keeps.refl s
    · exact cancelJob_keeps _ _ s
  · exact Keeps.refl s

theorem queryJobOwner_keeps (tag : U16) (s : State) : Keeps s (queryJobOwner tag s).1 := by
  unfold queryJobOwner
  split <;> exact Keeps.refl s

/-! ### Editions -/

theorem openOwner_keeps (id : U32) (limit : U16) (s : State) : Keeps s (openOwner id limit s).1 := by
  unfold openOwner
  split
  · exact Keeps.refl s
  · split
    · exact Keeps.refl s
    · split
      · exact Keeps.refl s
      · split
        · exact Keeps.refl s
        · exact changeSlot_keeps _ _ s

theorem closeOwner_keeps (id : U32) (slot : Byte) (s : State) : Keeps s (closeOwner id slot s).1 := by
  unfold closeOwner
  split
  · exact Keeps.refl s
  · split
    · exact Keeps.refl s
    · split
      · exact changeSlot_keeps _ _ s
      · exact Keeps.refl s

theorem removeOwner_keeps (id : U32) (slot : Byte) (s : State) : Keeps s (removeOwner id slot s).1 := by
  unfold removeOwner
  split
  · exact Keeps.refl s
  · split
    · exact Keeps.refl s
    · split
      · refine Keeps.trans ?_ (changeSlot_keeps _ _ _)
        exact keeps_mapEd fun l => l.congr rfl rfl rfl rfl rfl rfl rfl
      · exact Keeps.refl s

theorem queryEditionOwner_keeps (id : U32) (slot : Byte) (s : State) : Keeps s (queryEditionOwner id slot s).1 := by
  unfold queryEditionOwner
  split
  · exact Keeps.refl s
  · split <;> exact Keeps.refl s

/-! ### Feed axis and roll -/

theorem feedProfileOwner_keeps (a : FeedProfileArgs) (s : State) : Keeps s (feedProfileOwner a s).1 := by
  unfold feedProfileOwner
  split
  · exact Keeps.refl s
  · split
    · exact Keeps.refl s
    · split
      · refine Keeps.trans ?_ (notify_keeps _ _)
        exact keeps_feedFields rfl rfl rfl rfl rfl rfl rfl
      · exact Keeps.refl s

theorem clearFeedOwner_keeps (s : State) : Keeps s (clearFeedOwner s).1 := by
  unfold clearFeedOwner
  split
  · next h =>
    refine Keeps.trans ?_ (notify_keeps _ _)
    refine keeps_mapFeed fun l => ?_
    obtain ⟨-, -, m, t, c, o⟩ := l.stopped (Or.inr h.1)
    exact Feed.Law.atRest (by simp [Feed.outputsOff]) (by simp [Feed.outputsOff]) (by simpa [Feed.outputsOff] using m)
      (by simpa [Feed.outputsOff] using t) (by simpa [Feed.outputsOff] using c) (by simpa [Feed.outputsOff] using o)
  · exact Keeps.refl s

theorem holdRule_feed (s : State) : (holdRule s).feed = s.feed := by
  have step : ∀ (t : State) (i : JobIx), (holdStep t i).feed = t.feed := fun t i => by
    unfold holdStep
    split
    · split
      · simp only [holdMedia, changeJob, notify, setJob, State.mapHost_feed]
        split <;> rfl
      · rfl
    · rfl
  have fold : ∀ (xs : List JobIx) (t : State), (xs.foldl holdStep t).feed = t.feed := by
    intro xs
    induction xs with
    | nil => intro t; rfl
    | cons x xs ih => intro t; exact (ih _).trans (step t x)
  unfold holdRule lowerPath
  split
  · dsimp only
    split
    · simp only [setJob]
      split <;> exact fold _ s
    · exact fold _ s
  · exact fold _ s

/-- LOAD_ROLL keeps every law from UNREFERENCED (R75, R76). -/
theorem loadRoll_keeps (id declared : Nat) (mt : Fin 8) {s : State} (h : s.feed.axis = .unreferenced) :
    Keeps s (loadRoll id declared mt s) := by
  unfold loadRoll
  dsimp only
  have e : (holdRule (s.mapFeed fun f => { f with roll := Roll.loading id declared mt })).feed
      = { s.feed with roll := Roll.loading id declared mt } := holdRule_feed _
  have begun : Rest s (notify .feedAxis ((holdRule (s.mapFeed fun f =>
      { f with roll := Roll.loading id declared mt })).mapFeed fun f =>
        { f with axis := .loading, load := some (.search f.pos) })) := by
    refine Rest.trans ?_ (notify_keeps _ _).toRest
    refine Rest.trans ?_ (rest_mapFeed _)
    refine Rest.trans ?_ (holdRule_keeps _).toRest
    exact rest_mapFeed _
  refine ⟨?_, fun l => ?_⟩
  · split
    · exact begun.trans (edgeReference_rest _)
    · exact begun.trans (rest_mapFeed _)
  · obtain ⟨d, k, m, t, c, o⟩ := l.stopped (Or.inl h)
    have f₁ : ((holdRule (s.mapFeed fun f => { f with roll := Roll.loading id declared mt })).mapFeed fun f =>
        { f with axis := .loading, load := some (.search f.pos) }).feed
        = { s.feed with roll := Roll.loading id declared mt, axis := .loading, load := some (.search s.feed.pos) } := by
      simp only [State.mapFeed_feed, e]
    split
    · refine edgeReference_feed ?_ ?_ ?_ ?_ ?_ <;> simp only [notify, State.mapHost_feed, f₁, m, t, k, c]
    · simp only [State.mapFeed_feed, notify, State.mapHost_feed, e]
      refine ⟨by simp, by simp [m], by simp [m], by simp [t], by simp [k], by simp [c], by simp [m, c], by simp⟩

theorem loadRollOwner_keeps (id : U32) (mt : Byte) (declared : U32) (s : State) :
    Keeps s (loadRollOwner id mt declared s).1 := by
  unfold loadRollOwner
  split
  · exact Keeps.refl s
  · next h =>
    split
    · split
      · exact loadRoll_keeps _ _ _ (by simpa using h)
      · exact Keeps.refl s
    · exact Keeps.refl s

theorem Feed.Law.unload {f : Feed} (l : f.Law) : f.unload.Law := by
  unfold Feed.unload
  split
  · next h =>
    obtain ⟨-, -, m, t, c, o⟩ := l.idle h
    exact Feed.Law.atRest (by simp [Feed.outputsOff]) (by simp [Feed.outputsOff]) (by simpa [Feed.outputsOff] using m)
      (by simpa [Feed.outputsOff] using t) (by simpa [Feed.outputsOff] using c) (by simpa [Feed.outputsOff] using o)
  · exact l.congr rfl rfl rfl rfl rfl rfl rfl

theorem unloadOwner_keeps (s : State) : Keeps s (unloadOwner s).1 := by
  unfold unloadOwner
  split
  · exact (keeps_mapFeed fun l => l.unload).trans (notify_keeps _ _)
  · exact Keeps.refl s

theorem jogOwner_keeps (mm : U16) (s : State) : Keeps s (jogOwner mm s).1 := by
  unfold jogOwner
  split
  · exact Keeps.refl s
  · split
    · exact Keeps.refl s
    · split
      · exact Keeps.refl s
      · next h => exact (requestMove_to (by simp) h).trans (notify_keeps _ _)
      · next h => exact requestMove_to (by simp) h

theorem trimOwner_keeps (mode : Byte) (value : U16) (s : State) : Keeps s (trimOwner mode value s).1 := by
  unfold trimOwner
  split
  · refine Keeps.trans ?_ (notify_keeps _ _)
    refine keeps_feedFields ?_ ?_ ?_ ?_ ?_ ?_ ?_ <;> (unfold Feed.setTrim; split <;> rfl)
  · exact Keeps.refl s

/-! ### Ink -/

theorem fitOwner_keeps (ch : Byte) (capacity remaining lot : U32) (s : State) :
    Keeps s (fitOwner ch capacity remaining lot s).1 := by
  unfold fitOwner
  split
  · exact Keeps.refl s
  · split
    · exact Keeps.refl s
    · split
      · next h => exact fitCartridge_keeps _ h
      · exact Keeps.refl s

theorem inkStatusOwner_keeps (sel clear : Byte) (s : State) : Keeps s (inkStatusOwner sel clear s).1 := by
  unfold inkStatusOwner
  split
  · next cs c _ _ =>
    dsimp only
    split
    · exact Keeps.foldl clearSticky clearSticky_keeps cs s
    · exact Keeps.refl s
  · exact Keeps.refl s

theorem inkProfileOwner_keeps (ch : Byte) (a : InkProfileArgs) (s : State) : Keeps s (inkProfileOwner ch a s).1 := by
  unfold inkProfileOwner
  split
  · split
    · exact Keeps.refl s
    · exact setProfile_keeps _ _ s
  · exact Keeps.refl s

/-! ### Colour checker and drift -/

theorem applyPatch_keeps (x : State × Bytes) (u : PatchUpdate) : Keeps x.1 (applyPatch x u).1 := by
  unfold applyPatch
  split
  · exact Keeps.refl _
  · split
    · exact Keeps.refl _
    · dsimp only
      exact keeps_mapChk fun l => l
  · dsimp only
    exact keeps_mapChk fun l => l

theorem applyPatches_keeps : ∀ (us : List PatchUpdate) (x : State × Bytes), Keeps x.1 (us.foldl applyPatch x).1
  | [], x => Keeps.refl x.1
  | u :: us, x => (applyPatch_keeps x u).trans (applyPatches_keeps us (applyPatch x u))

theorem patchesOwner_keeps (us : List PatchUpdate) (s : State) : Keeps s (patchesOwner us s).1 := by
  unfold patchesOwner
  split
  · exact Keeps.refl s
  · split
    · exact Keeps.refl s
    · have := applyPatches_keeps us (s, [])
      dsimp only
      split
      · exact this.trans (notify_keeps _ _)
      · exact this

theorem stripProfileOwner_keeps (a : StripProfileArgs) (s : State) : Keeps s (stripProfileOwner a s).1 := by
  unfold stripProfileOwner
  split
  · exact Keeps.refl s
  · split
    · exact Keeps.refl s
    · split
      · refine Keeps.trans ?_ (notify_keeps _ _)
        exact keeps_mapChk fun l => l
      · exact Keeps.refl s

theorem driftLimitsOwner_keeps (warn out : U16) (s : State) : Keeps s (driftLimitsOwner warn out s).1 := by
  unfold driftLimitsOwner
  split
  · exact changeDrift_keeps _ s
  · exact Keeps.refl s

theorem recalibratedOwner_keeps (ch : Byte) (s : State) : Keeps s (recalibratedOwner ch s).1 := by
  unfold recalibratedOwner
  split
  · exact Keeps.refl s
  · split
    · exact Keeps.refl s
    · exact changeDrift_keeps _ s

/-! ### Costs -/

theorem Cost.openSlot_free {k : Cost} {p : PriceIx} (h : k.openSlot = some p) :
    k.current ≠ some p ∧ k.slots[p].refs = 0 := by
  have := List.find?_some h
  simpa using this

/-- The slot that becomes current has one reference (R168). -/
theorem Cost.load_refs_new (p : PriceIx) (l : Prices) (k : Cost) : (Cost.load p l k).slots[p].refs = 1 := by
  simp [Cost.load]

/-- The former current slot loses one reference, and every other slot keeps its own (R168). -/
theorem Cost.load_refs_old {p x : PriceIx} (l : Prices) (k : Cost) (e : x ≠ p) :
    (Cost.load p l k).slots[x].refs = k.slots[x].refs - (if k.current = some x then 1 else 0) := by
  have hv : (p : Nat) ≠ x := fun h => e (Fin.ext h.symm)
  rcases k with ⟨slots, _ | q, gen, log, waiting, critical, overhead⟩
  · simp only [Cost.load, Fin.getElem_fin]
    rw [Vector.getElem_set_ne _ _ hv]
    simp
  · simp only [Cost.load, Cost.dropRef]
    have := getElem_modifyAt slots q x fun y => { y with refs := y.refs - 1 }
    simp only [Fin.getElem_fin] at this ⊢
    rw [Vector.getElem_set_ne _ _ hv, this]
    by_cases h : x = q
    · subst h; simp
    · simp [h, Ne.symm h]

/-- The price references of R167 when a list becomes current (R168). -/
theorem load_price {s : State} {p : PriceIx} (l : Prices) (h : s.cost.openSlot = some p) (law : s.PriceLaw) :
    (s.mapCost (Cost.load p l)).PriceLaw := fun x => by
  obtain ⟨hc, hr⟩ := Cost.openSlot_free h
  have hx := law x
  have hp := law p
  rw [hr, if_neg hc] at hp
  change (Cost.load p l s.cost).slots[x].refs = s.jobs.slots.toList.countP (Slot.names x)
    + (if some p = some x then 1 else 0)
  by_cases e : x = p
  · subst e
    rw [Cost.load_refs_new, if_pos rfl]
    omega
  · rw [Cost.load_refs_old l _ e, if_neg (fun h => e (Option.some.inj h).symm), hx]
    omega

theorem loadPricesOwner_keeps (a : PriceArgs) (s : State) : Keeps s (loadPricesOwner a s).1 := by
  unfold loadPricesOwner
  split
  · exact Keeps.refl s
  · split
    · exact Keeps.refl s
    · next p hp =>
      refine ⟨⟨rfl, rfl, rfl, rfl, id, id, id, fun c => ?_, id, id, id, load_price _ hp⟩, id⟩
      refine ⟨?_, ?_⟩
      · change (Cost.load p _ s.cost).log.length ≤ 32
        have : (Cost.load p ‹Prices› s.cost).log = s.cost.log := by
          unfold Cost.load; cases s.cost.current <;> rfl
        rw [this]; exact c.room
      · change (Cost.load p _ s.cost).waiting ≠ [] → (Cost.load p _ s.cost).log.length = 32
        have e : (Cost.load p ‹Prices› s.cost).log = s.cost.log
            ∧ (Cost.load p ‹Prices› s.cost).waiting = s.cost.waiting := by
          unfold Cost.load; cases s.cost.current <;> exact ⟨rfl, rfl⟩
        rw [e.1, e.2]; exact c.full

theorem costTakeOwner_keeps (s : State) : Keeps s (costTakeOwner s).1 := by
  unfold costTakeOwner
  split
  · exact Keeps.refl s
  · next r rest h => exact enterWaiting_keeps h

theorem costLevelOwner_keeps (level : Byte) (s : State) : Keeps s (costLevelOwner level s).1 := by
  have base : Keeps s (s.mapCost fun k => { k with critical := level.toNat }) :=
    keeps_mapCost (fun l => ⟨l.room, l.full⟩) rfl rfl
  unfold costLevelOwner
  split
  · dsimp only [report]
    split
    · exact base.trans (notify_keeps _ _)
    · exact base
  · exact Keeps.refl s

theorem overheadOwner_keeps (clear : Byte) (s : State) : Keeps s (overheadOwner clear s).1 := by
  unfold overheadOwner
  split
  · exact Keeps.refl s
  · dsimp only
    split
    · exact keeps_mapCost (fun l => ⟨l.room, l.full⟩) rfl rfl
    · exact Keeps.refl s

/-- Every owner keeps every law. -/
theorem ownerOf_keeps (i : Instr) (s : State) : Keeps s (ownerOf i s).1 := by
  cases i <;> first
    | exact Keeps.refl s
    | exact countersOwner_keeps _ _ s
    | exact restartOwner_keeps s
    | exact submitOwner_keeps _ s
    | exact cancelOwner_keeps _ s
    | exact queryJobOwner_keeps _ s
    | exact openOwner_keeps _ _ s
    | exact closeOwner_keeps _ _ s
    | exact removeOwner_keeps _ _ s
    | exact queryEditionOwner_keeps _ _ s
    | exact feedProfileOwner_keeps _ s
    | exact clearFeedOwner_keeps s
    | exact loadRollOwner_keeps _ _ _ s
    | exact unloadOwner_keeps s
    | exact jogOwner_keeps _ s
    | exact trimOwner_keeps _ _ s
    | exact fitOwner_keeps _ _ _ _ s
    | exact inkStatusOwner_keeps _ _ s
    | exact inkProfileOwner_keeps _ _ s
    | exact patchesOwner_keeps _ s
    | exact stripProfileOwner_keeps _ s
    | exact driftLimitsOwner_keeps _ _ s
    | exact recalibratedOwner_keeps _ s
    | exact loadPricesOwner_keeps _ s
    | exact costTakeOwner_keeps s
    | exact costLevelOwner_keeps _ s
    | exact overheadOwner_keeps _ s

end Sys2Proof.Machine
end

