-- ==== Sys2Proof/Laws/Links.lean ====
section
/-!
SUPPORT. What the two serial lines and the passing of a millisecond keep (R125, R126, R180, R181, log 1).
-/

-- One theorem after another: waiting proofs would each hold a thread.
set_option Elab.async false

namespace Sys2Proof.Machine

/-! ### The assembler (R180, R126) -/

/-- While hunting, a byte that is not the start byte is discarded (R180). -/
theorem rxByte_hunting {b : Byte} (h : b ≠ startByte) : rxByte none b = (none, .more) := by simp [rxByte, h]

/-- The start byte begins a frame (R180). -/
theorem rxByte_start : rxByte none startByte = (some [], .more) := by simp [rxByte]

/-- Before the length is known the assembler takes every byte (R180). -/
theorem rxByte_header {bs : Bytes} {b : Byte} (h : bs.length < 3) : rxByte (some bs) b = (some (bs ++ [b]), .more) := by
  have short : (bs ++ [b]).length < 4 := by simp; omega
  unfold rxByte rxJudge
  exact if_pos short

/-! ### Host link -/

theorem serveFrame_lawful (kind ft : Byte) (body : Bytes) (s : State) : Lawful s (serveFrame kind ft body s) := by
  unfold serveFrame
  split
  · exact requestEvent_lawful kind ft (ownerOf_keeps _) s
  · exact requestEvent_lawful kind ft (fun s => Keeps.refl s) s

/-- One byte from the host keeps every law (R180). -/
theorem hostByte_lawful (s : State) (b : Byte) : Lawful s (hostByte s b) := by
  have rx : ∀ x, Lawful s (s.mapHost fun h => { h with rx := x }) := fun x => lawful_mapHost fun l => { l with }
  unfold hostByte
  dsimp only
  split
  · exact rx _
  · refine (rx _).trans (lawful_mapHost fun l => { l with counts := ?_ })
    exact ⟨l.counts.1, sat16_le' _, l.counts.2.2⟩
  · refine (rx _).trans (lawful_mapHost fun l => { l with counts := ?_ })
    exact ⟨sat16_le' _, l.counts.2⟩
  · exact (rx _).trans (serveFrame_lawful _ _ _ _)

/-- A gap on the host line keeps every law (R180). -/
theorem hostGap_lawful (b : Byte) (s : State) : Lawful s (hostGap b s) := by
  unfold hostGap
  refine Lawful.trans ?_ (hostByte_lawful _ b)
  split
  · refine lawful_mapHost fun l => { l with counts := ?_ }
    exact ⟨l.counts.1, l.counts.2.1, sat16_le' _, l.counts.2.2.2⟩
  · exact Lawful.refl s

/-! ### Engine link -/

/-- A message of the engine, well formed or not, keeps every law (R126). -/
theorem serveEngine_keeps (i : Option Instr) (s : State) : Keeps s (serveEngine i s) := by
  unfold serveEngine
  split
  · split
    · exact stateMessage_keeps _ _ s
    · exact protocolError_keeps s
  · split
    · exact swathMessage_keeps _ _ _ _ s
    · exact protocolError_keeps s
  · split
    · exact endMessage_keeps _ _ s
    · exact protocolError_keeps s
  · split
    · exact overheadDrops_keeps _ s
    · exact protocolError_keeps s
  · exact protocolError_keeps s

/-- One byte from the engine keeps every law (R126). -/
theorem engineByte_lawful (s : State) (b : Byte) : Lawful s (engineByte s b) := by
  have rx : ∀ x, Keeps s (s.mapEng fun e => { e with rx := x }) := fun x => keeps_mapEng fun l => l
  unfold engineByte
  dsimp only
  split
  · exact (rx _).lawful
  · exact ((rx _).trans (keeps_mapEng fun l => ⟨l.1, sat16_le _, l.2.2⟩)).lawful
  · exact ((rx _).trans (keeps_mapEng fun l => ⟨sat16_le _, l.2⟩)).lawful
  · exact ((rx _).trans (serveEngine_keeps _ _)).lawful.trans (giveLine_lawful _)

/-- A gap on the engine line keeps every law (R126). -/
theorem engineGap_lawful (b : Byte) (s : State) : Lawful s (engineGap b s) := by
  unfold engineGap
  refine Lawful.trans ?_ (engineByte_lawful _ b)
  split
  · exact (keeps_mapEng fun l => ⟨l.1, l.2.1, sat16_le _, l.2.2.2⟩).lawful
  · exact Lawful.refl s

theorem engineSent_keeps (s : State) : Keeps s (engineSent s) := keeps_mapEng fun l => l

/-! ### A millisecond (log 1) -/

theorem Feed.Law.tick {f : Feed} (l : f.Law) : f.tick.Law := by
  have cycle : f.tick.knifeCycle.isSome = true ↔ f.knifeCycle.isSome = true := by simp [Feed.tick]
  have none_ : f.knifeCycle = none → f.tick.knifeCycle = none := fun h => by simp [Feed.tick, h]
  exact ⟨l.quiet, l.moving, l.settling, fun h => l.timing (by simpa [Feed.tick] using h), fun h => cycle.2 (l.knife h),
    fun h => l.cycle (cycle.1 h), fun p h => ⟨(l.search p h).1, none_ (l.search p h).2⟩, l.loading⟩

theorem Ink.Law.tick {k : Ink} (l : k.Law) : k.tick.Law :=
  l.congr (fun c => by simp [Ink.tick]) (fun c => by simp [Ink.tick]) rfl rfl

theorem Editions.Law.tick {d : Editions} (l : d.Law) : d.tick.Law where
  nodup := l.nodup
  below := l.below
  captured := fun r h => by
    simp only [Editions.tick, Option.map_eq_some_iff] at h
    obtain ⟨x, hx, rfl⟩ := h
    exact l.captured x hx
  unread := fun h => by
    obtain ⟨a, b, c⟩ := l.unread h
    exact ⟨a, b, by simp [Editions.tick, c]⟩

/-- The passing of a millisecond keeps every law. -/
theorem tick_keeps (s : State) : Keeps s (tick s) := by
  unfold tick
  refine Keeps.trans ?_ (keeps_mapChk fun l => l)
  refine Keeps.trans ?_ (keeps_mapEd fun l => l.tick)
  refine Keeps.trans ?_ (keeps_mapInk fun l => l.tick)
  refine Keeps.trans ?_ (keeps_mapFeed fun l => l.tick)
  exact keeps_mapEng fun l => l

end Sys2Proof.Machine
end

