-- ==== Sys2Proof/Laws/Aside.lean ====
section
/-!
SUPPORT. The course of the jobs (R2, R11, R28, R86) along an operation that stands aside from it: what an update of a
job, of the feed or of another block leaves of the order, of the media path, of the reserved length and of the copy
numbers, and the law of a step, Next, that the operations are shown to keep.
-/

-- One theorem after another: waiting proofs would each hold a thread.
set_option Elab.async false

namespace Sys2Proof.Machine

/-! ### The jobs after an update -/

@[simp] theorem liveJob_mapHost (s : State) (f) (k : JobIx) : (s.mapHost f).liveJob k = s.liveJob k := rfl
@[simp] theorem liveJob_mapEd (s : State) (f) (k : JobIx) : (s.mapEd f).liveJob k = s.liveJob k := rfl
@[simp] theorem liveJob_mapFeed (s : State) (f) (k : JobIx) : (s.mapFeed f).liveJob k = s.liveJob k := rfl
@[simp] theorem liveJob_mapInk (s : State) (f) (k : JobIx) : (s.mapInk f).liveJob k = s.liveJob k := rfl
@[simp] theorem liveJob_mapAcct (s : State) (f) (k : JobIx) : (s.mapAcct f).liveJob k = s.liveJob k := rfl
@[simp] theorem liveJob_mapEng (s : State) (f) (k : JobIx) : (s.mapEng f).liveJob k = s.liveJob k := rfl
@[simp] theorem liveJob_mapChk (s : State) (f) (k : JobIx) : (s.mapChk f).liveJob k = s.liveJob k := rfl
@[simp] theorem liveJob_mapDrift (s : State) (f) (k : JobIx) : (s.mapDrift f).liveJob k = s.liveJob k := rfl
@[simp] theorem liveJob_mapCost (s : State) (f) (k : JobIx) : (s.mapCost f).liveJob k = s.liveJob k := rfl
@[simp] theorem liveJob_notify (s : State) (x) (k : JobIx) : (notify x s).liveJob k = s.liveJob k := rfl

theorem getElem_set_fin {α : Type} {n : Nat} (v : Vector α n) (i k : Fin n) (x : α) :
    (v.set i x)[k] = if k = i then x else v[k] := by
  by_cases h : k = i
  · subst h; simp
  · have : (i : Nat) ≠ k := fun e => h (Fin.ext e.symm)
    simp only [Fin.getElem_fin, h, if_false]
    exact Vector.getElem_set_ne _ _ this

/-- The job of a slot. -/
def Slot.job : Slot → Option Job
  | .live j => some j
  | _ => none

theorem liveJob_eq_job (s : State) (k : JobIx) : s.liveJob k = s.jobs.slots[k].job := by
  unfold State.liveJob Slot.job; rfl

/-- The jobs after one slot has been set. -/
theorem liveJob_set {s t : State} {i : JobIx} {x : Slot} (h : t.jobs.slots = s.jobs.slots.set i x) (k : JobIx) :
    t.liveJob k = if k = i then x.job else s.liveJob k := by
  rw [liveJob_eq_job, liveJob_eq_job, h, getElem_set_fin]
  split <;> rfl

/-- The jobs after a change of one of them. -/
theorem liveJob_setJob (i k : JobIx) (f : Job → Job) (s : State) :
    (setJob i f s).liveJob k = if k = i then (s.liveJob i).map f else s.liveJob k := by
  unfold setJob
  split
  · next j hj => rw [liveJob_set (s := s) (i := i) (x := .live (f j)) rfl, hj]; rfl
  · next h =>
    split
    · next e => subst e; simp [h]
    · rfl

theorem liveJob_changeJob (i k : JobIx) (f : Job → Job) (s : State) :
    (changeJob i f s).liveJob k = if k = i then (s.liveJob i).map f else s.liveJob k := liveJob_setJob i k f s

@[simp] theorem setJob_order (i : JobIx) (f : Job → Job) (s : State) : (setJob i f s).jobs.order = s.jobs.order := by
  unfold setJob; split <;> rfl
@[simp] theorem setJob_feed (i : JobIx) (f : Job → Job) (s : State) : (setJob i f s).feed = s.feed := by
  unfold setJob; split <;> rfl
@[simp] theorem setJob_eng (i : JobIx) (f : Job → Job) (s : State) : (setJob i f s).eng = s.eng := by
  unfold setJob; split <;> rfl
@[simp] theorem setJob_chk (i : JobIx) (f : Job → Job) (s : State) : (setJob i f s).chk = s.chk := by
  unfold setJob; split <;> rfl
@[simp] theorem setJob_ed (i : JobIx) (f : Job → Job) (s : State) : (setJob i f s).ed = s.ed := by
  unfold setJob; split <;> rfl
@[simp] theorem changeJob_order (i : JobIx) (f : Job → Job) (s : State) : (changeJob i f s).jobs.order = s.jobs.order :=
  setJob_order i f s
@[simp] theorem changeJob_feed (i : JobIx) (f : Job → Job) (s : State) : (changeJob i f s).feed = s.feed :=
  setJob_feed i f s
@[simp] theorem changeJob_eng (i : JobIx) (f : Job → Job) (s : State) : (changeJob i f s).eng = s.eng :=
  setJob_eng i f s
@[simp] theorem changeJob_chk (i : JobIx) (f : Job → Job) (s : State) : (changeJob i f s).chk = s.chk :=
  setJob_chk i f s
@[simp] theorem changeJob_ed (i : JobIx) (f : Job → Job) (s : State) : (changeJob i f s).ed = s.ed :=
  setJob_ed i f s

/-- No slot becomes live or free by a change of a live job. -/
theorem setJob_free (i k : JobIx) (f : Job → Job) (s : State) :
    (setJob i f s).jobs.slots[k] = .free ↔ s.jobs.slots[k] = .free := by
  unfold setJob
  split
  · next j hj =>
    simp only [State.mapJobs_jobs, getElem_set_fin]
    split
    · next e => subst e; simp [State.liveJob_eq.1 hj]
    · rfl
  · rfl

/-! ### The copy numbers (R28) -/

/-- The part of a job that the copy numbers' law looks at is kept; a commit may have been settled. -/
def Job.SameCopy (l j : Job) : Prop :=
  j.edition = l.edition ∧ j.holdsCopy = l.holdsCopy ∧ j.commitGen = l.commitGen ∧ j.committed = l.committed
    ∧ (j.commitOpen = true → l.commitOpen = true) ∧ (l.outcome.isSome = true → j.outcome = l.outcome)

theorem Job.SameCopy.refl (j : Job) : j.SameCopy j := ⟨rfl, rfl, rfl, rfl, id, fun _ => rfl⟩

/-- What an event that leaves the copy numbers leaves of the jobs. -/
def CopyJobs (s t : State) : Prop :=
  ∀ (i : JobIx) (j : Job), t.liveJob i = some j →
    ∃ l, s.liveJob i = some l ∧ l.SameCopy j ∧ (l.state = .closing → j.state = .closing)

/-- What the edition store does on its own account: the tables of numbers stay, a removal goes once it has persisted or
the store has failed (R35, R42, R44). -/
structure StoreStep (d e : Editions) : Prop where
  law : e.CopyLaw
  image : e.image = d.image
  resv : e.resv = d.resv
  change : ∀ b : LBlock, d.change[b] ≤ e.change[b]
  persisted : ∀ b : LBlock, d.persisted[b] ≤ e.persisted[b]
  removals : ∀ r ∈ d.removals, r ∈ e.removals ∨ r.gen ≤ e.persisted[r.block] ∨ e.store = .readOnly
  readOnly : d.store = .readOnly → e.store = .readOnly
  mounting : e.store = .mounting → d.store = .mounting

theorem StoreStep.refl {d : Editions} (l : d.CopyLaw) : StoreStep d d :=
  ⟨l, rfl, rfl, fun _ => Nat.le_refl _, fun _ => Nat.le_refl _, fun _ h => .inl h, id, id⟩

theorem CopyJobs.keeps {s t : State} (jobs : CopyJobs s t) {i : JobIx} {x : JobEdition} (h : t.keeps i x) : s.keeps i x := by
  obtain ⟨j, hj, e⟩ := h
  obtain ⟨l, hl, ⟨-, h, -⟩, -⟩ := jobs i j hj
  exact ⟨l, hl, h ▸ e⟩

theorem CopyJobs.waits {s t : State} (jobs : CopyJobs s t)
    (persisted : ∀ b : LBlock, s.ed.persisted[b] ≤ t.ed.persisted[b]) {i : JobIx} {x : JobEdition} {g : Nat}
    (h : t.waits i x g) : s.waits i x g := by
  obtain ⟨⟨j, hj, o, e, g'⟩, p⟩ := h
  obtain ⟨l, hl, ⟨a, -, b, -, d, -⟩, -⟩ := jobs i j hj
  exact ⟨⟨l, hl, d o, a ▸ e, b ▸ g'⟩, Nat.lt_of_le_of_lt (persisted _) p⟩

/-- The store at its own work keeps the numbers (R28). -/
theorem State.CopyLaw.step {s t : State} (c : s.CopyLaw) (jobs : CopyJobs s t) (st : StoreStep s.ed t.ed) : t.CopyLaw where
  table := st.law
  mounting := fun m i j hj => by
    obtain ⟨l, hl, ⟨e, -⟩, -⟩ := jobs i j hj
    rw [e]; exact c.mounting (st.mounting m) i l hl
  held := fun i x h => by
    obtain ⟨a, b⟩ := c.held i x (jobs.keeps h)
    exact ⟨by unfold Editions.holds at a ⊢; rw [st.image]; exact a, by rw [st.resv]; exact b⟩
  once := fun i k x y h h' => c.once i k x y (jobs.keeps h) (jobs.keeps h')
  finished := fun i j hj h => by
    obtain ⟨l, hl, ⟨-, -, -, g, -, o⟩, -⟩ := jobs i j hj
    have f := c.finished i l hl (g ▸ h)
    exact (o (by rw [f]; rfl)).trans f
  waiting := fun i x g h => by
    obtain ⟨a, b⟩ := c.waiting i x g (jobs.waits st.persisted h)
    refine ⟨a.trans (st.change _), ?_⟩
    unfold Editions.carries Editions.holds at b ⊢
    rw [st.image]
    refine b.imp id fun ⟨n, r⟩ => ⟨n, ?_⟩
    rcases r with r | ⟨r, hr, e, eb, eg⟩
    · exact .inl (st.readOnly r)
    · rcases st.removals r hr with m | m | m
      · exact .inr ⟨r, m, e, eb, eg⟩
      · simp only [eb] at m
        exact absurd h.2 (Nat.not_lt.2 (eg.trans m))
      · exact .inl m
  waitOnce := fun i k x y g h hx hy => c.waitOnce i k x y g h (jobs.waits st.persisted hx) (jobs.waits st.persisted hy)

theorem State.CopyLaw.same {s t : State} (jobs : CopyJobs s t) (ed : t.ed = s.ed) (c : s.CopyLaw) : t.CopyLaw :=
  c.step jobs (by rw [ed]; exact StoreStep.refl c.table)

/-- Every committed job is CLOSING. -/
def State.Commits (s : State) : Prop :=
  ∀ (i : JobIx) (j : Job), s.liveJob i = some j → j.committed = true → j.state = .closing

theorem CopyJobs.commits {s t : State} (jobs : CopyJobs s t) (c : s.Commits) : t.Commits := fun i j hj h => by
  obtain ⟨l, hl, ⟨-, -, -, g, -⟩, st⟩ := jobs i j hj
  exact st (c i l hl (g ▸ h))

theorem CopyJobs.of_live {s t : State} (h : ∀ i, t.liveJob i = s.liveJob i) : CopyJobs s t := fun i j hj =>
  ⟨j, (h i).symm.trans hj, Job.SameCopy.refl j, id⟩

/-! ### The queue order (R2) -/

/-- From `s` to `t` the queue order loses entries and takes new ones at its end, and no slot becomes FREE (R2); commits
are taken in CLOSING alone (R31), and the copy numbers keep their law (R28). -/
structure Queue (s t : State) : Prop where
  order : ∃ kept new, kept.Sublist s.jobs.order ∧ t.jobs.order = kept ++ new ∧ ∀ i ∈ new, s.jobs.slots[i] = .free
  free : ∀ i : JobIx, t.jobs.slots[i] = .free → s.jobs.slots[i] = .free
  commits : s.Commits → t.Commits
  copy : s.CopyLaw → t.CopyLaw

theorem Queue.of_sublist {s t : State} (h : t.jobs.order.Sublist s.jobs.order)
    (free : ∀ i : JobIx, t.jobs.slots[i] = .free → s.jobs.slots[i] = .free) (commits : s.Commits → t.Commits)
    (copy : s.CopyLaw → t.CopyLaw) : Queue s t :=
  ⟨⟨t.jobs.order, [], h, by simp, by simp⟩, free, commits, copy⟩

/-- The queue order loses entries, and the jobs keep their part in the copy numbers. -/
theorem Queue.of_copyJobs {s t : State} (h : t.jobs.order.Sublist s.jobs.order)
    (free : ∀ i : JobIx, t.jobs.slots[i] = .free → s.jobs.slots[i] = .free) (jobs : CopyJobs s t) (ed : t.ed = s.ed) :
    Queue s t := Queue.of_sublist h free jobs.commits (State.CopyLaw.same jobs ed)

/-- The job table stays. -/
theorem Queue.of_table {s t : State} (h : t.jobs = s.jobs) (copy : s.CopyLaw → t.CopyLaw) : Queue s t :=
  Queue.of_sublist (by rw [h]) (by rw [h]; exact fun _ => id)
    (CopyJobs.of_live fun i => by unfold State.liveJob; rw [h]).commits copy

theorem Queue.of_jobs {s t : State} (h : t.jobs = s.jobs) (ed : t.ed = s.ed := by rfl) : Queue s t :=
  Queue.of_table h (State.CopyLaw.same (CopyJobs.of_live fun i => by unfold State.liveJob; rw [h]) ed)

theorem Queue.refl (s : State) : Queue s s := Queue.of_jobs rfl

theorem Queue.trans {s t u : State} (a : Queue s t) (b : Queue t u) : Queue s u := by
  obtain ⟨k, n, hk, ht, hn⟩ := a.order
  obtain ⟨k', n', hk', hu, hn'⟩ := b.order
  rw [ht] at hk'
  obtain ⟨x, y, rfl, hx, hy⟩ := List.sublist_append_iff.1 hk'
  refine ⟨⟨x, y ++ n', hx.trans hk, by rw [hu, List.append_assoc], fun i hi => ?_⟩, fun i h => a.free i (b.free i h),
    b.commits ∘ a.commits, b.copy ∘ a.copy⟩
  rcases List.mem_append.1 hi with h | h
  · exact hn i (hy.subset h)
  · exact a.free i (hn' i h)

/-! ### Operations aside from the jobs' course -/

/-- What an operation leaves in place that does not advance a job: every live job keeps the part of its record that the
path law looks at, or was CLOSING and has left the table; the engine's and the checker's contexts stay or go, and no
back-feed and no cut begins. -/
structure PathAside (s t : State) : Prop where
  jobs : ∀ (i : JobIx) (j : Job), t.liveJob i = some j →
    ∃ l, s.liveJob i = some l ∧ l.tag = j.tag ∧ l.state = j.state ∧ l.startPos = j.startPos ∧ l.spoilWait = j.spoilWait
  gone : ∀ (i : JobIx) (j : Job), s.liveJob i = some j → j.state ≠ .closing → (t.liveJob i).isSome = true
  order : s.OrderLaw → t.OrderLaw
  queue : Queue s t
  engine : ∀ x, t.eng.ctx = some x → ∃ y, s.eng.ctx = some y ∧ y.tag = x.tag
  checker : ∀ x, t.chk.ctx = some x → ∃ y, s.chk.ctx = some y ∧ y.slot = x.slot
  backFeed : t.feed.backFeeding = true → s.feed.backFeeding = true
  cut : t.feed.cutting = true → s.feed.cutting = true

/-- What an operation leaves in place that draws no media: no reservation rises, none is held, the remaining length
does not fall. -/
structure MediaAside (s t : State) : Prop where
  res : ∀ (i : JobIx) (j : Job), t.liveJob i = some j →
    ∃ l, s.liveJob i = some l ∧ l.state = j.state ∧ l.holds.noMedia = j.holds.noMedia ∧ j.mediaRes ≤ l.mediaRes
  sub : t.jobs.order.Sublist s.jobs.order
  remaining : s.feed.roll.remaining ≤ t.feed.roll.remaining
  reach : s.feed.roll.consumed ≤ s.feed.roll.reach → t.feed.roll.consumed ≤ t.feed.roll.reach
  load : (s.feed.load.isSome = true → s.feed.roll.state ≠ .loaded) →
    t.feed.load.isSome = true → t.feed.roll.state ≠ .loaded

/-- An operation that leaves the jobs' course in place. -/
structure Aside (s t : State) : Prop extends PathAside s t, MediaAside s t where

theorem PathAside.refl (s : State) : PathAside s s :=
  ⟨fun _ j h => ⟨j, h, rfl, rfl, rfl, rfl⟩, fun _ _ h _ => by simp [h], id, Queue.refl s, fun x h => ⟨x, h, rfl⟩,
    fun x h => ⟨x, h, rfl⟩, id, id⟩

theorem MediaAside.refl (s : State) : MediaAside s s :=
  ⟨fun _ j h => ⟨j, h, rfl, rfl, Nat.le_refl _⟩, List.Sublist.refl _, Nat.le_refl _, id, id⟩

theorem PathAside.trans {s t u : State} (a : PathAside s t) (b : PathAside t u) : PathAside s u where
  jobs := fun i j h => by
    obtain ⟨l, hl, e⟩ := b.jobs i j h
    obtain ⟨m, hm, f⟩ := a.jobs i l hl
    exact ⟨m, hm, f.1.trans e.1, f.2.1.trans e.2.1, f.2.2.1.trans e.2.2.1, f.2.2.2.trans e.2.2.2⟩
  gone := fun i j h c => by
    obtain ⟨l, hl⟩ := Option.isSome_iff_exists.1 (a.gone i j h c)
    obtain ⟨m, hm, -, e, -⟩ := a.jobs i l hl
    rw [h, Option.some.injEq] at hm
    subst hm
    exact b.gone i l hl (by rw [← e]; exact c)
  order := b.order ∘ a.order
  queue := a.queue.trans b.queue
  engine := fun x h => by
    obtain ⟨y, hy, e⟩ := b.engine x h
    obtain ⟨z, hz, f⟩ := a.engine y hy
    exact ⟨z, hz, f.trans e⟩
  checker := fun x h => by
    obtain ⟨y, hy, e⟩ := b.checker x h
    obtain ⟨z, hz, f⟩ := a.checker y hy
    exact ⟨z, hz, f.trans e⟩
  backFeed := a.backFeed ∘ b.backFeed
  cut := a.cut ∘ b.cut

theorem MediaAside.trans {s t u : State} (a : MediaAside s t) (b : MediaAside t u) : MediaAside s u where
  res := fun i j h => by
    obtain ⟨l, hl, e⟩ := b.res i j h
    obtain ⟨m, hm, f⟩ := a.res i l hl
    exact ⟨m, hm, f.1.trans e.1, f.2.1.trans e.2.1, e.2.2.trans f.2.2⟩
  sub := b.sub.trans a.sub
  remaining := a.remaining.trans b.remaining
  reach := b.reach ∘ a.reach
  load := b.load ∘ a.load

theorem Aside.refl (s : State) : Aside s s := ⟨PathAside.refl s, MediaAside.refl s⟩

theorem Aside.trans {s t u : State} (a : Aside s t) (b : Aside t u) : Aside s u :=
  ⟨a.toPathAside.trans b.toPathAside, a.toMediaAside.trans b.toMediaAside⟩

theorem Aside.ite {s a b : State} {c : Prop} [Decidable c] (h : c → Aside s a) (k : ¬ c → Aside s b) :
    Aside s (if c then a else b) := by
  split
  · exact h ‹_›
  · exact k ‹_›

theorem Aside.foldl {α : Type} (f : State → α → State) (h : ∀ s a, Aside s (f s a)) :
    ∀ (xs : List α) (s : State), Aside s (xs.foldl f s)
  | [], s => Aside.refl s
  | a :: xs, s => (h s a).trans (Aside.foldl f h xs (f s a))

/-- The job table and the feed axis are untouched, the contexts stay or go. -/
theorem Aside.of_table {s t : State} (jobs : t.jobs = s.jobs) (feed : t.feed = s.feed) (copy : s.CopyLaw → t.CopyLaw)
    (engine : ∀ x, t.eng.ctx = some x → ∃ y, s.eng.ctx = some y ∧ y.tag = x.tag := by exact fun x h => ⟨x, h, rfl⟩)
    (checker : ∀ x, t.chk.ctx = some x → ∃ y, s.chk.ctx = some y ∧ y.slot = x.slot := by exact fun x h => ⟨x, h, rfl⟩) :
    Aside s t := by
  have live : ∀ i, t.liveJob i = s.liveJob i := fun i => by unfold State.liveJob; rw [jobs]
  refine ⟨⟨fun i j h => ⟨j, (live i).symm.trans h, rfl, rfl, rfl, rfl⟩, fun i j h _ => by rw [live, h]; rfl,
    fun l => ⟨by rw [jobs]; exact l.nodup, fun i => by rw [jobs, live]; exact l.live i,
      fun i k j m hj hm => l.tags i k j m ((live i).symm.trans hj) ((live k).symm.trans hm)⟩,
    Queue.of_table jobs copy, engine, checker, by rw [feed]; exact id, by rw [feed]; exact id⟩,
    ⟨fun i j h => ⟨j, (live i).symm.trans h, rfl, rfl, Nat.le_refl _⟩, by rw [jobs], by rw [feed],
      by rw [feed]; exact id, by rw [feed]; exact id⟩⟩

/-- An operation on other blocks than the job table, the feed axis and the edition store. -/
theorem Aside.of_eq {s t : State} (jobs : t.jobs = s.jobs) (feed : t.feed = s.feed)
    (engine : ∀ x, t.eng.ctx = some x → ∃ y, s.eng.ctx = some y ∧ y.tag = x.tag := by exact fun x h => ⟨x, h, rfl⟩)
    (checker : ∀ x, t.chk.ctx = some x → ∃ y, s.chk.ctx = some y ∧ y.slot = x.slot := by exact fun x h => ⟨x, h, rfl⟩)
    (ed : t.ed = s.ed := by rfl) : Aside s t :=
  Aside.of_table jobs feed
    (State.CopyLaw.same (CopyJobs.of_live fun i => by unfold State.liveJob; rw [jobs]) ed) engine checker

/-- A change of the feed axis that begins no back-feed and no cut and leaves the roll's figures. -/
theorem Aside.mapFeed {s : State} {f : Feed → Feed}
    (backFeed : (f s.feed).backFeeding = true → s.feed.backFeeding = true)
    (cut : (f s.feed).cutting = true → s.feed.cutting = true)
    (remaining : s.feed.roll.remaining ≤ (f s.feed).roll.remaining)
    (reach : s.feed.roll.consumed ≤ s.feed.roll.reach → (f s.feed).roll.consumed ≤ (f s.feed).roll.reach)
    (load : (s.feed.load.isSome = true → s.feed.roll.state ≠ .loaded) →
      (f s.feed).load.isSome = true → (f s.feed).roll.state ≠ .loaded) : Aside s (s.mapFeed f) :=
  ⟨⟨fun _ j h => ⟨j, h, rfl, rfl, rfl, rfl⟩, fun _ _ h _ => by simp [h], fun l => ⟨l.nodup, l.live, l.tags⟩,
    Queue.of_jobs rfl, fun x h => ⟨x, h, rfl⟩, fun x h => ⟨x, h, rfl⟩, backFeed, cut⟩,
    ⟨fun _ j h => ⟨j, h, rfl, rfl, Nat.le_refl _⟩, List.Sublist.refl _, remaining, reach, load⟩⟩

/-- A change of feed fields that the course does not look at. -/
theorem Aside.feedFields {s : State} {f : Feed → Feed} (move : (f s.feed).move = s.feed.move)
    (cycle : (f s.feed).knifeCycle = s.feed.knifeCycle) (load : (f s.feed).load = s.feed.load)
    (roll : (f s.feed).roll = s.feed.roll) : Aside s (s.mapFeed f) :=
  Aside.mapFeed (by unfold Feed.backFeeding; rw [move]; exact id)
    (by unfold Feed.cutting; rw [move, cycle, load]; exact id) (by rw [roll]) (by rw [roll]; exact id)
    (by rw [load, roll]; exact id)

theorem setJob_live (i k : JobIx) (f : Job → Job) (s : State) :
    ((setJob i f s).liveJob k).isSome = (s.liveJob k).isSome := by
  rw [liveJob_setJob]
  split
  · next e => subst e; simp
  · rfl

/-- A job after a change of one of them is the job it was or the one changed. -/
theorem setJob_old {i k : JobIx} {f : Job → Job} {s : State} {j : Job} (h : (setJob i f s).liveJob k = some j) :
    ∃ l, s.liveJob k = some l ∧ (j = l ∨ (k = i ∧ j = f l)) := by
  rw [liveJob_setJob] at h
  split at h
  · next e =>
    subst e
    obtain ⟨l, hl, rfl⟩ := Option.map_eq_some_iff.1 h
    exact ⟨l, hl, .inr ⟨rfl, rfl⟩⟩
  · exact ⟨j, h, .inl rfl⟩

/-- A change of jobs that keeps their tags keeps the order's law (R2). -/
theorem State.OrderLaw.setJob {s : State} (l : s.OrderLaw) {i : JobIx} {f : Job → Job}
    (h : ∀ j, s.liveJob i = some j → (f j).tag = j.tag) : (setJob i f s).OrderLaw where
  nodup := by rw [setJob_order]; exact l.nodup
  live := fun k => by rw [setJob_order, setJob_live]; exact l.live k
  tags := fun k k' j j' hj hj' e => by
    have tag : ∀ (k : JobIx) (j : Job), (Sys2Proof.Machine.setJob i f s).liveJob k = some j →
        ∃ l, s.liveJob k = some l ∧ l.tag = j.tag := fun k j hk => by
      obtain ⟨l, hl, e | ⟨e, f'⟩⟩ := setJob_old hk
      · subst e; exact ⟨j, hl, rfl⟩
      · subst e; subst f'; exact ⟨l, hl, (h l hl).symm⟩
    obtain ⟨m, hm, a⟩ := tag k j hj
    obtain ⟨m', hm', a'⟩ := tag k' j' hj'
    exact l.tags k k' m m' hm hm' (by rw [a, a', e])

theorem CopyJobs.setJob {i : JobIx} {f : Job → Job} {s : State}
    (h : ∀ j, s.liveJob i = some j → j.SameCopy (f j) ∧ (j.state = .closing → (f j).state = .closing)) :
    CopyJobs s (setJob i f s) := fun k j hk => by
  obtain ⟨l, hl, e | ⟨e, f'⟩⟩ := setJob_old hk
  · subst e; exact ⟨j, hl, Job.SameCopy.refl j, id⟩
  · subst e; subst f'; exact ⟨l, hl, h l hl⟩

/-- A change of a job with whatever it does to the copy numbers. -/
theorem Queue.setJobWith {i : JobIx} {f : Job → Job} {s t : State} (jobs : t.jobs = (setJob i f s).jobs)
    (commits : (∀ j, s.liveJob i = some j → j.committed = true → j.state = .closing) →
      ∀ j, s.liveJob i = some j → (f j).committed = true → (f j).state = .closing)
    (copy : s.CopyLaw → t.CopyLaw) : Queue s t :=
  Queue.of_sublist (by rw [jobs, setJob_order]) (fun k => by rw [jobs]; exact (setJob_free i k f s).1)
    (fun c k j hk h => by
      obtain ⟨l, hl, e | ⟨e, f'⟩⟩ := setJob_old (show (Sys2Proof.Machine.setJob i f s).liveJob k = some j by
        unfold State.liveJob at hk ⊢; rwa [jobs] at hk)
      · subst e; exact c k j hl h
      · subst e; subst f'; exact commits (c k) l hl h) copy

theorem Queue.setJob {i : JobIx} {f : Job → Job} {s : State}
    (h : ∀ j, s.liveJob i = some j → j.SameCopy (f j) ∧ (j.state = .closing → (f j).state = .closing)) :
    Queue s (setJob i f s) :=
  Queue.setJobWith rfl (fun c j hj k => (h j hj).2 (c j hj ((h j hj).1.2.2.2.1 ▸ k)))
    (State.CopyLaw.same (CopyJobs.setJob h) (setJob_ed i f s))

/-- A change of a job in the part of its record that the path law does not look at. -/
theorem PathAside.setJob {i : JobIx} {f : Job → Job} {s : State}
    (h : ∀ j, s.liveJob i = some j → (f j).tag = j.tag ∧ (f j).state = j.state ∧ (f j).startPos = j.startPos ∧
      (f j).spoilWait = j.spoilWait)
    (copy : ∀ j, s.liveJob i = some j → j.SameCopy (f j) := by exact fun j _ => ⟨rfl, rfl, rfl, rfl, id, fun _ => rfl⟩) :
    PathAside s (setJob i f s) := by
  refine ⟨fun k j hk => ?_, fun k j hk _ => by rw [setJob_live, hk]; rfl, fun l => l.setJob fun j hj => (h j hj).1,
    Queue.setJob fun j hj => ⟨copy j hj, fun e => (h j hj).2.1.trans e⟩, by rw [setJob_eng]; exact fun x h => ⟨x, h, rfl⟩,
    by rw [setJob_chk]; exact fun x h => ⟨x, h, rfl⟩, by rw [setJob_feed]; exact id, by rw [setJob_feed]; exact id⟩
  obtain ⟨l, hl, e | ⟨e, f'⟩⟩ := setJob_old hk
  · subst e; exact ⟨j, hl, rfl, rfl, rfl, rfl⟩
  · subst e; subst f'
    obtain ⟨a, b, c, d⟩ := h l hl
    exact ⟨l, hl, a.symm, b.symm, c.symm, d.symm⟩

/-- A change of a job in the part of its record that the reservations' law does not look at. -/
theorem MediaAside.setJob {i : JobIx} {f : Job → Job} {s : State}
    (h : ∀ j, s.liveJob i = some j → (f j).state = j.state ∧ (f j).holds.noMedia = j.holds.noMedia ∧
      (f j).mediaRes ≤ j.mediaRes) : MediaAside s (setJob i f s) := by
  refine ⟨fun k j hk => ?_, by rw [setJob_order], by rw [setJob_feed], by rw [setJob_feed]; exact id,
    by rw [setJob_feed]; exact id⟩
  obtain ⟨l, hl, e | ⟨e, f'⟩⟩ := setJob_old hk
  · subst e; exact ⟨j, hl, rfl, rfl, Nat.le_refl _⟩
  · subst e; subst f'
    obtain ⟨b, c, d⟩ := h l hl
    exact ⟨l, hl, b.symm, c.symm, d⟩

/-- A change of a job in the part of its record that the course does not look at. -/
theorem Aside.setJob {i : JobIx} {f : Job → Job} {s : State}
    (h : ∀ j, s.liveJob i = some j → (f j).tag = j.tag ∧ (f j).state = j.state ∧ (f j).startPos = j.startPos ∧
      (f j).spoilWait = j.spoilWait ∧ (f j).holds.noMedia = j.holds.noMedia ∧ (f j).mediaRes ≤ j.mediaRes)
    (copy : ∀ j, s.liveJob i = some j → j.SameCopy (f j) := by exact fun j _ => ⟨rfl, rfl, rfl, rfl, id, fun _ => rfl⟩) :
    Aside s (setJob i f s) :=
  ⟨PathAside.setJob (fun j hj => ⟨(h j hj).1, (h j hj).2.1, (h j hj).2.2.1, (h j hj).2.2.2.1⟩) copy,
    MediaAside.setJob fun j hj => ⟨(h j hj).2.1, (h j hj).2.2.2.2⟩⟩

theorem Aside.setJob' {i : JobIx} {f : Job → Job} (s : State)
    (h : ∀ j, (f j).tag = j.tag ∧ (f j).state = j.state ∧ (f j).startPos = j.startPos ∧
      (f j).spoilWait = j.spoilWait ∧ (f j).holds.noMedia = j.holds.noMedia ∧ (f j).mediaRes ≤ j.mediaRes := by
        exact fun j => ⟨rfl, rfl, rfl, rfl, rfl, Nat.le_refl _⟩)
    (copy : ∀ j, s.liveJob i = some j → j.SameCopy (f j) := by exact fun j _ => ⟨rfl, rfl, rfl, rfl, id, fun _ => rfl⟩) :
    Aside s (Sys2Proof.Machine.setJob i f s) := Aside.setJob (fun j _ => h j) copy

theorem notify_aside (x : Subject) (s : State) : Aside s (notify x s) := Aside.of_eq rfl rfl

theorem Aside.changeJob {i : JobIx} {f : Job → Job} (s : State)
    (h : ∀ j, (f j).tag = j.tag ∧ (f j).state = j.state ∧ (f j).startPos = j.startPos ∧
      (f j).spoilWait = j.spoilWait ∧ (f j).holds.noMedia = j.holds.noMedia ∧ (f j).mediaRes ≤ j.mediaRes := by
        exact fun j => ⟨rfl, rfl, rfl, rfl, rfl, Nat.le_refl _⟩)
    (copy : ∀ j, s.liveJob i = some j → j.SameCopy (f j) := by exact fun j _ => ⟨rfl, rfl, rfl, rfl, id, fun _ => rfl⟩) :
    Aside s (Sys2Proof.Machine.changeJob i f s) := (Aside.setJob' s h copy).trans (notify_aside _ _)

/-! ### The course law along an aside operation -/

/-- The reserved length by the queue order. -/
theorem reserved_eq (s : State) :
    s.reserved = (s.jobs.order.map fun i => ((s.liveJob i).map (·.mediaRes)).getD 0).sum := by
  unfold State.reserved State.liveJobs
  induction s.jobs.order with
  | nil => rfl
  | cons i q ih =>
    simp only [List.filterMap_cons, List.map_cons, List.sum_cons]
    cases h : s.liveJob i with
    | none => simpa using ih
    | some j => simpa using ih

/-- A change of one job, with what it does to the copy numbers by the store's tables. -/
theorem Aside.setJobWith {i : JobIx} {f : Job → Job} {s t : State} (jobs : t.jobs = (Sys2Proof.Machine.setJob i f s).jobs)
    (feed : t.feed = s.feed) (eng : t.eng = s.eng) (chk : t.chk = s.chk)
    (commits : (∀ j, s.liveJob i = some j → j.committed = true → j.state = .closing) →
      ∀ j, s.liveJob i = some j → (f j).committed = true → (f j).state = .closing)
    (copy : s.CopyLaw → t.CopyLaw)
    (h : ∀ j, (f j).tag = j.tag ∧ (f j).state = j.state ∧ (f j).startPos = j.startPos ∧
      (f j).spoilWait = j.spoilWait ∧ (f j).holds.noMedia = j.holds.noMedia ∧ (f j).mediaRes ≤ j.mediaRes := by
        exact fun j => ⟨rfl, rfl, rfl, rfl, rfl, Nat.le_refl _⟩) : Aside s t := by
  have live : ∀ k, t.liveJob k = (Sys2Proof.Machine.setJob i f s).liveJob k := fun k => by unfold State.liveJob; rw [jobs]
  refine ⟨⟨fun k j hk => ?_, fun k j hk _ => by rw [live, setJob_live, hk]; rfl, fun l => ?_,
    Queue.setJobWith jobs commits copy, by rw [eng]; exact fun x h => ⟨x, h, rfl⟩,
    by rw [chk]; exact fun x h => ⟨x, h, rfl⟩, by rw [feed]; exact id, by rw [feed]; exact id⟩,
    ⟨fun k j hk => ?_, by rw [jobs, setJob_order], by rw [feed], by rw [feed]; exact id, by rw [feed]; exact id⟩⟩
  · obtain ⟨l, hl, e | ⟨-, f'⟩⟩ := setJob_old ((live k).symm.trans hk)
    · subst e; exact ⟨j, hl, rfl, rfl, rfl, rfl⟩
    · subst f'
      obtain ⟨a, b, c, d, -⟩ := h l
      exact ⟨l, hl, a.symm, b.symm, c.symm, d.symm⟩
  · have o := l.setJob (i := i) (f := f) fun j _ => (h j).1
    exact ⟨by rw [jobs]; exact o.nodup, fun k => by rw [jobs, live]; exact o.live k,
      fun k m j j' hj hj' => o.tags k m j j' ((live k).symm.trans hj) ((live m).symm.trans hj')⟩
  · obtain ⟨l, hl, e | ⟨-, f'⟩⟩ := setJob_old ((live k).symm.trans hk)
    · subst e; exact ⟨j, hl, rfl, rfl, Nat.le_refl _⟩
    · subst f'
      obtain ⟨-, b, -, -, c, d⟩ := h l
      exact ⟨l, hl, b.symm, c.symm, d⟩

theorem sum_map_le {α : Type} (f g : α → Nat) (h : ∀ a, f a ≤ g a) : ∀ xs : List α, (xs.map f).sum ≤ (xs.map g).sum
  | [] => Nat.le_refl _
  | a :: xs => by
    simp only [List.map_cons, List.sum_cons]
    exact Nat.add_le_add (h a) (sum_map_le f g h xs)

theorem MediaAside.reserved {s t : State} (a : MediaAside s t) : t.reserved ≤ s.reserved := by
  rw [reserved_eq, reserved_eq]
  refine Nat.le_trans (sum_map_le _ (fun i => ((s.liveJob i).map (·.mediaRes)).getD 0) (fun i => ?_) _)
    ((a.sub.map _).sum_le_sum (fun _ _ => Nat.zero_le _))
  cases h : t.liveJob i with
  | none => simp
  | some j =>
    obtain ⟨l, hl, -, -, e⟩ := a.res i j h
    simpa [hl] using e

theorem MediaAside.law {s t : State} (a : MediaAside s t) (c : s.MediaLaw) : t.MediaLaw where
  fits := (a.reserved.trans c.fits).trans a.remaining
  held := fun i j h n => by
    obtain ⟨l, hl, e, f, g⟩ := a.res i j h
    obtain ⟨x, y⟩ := c.held i l hl (f.trans n)
    exact ⟨e.symm.trans x, Nat.le_zero.1 (y ▸ g)⟩
  closed := fun i j h n => by
    obtain ⟨l, hl, e, f, g⟩ := a.res i j h
    exact Nat.le_zero.1 (c.closed i l hl (e.trans n) ▸ g)
  reach := a.reach c.reach
  load := a.load c.load

theorem PathAside.law {s t : State} (a : PathAside s t) (c : s.PathLaw) : t.PathLaw where
  one := fun i k j l hj hl pj pl => by
    obtain ⟨j', hj', -, e, -⟩ := a.jobs i j hj
    obtain ⟨l', hl', -, e', -⟩ := a.jobs k l hl
    exact c.one i k j' l' hj' hl' (e ▸ pj) (e' ▸ pl)
  waiting := fun i j hj p => by
    obtain ⟨l, hl, -, e, f, g⟩ := a.jobs i j hj
    obtain ⟨x, y⟩ := c.waiting i l hl (e.trans p)
    exact ⟨f.symm.trans x, g.symm.trans y⟩
  spoil := fun i j hj p => by
    obtain ⟨l, hl, -, e, f, g⟩ := a.jobs i j hj
    have := c.spoil i l hl (g.trans p)
    unfold Job.spoilable at this ⊢
    rwa [e, f] at this
  engine := fun x hx => by
    obtain ⟨y, hy, e⟩ := a.engine x hx
    obtain ⟨i, j, hj, t', p⟩ := c.engine y hy
    have n : j.state ≠ .closing := fun q => by simp [Job.engaged, q, JobState.keepsSwathTarget] at p
    obtain ⟨l, hl⟩ := Option.isSome_iff_exists.1 (a.gone i j hj n)
    obtain ⟨m, hm, b, d, f, g⟩ := a.jobs i l hl
    rw [hj, Option.some.injEq] at hm
    subst hm
    refine ⟨i, l, hl, b.symm.trans (t'.trans e), ?_⟩
    unfold Job.engaged at p ⊢
    rwa [d, f, g] at p
  checker := fun x hx => by
    obtain ⟨y, hy, e⟩ := a.checker x hx
    obtain ⟨j, hj, p, q⟩ := c.checker y hy
    obtain ⟨l, hl⟩ := Option.isSome_iff_exists.1 (a.gone y.slot j hj (by simp [p]))
    obtain ⟨m, hm, b, d, f, g⟩ := a.jobs y.slot l hl
    rw [hj, Option.some.injEq] at hm
    subst hm
    exact ⟨l, e ▸ hl, d.symm.trans p, g.symm.trans q⟩
  backFeed := fun h i j hj p => by
    obtain ⟨l, hl, -, e, f, -⟩ := a.jobs i j hj
    have := c.backFeed (a.backFeed h) i l hl (e ▸ p)
    unfold Job.starting at this ⊢
    rwa [e, f] at this
  cut := fun h i j hj p => by
    obtain ⟨l, hl, -, e, -⟩ := a.jobs i j hj
    exact e ▸ c.cut (a.cut h) i l hl (e ▸ p)
  commits := a.queue.commits c.commits

theorem Aside.course {s t : State} (a : Aside s t) (c : s.CourseLaw) : t.CourseLaw :=
  ⟨a.toPathAside.order c.order, a.toPathAside.law c.path, a.toMediaAside.law c.media⟩

/-- What an event brings about from a lawful state. -/
structure Next (s t : State) : Prop where
  queue : Queue s t
  feed : t.feed.Law
  course : t.CourseLaw

theorem Next.trans {s t u : State} (a : Next s t) (b : t.feed.Law → t.CourseLaw → Next t u) : Next s u :=
  have n := b a.feed a.course
  ⟨a.queue.trans n.queue, n.feed, n.course⟩

theorem Aside.next {s t : State} (a : Aside s t) (feed : t.feed.Law) (c : s.CourseLaw) : Next s t :=
  ⟨a.toPathAside.queue, feed, a.course c⟩

theorem Next.aside {s t u : State} (a : Next s t) (b : Aside t u) (feed : t.feed.Law → u.feed.Law) : Next s u :=
  a.trans fun l c => b.next (feed l) c

theorem Next.refl {s : State} (l : s.feed.Law) (c : s.CourseLaw) : Next s s := (Aside.refl s).next l c

end Sys2Proof.Machine
end

