-- ==== Sys2Proof/Laws/CopyNumbers.lean ====
section
/-!
SUPPORT. The copy numbers' law (R27 to R35): the store at its own work keeps it, and so does each move of a number
between the sets of its edition.
-/

-- One theorem after another: waiting proofs would each hold a thread.
set_option Elab.async false

namespace Sys2Proof.Machine

/-! ### The edition table -/

theorem insertNum_perm {k : Nat} : ∀ {xs : List Nat}, k ∉ xs → (insertNum k xs).Perm (k :: xs)
  | [], _ => List.Perm.refl _
  | x :: xs, h => by
    simp only [List.mem_cons, not_or] at h
    unfold insertNum
    split
    · exact List.Perm.refl _
    · rw [if_neg h.1]
      exact ((insertNum_perm h.2).cons x).trans (List.Perm.swap k x xs)

/-- A change of the store's own: the tables of numbers stay as they are. -/
theorem Editions.CopyLaw.work {d e : Editions} (l : d.CopyLaw) (store : e.Law) (image : e.image = d.image)
    (unrec : e.unrec = d.unrec) (resv : e.resv = d.resv) (flash : ∀ (p : PBlock) (k : Fin 16), e.flash[p].images[k].Law)
    (rotation : ∀ r, e.rot = some r → e.persisted[r.block] ≤ r.gen ∧ ∀ k : Fin 16, r.images[k].Law)
    (mounting : e.store = .mounting → d.store = .mounting)
    (format : e.formatting = true → e.store = .mounting) : e.CopyLaw where
  store := store
  disjoint := fun x => by unfold Editions.numbers; rw [image, unrec, resv]; exact l.disjoint x
  range := fun x => by unfold Editions.numbers; rw [image, unrec, resv]; exact l.range x
  absent := by rw [image]; exact l.absent
  ids := by unfold Editions.DistinctIds Editions.holds; rw [image]; exact l.ids
  flash := flash
  rotation := rotation
  mounting := fun m => by rw [unrec, resv]; exact l.mounting (mounting m)
  format := format

/-- The images that a block holds at a table's law obey R27. -/
theorem Editions.CopyLaw.imageLaw {d : Editions} (l : d.CopyLaw) (e : EdIx) : d.image[e].Law where
  nodup := (List.nodup_append.1 (List.nodup_append.1 (l.disjoint e)).1).1
  range := fun n hn => l.range e n (List.mem_append_left _ (List.mem_append_left _ hn))
  absent := l.absent e

theorem Editions.CopyLaw.blockImages {d : Editions} (l : d.CopyLaw) (b : LBlock) (k : Fin 16) :
    (d.blockImages b)[k].Law := by
  unfold Editions.blockImages
  simp only [Fin.getElem_fin, Vector.getElem_ofFn]
  exact l.imageLaw ⟨16 * b.val + k.val, by omega⟩

theorem EdImage.emptySlot_law : EdImage.emptySlot.Law :=
  ⟨List.nodup_nil, fun n h => by simp [EdImage.emptySlot] at h, fun _ => rfl⟩

theorem EdImage.lostSlot_law : EdImage.lostSlot.Law :=
  ⟨List.nodup_nil, fun n h => by simp [EdImage.lostSlot] at h, fun _ => rfl⟩

/-- Erasing a block leaves images that obey R27. -/
theorem flash_erased {v : Vector FlashBlock 6} (h : ∀ (p : PBlock) (k : Fin 16), v[p].images[k].Law) (q : PBlock)
    (p : PBlock) (k : Fin 16) : ((v.set q FlashBlock.erased)[p].images[k]).Law := by
  rw [getElem_set_fin]
  split
  · simpa [FlashBlock.erased] using EdImage.emptySlot_law
  · exact h p k

theorem flash_marked {v : Vector FlashBlock 6} (h : ∀ (p : PBlock) (k : Fin 16), v[p].images[k].Law) (q : PBlock)
    (m : Mark) (p : PBlock) (k : Fin 16) : ((modifyAt v q fun b => { b with mark := m })[p].images[k]).Law := by
  rw [getElem_modifyAt]
  split
  · exact h q k
  · exact h p k

/-- The three sets' sizes sum to no more than the limit (R28). -/
theorem Editions.CopyLaw.sizes {d : Editions} (l : d.CopyLaw) (e : EdIx) :
    d.image[e].issued.length + d.unrec[e].length + d.resv[e].length ≤ d.image[e].limit := by
  have h := ((l.disjoint e).subperm fun n hn => List.mem_range'_1.2 (by
    obtain ⟨a, b⟩ := l.range e n hn
    exact ⟨a, by omega⟩ : 1 ≤ n ∧ n < 1 + d.image[e].limit)).length_le
  rw [List.length_range'] at h
  simpa [Editions.numbers, Nat.add_assoc] using h

/-! ### The store at its own work -/

theorem StoreStep.of {d e : Editions} (l : d.CopyLaw) (store : e.Law) (image : e.image = d.image)
    (unrec : e.unrec = d.unrec) (resv : e.resv = d.resv) (flash : ∀ (p : PBlock) (k : Fin 16), e.flash[p].images[k].Law)
    (rotation : ∀ r, e.rot = some r → e.persisted[r.block] ≤ r.gen ∧ ∀ k : Fin 16, r.images[k].Law)
    (format : e.formatting = true → e.store = .mounting) (change : e.change = d.change)
    (persisted : e.persisted = d.persisted) (removals : e.removals = d.removals) (st : e.store = d.store) :
    StoreStep d e :=
  ⟨l.work store image unrec resv flash rotation (by rw [st]; exact id) format, image, resv,
    fun _ => by rw [change], fun _ => by rw [persisted], fun r h => .inl (by rw [removals]; exact h), by rw [st]; exact id,
    by rw [st]; exact id⟩

theorem StoreStep.retire {d : Editions} (l : d.CopyLaw) (p : PBlock) (mark : Bool) : StoreStep d (d.retire p mark) :=
  StoreStep.of l (l.store.retire p mark) rfl rfl rfl (by
    unfold Editions.retire
    dsimp only
    split
    · exact flash_marked l.flash p .retired
    · exact l.flash) l.rotation l.format rfl rfl rfl rfl

/-- The law of the store after its failure (R44). -/
theorem StoreStep.fail {d : Editions} (l : d.CopyLaw)
    (store : Editions.Law { d with store := .readOnly, rot := none, writes := [], removals := [], formatting := false }) :
    StoreStep d { d with store := .readOnly, rot := none, writes := [], removals := [], formatting := false } :=
  ⟨l.work store rfl rfl rfl l.flash (fun r h => by cases h) (fun h => by cases h) (fun h => by cases h), rfl, rfl,
    fun _ => Nat.le_refl _, fun _ => Nat.le_refl _, fun _ _ => .inr (.inr rfl), fun _ => rfl, fun h => by cases h⟩

/-- A rotation takes a spare for images that obey R27 (R41). -/
theorem StoreStep.take {d : Editions} (l : d.CopyLaw) {b : LBlock} {images : Vector EdImage 16} {gen : Nat} (p : PBlock)
    (left : Nat) (since : d.persisted[b] ≤ gen) (good : ∀ k : Fin 16, images[k].Law) (t : Vector BlockInfo 6)
    (store : Editions.Law
      { d with
        table := t, flash := d.flash.set p FlashBlock.erased
        rot := some { block := b, phys := p, images := images, gen := gen, phase := .erasing, left := left } }) :
    StoreStep d { d with
      table := t
      flash := d.flash.set p FlashBlock.erased
      rot := some { block := b, phys := p, images := images, gen := gen, phase := .erasing, left := left } } :=
  StoreStep.of l store rfl rfl rfl (flash_erased l.flash p)
    (fun r h => by cases h; exact ⟨since, good⟩) l.format rfl rfl rfl rfl

theorem StoreStep.program {d : Editions} (l : d.CopyLaw) {r : Rotation} (h : d.rot = some r) :
    StoreStep d (beginProgram r d) := by
  obtain ⟨since, good⟩ := l.rotation r h
  refine StoreStep.of l (l.store.beginProgram h) rfl rfl rfl (fun p k => ?_) (fun x hx => ?_) l.format rfl rfl rfl rfl
  · unfold beginProgram
    dsimp only
    rw [getElem_set_fin]
    split
    · exact good k
    · exact l.flash p k
  · cases hx; exact ⟨since, good⟩

/-- What releasing a role leaves (R42). -/
theorem releaseFormer_same (b : LBlock) (mark : Bool) (d : Editions)
    (flash : ∀ (p : PBlock) (k : Fin 16), d.flash[p].images[k].Law) :
    ∃ (t : Vector BlockInfo 6) (f : Vector FlashBlock 6), d.releaseFormer b mark = { d with table := t, flash := f } ∧
      ∀ (p : PBlock) (k : Fin 16), f[p].images[k].Law := by
  have key : ∀ (xs : List PBlock) (c : Editions), (∃ (t : Vector BlockInfo 6) (f : Vector FlashBlock 6),
      c = { d with table := t, flash := f } ∧ ∀ (p : PBlock) (k : Fin 16), f[p].images[k].Law) →
      ∃ (t : Vector BlockInfo 6) (f : Vector FlashBlock 6), xs.foldl (fun d p =>
        if d.table[p].erases < Config.eraseLimit then
          { d with table := modifyAt d.table p fun r => { r with role := .spare } }
        else d.retire p mark) c = { d with table := t, flash := f } ∧ ∀ (p : PBlock) (k : Fin 16), f[p].images[k].Law := by
    intro xs
    induction xs with
    | nil => intro c h; exact h
    | cons p ps ih =>
      rintro c ⟨t, f, rfl, h⟩
      refine ih _ ?_
      beta_reduce
      split
      · exact ⟨_, f, rfl, h⟩
      · unfold Editions.retire
        dsimp only
        split
        · exact ⟨_, _, rfl, flash_marked h p .retired⟩
        · exact ⟨_, f, rfl, h⟩
  exact key _ d ⟨d.table, d.flash, rfl, flash⟩

/-- A written block takes its role, and the removals it carried no longer wait (R35, R42). -/
theorem StoreStep.takeRole {d : Editions} (l : d.CopyLaw) {r : Rotation} (h : d.rot = some r) (mark : Bool) :
    StoreStep d (d.takeRole r mark) := by
  have store := l.store.takeRole h mark
  obtain ⟨t, f, e, flash⟩ := releaseFormer_same r.block mark d l.flash
  unfold Editions.takeRole at store ⊢
  rw [e] at store ⊢
  dsimp only at store ⊢
  refine ⟨l.work store rfl rfl rfl (flash_marked flash r.phys .complete) (fun x hx => by cases hx) id l.format, rfl, rfl,
    fun _ => Nat.le_refl _, fun b => ?_, fun x hx => ?_, id, id⟩
  · dsimp only
    rw [getElem_set_fin]
    split
    · next e => subst e; exact (l.rotation r h).1
    · exact Nat.le_refl _
  · dsimp only
    rw [List.mem_filter]
    by_cases e : x.block = r.block ∧ x.gen ≤ r.gen
    · refine .inr (.inl ?_)
      rw [getElem_set_fin, if_pos e.1]
      exact e.2
    · refine .inl ⟨hx, ?_⟩
      simp only [Bool.not_eq_true', Bool.and_eq_false_iff, beq_eq_false_iff_ne, decide_eq_false_iff_not]
      exact not_and_or.1 e

theorem StoreStep.endFormat {d : Editions} (l : d.CopyLaw) : StoreStep d d.endFormat := by
  have store := l.store.endFormat
  unfold Editions.endFormat at store ⊢
  split
  · next h =>
    rw [if_pos h] at store
    have m := l.format h.1
    refine ⟨l.work store rfl rfl rfl l.flash l.rotation (fun _ => m) (fun h => by cases h), rfl, rfl,
      fun _ => Nat.le_refl _, fun _ => Nat.le_refl _, fun _ h => .inl h, fun h => ?_, fun _ => m⟩
    rw [m] at h; cases h
  · exact StoreStep.refl l

theorem StoreStep.writes {d : Editions} (l : d.CopyLaw) (xs : List LBlock) (store : Editions.Law { d with writes := xs }) :
    StoreStep d { d with writes := xs } :=
  StoreStep.of l store rfl rfl rfl l.flash l.rotation l.format rfl rfl rfl rfl

theorem StoreStep.imageChange {d : Editions} (l : d.CopyLaw) (b : LBlock) : StoreStep d (d.imageChange b) := by
  refine ⟨l.work (l.store.imageChange b) rfl rfl rfl l.flash l.rotation id l.format, rfl, rfl, fun x => ?_,
    fun _ => Nat.le_refl _, fun _ h => .inl h, id, id⟩
  unfold Editions.imageChange
  dsimp only
  rw [getElem_modifyAt]
  split
  · next e => subst e; exact Nat.le_succ _
  · exact Nat.le_refl _

theorem StoreStep.tick {d : Editions} (l : d.CopyLaw) : StoreStep d d.tick := by
  refine StoreStep.of l l.store.tick rfl rfl rfl l.flash (fun r h => ?_) l.format rfl rfl rfl rfl
  simp only [Editions.tick, Option.map_eq_some_iff] at h
  obtain ⟨x, hx, rfl⟩ := h
  exact l.rotation x hx

/-! ### The slot of an id -/

theorem Editions.slotOf_some {d : Editions} {id : Nat} {e : EdIx} (h : d.slotOf id = some e) : d.holds e id := by
  have := List.find?_some h
  simp only [Bool.and_eq_true, beq_iff_eq] at this
  exact this

theorem Editions.slotOf_none {d : Editions} {id : Nat} (h : d.slotOf id = none) (e : EdIx) : ¬ d.holds e id := by
  have := List.find?_eq_none.1 h e (by simp)
  simp only [Bool.and_eq_true, beq_iff_eq] at this
  exact this

theorem Editions.slotOf_holds {d : Editions} (l : d.DistinctIds) {id : Nat} {e : EdIx} (h : d.holds e id) :
    d.slotOf id = some e := by
  cases k : d.slotOf id with
  | none => exact absurd h (Editions.slotOf_none k e)
  | some f => rw [l e f id h (Editions.slotOf_some k)]

/-! ### Moves of a number -/

/-- A change of one slot's numbers by which the edition stays, and no number comes in but one within the limit. -/
theorem Editions.CopyLaw.move {d e : Editions} (l : d.CopyLaw) (x : EdIx) (store : e.Law)
    (kind : ∀ f : EdIx, e.image[f].isEdition = d.image[f].isEdition ∧ e.image[f].id = d.image[f].id ∧
      e.image[f].limit = d.image[f].limit)
    (else_ : ∀ f, f ≠ x → e.numbers f = d.numbers f) (nodup : (e.numbers x).Nodup)
    (range : ∀ n ∈ e.numbers x, n ∈ d.numbers x ∨ (1 ≤ n ∧ n ≤ d.image[x].limit))
    (flash : e.flash = d.flash) (rotation : e.rot = d.rot) (persisted : e.persisted = d.persisted)
    (mounting : e.store = .mounting → ∀ e' : EdIx, e.unrec[e'] = [] ∧ e.resv[e'] = [])
    (format : e.formatting = true → e.store = .mounting) : e.CopyLaw where
  store := store
  disjoint := fun f => by
    by_cases h : f = x
    · subst h; exact nodup
    · rw [else_ f h]; exact l.disjoint f
  range := fun f n hn => by
    rw [(kind f).2.2]
    by_cases h : f = x
    · subst h
      rcases range n hn with m | m
      · exact l.range f n m
      · exact m
    · rw [else_ f h] at hn; exact l.range f n hn
  absent := fun f h => by rw [(kind f).2.2]; exact l.absent f ((kind f).1 ▸ h)
  ids := fun f g id hf hg => by
    unfold Editions.holds at hf hg
    rw [(kind f).1, (kind f).2.1] at hf
    rw [(kind g).1, (kind g).2.1] at hg
    exact l.ids f g id hf hg
  flash := by rw [flash]; exact l.flash
  rotation := by rw [rotation, persisted]; exact l.rotation
  mounting := mounting
  format := format

/-! ### The copy numbers and one job -/

/-- A job gives the number up that it holds, or commits it, or its commit is settled. -/
theorem State.CopyLaw.moved {s t : State} {i : JobIx} {j : Job} {f : Job → Job} (c : s.CopyLaw)
    (hj : s.liveJob i = some j) (jobs : t.jobs = (Sys2Proof.Machine.setJob i f s).jobs)
    (edition : (f j).edition = j.edition) (gone : (f j).holdsCopy = none)
    (fin : (f j).committed = true → (f j).outcome = some .finished) (table : t.ed.CopyLaw)
    (store : t.ed.store = s.ed.store) (removals : t.ed.removals = s.ed.removals)
    (persisted : t.ed.persisted = s.ed.persisted) (change : ∀ b : LBlock, s.ed.change[b] ≤ t.ed.change[b])
    (kind : ∀ e id, t.ed.holds e id ↔ s.ed.holds e id)
    (resv : ∀ k y, k ≠ i → s.keeps k y → y.copy ∈ t.ed.resv[y.slot])
    (issued : ∀ k y g, k ≠ i → s.waits k y g → s.ed.holds y.slot y.id → y.copy ∈ s.ed.image[y.slot].issued →
      y.copy ∈ t.ed.image[y.slot].issued)
    (own : ∀ y g, t.waits i y g → g ≤ t.ed.change[blockOf y.slot] ∧ t.ed.carries y g ∧
      ∀ k z h, k ≠ i → s.waits k z h → y.id = z.id → y.copy ≠ z.copy) : t.CopyLaw := by
  have old : ∀ (k : JobIx) (l : Job), t.liveJob k = some l → (k = i ∧ l = f j) ∨ (k ≠ i ∧ s.liveJob k = some l) := by
    intro k l hk
    have hk : (Sys2Proof.Machine.setJob i f s).liveJob k = some l := by unfold State.liveJob at hk ⊢; rwa [jobs] at hk
    rw [liveJob_setJob, hj] at hk
    split at hk
    · next e => exact .inl ⟨e, (Option.some.inj hk).symm⟩
    · next e => exact .inr ⟨e, hk⟩
  have keeps : ∀ k y, t.keeps k y → k ≠ i ∧ s.keeps k y := by
    rintro k y ⟨l, hl, e⟩
    rcases old k l hl with ⟨-, rfl⟩ | ⟨n, m⟩
    · rw [gone] at e; cases e
    · exact ⟨n, l, m, e⟩
  have waits : ∀ k y g, t.waits k y g → k ≠ i → s.waits k y g := by
    rintro k y g ⟨⟨l, hl, e⟩, p⟩ n
    rcases old k l hl with ⟨m, -⟩ | ⟨-, m⟩
    · exact absurd m n
    · exact ⟨⟨l, m, e⟩, by rw [← persisted]; exact p⟩
  refine ⟨table, fun m k l hl => ?_, fun k y h => ?_, fun k m x y h h' => ?_, fun k l hl => ?_, fun k y g h => ?_,
    fun k m x y g h hx hy e e' => ?_⟩
  · rcases old k l hl with ⟨-, rfl⟩ | ⟨-, q⟩
    · rw [edition]; exact c.mounting (store ▸ m) i j hj
    · exact c.mounting (store ▸ m) k l q
  · obtain ⟨n, h⟩ := keeps k y h
    exact ⟨(kind _ _).2 (c.held k y h).1, resv k y n h⟩
  · exact c.once k m x y (keeps k x h).2 (keeps m y h').2
  · rcases old k l hl with ⟨-, rfl⟩ | ⟨-, q⟩
    · exact fin
    · exact c.finished k l q
  · by_cases n : k = i
    · subst n; exact ⟨(own y g h).1, (own y g h).2.1⟩
    · have h := waits k y g h n
      obtain ⟨a, b⟩ := c.waiting k y g h
      refine ⟨a.trans (change _), ?_⟩
      rcases b with ⟨b, d⟩ | ⟨b, d⟩
      · exact .inl ⟨(kind _ _).2 b, issued k y g n h b d⟩
      · exact .inr ⟨fun e q => b e ((kind _ _).1 q), by rw [store, removals]; exact d⟩
  · by_cases n : k = i <;> by_cases n' : m = i
    · rw [n, n']
    · subst n; exact absurd e' ((own x g hx).2.2 m y h n' (waits m y h hy n') e)
    · subst n'; exact absurd e'.symm ((own y h hy).2.2 k x g n (waits k x g hx n) e.symm)
    · exact c.waitOnce k m x y g h (waits k x g hx n) (waits m y h hy n') e e'

/-- The edition table changes under jobs that stay. -/
theorem State.CopyLaw.tableChange {s t : State} (c : s.CopyLaw) (jobs : t.jobs = s.jobs) (table : t.ed.CopyLaw)
    (store : t.ed.store = .mounting → s.ed.store = .mounting) (persisted : t.ed.persisted = s.ed.persisted)
    (change : t.ed.change = s.ed.change)
    (held : ∀ k y, s.keeps k y → t.ed.holds y.slot y.id ∧ y.copy ∈ t.ed.resv[y.slot])
    (waiting : ∀ k y g, s.waits k y g → t.ed.carries y g) : t.CopyLaw := by
  have live : ∀ k, t.liveJob k = s.liveJob k := fun k => by unfold State.liveJob; rw [jobs]
  have keeps : ∀ k y, t.keeps k y → s.keeps k y := fun k y ⟨l, hl, e⟩ => ⟨l, (live k).symm.trans hl, e⟩
  have waits : ∀ k y g, t.waits k y g → s.waits k y g := fun k y g ⟨⟨l, hl, e⟩, p⟩ =>
    ⟨⟨l, (live k).symm.trans hl, e⟩, by rw [← persisted]; exact p⟩
  exact ⟨table, fun m k l hl => c.mounting (store m) k l ((live k).symm.trans hl), fun k y h => held k y (keeps k y h),
    fun k m x y h h' => c.once k m x y (keeps k x h) (keeps m y h'), fun k l hl => c.finished k l ((live k).symm.trans hl),
    fun k y g h => ⟨by rw [change]; exact (c.waiting k y g (waits k y g h)).1, waiting k y g (waits k y g h)⟩,
    fun k m x y g h hx hy => c.waitOnce k m x y g h (waits k x g hx) (waits m y h hy)⟩

/-- What the numbers of a slot are where a change is in another slot. -/
theorem holds_modify {d : Editions} {e : EdIx} {f : EdImage → EdImage}
    (h : (f d.image[e]).isEdition = d.image[e].isEdition ∧ (f d.image[e]).id = d.image[e].id ∧
      (f d.image[e]).limit = d.image[e].limit) (k : EdIx) :
    (modifyAt d.image e f)[k].isEdition = d.image[k].isEdition ∧ (modifyAt d.image e f)[k].id = d.image[k].id ∧
      (modifyAt d.image e f)[k].limit = d.image[k].limit := by
  rw [getElem_modifyAt]
  split
  · next q => subst q; exact h
  · exact ⟨rfl, rfl, rfl⟩

/-- The three sets of a slot, each number once. -/
theorem numbers_nodup {a b r : List Nat} : (a ++ b ++ r).Nodup ↔
    a.Nodup ∧ b.Nodup ∧ r.Nodup ∧ (∀ n ∈ a, n ∉ b) ∧ (∀ n ∈ a, n ∉ r) ∧ (∀ n ∈ b, n ∉ r) := by
  simp only [List.nodup_append', List.disjoint_left, List.mem_append]
  constructor
  · rintro ⟨⟨a1, b1, d⟩, r1, e⟩
    exact ⟨a1, b1, r1, fun n h => d h, fun n h => e (.inl h), fun n h => e (.inr h)⟩
  · rintro ⟨a1, b1, r1, d, e, f⟩
    exact ⟨⟨a1, b1, d⟩, r1, fun n h => h.elim (e n) (f n)⟩

/-- A number leaves the reservation set for the issued set (R31). -/
theorem perm_issue {a b r : List Nat} {n : Nat} (h : n ∈ r) (d : (a ++ b ++ r).Nodup) :
    (insertNum n a ++ b ++ r.erase n).Perm (a ++ b ++ r) := by
  have na : n ∉ a := fun m => (numbers_nodup.1 d).2.2.2.2.1 n m h
  refine (((insertNum_perm na).append_right b).append_right _).trans ?_
  refine List.Perm.trans ?_ ((List.perm_cons_erase h).symm.append_left _)
  simpa using (List.perm_middle (a := n) (l₁ := a ++ b) (l₂ := r.erase n)).symm

/-- A number leaves the reservation set for the issued-unrecorded set (R31). -/
theorem perm_unrecorded {a b r : List Nat} {n : Nat} (h : n ∈ r) (d : (a ++ b ++ r).Nodup) :
    (a ++ insertNum n b ++ r.erase n).Perm (a ++ b ++ r) := by
  have nb : n ∉ b := fun m => (numbers_nodup.1 d).2.2.2.2.2 n m h
  refine (((insertNum_perm nb).append_left a).append_right _).trans ?_
  refine List.Perm.trans ?_ ((List.perm_cons_erase h).symm.append_left _)
  have p := (List.perm_middle (a := n) (l₁ := b) (l₂ := r.erase n)).symm
  simpa using p.append_left a

/-- A number leaves the issued set for the issued-unrecorded set (R32). -/
theorem perm_fail {a b r : List Nat} {n : Nat} (h : n ∈ a) (d : (a ++ b ++ r).Nodup) :
    (a.erase n ++ insertNum n b ++ r).Perm (a ++ b ++ r) := by
  have nb : n ∉ b := (numbers_nodup.1 d).2.2.2.1 n h
  refine (((insertNum_perm nb).append_left _).trans ?_).append_right r
  exact (List.perm_middle (a := n) (l₁ := a.erase n) (l₂ := b)).trans ((List.perm_cons_erase h).symm.append_right b)

/-- A number joins the reservation set (R29). -/
theorem perm_reserve {a b r : List Nat} {n : Nat} (h : n ∉ r) : (a ++ b ++ insertNum n r).Perm (n :: (a ++ b ++ r)) :=
  ((insertNum_perm h).append_left _).trans (List.perm_middle (a := n) (l₁ := a ++ b) (l₂ := r))

/-- What the tables say of a job that holds a number. -/
theorem State.CopyLaw.reserved {s : State} (c : s.CopyLaw) {i : JobIx} {x : JobEdition} (h : s.keeps i x) :
    s.ed.holds x.slot x.id ∧ x.copy ∈ s.ed.resv[x.slot] ∧ x.copy ∉ s.ed.image[x.slot].issued ∧
      x.copy ∉ s.ed.unrec[x.slot] := by
  obtain ⟨a, b⟩ := c.held i x h
  have d := numbers_nodup.1 (c.table.disjoint x.slot)
  exact ⟨a, b, fun m => d.2.2.2.2.1 _ m b, fun m => d.2.2.2.2.2 _ m b⟩

/-- A job that holds a number has it alone among the jobs that wait for a commit. -/
theorem State.CopyLaw.not_waits {s : State} (c : s.CopyLaw) {i k : JobIx} {x y : JobEdition} {g : Nat} (h : s.keeps i x)
    (w : s.waits k y g) (e : x.id = y.id) : x.copy ≠ y.copy := by
  obtain ⟨a, -, b, -⟩ := c.reserved h
  rcases (c.waiting k y g w).2 with ⟨p, q⟩ | ⟨p, -⟩
  · have : y.slot = x.slot := c.table.ids _ _ y.id p (e ▸ a)
    intro n
    simp only [this, ← n] at q
    exact b q
  · exact absurd (e ▸ a) (p x.slot)

/-- A number given back (R30). -/
theorem State.CopyLaw.giveBack {s t : State} {i : JobIx} {j : Job} {f : Job → Job} {x : JobEdition} (c : s.CopyLaw)
    (hj : s.liveJob i = some j) (keep : j.holdsCopy = some x) (jobs : t.jobs = (Sys2Proof.Machine.setJob i f s).jobs)
    (ed : t.ed = Editions.giveBack x s.ed) (edition : (f j).edition = j.edition) (gone : (f j).holdsCopy = none)
    (committed : (f j).committed = false) : t.CopyLaw := by
  have no : ∀ g y, ¬ t.waits i y g := fun g y ⟨⟨l, hl, _, _, e⟩, _⟩ => by
    have hl : (Sys2Proof.Machine.setJob i f s).liveJob i = some l := by unfold State.liveJob at hl ⊢; rwa [jobs] at hl
    rw [liveJob_setJob, if_pos rfl, hj] at hl
    simp only [Option.map_some, Option.some.injEq] at hl
    subst hl
    simp [Job.committed, e] at committed
  have at_ : ∀ k : EdIx, t.ed.resv[k] = if k = x.slot then s.ed.resv[x.slot].erase x.copy else s.ed.resv[k] := fun k => by
    rw [ed]; exact getElem_modifyAt _ _ _ _
  refine c.moved hj jobs edition gone (by simp [committed]) ?_ (by rw [ed]; rfl) (by rw [ed]; rfl) (by rw [ed]; rfl)
    (by rw [ed]; exact fun _ => Nat.le_refl _) (by rw [ed]; exact fun _ _ => Iff.rfl) (fun k y n h => ?_)
    (by rw [ed]; exact fun _ _ _ _ _ _ h => h) fun y g h => absurd h (no g y)
  · refine c.table.move x.slot (by rw [ed]; exact c.table.store.congr rfl rfl rfl rfl rfl rfl rfl)
      (by rw [ed]; exact fun _ => ⟨rfl, rfl, rfl⟩)
      (fun k n => ?_) ?_ (fun m hm => .inl ?_) (by rw [ed]; rfl) (by rw [ed]; rfl) (by rw [ed]; rfl) (fun m e => ?_)
      (by rw [ed]; exact c.table.format)
    · unfold Editions.numbers
      rw [at_, if_neg n, ed]
      rfl
    · have := c.table.disjoint x.slot
      unfold Editions.numbers at this ⊢
      rw [at_, if_pos rfl, ed]
      exact this.sublist (List.Sublist.append_left List.erase_sublist _)
    · unfold Editions.numbers at hm ⊢
      rw [at_, if_pos rfl, ed] at hm
      rcases List.mem_append.1 hm with h | h
      · exact List.mem_append_left _ h
      · exact List.mem_append_right _ (List.mem_of_mem_erase h)
    · have m : s.ed.store = .mounting := by rw [ed] at m; exact m
      obtain ⟨a, b⟩ := c.table.mounting m e
      rw [at_, ed]
      refine ⟨a, ?_⟩
      split
      · rw [(c.table.mounting m x.slot).2]; rfl
      · exact b
  · have m := (c.held k y h).2
    rw [at_]
    split
    · next e =>
      simp only [e] at m
      refine (List.mem_erase_of_ne fun q => n ?_).2 m
      exact c.once k i y x h ⟨j, hj, keep⟩ e q
    · exact m

/-- A number committed while the store can take it (R31): it moves to the issued set, and the job waits for a later
generation. -/
theorem State.CopyLaw.issue {s t : State} {i : JobIx} {j : Job} {f : Job → Job} {x : JobEdition} (c : s.CopyLaw)
    (hj : s.liveJob i = some j) (keep : j.holdsCopy = some x) (jobs : t.jobs = (Sys2Proof.Machine.setJob i f s).jobs)
    (ed : t.ed = { Editions.giveBack x s.ed with
      image := modifyAt s.ed.image x.slot fun m => { m with issued := insertNum x.copy m.issued } })
    (edition : (f j).edition = some x) (was : j.edition = some x) (gone : (f j).holdsCopy = none)
    (outcome : (f j).outcome = some .finished) (own : ∀ g, (f j).commitGen = some g → g ≤ s.ed.change[blockOf x.slot]) :
    t.CopyLaw := by
  obtain ⟨hold, inResv, -, -⟩ := c.reserved ⟨j, hj, keep⟩
  have resv : ∀ k : EdIx, t.ed.resv[k] = if k = x.slot then s.ed.resv[x.slot].erase x.copy else s.ed.resv[k] := fun k => by
    rw [ed]; exact getElem_modifyAt _ _ _ _
  have image : ∀ k : EdIx, t.ed.image[k] = if k = x.slot then
      { s.ed.image[x.slot] with issued := insertNum x.copy s.ed.image[x.slot].issued } else s.ed.image[k] := fun k => by
    rw [ed]; exact getElem_modifyAt _ _ _ _
  have unrec : t.ed.unrec = s.ed.unrec := by rw [ed]; rfl
  have kind : ∀ k : EdIx, t.ed.image[k].isEdition = s.ed.image[k].isEdition ∧ t.ed.image[k].id = s.ed.image[k].id ∧
      t.ed.image[k].limit = s.ed.image[k].limit := fun k => by
    rw [image]
    split
    · next e => subst e; exact ⟨rfl, rfl, rfl⟩
    · exact ⟨rfl, rfl, rfl⟩
  have holds : ∀ e id, t.ed.holds e id ↔ s.ed.holds e id := fun e id => by
    unfold Editions.holds; rw [(kind e).1, (kind e).2.1]
  have perm : (t.ed.numbers x.slot).Perm (s.ed.numbers x.slot) := by
    unfold Editions.numbers
    rw [image, resv, if_pos rfl, if_pos rfl, unrec]
    exact perm_issue inResv (c.table.disjoint x.slot)
  have notMounting : s.ed.store ≠ .mounting := fun m => by have := c.mounting m i j hj; rw [was] at this; cases this
  have mem : ∀ n, n ∈ s.ed.image[x.slot].issued → n ∈ insertNum x.copy s.ed.image[x.slot].issued := fun n h => by
    have p := insertNum_perm (k := x.copy) (xs := s.ed.image[x.slot].issued)
      fun m => (numbers_nodup.1 (c.table.disjoint x.slot)).2.2.2.2.1 _ m inResv
    exact p.mem_iff.2 (List.mem_cons_of_mem _ h)
  refine c.moved hj jobs (edition.trans was.symm) gone (fun _ => outcome) ?_ (by rw [ed]; rfl) (by rw [ed]; rfl)
    (by rw [ed]; rfl) (by rw [ed]; exact fun _ => Nat.le_refl _) holds (fun k y n h => ?_)
    (fun k y g _ _ _ h => ?_) fun y g h => ?_
  · refine c.table.move x.slot (by rw [ed]; exact c.table.store.congr rfl rfl rfl rfl rfl rfl rfl) kind (fun k n => ?_)
      (perm.nodup_iff.2 (c.table.disjoint x.slot)) (fun m hm => .inl (perm.mem_iff.1 hm)) (by rw [ed]; rfl)
      (by rw [ed]; rfl) (by rw [ed]; rfl) (fun m => absurd (by rw [ed] at m; exact m) notMounting)
      (by rw [ed]; exact c.table.format)
    unfold Editions.numbers
    rw [image, resv, if_neg n, if_neg n, unrec]
  · have m := (c.held k y h).2
    rw [resv]
    split
    · next e =>
      simp only [e] at m
      refine (List.mem_erase_of_ne fun q => n ?_).2 m
      exact c.once k i y x h ⟨j, hj, keep⟩ e q
    · exact m
  · rw [image]
    split
    · next e => simp only [e] at h; exact mem _ h
    · exact h
  · obtain ⟨⟨l, hl, -, e, g'⟩, -⟩ := h
    have hl : (Sys2Proof.Machine.setJob i f s).liveJob i = some l := by unfold State.liveJob at hl ⊢; rwa [jobs] at hl
    rw [liveJob_setJob, if_pos rfl, hj] at hl
    simp only [Option.map_some, Option.some.injEq] at hl
    subst hl
    rw [edition, Option.some.injEq] at e
    subst e
    refine ⟨by rw [ed]; exact own g g', .inl ⟨(holds _ _).2 hold, ?_⟩, fun k z h _ w e => c.not_waits ⟨j, hj, keep⟩ w e⟩
    rw [image, if_pos rfl]
    exact (insertNum_perm fun m => (numbers_nodup.1 (c.table.disjoint x.slot)).2.2.2.2.1 _ m inResv).mem_iff.2 (by simp)

/-- A number committed while the store is READ_ONLY (R31): it moves to the issued-unrecorded set. -/
theorem State.CopyLaw.unrecorded {s t : State} {i : JobIx} {j : Job} {f : Job → Job} {x : JobEdition} (c : s.CopyLaw)
    (hj : s.liveJob i = some j) (keep : j.holdsCopy = some x) (jobs : t.jobs = (Sys2Proof.Machine.setJob i f s).jobs)
    (ed : t.ed = { Editions.giveBack x s.ed with unrec := modifyAt s.ed.unrec x.slot (insertNum x.copy) })
    (edition : (f j).edition = j.edition) (was : j.edition = some x) (gone : (f j).holdsCopy = none)
    (outcome : (f j).outcome = some .finished) (settled : (f j).commitGen = none) : t.CopyLaw := by
  obtain ⟨-, inResv, -, -⟩ := c.reserved ⟨j, hj, keep⟩
  have resv : ∀ k : EdIx, t.ed.resv[k] = if k = x.slot then s.ed.resv[x.slot].erase x.copy else s.ed.resv[k] := fun k => by
    rw [ed]; exact getElem_modifyAt _ _ _ _
  have unrec : ∀ k : EdIx, t.ed.unrec[k] = if k = x.slot then insertNum x.copy s.ed.unrec[x.slot] else s.ed.unrec[k] :=
    fun k => by rw [ed]; exact getElem_modifyAt _ _ _ _
  have image : t.ed.image = s.ed.image := by rw [ed]; rfl
  have perm : (t.ed.numbers x.slot).Perm (s.ed.numbers x.slot) := by
    unfold Editions.numbers
    rw [unrec, resv, if_pos rfl, if_pos rfl, image]
    exact perm_unrecorded inResv (c.table.disjoint x.slot)
  have notMounting : s.ed.store ≠ .mounting := fun m => by have := c.mounting m i j hj; rw [was] at this; cases this
  refine c.moved hj jobs edition gone (fun _ => outcome) ?_ (by rw [ed]; rfl) (by rw [ed]; rfl)
    (by rw [ed]; rfl) (by rw [ed]; exact fun _ => Nat.le_refl _) (fun _ _ => by unfold Editions.holds; rw [image])
    (fun k y n h => ?_) (fun k y g _ _ _ h => by rw [image]; exact h) fun y g h => ?_
  · refine c.table.move x.slot (by rw [ed]; exact c.table.store.congr rfl rfl rfl rfl rfl rfl rfl)
      (fun _ => by rw [image]; exact ⟨rfl, rfl, rfl⟩) (fun k n => ?_) (perm.nodup_iff.2 (c.table.disjoint x.slot))
      (fun m hm => .inl (perm.mem_iff.1 hm)) (by rw [ed]; rfl) (by rw [ed]; rfl) (by rw [ed]; rfl)
      (fun m => absurd (by rw [ed] at m; exact m) notMounting) (by rw [ed]; exact c.table.format)
    unfold Editions.numbers
    rw [unrec, resv, if_neg n, if_neg n, image]
  · have m := (c.held k y h).2
    rw [resv]
    split
    · next e =>
      simp only [e] at m
      refine (List.mem_erase_of_ne fun q => n ?_).2 m
      exact c.once k i y x h ⟨j, hj, keep⟩ e q
    · exact m
  · obtain ⟨⟨l, hl, -, -, g'⟩, -⟩ := h
    have hl : (Sys2Proof.Machine.setJob i f s).liveJob i = some l := by unfold State.liveJob at hl ⊢; rwa [jobs] at hl
    rw [liveJob_setJob, if_pos rfl, hj] at hl
    simp only [Option.map_some, Option.some.injEq] at hl
    subst hl
    rw [settled] at g'; cases g'

/-- A commit that the store fails (R32): the number moves out of the issued set where the edition still stands. -/
theorem State.CopyLaw.fail {s t : State} {i : JobIx} {j : Job} {f : Job → Job} {x : JobEdition} {g : Nat} (c : s.CopyLaw)
    (hj : s.liveJob i = some j) (was : j.edition = some x) (gen : j.commitGen = some g) (isOpen : j.commitOpen = true)
    (late : s.ed.persisted[blockOf x.slot] < g) (jobs : t.jobs = (Sys2Proof.Machine.setJob i f s).jobs)
    (ed : t.ed = Editions.unrecord x.id x.copy s.ed) (edition : (f j).edition = j.edition)
    (gone : (f j).holdsCopy = none) (outcome : (f j).outcome = j.outcome) (settled : (f j).commitOpen = false) :
    t.CopyLaw := by
  have w : s.waits i x g := ⟨⟨j, hj, isOpen, was, gen⟩, late⟩
  have no : ∀ y h, ¬ t.waits i y h := fun y h ⟨⟨l, hl, o, _, _⟩, _⟩ => by
    have hl : (Sys2Proof.Machine.setJob i f s).liveJob i = some l := by unfold State.liveJob at hl ⊢; rwa [jobs] at hl
    rw [liveJob_setJob, if_pos rfl, hj] at hl
    simp only [Option.map_some, Option.some.injEq] at hl
    subst hl
    rw [settled] at o; cases o
  have fin : (f j).committed = true → (f j).outcome = some .finished := fun _ => by
    rw [outcome]; exact c.finished i j hj (by simp [Job.committed, gen])
  have notMounting : s.ed.store ≠ .mounting := fun m => by have := c.mounting m i j hj; rw [was] at this; cases this
  rcases (c.waiting i x g w).2 with ⟨hold, inIssued⟩ | ⟨none_, -⟩
  · have sl := Editions.slotOf_holds c.table.ids hold
    unfold Editions.unrecord at ed
    rw [sl] at ed
    dsimp only at ed
    have resv : t.ed.resv = s.ed.resv := by rw [ed]
    have image : ∀ k : EdIx, t.ed.image[k] = if k = x.slot then
        { s.ed.image[x.slot] with issued := s.ed.image[x.slot].issued.erase x.copy } else s.ed.image[k] := fun k => by
      rw [ed]; exact getElem_modifyAt _ _ _ _
    have unrec : ∀ k : EdIx, t.ed.unrec[k] = if k = x.slot then insertNum x.copy s.ed.unrec[x.slot] else s.ed.unrec[k] :=
      fun k => by rw [ed]; exact getElem_modifyAt _ _ _ _
    have kind : ∀ k : EdIx, t.ed.image[k].isEdition = s.ed.image[k].isEdition ∧ t.ed.image[k].id = s.ed.image[k].id ∧
        t.ed.image[k].limit = s.ed.image[k].limit := fun k => by
      rw [image]
      split
      · next e => subst e; exact ⟨rfl, rfl, rfl⟩
      · exact ⟨rfl, rfl, rfl⟩
    have holds : ∀ e id, t.ed.holds e id ↔ s.ed.holds e id := fun e id => by
      unfold Editions.holds; rw [(kind e).1, (kind e).2.1]
    have perm : (t.ed.numbers x.slot).Perm (s.ed.numbers x.slot) := by
      unfold Editions.numbers
      rw [image, unrec, if_pos rfl, if_pos rfl, resv]
      exact perm_fail inIssued (c.table.disjoint x.slot)
    refine c.moved hj jobs edition gone fin ?_ (by rw [ed]) (by rw [ed]) (by rw [ed])
      (by rw [ed]; exact fun _ => Nat.le_refl _) holds (fun k y n h => by rw [resv]; exact (c.held k y h).2)
      (fun k y h n w' hold' m => ?_) fun y h w' => absurd w' (no y h)
    · refine c.table.move x.slot (by rw [ed]; exact c.table.store.congr rfl rfl rfl rfl rfl rfl rfl) kind (fun k n => ?_)
        (perm.nodup_iff.2 (c.table.disjoint x.slot)) (fun m hm => .inl (perm.mem_iff.1 hm)) (by rw [ed])
        (by rw [ed]) (by rw [ed]) (fun m => absurd (by rw [ed] at m; exact m) notMounting)
        (by rw [ed]; exact c.table.format)
      unfold Editions.numbers
      rw [image, unrec, if_neg n, if_neg n, resv]
    · rw [image]
      split
      · next e =>
        have same : y.id = x.id := by
          have a := hold'.2
          have b := hold.2
          simp only [e] at a
          exact a.symm.trans b
        simp only [e] at m
        exact (List.mem_erase_of_ne fun q => n (c.waitOnce k i y x h g w' w same q)).2 m
      · exact m
  · have sl : s.ed.slotOf x.id = none := by
      cases h : s.ed.slotOf x.id with
      | none => rfl
      | some e => exact absurd (Editions.slotOf_some h) (none_ e)
    unfold Editions.unrecord at ed
    rw [sl] at ed
    dsimp only at ed
    exact c.moved hj jobs edition gone fin (by rw [ed]; exact c.table) (by rw [ed]) (by rw [ed]) (by rw [ed])
      (by rw [ed]; exact fun _ => Nat.le_refl _) (by rw [ed]; exact fun _ _ => Iff.rfl)
      (fun k y n h => by rw [ed]; exact (c.held k y h).2) (fun k y g _ _ _ h => by rw [ed]; exact h)
      fun y h w' => absurd w' (no y h)

/-! ### Requests on editions -/

/-- An EMPTY slot takes a new edition (R33). -/
theorem State.CopyLaw.openSlot {s t : State} (c : s.CopyLaw) {e : EdIx} {id limit : Nat} (jobs : t.jobs = s.jobs)
    (ed : t.ed = { s.ed with image := modifyAt s.ed.image e fun _ => { state := .opened, id := id, limit := limit, issued := [] } })
    (ready : s.ed.store = .ready) (empty : s.ed.image[e].isEdition = false) (fresh : ∀ f, ¬ s.ed.holds f id)
    (removed : ∀ r ∈ s.ed.removals, r.id ≠ id) : t.CopyLaw := by
  have image : ∀ k : EdIx, t.ed.image[k] = if k = e then { state := .opened, id := id, limit := limit, issued := [] }
      else s.ed.image[k] := fun k => by rw [ed]; exact getElem_modifyAt _ _ _ _
  have nil : s.ed.numbers e = [] := by
    refine List.eq_nil_iff_forall_not_mem.2 fun n hn => ?_
    have := c.table.range e n hn
    rw [c.table.absent e empty] at this
    omega
  have nil' : s.ed.unrec[e] = [] ∧ s.ed.resv[e] = [] := by
    unfold Editions.numbers at nil
    simp only [List.append_eq_nil_iff] at nil
    exact ⟨nil.1.2, nil.2⟩
  have numbers : ∀ k : EdIx, t.ed.numbers k = s.ed.numbers k := fun k => by
    by_cases h : k = e
    · subst h
      rw [nil]
      unfold Editions.numbers
      rw [image, if_pos rfl, ed]
      simpa using nil'
    · unfold Editions.numbers
      rw [image, if_neg h, ed]
  have holds : ∀ k x, t.ed.holds k x ↔ (k = e ∧ x = id) ∨ (k ≠ e ∧ s.ed.holds k x) := fun k x => by
    unfold Editions.holds
    rw [image]
    split
    · next h =>
      exact ⟨fun q => .inl ⟨h, q.2.symm⟩, fun q => q.elim (fun m => ⟨rfl, m.2.symm⟩) fun m => absurd h m.1⟩
    · next h => exact ⟨fun q => .inr ⟨h, q⟩, fun q => q.elim (fun m => absurd m.1 h) fun m => m.2⟩
  have off : ∀ k, ¬ (k = e ∧ s.ed.image[k].isEdition = true) := fun k ⟨h, q⟩ => by subst h; rw [empty] at q; cases q
  refine c.tableChange jobs ⟨by rw [ed]; exact c.table.store.congr rfl rfl rfl rfl rfl rfl rfl,
    fun k => by rw [numbers]; exact c.table.disjoint k, fun k n hn => ?_, fun k h => ?_, fun k m x hk hm => ?_,
    by rw [ed]; exact c.table.flash, by rw [ed]; exact c.table.rotation, fun m => ?_, by rw [ed]; exact c.table.format⟩
    (by rw [ed]; exact fun h => h) (by rw [ed]) (by rw [ed]) (fun k y h => ?_) fun k y g w => ?_
  · rw [numbers] at hn
    rw [image]
    split
    · next h => subst h; rw [nil] at hn; cases hn
    · exact c.table.range k n hn
  · rw [image] at h ⊢
    split at h
    · simp [EdImage.isEdition] at h
    · next n => rw [if_neg n]; exact c.table.absent k h
  · rcases (holds k x).1 hk with ⟨a, b⟩ | ⟨a, b⟩ <;> rcases (holds m x).1 hm with ⟨a', b'⟩ | ⟨a', b'⟩
    · rw [a, a']
    · subst b; exact absurd b' (fresh m)
    · subst b'; exact absurd b (fresh k)
    · exact c.table.ids k m x b b'
  · rw [ed] at m; rw [show s.ed.store = .mounting from m] at ready; cases ready
  · obtain ⟨a, b⟩ := c.held k y h
    refine ⟨(holds _ _).2 (.inr ⟨fun q => off y.slot ⟨q, a.1⟩, a⟩), by rw [ed]; exact b⟩
  · rcases (c.waiting k y g w).2 with ⟨a, b⟩ | ⟨a, b⟩
    · have n : y.slot ≠ e := fun q => off y.slot ⟨q, a.1⟩
      exact .inl ⟨(holds _ _).2 (.inr ⟨n, a⟩), by rw [image, if_neg n]; exact b⟩
    · rcases b with b | ⟨r, hr, b, d⟩
      · rw [ready] at b; cases b
      · refine .inr ⟨fun f q => ?_, .inr ⟨r, by rw [ed]; exact hr, b, d⟩⟩
        rcases (holds f y.id).1 q with ⟨-, q⟩ | ⟨-, q⟩
        · exact removed r hr (b.trans q)
        · exact a f q

/-- An OPEN slot becomes CLOSED (R34). -/
theorem State.CopyLaw.closeSlot {s t : State} (c : s.CopyLaw) {e : EdIx} (jobs : t.jobs = s.jobs)
    (ed : t.ed = { s.ed with image := modifyAt s.ed.image e fun m => { m with state := .closed } })
    (opened : s.ed.image[e].state = .opened) : t.CopyLaw := by
  have image : ∀ k : EdIx, t.ed.image[k] = if k = e then { s.ed.image[e] with state := .closed } else s.ed.image[k] :=
    fun k => by rw [ed]; exact getElem_modifyAt _ _ _ _
  have kind : ∀ k : EdIx, t.ed.image[k].isEdition = s.ed.image[k].isEdition ∧ t.ed.image[k].id = s.ed.image[k].id ∧
      t.ed.image[k].limit = s.ed.image[k].limit ∧ t.ed.image[k].issued = s.ed.image[k].issued := fun k => by
    rw [image]
    split
    · next h => subst h; exact ⟨by unfold EdImage.isEdition; rw [opened]; rfl, rfl, rfl, rfl⟩
    · exact ⟨rfl, rfl, rfl, rfl⟩
  have holds : ∀ k x, t.ed.holds k x ↔ s.ed.holds k x := fun k x => by
    unfold Editions.holds; rw [(kind k).1, (kind k).2.1]
  have numbers : ∀ k : EdIx, t.ed.numbers k = s.ed.numbers k := fun k => by
    unfold Editions.numbers; rw [(kind k).2.2.2, ed]
  refine c.tableChange jobs (c.table.move e (by rw [ed]; exact c.table.store.congr rfl rfl rfl rfl rfl rfl rfl)
    (fun k => ⟨(kind k).1, (kind k).2.1, (kind k).2.2.1⟩) (fun k _ => numbers k) (by rw [numbers]; exact c.table.disjoint e)
    (fun n h => .inl (by rw [← numbers]; exact h)) (by rw [ed]) (by rw [ed]) (by rw [ed])
    (by rw [ed]; exact c.table.mounting) (by rw [ed]; exact c.table.format)) (by rw [ed]; exact id) (by rw [ed])
    (by rw [ed]) (fun k y h => ?_) fun k y g w => ?_
  · obtain ⟨a, b⟩ := c.held k y h
    exact ⟨(holds _ _).2 a, by rw [ed]; exact b⟩
  · rcases (c.waiting k y g w).2 with ⟨a, b⟩ | ⟨a, b⟩
    · exact .inl ⟨(holds _ _).2 a, by rw [(kind y.slot).2.2.2]; exact b⟩
    · exact .inr ⟨fun f q => a f ((holds _ _).1 q), by rw [ed]; exact b⟩

/-- A CLOSED or LOST slot without reservations becomes EMPTY, and a CLOSED one's id is kept until the removal persists
(R35). -/
theorem State.CopyLaw.removeSlot {s t : State} (c : s.CopyLaw) {e : EdIx} (jobs : t.jobs = s.jobs)
    (ed : t.ed = { s.ed with
      image := modifyAt s.ed.image e fun _ => EdImage.emptySlot
      unrec := s.ed.unrec.set e []
      removals := s.ed.removals ++ s.ed.removing e })
    (closed : s.ed.image[e].state = .closed ∨ s.ed.image[e].state = .lost) (bare : s.ed.resv[e] = []) : t.CopyLaw := by
  have image : ∀ k : EdIx, t.ed.image[k] = if k = e then EdImage.emptySlot else s.ed.image[k] := fun k => by
    rw [ed]; exact getElem_modifyAt _ _ _ _
  have unrec : ∀ k : EdIx, t.ed.unrec[k] = if k = e then [] else s.ed.unrec[k] := fun k => by
    rw [ed]; exact getElem_set_fin _ _ _ _
  have numbers : ∀ k : EdIx, t.ed.numbers k = if k = e then [] else s.ed.numbers k := fun k => by
    unfold Editions.numbers
    rw [image, unrec]
    split
    · next h => subst h; rw [ed]; simpa [EdImage.emptySlot] using bare
    · rw [ed]
  have holds : ∀ k x, t.ed.holds k x ↔ k ≠ e ∧ s.ed.holds k x := fun k x => by
    unfold Editions.holds
    rw [image]
    split
    · next h => simp [h, EdImage.emptySlot, EdImage.isEdition]
    · next h => simp [h]
  refine c.tableChange jobs ⟨by rw [ed]; exact c.table.store.congr rfl rfl rfl rfl rfl rfl rfl, fun k => ?_,
    fun k n hn => ?_, fun k h => ?_, fun k m x hk hm => ?_, by rw [ed]; exact c.table.flash,
    by rw [ed]; exact c.table.rotation, fun m k => ?_, by rw [ed]; exact c.table.format⟩
    (by rw [ed]; exact id) (by rw [ed]) (by rw [ed]) (fun k y h => ?_) fun k y g w => ?_
  · rw [numbers]
    split
    · exact List.nodup_nil
    · exact c.table.disjoint k
  · rw [numbers] at hn
    rw [image]
    split at hn
    · cases hn
    · next h => rw [if_neg h]; exact c.table.range k n hn
  · rw [image] at h ⊢
    split at h
    · next q => rw [if_pos q]; rfl
    · next q => rw [if_neg q]; exact c.table.absent k h
  · exact c.table.ids k m x ((holds k x).1 hk).2 ((holds m x).1 hm).2
  · have m : s.ed.store = .mounting := by rw [ed] at m; exact m
    obtain ⟨a, b⟩ := c.table.mounting m k
    rw [unrec, ed]
    refine ⟨?_, b⟩
    split
    · rfl
    · exact a
  · obtain ⟨a, b⟩ := c.held k y h
    have n : y.slot ≠ e := fun q => by simp only [q, bare] at b; cases b
    exact ⟨(holds _ _).2 ⟨n, a⟩, by rw [ed]; exact b⟩
  · obtain ⟨le, at_⟩ := c.waiting k y g w
    rcases at_ with ⟨a, b⟩ | ⟨a, b⟩
    · by_cases n : y.slot = e
      · refine .inr ⟨fun f q => ?_, .inr ⟨{ id := y.id, block := blockOf e, gen := s.ed.change[blockOf e] + 1 }, ?_, rfl,
          by rw [n], ?_⟩⟩
        · obtain ⟨m, q⟩ := (holds f y.id).1 q
          exact m ((c.table.ids f y.slot y.id q a).trans n)
        · have st : s.ed.image[e].state = .closed := by
            refine closed.resolve_right fun l => ?_
            have := a.1
            simp only [n] at this
            unfold EdImage.isEdition at this
            rw [l] at this
            cases this
          have id : s.ed.image[e].id = y.id := by have := a.2; simp only [n] at this; exact this
          rw [ed]
          refine List.mem_append_right _ ?_
          unfold Editions.removing
          rw [if_pos st, id]
          simp
        · simp only [n] at le; exact le.trans (Nat.le_succ _)
      · exact .inl ⟨(holds _ _).2 ⟨n, a⟩, by rw [image, if_neg n]; exact b⟩
    · refine .inr ⟨fun f q => a f ((holds _ _).1 q).2, ?_⟩
      rcases b with b | ⟨r, hr, b⟩
      · exact .inl (by rw [ed]; exact b)
      · exact .inr ⟨r, by rw [ed]; exact List.mem_append_left _ hr, b⟩

end Sys2Proof.Machine
end

