-- ==== Sys2Proof/Laws/AsideOps.lean ====
section
/-!
SUPPORT. The operations of costing, the edition store, the ink controller and the checker stand aside from the jobs'
course, the copy numbers' moves among them (R29 to R32).
-/

-- One theorem after another: waiting proofs would each hold a thread.
set_option Elab.async false

namespace Sys2Proof.Machine

/-! ### Costing -/

/-- A CLOSING job leaves the table (R22). -/
theorem Aside.depart {s t : State} {i : JobIx} {j k : Job} {gen : Nat} (hj : s.liveJob i = some j)
    (closing : j.state = .closing) (slots : t.jobs.slots = s.jobs.slots.set i (.releasing k gen))
    (order : t.jobs.order = s.jobs.order.erase i) (feed : t.feed = s.feed) (eng : t.eng = s.eng) (chk : t.chk = s.chk)
    (ed : t.ed = s.ed) : Aside s t := by
  have live : ∀ k, t.liveJob k = if k = i then none else s.liveJob k := fun k => liveJob_set slots k
  have old : ∀ (k : JobIx) (l : Job), t.liveJob k = some l → k ≠ i ∧ s.liveJob k = some l := fun k l hk => by
    rw [live] at hk
    split at hk
    · simp at hk
    · next e => exact ⟨e, hk⟩
  refine ⟨⟨fun k l hk => ⟨l, (old k l hk).2, rfl, rfl, rfl, rfl⟩, fun k l hk c => ?_, fun o => ⟨?_, fun k => ?_,
    fun k m l l' hk hm e => o.tags k m l l' (old k l hk).2 (old m l' hm).2 e⟩,
    Queue.of_copyJobs (by rw [order]; exact List.erase_sublist) (fun k hk => ?_)
      (fun k l hk => ⟨l, (old k l hk).2, Job.SameCopy.refl l, id⟩) ed, by rw [eng]; exact fun x h => ⟨x, h, rfl⟩,
    by rw [chk]; exact fun x h => ⟨x, h, rfl⟩, by rw [feed]; exact id, by rw [feed]; exact id⟩,
    ⟨fun k l hk => ⟨l, (old k l hk).2, rfl, rfl, Nat.le_refl _⟩, by rw [order]; exact List.erase_sublist,
      by rw [feed], by rw [feed]; exact id, by rw [feed]; exact id⟩⟩
  · rw [live]
    split
    · next e => subst e; rw [hj, Option.some.injEq] at hk; subst hk; exact absurd closing c
    · simp [hk]
  · rw [order]; exact o.nodup.erase i
  · rw [order, live, o.nodup.mem_erase_iff]
    split
    · next e => simp [e]
    · next e => simp [e, o.live k]
  · rw [slots, getElem_set_fin] at hk
    split at hk
    · simp at hk
    · exact hk

theorem departIfReady_aside (i : JobIx) (s : State) : Aside s (departIfReady i s) := by
  unfold departIfReady
  split
  · next j hj =>
    refine Aside.ite (fun h => Aside.trans ?_ (notify_aside _ _)) fun _ => Aside.refl s
    exact Aside.depart hj h.1 rfl rfl rfl rfl rfl rfl
  · exact Aside.refl s

theorem logRecord_aside (r : CostRecord) (s : State) : Aside s (logRecord r s) :=
  Aside.ite (fun _ => (Aside.of_eq rfl rfl : Aside s (s.mapCost _)).trans (notify_aside _ _)) fun _ => Aside.of_eq rfl rfl

theorem fileRecord_aside (i : JobIx) (r : CostRecord) (s : State) : Aside s (fileRecord i r s) :=
  Aside.ite (fun _ => (logRecord_aside r s).trans (Aside.setJob' _))
    fun _ => (Aside.of_eq rfl rfl : Aside s (s.mapCost _)).trans (Aside.changeJob _)

theorem enterWaiting_aside (s : State) : Aside s (enterWaiting s) := by
  unfold enterWaiting
  split
  · exact Aside.refl s
  · next x w _ =>
    have k : Aside s (logRecord x (s.mapCost fun k => { k with waiting := w })) :=
      (Aside.of_eq rfl rfl : Aside s (s.mapCost _)).trans (logRecord_aside _ _)
    dsimp only
    split
    · exact (k.trans (Aside.changeJob _)).trans (departIfReady_aside _ _)
    · exact k

/-! ### The edition store -/

/-- The store at its own work. -/
theorem mapEd_aside {f : Editions → Editions} {s : State} (h : s.ed.CopyLaw → StoreStep s.ed (f s.ed)) :
    Aside s (s.mapEd f) :=
  Aside.of_table rfl rfl fun c => c.step (CopyJobs.of_live fun _ => rfl) (h c.table)

/-- What the condition of a failed commit says of the job. -/
theorem State.waitsCommit_some {s : State} {i : JobIx} {p : LBlock → Nat → Bool} {j : Job}
    (h : s.waitsCommit i p = some j) : s.liveJob i = some j ∧ j.state = .closing ∧ j.commitOpen = true ∧
      ∃ x g, j.edition = some x ∧ j.commitGen = some g ∧ p (blockOf x.slot) g = true := by
  unfold State.waitsCommit at h
  obtain ⟨l, hl, h⟩ := Option.bind_eq_some_iff.1 h
  split at h
  · next x g hx hg =>
    split at h
    · next q =>
      rw [Option.some.injEq] at h
      subst h
      exact ⟨hl, q.1, q.2.1, x, g, hx, hg, q.2.2⟩
    · cases h
  · cases h

theorem setJob_jobs_mapEd (i : JobIx) (f : Job → Job) (g : Editions → Editions) (s : State) :
    (setJob i f (s.mapEd g)).jobs = (setJob i f s).jobs := by
  unfold setJob
  simp only [liveJob_mapEd]
  split <;> rfl

theorem failCommit_aside (s : State) (i : JobIx) : Aside s (failCommit s i) := by
  unfold failCommit
  split
  · next j h =>
    obtain ⟨hj, closing, isOpen, x, g, hx, hg, late⟩ := State.waitsCommit_some h
    dsimp only
    refine Aside.trans ?_ (departIfReady_aside _ _)
    refine Aside.setJobWith (i := i)
      (f := fun j => { j with commitOpen := false, flags := { j.flags with unrecorded := true } }) ?_
      (by rw [changeJob_feed]; rfl) (by rw [changeJob_eng]; rfl) (by rw [changeJob_chk]; rfl) (fun c l hl _ => ?_)
      fun c => ?_
    · change (setJob i _ _).jobs = _
      unfold setJob
      simp only [liveJob_mapCost, liveJob_mapEd]
      split <;> rfl
    · rw [hj, Option.some.injEq] at hl
      subst hl
      exact closing
    · refine c.fail hj hx hg isOpen (by simpa using late) (f := fun j =>
        { j with commitOpen := false, flags := { j.flags with unrecorded := true } }) ?_ ?_ rfl ?_ rfl rfl
      · change (setJob i _ _).jobs = _
        unfold setJob
        simp only [liveJob_mapCost, liveJob_mapEd]
        split <;> rfl
      · rw [changeJob_ed, hx]; rfl
      · simp [Job.holdsCopy, Job.committed]
  · exact Aside.refl s

theorem storeFail_aside {s : State} (h : s.ed.Law → s.ed.headersRead = true) : Aside s (storeFail s) := by
  refine Aside.trans (Aside.trans (mapEd_aside fun c => StoreStep.fail c ?_) (Aside.foldl failCommit failCommit_aside _ _))
    (notify_aside _ _)
  exact ⟨List.nodup_nil, c.store.below, fun r h => (nomatch h), fun e => absurd (e.symm.trans (h c.store)) (by decide)⟩

theorem settleCommit_aside (b : LBlock) (s : State) (i : JobIx) : Aside s (settleCommit b s i) := by
  unfold settleCommit
  split
  · refine (Aside.setJob' s (f := fun j => { j with commitOpen := false }) ?_ fun j _ =>
      ⟨rfl, rfl, rfl, rfl, fun h => (nomatch h), fun _ => rfl⟩).trans (departIfReady_aside _ _)
    exact fun j => ⟨rfl, rfl, rfl, rfl, rfl, Nat.le_refl _⟩
  · exact Aside.refl s

theorem settleCommits_aside (b : LBlock) (s : State) : Aside s (settleCommits b s) :=
  Aside.foldl _ (settleCommit_aside b) _ s

/-- A rotation begins with images that obey R27, at a generation that is not behind the persisted one. -/
theorem beginWrite_aside {b : LBlock} {images : Vector EdImage 16} {gen : Nat} {s : State}
    (h : s.ed.CopyLaw → s.ed.persisted[b] ≤ gen ∧ ∀ k : Fin 16, images[k].Law)
    (k : s.ed.Law → s.ed.headersRead = true ∧ gen ≤ s.ed.change[b]) : Aside s (beginWrite b images gen s) := by
  have law := (beginWrite_keeps (images := images) k).ed
  unfold beginWrite at law ⊢
  split
  · next p hp =>
    simp only [hp] at law
    exact mapEd_aside fun c => StoreStep.take c p _ (h c).1 (h c).2 _ (law c.store)
  · exact storeFail_aside fun l => (k l).1

theorem beginRotation_aside (s : State) : Aside s (beginRotation s) := by
  unfold beginRotation
  split
  · next m =>
    split
    · exact Aside.refl s
    · next b rest hw =>
      refine Aside.trans (mapEd_aside fun c => StoreStep.writes c rest ?_)
        (beginWrite_aside (fun c => ⟨?_, c.blockImages b⟩) fun l => ⟨?_, Nat.le_refl _⟩)
      · have d := c.store.nodup
        rw [hw] at d
        exact ⟨(List.nodup_cons.1 d).2, c.store.below, c.store.captured, c.store.unread⟩
      · exact c.store.below b
      · exact l.headers_of_mayRotate m.1
  · exact Aside.refl s

theorem verifyFail_aside {r : Rotation} (mark : Bool) {s : State} (h : s.ed.rot = some r) :
    Aside s (verifyFail r mark s) := by
  refine ((mapEd_aside fun c => StoreStep.retire c r.phys mark).trans (notify_aside _ _)).trans
    (beginWrite_aside (fun c => ?_) fun l => ⟨l.headers_of_rot (r := r) h, l.captured r h⟩)
  exact c.rotation r h

theorem completeRotation_aside {r : Rotation} (mark : Bool) {s : State} (h : s.ed.rot = some r) :
    Aside s (completeRotation r mark s) :=
  ((((mapEd_aside fun c => StoreStep.takeRole c h mark).trans (settleCommits_aside _ _)).trans (notify_aside _ _)).trans
    (mapEd_aside StoreStep.endFormat)).trans (beginRotation_aside _)

theorem eraseEnded_aside (verified mark : Bool) (s : State) : Aside s (eraseEnded verified mark s) := by
  unfold eraseEnded
  split
  · next r hr =>
    exact Aside.ite (fun _ => Aside.ite (fun _ => mapEd_aside fun c => StoreStep.program c hr) fun _ =>
      verifyFail_aside mark hr) fun _ => Aside.refl s
  · exact Aside.refl s

theorem programEnded_aside (verified mark : Bool) (s : State) : Aside s (programEnded verified mark s) := by
  unfold programEnded
  split
  · next r hr =>
    exact Aside.ite (fun _ => Aside.ite (fun _ => completeRotation_aside mark hr) fun _ => verifyFail_aside mark hr)
      fun _ => Aside.refl s
  · exact Aside.refl s

/-- A change of one slot's image, where the table's new content keeps the numbers. -/
theorem changeSlot_aside (e : EdIx) (f : EdImage → EdImage) {s : State}
    (h : s.CopyLaw → (s.mapEd fun d => { d with image := modifyAt d.image e f }).CopyLaw) : Aside s (changeSlot e f s) := by
  have a : Aside s (s.mapEd fun d => { d with image := modifyAt d.image e f }) := Aside.of_table rfl rfl h
  exact (a.trans (mapEd_aside (f := Editions.imageChange (blockOf e)) fun c => StoreStep.imageChange c _)).trans
    (beginRotation_aside _)

/-- The commit of a CLOSING job that has not committed yet (R31). -/
theorem commitCopy_aside {i : JobIx} {s : State}
    (h : ∀ j, s.liveJob i = some j → j.state = .closing ∧ j.committed = false) : Aside s (commitCopy i s) := by
  unfold commitCopy
  split
  · next j hj =>
    obtain ⟨closing, un⟩ := h j hj
    split
    · next x hx ho =>
      have keep : j.holdsCopy = some x := by simp [Job.holdsCopy, ho, un, hx]
      have none_ : j.commitGen = none := by
        simp only [Job.committed, Bool.or_eq_false_iff, Option.isSome_eq_false_iff, Option.isNone_iff_eq_none] at un
        exact un.1
      dsimp only
      split
      · refine Aside.setJobWith (i := i) (f := fun j => { j with flags := { j.flags with unrecorded := true } }) ?_
          (by rw [changeJob_feed]; rfl) (by rw [changeJob_eng]; rfl) (by rw [changeJob_chk]; rfl) (fun c l hl _ => ?_)
          fun c => ?_
        · change (setJob i _ _).jobs = _
          rw [setJob_jobs_mapEd, setJob_jobs_mapEd]
        · rw [hj, Option.some.injEq] at hl
          subst hl
          exact closing
        · refine c.unrecorded hj keep (f := fun j => { j with flags := { j.flags with unrecorded := true } }) ?_ ?_ rfl hx
            ?_ ho none_
          · change (setJob i _ _).jobs = _
            rw [setJob_jobs_mapEd, setJob_jobs_mapEd]
          · rw [changeJob_ed]; rfl
          · simp [Job.holdsCopy, Job.committed]
      · refine Aside.trans ?_ (beginRotation_aside _)
        have step : Aside s (s.mapEd (Editions.imageChange (blockOf x.slot))) :=
          mapEd_aside fun c => StoreStep.imageChange c _
        refine step.trans (Aside.setJobWith (i := i) (f := fun j =>
          { j with commitGen := some (s.ed.imageChange (blockOf x.slot)).change[blockOf x.slot], commitOpen := true })
          ?_ (by rw [setJob_feed]; rfl) (by rw [setJob_eng]; rfl) (by rw [setJob_chk]; rfl) (fun c l hl _ => ?_) fun c => ?_)
        · rw [setJob_jobs_mapEd, setJob_jobs_mapEd, setJob_jobs_mapEd]
          rfl
        · rw [liveJob_mapEd, hj, Option.some.injEq] at hl
          subst hl
          exact closing
        · refine c.issue (j := j) (x := x) hj keep (f := fun j =>
            { j with commitGen := some (s.ed.imageChange (blockOf x.slot)).change[blockOf x.slot], commitOpen := true })
            ?_ ?_ hx hx ?_ ho fun g hg => ?_
          · rw [setJob_jobs_mapEd, setJob_jobs_mapEd, setJob_jobs_mapEd]
            rfl
          · rw [setJob_ed]; rfl
          · simp [Job.holdsCopy, Job.committed]
          · simp only [Option.some.injEq] at hg
            rw [← hg]
            exact Nat.le_refl _
    · exact Aside.refl s
  · exact Aside.refl s

/-! ### The ink account and the ink controller -/

theorem debitPair_aside (i : JobIx) (s : State) (p : Chan × Nat) : Aside s (debitPair i s p) := by
  unfold debitPair
  split
  · next j hj =>
    dsimp only
    refine Aside.trans (Aside.setJob fun k hk => ?_) (Aside.of_eq rfl rfl)
    exact ⟨rfl, rfl, rfl, rfl, rfl, Nat.le_refl _⟩
  · exact Aside.refl s

theorem jobReport_aside (i : JobIx) (drops : List (Chan × Nat)) (s : State) : Aside s (jobReport i drops s) := by
  have h := Aside.foldl (debitPair i) (debitPair_aside i) drops s
  unfold jobReport
  dsimp only
  split
  · split
    · exact h.trans (Aside.changeJob _)
    · exact h
  · exact h

theorem overheadDrops_aside (drops : List (Chan × Nat)) (s : State) : Aside s (overheadDrops drops s) :=
  Aside.foldl overheadPair (fun _ _ => Aside.of_eq rfl rfl) drops s

theorem setChan_aside (c : Chan) (f : Channel → Channel) (s : State) : Aside s (setChan c f s) := Aside.of_eq rfl rfl

theorem leakCheck_aside (c : Chan) (s : State) : Aside s (leakCheck c s) := by
  unfold leakCheck
  dsimp only
  split <;> exact Aside.of_eq rfl rfl

theorem eachChan_aside {f : State → Chan → State} (h : ∀ s c, Aside s (f s c)) (s : State) : Aside s (eachChan f s) :=
  Aside.foldl f h _ s

theorem noticeChannels_aside (before : Vector Channel 10) (s : State) : Aside s (noticeChannels before s) :=
  eachChan_aside (fun _ _ => Aside.ite (fun _ => Aside.refl _) fun _ => notify_aside _ _) s

theorem stopPump_aside (c : Chan) (x : Supply) (s : State) : Aside s (stopPump c x s) := Aside.of_eq rfl rfl

theorem endRefill_aside (c : Chan) (x : Supply) (s : State) : Aside s (endRefill c x s) :=
  ((stopPump_aside c x s).trans (leakCheck_aside _ _)).trans (setChan_aside _ _ _)

theorem refillTest_aside (s : State) (c : Chan) : Aside s (refillTest s c) :=
  Aside.ite (fun _ => Aside.of_eq rfl rfl) fun _ => Aside.refl s

theorem grantOne_aside (s : State) : Aside s (grantOne s) := by
  unfold grantOne
  split
  · exact Aside.of_eq rfl rfl
  · exact Aside.refl s

theorem arbiter_aside (s : State) : Aside s (arbiter s) :=
  ((grantOne_aside s).trans (grantOne_aside _)).trans (grantOne_aside _)

theorem faultRefill_aside (s : State) (c : Chan) : Aside s (faultRefill s c) := by
  unfold faultRefill
  dsimp only
  split
  · split
    · exact Aside.of_eq rfl rfl
    · exact stopPump_aside _ _ s
    · exact Aside.refl s
  · exact Aside.refl s

theorem cartInput_aside (cart : Vector Bool 10) (s : State) (c : Chan) : Aside s (cartInput cart s c) := by
  unfold cartInput
  dsimp only
  split
  · exact Aside.ite (fun _ => setChan_aside _ _ _) fun _ => Aside.refl s
  · split
    · exact Aside.refl s
    · exact (stopPump_aside _ _ s).trans (setChan_aside _ _ _)
    · exact Aside.of_eq rfl rfl
    · exact setChan_aside _ _ _

theorem scanEnding_aside (s : State) (c : Chan) : Aside s (scanEnding s c) :=
  Aside.ite (fun _ => endRefill_aside _ _ s) fun _ => Aside.refl s

theorem strokePump_aside (c : Chan) (s : State) : Aside s (strokePump c s) := by
  unfold strokePump
  dsimp only
  split
  · refine Aside.trans ?_ (noticeChannels_aside _ _)
    refine Aside.trans (setChan_aside c Channel.stroke s) ?_
    split
    · exact ((setChan_aside _ _ _).trans (endRefill_aside _ _ _)).trans (arbiter_aside _)
    · split
      · exact (endRefill_aside _ _ _).trans (arbiter_aside _)
      · exact Aside.refl _
  · exact Aside.refl s

theorem clearSticky_aside (s : State) (c : Chan) : Aside s (clearSticky s c) :=
  Aside.ite (fun _ => Aside.refl s) fun _ => (setChan_aside _ _ s).trans (notify_aside _ _)

/-! ### Jobs, messages and the checker -/

theorem decideOutcome_aside (i : JobIx) (o : JobOutcome) (c : Option SpoilCause) (s : State) :
    Aside s (decideOutcome i o c s) := by
  unfold decideOutcome
  split
  · next j hj =>
    split
    · exact Aside.refl s
    · next undecided =>
      have none_ : j.outcome = none := by simpa using undecided
      have gone : o ≠ .finished → ({ j with outcome := some o, cause := c } : Job).holdsCopy = none := fun n => by
        cases o with
        | finished => exact (n rfl).elim
        | spoiled => simp [Job.holdsCopy]
        | cancelled => simp [Job.holdsCopy]
      have keep : (o ≠ .finished → j.edition = none) →
          Aside s (changeJob i (fun j => { j with outcome := some o, cause := c }) s) := fun h => by
        refine Aside.changeJob s (fun j => ⟨rfl, rfl, rfl, rfl, rfl, Nat.le_refl _⟩) fun l hl => ?_
        rw [hj, Option.some.injEq] at hl
        subst hl
        refine ⟨rfl, ?_, rfl, rfl, id, fun h => by simp [none_] at h⟩
        by_cases e : o = .finished
        · subst e; simp [Job.holdsCopy, none_, Job.committed]
        · rw [gone e]; simp [Job.holdsCopy, h e]
      have give : ∀ x, j.edition = some x → o ≠ .finished →
          Aside s ((changeJob i (fun j => { j with outcome := some o, cause := c }) s).mapEd (Editions.giveBack x)) := by
        intro x hx n
        refine Aside.setJobWith (i := i) (f := fun j => { j with outcome := some o, cause := c }) rfl
          (by rw [State.mapEd_feed, changeJob_feed]) (by rw [State.mapEd_eng, changeJob_eng])
          (by rw [State.mapEd_chk, changeJob_chk]) (fun h l hl k => h l hl k) fun law => ?_
        have un : j.committed = false := by
          cases e : j.committed with
          | false => rfl
          | true => have := law.finished i j hj e; rw [none_] at this; cases this
        exact law.giveBack hj (x := x) (f := fun j => { j with outcome := some o, cause := c })
          (by simp [Job.holdsCopy, none_, un, hx]) rfl (by rw [State.mapEd_ed, changeJob_ed]) rfl (gone n) un
      cases hx : j.edition with
      | none => cases o <;> exact keep fun _ => hx
      | some x =>
        cases o with
        | finished => exact keep fun n => (n rfl).elim
        | spoiled => exact give x hx (by simp)
        | cancelled => exact give x hx (by simp)
  · exact Aside.refl s

theorem sendEngine_aside (m : EngineMsg) (s : State) : Aside s (sendEngine m s) := Aside.of_eq rfl rfl

/-- The print context changes in all but its tag. -/
theorem mapInk_aside (f : Ink → Ink) (s : State) : Aside s (s.mapInk f) := Aside.of_eq rfl rfl
theorem mapAcct_aside (f : Account → Account) (s : State) : Aside s (s.mapAcct f) := Aside.of_eq rfl rfl
theorem mapDrift_aside (f : Drift → Drift) (s : State) : Aside s (s.mapDrift f) := Aside.of_eq rfl rfl
theorem mapCost_aside (f : Cost → Cost) (s : State) : Aside s (s.mapCost f) := Aside.of_eq rfl rfl
theorem mapHost_aside (f : HostLink → HostLink) (s : State) : Aside s (s.mapHost f) := Aside.of_eq rfl rfl

theorem mapContext_aside {f : PrintContext → PrintContext} (s : State)
    (h : ∀ x, (f x).tag = x.tag := by exact fun _ => rfl) : Aside s (mapContext f s) :=
  Aside.of_eq rfl rfl (fun x hx => by
    obtain ⟨y, hy, rfl⟩ := Option.map_eq_some_iff.1 (show s.eng.ctx.map f = some x from hx)
    exact ⟨y, hy, (h y).symm⟩)

theorem dropContext_aside (s : State) : Aside s (dropContext s) :=
  Aside.of_eq rfl rfl (fun x hx => by simp [dropContext] at hx)

theorem stopChecker_aside (s : State) : Aside s (stopChecker s) := by
  unfold stopChecker
  split
  · exact Aside.of_eq rfl rfl (fun x h => ⟨x, h, rfl⟩) fun x hx => by simp [notify] at hx
  · exact Aside.refl s

theorem stopChecker_ctx (s : State) : (stopChecker s).chk.ctx = none := by
  unfold stopChecker
  split
  · rfl
  · assumption

theorem settleHold_aside (s : State) (i : JobIx) : Aside s (settleHold s i) := by
  unfold settleHold
  split
  · exact Aside.ite (fun _ => Aside.changeJob s) fun _ => Aside.refl s
  · exact Aside.refl s

theorem mapStrip_aside {f : StripContext → StripContext} (s : State)
    (h : ∀ x, (f x).slot = x.slot := by exact fun _ => rfl) : Aside s (mapStrip f s) :=
  Aside.of_eq rfl rfl (fun x h => ⟨x, h, rfl⟩) fun x hx => by
    obtain ⟨y, hy, rfl⟩ := Option.map_eq_some_iff.1 (show s.chk.ctx.map f = some x from hx)
    exact ⟨y, hy, (h y).symm⟩

theorem mapChk_aside {f : Checker → Checker} {s : State} (h : (f s.chk).ctx = s.chk.ctx) : Aside s (s.mapChk f) :=
  Aside.of_eq rfl rfl (fun x h => ⟨x, h, rfl⟩) fun x hx => ⟨x, h ▸ hx, rfl⟩

theorem mapCounters_aside (f : CheckCounters → CheckCounters) (s : State) : Aside s (mapCounters f s) := Aside.of_eq rfl rfl

theorem beginReading_aside (s : State) : Aside s (beginReading s) := Aside.of_eq rfl rfl

theorem fileVerdict_aside (j : Job) (v : Verdict) (rs : List PatchResult) (s : State) :
    Aside s (fileVerdict j v rs s) := by
  unfold fileVerdict
  split
  · exact Aside.refl s
  · exact Aside.of_eq rfl rfl

/-! ### Moves -/

@[simp] theorem Feed.driveTo_backFeeding (d : Drive) (f : Feed) : (f.driveTo d).backFeeding = f.backFeeding := by
  simp [Feed.backFeeding]

/-- A move for another requester than a cut and a starting phase. -/
theorem requestMove_aside (target : Int) {r : Requester} (cut : r ≠ .cut) (backFeed : r ≠ .backFeed) (s : State) :
    Aside s (requestMove target r s).1 := by
  cases h : s.feed.takesMove target r with
  | false => rw [requestMove_refused h]; exact Aside.refl s
  | true =>
    rw [requestMove_taken h]
    have c : (r == Requester.cut) = false := by simp [cut]
    have b : (r == Requester.backFeed) = false := by simp [backFeed]
    refine Aside.mapFeed (s := s) (f := fun _ => (s.feed.beginMove target r).1) ?_ ?_ ?_ ?_ ?_ <;>
      · unfold Feed.beginMove
        split
        · simp [Feed.backFeeding, Feed.cutting]
        · split <;> simp [Feed.backFeeding, Feed.cutting, c, b] <;> tauto

theorem requestMove_asideTo {target : Int} {r : Requester} (cut : r ≠ .cut) (backFeed : r ≠ .backFeed) {s t : State}
    {m : MoveStart} (h : requestMove target r s = (t, m)) : Aside s t := by
  have := requestMove_aside target cut backFeed s
  rwa [h] at this

theorem stripMove_aside (s : State) : Aside s (stripMove s) := by
  unfold stripMove
  split
  · split
    · next h => exact (requestMove_asideTo (by simp) (by simp) h).trans (beginReading_aside _)
    · next h => exact requestMove_asideTo (by simp) (by simp) h
  · exact Aside.refl s

theorem nextRead_aside (s : State) : Aside s (nextRead s) := (mapStrip_aside s).trans (stripMove_aside _)

theorem dwellExpired_aside (s : State) : Aside s (dwellExpired s) := by
  unfold dwellExpired
  split
  · split
    · dsimp only
      refine Aside.trans ?_ (stripMove_aside _)
      refine Aside.trans ?_ (notify_aside _ _)
      refine Aside.trans ?_ (mapChk_aside rfl)
      exact mapStrip_aside s
    · exact Aside.refl s
  · exact Aside.refl s

end Sys2Proof.Machine
end

