-- ==== Sys2Proof/Laws/HoldRule.lean ====
section
/-!
SUPPORT. The hold rule and the retry restore the law of the media reservations (R86, R87).
-/

-- One theorem after another: waiting proofs would each hold a thread.
set_option Elab.async false

namespace Sys2Proof.Machine

/-! ### The reserved length after an update -/

theorem sum_update_le {α : Type} {f g : α → Nat} {i : α} {n : Nat} (at_ : f i ≤ n + g i) (else_ : ∀ a, a ≠ i → f a ≤ g a) :
    ∀ xs : List α, xs.Nodup → (xs.map f).sum ≤ n + (xs.map g).sum
  | [], _ => by simp
  | a :: xs, d => by
    obtain ⟨m, d⟩ := List.nodup_cons.1 d
    simp only [List.map_cons, List.sum_cons]
    by_cases e : a = i
    · subst e
      have : ∀ xs : List α, a ∉ xs → (xs.map f).sum ≤ (xs.map g).sum := fun xs => by
        induction xs with
        | nil => simp
        | cons b ys ih =>
          intro h
          simp only [List.mem_cons, not_or] at h
          simp only [List.map_cons, List.sum_cons]
          have := ih h.2
          have := else_ b (Ne.symm h.1)
          omega
      have := this xs m
      omega
    · have := sum_update_le at_ else_ xs d
      have := else_ a e
      omega

/-- What a live job reserves. -/
def State.resOf (s : State) (i : JobIx) : Nat := ((s.liveJob i).map (·.mediaRes)).getD 0

theorem reserved_eq' (s : State) : s.reserved = (s.jobs.order.map s.resOf).sum := reserved_eq s

/-- One job's reservation is changed. -/
theorem reserved_setJob {i : JobIx} {f : Job → Job} {s : State} {n : Nat} (d : s.jobs.order.Nodup)
    (h : ∀ j, s.liveJob i = some j → (f j).mediaRes ≤ n + j.mediaRes) :
    (setJob i f s).reserved ≤ n + s.reserved := by
  rw [reserved_eq', reserved_eq', setJob_order]
  refine sum_update_le (i := i) ?_ (fun k hk => ?_) _ d
  · unfold State.resOf
    rw [liveJob_setJob, if_pos rfl]
    cases e : s.liveJob i with
    | none => simp
    | some j => simpa using h j e
  · unfold State.resOf
    rw [liveJob_setJob, if_neg hk]

/-- The law of R86 but for the bound on the reserved length. -/
structure State.MediaRest (s : State) : Prop where
  held : ∀ (i : JobIx) (j : Job), s.liveJob i = some j → j.holds.noMedia = true → j.state = .pending ∧ j.mediaRes = 0
  closed : ∀ (i : JobIx) (j : Job), s.liveJob i = some j → j.state = .closing → j.mediaRes = 0
  reach : s.feed.roll.consumed ≤ s.feed.roll.reach
  load : s.feed.load.isSome = true → s.feed.roll.state ≠ .loaded

theorem State.MediaLaw.rest {s : State} (c : s.MediaLaw) : s.MediaRest := ⟨c.held, c.closed, c.reach, c.load⟩
theorem State.MediaRest.law {s : State} (c : s.MediaRest) (h : s.reserved ≤ s.feed.roll.remaining) : s.MediaLaw :=
  ⟨h, c.held, c.closed, c.reach, c.load⟩

/-- A change of one job's media fields. -/
theorem State.MediaRest.setJob {s : State} (c : s.MediaRest) {i : JobIx} {f : Job → Job}
    (h : ∀ j, s.liveJob i = some j → ((f j).holds.noMedia = true → (f j).state = .pending ∧ (f j).mediaRes = 0) ∧
      ((f j).state = .closing → (f j).mediaRes = 0)) : (setJob i f s).MediaRest where
  held := fun k j hk n => by
    obtain ⟨l, hl, e | ⟨e, e'⟩⟩ := setJob_old hk
    · subst e; exact c.held k j hl n
    · subst e; subst e'; exact (h l hl).1 n
  closed := fun k j hk n => by
    obtain ⟨l, hl, e | ⟨e, e'⟩⟩ := setJob_old hk
    · subst e; exact c.closed k j hl n
    · subst e; subst e'; exact (h l hl).2 n
  reach := by rw [setJob_feed]; exact c.reach
  load := by rw [setJob_feed]; exact c.load

/-! ### The job on the media path -/

theorem State.liveJobs_mem {s : State} {i : JobIx} {j : Job} (o : s.OrderLaw) (h : s.liveJob i = some j) :
    (i, j) ∈ s.liveJobs := by
  unfold State.liveJobs
  exact List.mem_filterMap.2 ⟨i, (o.live i).2 (by simp [h]), by simp [h]⟩

theorem State.of_liveJobs {s : State} {p : JobIx × Job} (h : p ∈ s.liveJobs) : s.liveJob p.1 = some p.2 := by
  unfold State.liveJobs at h
  obtain ⟨i, -, e⟩ := List.mem_filterMap.1 h
  obtain ⟨j, hj, rfl⟩ := Option.map_eq_some_iff.1 e
  exact hj

theorem State.pathJob_some {s : State} {i : JobIx} {j : Job} (h : s.pathJob = some (i, j)) :
    s.liveJob i = some j ∧ j.state.onPath = true :=
  ⟨State.of_liveJobs (List.mem_of_find?_eq_some h), by simpa using List.find?_some h⟩

theorem State.pathJob_none {s : State} (o : s.OrderLaw) (h : s.pathJob = none) {i : JobIx} {j : Job}
    (hj : s.liveJob i = some j) : j.state.onPath = false := by
  have := List.find?_eq_none.1 h (i, j) (State.liveJobs_mem o hj)
  simpa using this

theorem State.pathFree_onPath {s : State} (o : s.OrderLaw) (h : s.pathFree = true) {i : JobIx} {j : Job}
    (hj : s.liveJob i = some j) : j.state.onPath = false :=
  State.pathJob_none o (by simpa [State.pathFree] using h) hj

theorem State.jobByTag_some {s : State} {tag : Nat} {i : JobIx} {j : Job} (h : s.jobByTag tag = some (i, j)) :
    s.liveJob i = some j ∧ j.tag = tag :=
  ⟨State.of_liveJobs (List.mem_of_find?_eq_some h), by simpa using List.find?_some h⟩

/-! ### The hold rule (R86) -/

theorem PathAside.changeJob {i : JobIx} {f : Job → Job} (s : State)
    (h : ∀ j, (f j).tag = j.tag ∧ (f j).state = j.state ∧ (f j).startPos = j.startPos ∧
      (f j).spoilWait = j.spoilWait := by exact fun j => ⟨rfl, rfl, rfl, rfl⟩)
    (copy : ∀ j, s.liveJob i = some j → j.SameCopy (f j) := by exact fun j _ => ⟨rfl, rfl, rfl, rfl, id, fun _ => rfl⟩) :
    PathAside s (Sys2Proof.Machine.changeJob i f s) :=
  (PathAside.setJob (fun j _ => h j) copy).trans (notify_aside _ _).toPathAside

theorem State.MediaRest.changeJob {s : State} (c : s.MediaRest) {i : JobIx} {f : Job → Job}
    (h : ∀ j, s.liveJob i = some j → ((f j).holds.noMedia = true → (f j).state = .pending ∧ (f j).mediaRes = 0) ∧
      ((f j).state = .closing → (f j).mediaRes = 0)) : (changeJob i f s).MediaRest :=
  have k := c.setJob h
  ⟨k.held, k.closed, k.reach, k.load⟩

theorem reserved_changeJob {i : JobIx} {f : Job → Job} {s : State} {n : Nat} (d : s.jobs.order.Nodup)
    (h : ∀ j, s.liveJob i = some j → (f j).mediaRes ≤ n + j.mediaRes) :
    (changeJob i f s).reserved ≤ n + s.reserved := reserved_setJob d h

theorem holdStep_path (s : State) (i : JobIx) : PathAside s (holdStep s i) := by
  unfold holdStep
  split
  · split
    · exact PathAside.changeJob s
    · exact PathAside.refl s
  · exact PathAside.refl s

theorem PathAside.foldl {α : Type} (f : State → α → State) (h : ∀ s a, PathAside s (f s a)) :
    ∀ (xs : List α) (s : State), PathAside s (xs.foldl f s)
  | [], s => PathAside.refl s
  | a :: xs, s => (h s a).trans (PathAside.foldl f h xs (f s a))

theorem Job.reserves_pending {j : Job} (h : j.reserves = true) : j.state = .pending := by
  unfold Job.reserves at h
  simp only [Bool.and_eq_true, decide_eq_true_eq] at h
  exact h.1

theorem holdStep_rest {s : State} (i : JobIx) (c : s.MediaRest) : (holdStep s i).MediaRest := by
  unfold holdStep
  split
  · next j hj =>
    split
    · next h =>
      refine c.changeJob fun l hl => ?_
      rw [hj, Option.some.injEq] at hl
      subst hl
      exact ⟨fun _ => ⟨Job.reserves_pending (j := j) h.2, rfl⟩, fun _ => rfl⟩
    · exact c
  · exact c

/-- The slot holds no PENDING job with a reservation. -/
def State.bare (s : State) (i : JobIx) : Prop := ∀ j, s.liveJob i = some j → j.state = .pending → j.mediaRes = 0

theorem holdStep_bare {s : State} {i k : JobIx} (h : s.bare k) : (holdStep s i).bare k := by
  unfold holdStep
  split
  · split
    · intro j hj p
      obtain ⟨l, hl, e | ⟨e, e'⟩⟩ := setJob_old hj
      · subst e; exact h j hl p
      · subst e'; rfl
    · exact h
  · exact h

/-- Where the reserved length fits the hold rule does nothing. -/
theorem holdStep_fits {s : State} (f : s.reserved ≤ s.feed.roll.remaining) (i : JobIx) : holdStep s i = s := by
  unfold holdStep
  split
  · exact if_neg fun h => absurd h.1 (Nat.not_lt.2 f)
  · rfl

theorem holdSteps_fit {s : State} (f : s.reserved ≤ s.feed.roll.remaining) :
    ∀ xs : List JobIx, xs.foldl holdStep s = s
  | [] => rfl
  | i :: xs => by rw [List.foldl_cons, holdStep_fits f, holdSteps_fit f xs]

/-- Where it does not fit, the job that the hold rule looks at gives its reservation up. -/
theorem holdStep_exceeds {s : State} (f : s.feed.roll.remaining < s.reserved) (i : JobIx) : (holdStep s i).bare i := by
  unfold holdStep
  split
  · next j hj =>
    split
    · next h =>
      intro k hk _
      unfold holdMedia at hk
      rw [liveJob_changeJob, if_pos rfl, hj] at hk
      simp only [Option.map_some, Option.some.injEq] at hk
      subst hk
      rfl
    · next h =>
      intro k hk p
      rw [hj, Option.some.injEq] at hk
      subst hk
      simpa [Job.reserves, f, p] using h
  · next h => intro k hk; simp [h] at hk

theorem holdSteps_bare {i : JobIx} : ∀ (xs : List JobIx) (s : State), s.bare i → (xs.foldl holdStep s).bare i
  | [], _, h => h
  | _ :: xs, _, h => holdSteps_bare xs _ (holdStep_bare h)

/-- After the steps of the hold rule the reserved length fits, or no PENDING job of the list reserves anything. -/
theorem holdSteps_settle : ∀ (xs : List JobIx) (s : State),
    (xs.foldl holdStep s).reserved ≤ (xs.foldl holdStep s).feed.roll.remaining ∨ ∀ i ∈ xs, (xs.foldl holdStep s).bare i
  | [], _ => .inr (by simp)
  | i :: xs, s => by
    by_cases f : s.reserved ≤ s.feed.roll.remaining
    · rw [holdSteps_fit f]; exact .inl f
    · rw [List.foldl_cons]
      rcases holdSteps_settle xs (holdStep s i) with r | r
      · exact .inl r
      · refine .inr fun k hk => ?_
        rcases List.mem_cons.1 hk with h | h
        · subst h; exact holdSteps_bare xs _ (holdStep_exceeds (Nat.not_le.1 f) k)
        · exact r k h

theorem lowerPath_path (s : State) : PathAside s (lowerPath s) := by
  unfold lowerPath
  split
  · dsimp only
    split
    · exact PathAside.setJob fun _ _ => ⟨rfl, rfl, rfl, rfl⟩
    · exact PathAside.refl s
  · exact PathAside.refl s

theorem holdRule_path (s : State) : PathAside s (holdRule s) :=
  (PathAside.foldl holdStep holdStep_path _ s).trans (lowerPath_path _)

theorem holdSteps_rest : ∀ (xs : List JobIx) (s : State), s.MediaRest → (xs.foldl holdStep s).MediaRest
  | [], _, c => c
  | i :: xs, _, c => holdSteps_rest xs _ (holdStep_rest i c)

theorem sum_single {f : JobIx → Nat} {i : JobIx} {n : Nat} (at_ : f i ≤ n) (else_ : ∀ k, k ≠ i → f k = 0)
    {xs : List JobIx} (d : xs.Nodup) : (xs.map f).sum ≤ n := by
  have := sum_update_le (f := f) (g := fun _ => 0) (i := i) (n := n) (by simpa using at_) (fun k hk => by simp [else_ k hk]) xs d
  simpa using this

/-- The hold rule brings the reserved length under the remaining length (R86), where at most one job is on the media
path. -/
theorem holdRule_law {s : State} (o : s.OrderLaw) (p : s.PathLaw) (c : s.MediaRest) : (holdRule s).MediaLaw := by
  unfold holdRule
  have a := PathAside.foldl holdStep holdStep_path s.jobs.order.reverse s
  have r := holdSteps_rest s.jobs.order.reverse s c
  have z := holdSteps_settle s.jobs.order.reverse s
  have mem : ∀ i, i ∈ (s.jobs.order.reverse.foldl holdStep s).jobs.order → i ∈ s.jobs.order.reverse := fun i h => by
    obtain ⟨j, hj⟩ := Option.isSome_iff_exists.1 (((a.order o).live i).1 h)
    obtain ⟨l, hl, -⟩ := a.jobs i j hj
    simpa using (o.live i).2 (by simp [hl])
  have o' := a.order o
  have p' := a.law p
  generalize s.jobs.order.reverse.foldl holdStep s = t at r z mem o' p'
  have z' : t.reserved ≤ t.feed.roll.remaining ∨ ∀ i, t.bare i := z.imp id fun h i j hj q =>
    h i (mem i ((o'.live i).2 (by simp [hj]))) j hj q
  clear z mem a
  have zero : (∀ i, t.bare i) → ∀ k j, t.liveJob k = some j → j.state.onPath = false → j.mediaRes = 0 :=
    fun b k j hj n => by
      by_cases q : j.state = .pending
      · exact b k j hj q
      · refine r.closed k j hj ?_
        cases e : j.state <;> simp_all [JobState.onPath]
  unfold lowerPath
  split
  · next i j hp =>
    obtain ⟨hj, q⟩ := State.pathJob_some hp
    have others : ∀ k, k ≠ i → ∀ l, t.liveJob k = some l → l.state.onPath = false := fun k hk l hl => by
      cases e : l.state.onPath with
      | false => rfl
      | true => exact absurd (p'.one k i l j hl hj e q) hk
    dsimp only
    split
    · next h =>
      have b : ∀ i, t.bare i := z'.resolve_left (Nat.not_le.2 h)
      refine State.MediaRest.law (r.setJob fun l hl => ?_) ?_
      · rw [hj, Option.some.injEq] at hl
        subst hl
        refine ⟨fun n => ?_, fun n => ?_⟩
        · have := (r.held i j hj n).1
          rw [this] at q; simp [JobState.onPath] at q
        · have n' : j.state = .closing := n
          rw [n'] at q; simp [JobState.onPath] at q
      · rw [setJob_feed, reserved_eq', setJob_order]
        refine sum_single (i := i) ?_ (fun k hk => ?_) o'.nodup
        · unfold State.resOf
          rw [liveJob_setJob, if_pos rfl, hj]
          exact Nat.le_refl _
        · unfold State.resOf
          rw [liveJob_setJob, if_neg hk]
          cases e : t.liveJob k with
          | none => rfl
          | some l => exact zero b k l e (others k hk l e)
    · next h => exact r.law (Nat.not_lt.1 h)
  · next hp =>
    rcases z' with h | b
    · exact r.law h
    · refine r.law ?_
      rw [reserved_eq']
      have : (t.jobs.order.map t.resOf).sum = 0 := by
        rw [List.sum_eq_zero_iff_forall_eq_nat]
        intro x hx
        obtain ⟨k, -, rfl⟩ := List.mem_map.1 hx
        unfold State.resOf
        cases e : t.liveJob k with
        | none => rfl
        | some l => exact zero b k l e (State.pathJob_none o' hp e)
      omega

/-- The hold rule from a state that keeps the course but for the bound of R86. -/
theorem holdRule_next {s t : State} (q : Queue s t) (feed : t.feed.Law) (o : t.OrderLaw) (p : t.PathLaw)
    (r : t.MediaRest) : Next s (holdRule t) :=
  have h := holdRule_path t
  ⟨q.trans h.queue, by rw [holdRule_feed]; exact feed, h.order o, h.law p, holdRule_law o p r⟩

/-! ### The retry (R87) -/

theorem retryStep_path (s : State) (i : JobIx) : PathAside s (retryStep s i) := by
  unfold retryStep
  split
  · dsimp only
    split
    · exact PathAside.changeJob s
    · exact PathAside.refl s
  · exact PathAside.refl s

theorem retryStep_feed (s : State) (i : JobIx) : (retryStep s i).feed = s.feed := by
  unfold retryStep
  split
  · dsimp only
    split
    · exact changeJob_feed _ _ s
    · rfl
  · rfl

theorem retryStep_law {s : State} (o : s.OrderLaw) (c : s.MediaLaw) (i : JobIx) : (retryStep s i).MediaLaw := by
  unfold retryStep
  split
  · next j hj =>
    dsimp only
    split
    · next h =>
      refine State.MediaRest.law (c.rest.changeJob fun l hl => ?_) ?_
      · rw [hj, Option.some.injEq] at hl
        subst hl
        refine ⟨fun n => by simp at n, fun n => ?_⟩
        have n' : j.state = .closing := n
        simp [n'] at h
      · rw [changeJob_feed]
        refine (reserved_changeJob o.nodup fun l hl => ?_).trans h.2.2
        exact Nat.le_add_right _ _
    · exact c
  · exact c

theorem retrySteps_law : ∀ (xs : List JobIx) (s : State), s.OrderLaw → s.MediaLaw → (xs.foldl retryStep s).MediaLaw
  | [], _, _, c => c
  | i :: xs, s, o, c => retrySteps_law xs _ ((retryStep_path s i).order o) (retryStep_law o c i)

theorem retryMedia_path (s : State) : PathAside s (retryMedia s) := by
  unfold retryMedia
  split
  · exact PathAside.foldl retryStep retryStep_path _ s
  · exact PathAside.refl s

theorem CopyJobs.refl (s : State) : CopyJobs s s := CopyJobs.of_live fun _ => rfl

theorem Job.SameCopy.trans {j k l : Job} (a : j.SameCopy k) (b : k.SameCopy l) : j.SameCopy l := by
  obtain ⟨a1, a2, a3, a4, a5, a6⟩ := a
  obtain ⟨b1, b2, b3, b4, b5, b6⟩ := b
  exact ⟨b1.trans a1, b2.trans a2, b3.trans a3, b4.trans a4, a5 ∘ b5, fun h => (b6 (by rw [a6 h]; exact h)).trans (a6 h)⟩

theorem CopyJobs.trans {s t u : State} (a : CopyJobs s t) (b : CopyJobs t u) : CopyJobs s u := fun i j hj => by
  obtain ⟨l, hl, e, f⟩ := b i j hj
  obtain ⟨m, hm, e', f'⟩ := a i l hl
  exact ⟨m, hm, e'.trans e, f ∘ f'⟩

theorem retryStep_copyJobs (s : State) (i : JobIx) : CopyJobs s (retryStep s i) := by
  unfold retryStep
  split
  · dsimp only
    split
    · exact CopyJobs.setJob fun j _ => ⟨⟨rfl, rfl, rfl, rfl, id, fun _ => rfl⟩, fun h => h⟩
    · exact CopyJobs.refl s
  · exact CopyJobs.refl s

theorem retrySteps_copyJobs : ∀ (xs : List JobIx) (s : State), CopyJobs s (xs.foldl retryStep s)
  | [], s => CopyJobs.refl s
  | i :: xs, s => (retryStep_copyJobs s i).trans (retrySteps_copyJobs xs _)

theorem retryMedia_copyJobs (s : State) : CopyJobs s (retryMedia s) := by
  unfold retryMedia
  split
  · exact retrySteps_copyJobs _ s
  · exact CopyJobs.refl s

/-- The retry keeps the course (R87). -/
theorem retryMedia_next {s : State} (l : s.feed.Law) (c : s.CourseLaw) : Next s (retryMedia s) where
  queue := (retryMedia_path s).queue
  feed := (retryMedia_keeps s).feed l
  course := ⟨(retryMedia_path s).order c.order, (retryMedia_path s).law c.path, by
    unfold retryMedia
    split
    · exact retrySteps_law _ s c.order c.media
    · exact c.media⟩

end Sys2Proof.Machine
end

