-- ==== Sys2Proof/Laws/OneJob.lean ====
section
/-!
SUPPORT. The course of the jobs along a change of one job, and what the law says of a job.
-/

-- One theorem after another: waiting proofs would each hold a thread.
set_option Elab.async false

namespace Sys2Proof.Machine

/-! ### A change of one job -/

/-- From `s` to `t` the job table changes in one job alone, which becomes `g`. -/
structure Update (s t : State) (i : JobIx) (g : Job) : Prop where
  live : ∀ k, t.liveJob k = if k = i then some g else s.liveJob k
  order : t.jobs.order = s.jobs.order
  free : ∀ k : JobIx, t.jobs.slots[k] = .free → s.jobs.slots[k] = .free

theorem Update.setJob {s : State} {i : JobIx} {j : Job} (hj : s.liveJob i = some j) (f : Job → Job) :
    Update s (setJob i f s) i (f j) :=
  ⟨fun k => by rw [liveJob_setJob, hj]; rfl, setJob_order i f s, fun k => (setJob_free i k f s).1⟩

theorem Update.changeJob {s : State} {i : JobIx} {j : Job} (hj : s.liveJob i = some j) (f : Job → Job) :
    Update s (changeJob i f s) i (f j) :=
  have u := Update.setJob hj f
  ⟨u.live, u.order, u.free⟩

theorem Update.at_ {s t : State} {i : JobIx} {g : Job} (u : Update s t i g) : t.liveJob i = some g := by
  rw [u.live, if_pos rfl]

theorem Update.trans {s t u : State} {i : JobIx} {g h : Job} (a : Update s t i g) (b : Update t u i h) : Update s u i h :=
  ⟨fun k => by rw [b.live, a.live]; split <;> rfl, b.order.trans a.order, fun k x => a.free k (b.free k x)⟩

/-- The update seen from states with the same job table. -/
theorem Update.congr {s s' t t' : State} {i : JobIx} {g : Job} (a : Update s t i g) (hs : s'.jobs = s.jobs)
    (ht : t'.jobs = t.jobs) : Update s' t' i g := by
  have l : ∀ k, s'.liveJob k = s.liveJob k := fun k => by unfold State.liveJob; rw [hs]
  have l' : ∀ k, t'.liveJob k = t.liveJob k := fun k => by unfold State.liveJob; rw [ht]
  exact ⟨fun k => by rw [l', l]; exact a.live k, by rw [hs, ht]; exact a.order, fun k => by rw [hs, ht]; exact a.free k⟩

theorem Update.old {s t : State} {i k : JobIx} {g l : Job} (u : Update s t i g) (h : t.liveJob k = some l) :
    (k = i ∧ l = g) ∨ (k ≠ i ∧ s.liveJob k = some l) := by
  rw [u.live] at h
  split at h
  · next e => exact .inl ⟨e, (Option.some.inj h).symm⟩
  · next e => exact .inr ⟨e, h⟩

theorem Update.queue {s t : State} {i : JobIx} {j g : Job} (u : Update s t i g) (hj : s.liveJob i = some j)
    (closing : j.state ≠ .closing ∨ g.state = .closing) (ed : t.ed = s.ed)
    (copy : j.SameCopy g := by exact ⟨rfl, rfl, rfl, rfl, id, fun _ => rfl⟩) : Queue s t :=
  Queue.of_copyJobs (by rw [u.order]) u.free (fun k l hl => by
    rcases u.old hl with ⟨e, f⟩ | ⟨-, e⟩
    · subst e; subst f; exact ⟨j, hj, copy, fun h => closing.resolve_left (fun n => n h)⟩
    · exact ⟨l, e, Job.SameCopy.refl l, id⟩) ed

theorem Update.orderLaw {s t : State} {i : JobIx} {j g : Job} (u : Update s t i g) (hj : s.liveJob i = some j)
    (o : s.OrderLaw) (tag : g.tag = j.tag) : t.OrderLaw where
  nodup := by rw [u.order]; exact o.nodup
  live := fun k => by
    rw [u.order, u.live, o.live]
    split
    · next e => subst e; simp [hj]
    · rfl
  tags := fun k m l l' hk hm e => by
    rcases u.old hk with ⟨a, b⟩ | ⟨-, a⟩ <;> rcases u.old hm with ⟨a', b'⟩ | ⟨-, a'⟩
    · rw [a, a']
    · subst a; subst b; exact o.tags _ _ j l' hj a' (by rw [← tag, e])
    · subst a'; subst b'; exact o.tags _ _ l j a hj (by rw [← tag, e])
    · exact o.tags _ _ l l' a a' e

theorem Update.mediaRest {s t : State} {i : JobIx} {g : Job} (u : Update s t i g) (c : s.MediaRest)
    (held : g.holds.noMedia = true → g.state = .pending ∧ g.mediaRes = 0) (closed : g.state = .closing → g.mediaRes = 0)
    (roll : t.feed.roll = s.feed.roll) (load : t.feed.load = s.feed.load) : t.MediaRest where
  held := fun k l hl n => by
    rcases u.old hl with ⟨-, b⟩ | ⟨-, a⟩
    · subst b; exact held n
    · exact c.held k l a n
  closed := fun k l hl n => by
    rcases u.old hl with ⟨-, b⟩ | ⟨-, a⟩
    · subst b; exact closed n
    · exact c.closed k l a n
  reach := by rw [roll]; exact c.reach
  load := by rw [roll, load]; exact c.load

theorem Update.reserved {s t : State} {i : JobIx} {j g : Job} (u : Update s t i g) (hj : s.liveJob i = some j)
    (o : s.OrderLaw) {n : Nat} (res : g.mediaRes ≤ n + j.mediaRes) : t.reserved ≤ n + s.reserved := by
  rw [reserved_eq', reserved_eq', u.order]
  refine sum_update_le (i := i) ?_ (fun k hk => ?_) _ o.nodup
  · unfold State.resOf; rw [u.live, if_pos rfl, hj]; exact res
  · unfold State.resOf; rw [u.live, if_neg hk]

theorem Update.path {s t : State} {i : JobIx} {j g : Job} (u : Update s t i g) (hj : s.liveJob i = some j)
    (p : s.PathLaw) (q : Queue s t)
    (one : g.state.onPath = true → ∀ k l, s.liveJob k = some l → l.state.onPath = true → k = i)
    (waiting : g.state = .pending → g.startPos = none ∧ g.spoilWait = false)
    (spoil : g.spoilWait = true → g.spoilable = true)
    (engine : ∀ x, t.eng.ctx = some x →
      (g.tag = x.tag ∧ g.engaged = true) ∨ ∃ y, s.eng.ctx = some y ∧ y.tag = x.tag ∧ j.tag ≠ x.tag)
    (checker : ∀ x, t.chk.ctx = some x →
      (x.slot = i ∧ g.state = .checking ∧ g.spoilWait = false) ∨ ∃ y, s.chk.ctx = some y ∧ y.slot = x.slot ∧ x.slot ≠ i)
    (backFeed : t.feed.backFeeding = true → s.feed.backFeeding = true ∧ (g.state.onPath = true → g.starting = true))
    (cut : t.feed.cutting = true → s.feed.cutting = true ∧ (g.state.onPath = true → g.state = .cutting)) : t.PathLaw where
  one := fun k m l l' hl hl' a b => by
    rcases u.old hl with ⟨e, f⟩ | ⟨-, e⟩ <;> rcases u.old hl' with ⟨e', f'⟩ | ⟨-, e'⟩
    · rw [e, e']
    · subst f; rw [e]; exact (one a m l' e' b).symm
    · subst f'; rw [e']; exact one b k l e a
    · exact p.one k m l l' e e' a b
  waiting := fun k l hl a => by
    rcases u.old hl with ⟨-, f⟩ | ⟨-, e⟩
    · subst f; exact waiting a
    · exact p.waiting k l e a
  spoil := fun k l hl a => by
    rcases u.old hl with ⟨-, f⟩ | ⟨-, e⟩
    · subst f; exact spoil a
    · exact p.spoil k l e a
  engine := fun x hx => by
    rcases engine x hx with ⟨a, b⟩ | ⟨y, hy, a, b⟩
    · exact ⟨i, g, u.at_, a, b⟩
    · obtain ⟨k, l, hl, e, f⟩ := p.engine y hy
      refine ⟨k, l, ?_, e.trans a, f⟩
      rw [u.live, if_neg, hl]
      intro q
      subst q
      rw [hj, Option.some.injEq] at hl
      subst hl
      exact b (e.trans a)
  checker := fun x hx => by
    rcases checker x hx with ⟨a, b, d⟩ | ⟨y, hy, a, b⟩
    · exact ⟨g, a ▸ u.at_, b, d⟩
    · obtain ⟨l, hl, e, f⟩ := p.checker y hy
      exact ⟨l, by rw [u.live, if_neg b, ← a, hl], e, f⟩
  backFeed := fun h k l hl a => by
    obtain ⟨b, d⟩ := backFeed h
    rcases u.old hl with ⟨-, f⟩ | ⟨-, e⟩
    · subst f; exact d a
    · exact p.backFeed b k l e a
  cut := fun h k l hl a => by
    obtain ⟨b, d⟩ := cut h
    rcases u.old hl with ⟨-, f⟩ | ⟨-, e⟩
    · subst f; exact d a
    · exact p.cut b k l e a
  commits := q.commits p.commits

/-- A change of the feed axis alone. -/
theorem State.PathLaw.mapFeed {s : State} (p : s.PathLaw) {f : Feed → Feed}
    (backFeed : (f s.feed).backFeeding = true → ∀ i j, s.liveJob i = some j → j.state.onPath = true → j.starting = true)
    (cut : (f s.feed).cutting = true → ∀ i j, s.liveJob i = some j → j.state.onPath = true → j.state = .cutting) :
    (s.mapFeed f).PathLaw :=
  ⟨p.one, p.waiting, p.spoil, p.engine, p.checker, backFeed, cut, p.commits⟩

/-! ### What the law says of one job -/

/-- A job that the engine has no part in is not the context's. -/
theorem State.PathLaw.not_context {s : State} (p : s.PathLaw) (o : s.OrderLaw) {i : JobIx} {j : Job}
    (hj : s.liveJob i = some j) (h : j.engaged = false) {x : PrintContext} (hx : s.eng.ctx = some x) : j.tag ≠ x.tag := by
  intro e
  obtain ⟨k, l, hl, t, a⟩ := p.engine x hx
  have := o.tags k i l j hl hj (t.trans e.symm)
  subst this
  rw [hj, Option.some.injEq] at hl
  subst hl
  rw [h] at a
  cases a

theorem State.PathLaw.not_checker {s : State} (p : s.PathLaw) {i : JobIx} {j : Job} (hj : s.liveJob i = some j)
    (h : j.state ≠ .checking ∨ j.spoilWait = true) {x : StripContext} (hx : s.chk.ctx = some x) : x.slot ≠ i := by
  intro e
  obtain ⟨l, hl, a, b⟩ := p.checker x hx
  subst e
  rw [hj, Option.some.injEq] at hl
  subst hl
  rcases h with h | h
  · exact h a
  · simp [b] at h

theorem JobState.engaged_onPath {x : JobState} (h : x.keepsSwathTarget = true) : x.onPath = true := by
  cases x <;> simp_all [JobState.keepsSwathTarget, JobState.onPath]

theorem Job.engaged_state {j : Job} (h : j.engaged = true) :
    j.state.keepsSwathTarget = true ∧ j.startPos.isSome = true ∧ j.spoilWait = false := by
  unfold Job.engaged at h
  simp only [Bool.and_eq_true, Bool.not_eq_true'] at h
  exact ⟨h.1.1, h.1.2, h.2⟩

/-- While a job on the media path is not the engine's, the engine has no context. -/
theorem State.PathLaw.no_context {s : State} (p : s.PathLaw) {i : JobIx} {j : Job} (hj : s.liveJob i = some j)
    (on : j.state.onPath = true) (h : j.engaged = false) : s.eng.ctx = none := by
  cases hx : s.eng.ctx with
  | none => rfl
  | some x =>
    obtain ⟨k, l, hl, -, a⟩ := p.engine x hx
    have := p.one k i l j hl hj (JobState.engaged_onPath (Job.engaged_state a).1) on
    subst this
    rw [hj, Option.some.injEq] at hl
    subst hl
    rw [h] at a
    cases a

theorem State.PathLaw.no_checker {s : State} (p : s.PathLaw) {i : JobIx} {j : Job} (hj : s.liveJob i = some j)
    (on : j.state.onPath = true) (h : j.state ≠ .checking ∨ j.spoilWait = true) : s.chk.ctx = none := by
  cases hx : s.chk.ctx with
  | none => rfl
  | some x =>
    obtain ⟨l, hl, a, b⟩ := p.checker x hx
    have := p.one x.slot i l j hl hj (by simp [a, JobState.onPath]) on
    exact absurd this (p.not_checker hj h hx)

/-- With the media path free neither the engine nor the checker has a context. -/
theorem State.PathLaw.free_context {s : State} (p : s.PathLaw)
    (h : ∀ i j, s.liveJob i = some j → j.state.onPath = false) : s.eng.ctx = none ∧ s.chk.ctx = none := by
  constructor
  · cases hx : s.eng.ctx with
    | none => rfl
    | some x =>
      obtain ⟨k, l, hl, -, a⟩ := p.engine x hx
      have := h k l hl
      rw [JobState.engaged_onPath (Job.engaged_state a).1] at this
      cases this
  · cases hx : s.chk.ctx with
    | none => rfl
    | some x =>
      obtain ⟨l, hl, a, b⟩ := p.checker x hx
      have := h _ l hl
      simp [a, JobState.onPath] at this

/-- The job of the print context. -/
theorem State.PathLaw.contextJob {s : State} (p : s.PathLaw) (o : s.OrderLaw) {i : JobIx} {j : Job}
    (h : s.contextJob = some (i, j)) :
    s.liveJob i = some j ∧ j.engaged = true ∧ ∃ x, s.eng.ctx = some x ∧ j.tag = x.tag := by
  unfold State.contextJob at h
  obtain ⟨x, hx, h⟩ := Option.bind_eq_some_iff.1 h
  obtain ⟨hj, t⟩ := State.jobByTag_some h
  obtain ⟨k, l, hl, t', a⟩ := p.engine x hx
  have := o.tags k i l j hl hj (t'.trans t.symm)
  subst this
  rw [hj, Option.some.injEq] at hl
  subst hl
  exact ⟨hj, a, x, hx, t⟩

theorem State.MediaLaw.onPath {s : State} (c : s.MediaLaw) {i : JobIx} {j : Job} (hj : s.liveJob i = some j)
    (h : j.state ≠ .pending) : j.holds.noMedia = false := by
  cases e : j.holds.noMedia with
  | false => rfl
  | true => exact absurd (c.held i j hj e).1 h

/-! ### Feed facts -/

theorem Feed.Law.idle_still {f : Feed} (l : f.Law) (h : f.axis = .idle) : f.backFeeding = false ∧ f.cutting = false := by
  obtain ⟨-, -, m, -, c, -⟩ := l.idle h
  simp [Feed.backFeeding, Feed.cutting, m, c]

/-- What a request for a move may change of the feed axis (R59, R60). -/
theorem requestMove_only {target : Int} {r : Requester} {s t : State} {m : MoveStart} (h : requestMove target r s = (t, m)) :
    ∃ f : Feed → Feed, t = s.mapFeed f ∧ (f s.feed).roll = s.feed.roll ∧ (f s.feed).load = s.feed.load ∧
      (f s.feed).knifeCycle = s.feed.knifeCycle ∧
      ((f s.feed).move = s.feed.move ∨ (m = .begun ∧ ∃ v, (f s.feed).move = some v ∧ v.by_ = r)) ∧
      (m ≠ .begun → (f s.feed).move = s.feed.move ∧ (f s.feed).axis = s.feed.axis) := by
  cases e : s.feed.takesMove target r with
  | false =>
    rw [requestMove_refused e] at h
    simp only [Prod.mk.injEq] at h
    obtain ⟨rfl, rfl⟩ := h
    exact ⟨id, rfl, rfl, rfl, rfl, .inl rfl, fun _ => ⟨rfl, rfl⟩⟩
  | true =>
    rw [requestMove_taken e] at h
    simp only [Prod.mk.injEq] at h
    obtain ⟨rfl, rfl⟩ := h
    refine ⟨fun _ => (s.feed.beginMove target r).1, rfl, ?_⟩
    unfold Feed.beginMove
    split
    · simp
    · split <;> simp

end Sys2Proof.Machine
end

