-- ==== Sys2Proof/Laws/Starting.lean ====
section
/-!
SUPPORT. Starting a job keeps the course of the jobs (R11 to R13).
-/

-- One theorem after another: waiting proofs would each hold a thread.
set_option Elab.async false

namespace Sys2Proof.Machine

/-! ### Starting (R11 to R13) -/

/-- A job in its starting phase returns to PENDING (R13). -/
theorem returnPending_next {s : State} {i : JobIx} {j : Job} (l : s.feed.Law) (c : s.CourseLaw)
    (hj : s.liveJob i = some j) (st : j.starting = true) (still : s.feed.backFeeding = false) :
    Next s (returnPending i s) := by
  unfold Job.starting at st
  simp only [Bool.and_eq_true, decide_eq_true_eq, Option.isNone_iff_eq_none] at st
  have on : j.state.onPath = true := by rw [st.1]; rfl
  have en : j.engaged = false := by simp [Job.engaged, st.2]
  have u : Update s (changeJob i (fun j => { j with state := .pending, mediaRes := j.planned, drawn := 0 }) s) i
      { j with state := .pending, mediaRes := j.planned, drawn := 0 } := Update.changeJob hj _
  have cutting : s.feed.cutting = false := by
    cases e : s.feed.cutting with
    | false => rfl
    | true => have := c.path.cut e i j hj on; simp [st.1] at this
  have q := u.queue hj (.inl (by simp [st.1])) (changeJob_ed _ _ s)
  unfold returnPending
  refine holdRule_next q (by rw [changeJob_feed]; exact l) (u.orderLaw hj c.order rfl) ?_ ?_
  · refine u.path hj c.path q (fun h => ?_) (fun _ => ⟨st.2, ?_⟩) (fun h => ?_) (fun x hx => ?_) (fun x hx => ?_)
      (fun h => ?_) (fun h => ?_)
    · simp [JobState.onPath] at h
    · cases e : j.spoilWait with
      | false => rfl
      | true => have := c.path.spoil i j hj e; simp [Job.spoilable, st.1, st.2] at this
    · have := c.path.spoil i j hj h; simp [Job.spoilable, st.1, st.2] at this
    · rw [changeJob_eng, c.path.no_context hj on en] at hx; cases hx
    · rw [changeJob_chk, c.path.no_checker hj on (.inl (by simp [st.1]))] at hx; cases hx
    · rw [changeJob_feed, still] at h; cases h
    · rw [changeJob_feed, cutting] at h; cases h
  · refine u.mediaRest c.media.rest (fun h => ?_) (fun h => by cases h) (by rw [changeJob_feed]) (by rw [changeJob_feed])
    have := c.media.onPath hj (by simp [st.1])
    simp [this] at h

/-- The START step of a job in its starting phase, with the media still (R12). -/
theorem startStep_next {s : State} {i : JobIx} {j : Job} (l : s.feed.Law) (c : s.CourseLaw)
    (hj : s.liveJob i = some j) (st : j.starting = true) (still : s.feed.backFeeding = false) :
    Next s (startStep i s) := by
  have st' := st
  unfold Job.starting at st
  simp only [Bool.and_eq_true, decide_eq_true_eq, Option.isNone_iff_eq_none] at st
  have on : j.state.onPath = true := by rw [st.1]; rfl
  have en : j.engaged = false := by simp [Job.engaged, st.2]
  have cutting : s.feed.cutting = false := by
    cases e : s.feed.cutting with
    | false => rfl
    | true => have := c.path.cut e i j hj on; simp [st.1] at this
  have nospoil : j.spoilWait = false := by
    cases e : j.spoilWait with
    | false => rfl
    | true => have := c.path.spoil i j hj e; simp [Job.spoilable, st.1, st.2] at this
  refine Next.mk ?_ ((startStep_keeps i s).feed l) ?_
  all_goals
    unfold startStep
    simp only [hj]
    split
  · refine (Queue.setJob (i := i) (f := fun j => j.started s.feed s.ink) fun j _ =>
      ⟨⟨rfl, rfl, rfl, rfl, id, fun _ => rfl⟩, fun h => h⟩).trans (Queue.of_jobs rfl)
  · exact (returnPending_next l c hj st' still).queue
  · generalize ht : (sendEngine j.startMsg
        ((((setJob i (fun j => j.started s.feed s.ink) s).mapFeed fun f => { f with swathTarget := some f.position }).mapEng
          fun e => { e with ctx := some (PrintContext.atStart j.tag) }))) = t
    have u : Update s t i (j.started s.feed s.ink) := by
      rw [← ht]; exact (Update.setJob hj fun j => j.started s.feed s.ink).congr rfl rfl
    have eng : t.eng.ctx = some (PrintContext.atStart j.tag) := by rw [← ht]; rfl
    have chk : t.chk = s.chk := by rw [← ht]; exact setJob_chk _ _ _
    have feed : t.feed = { s.feed with swathTarget := some s.feed.position } := by
      rw [← ht]
      change ({ (setJob i (fun j => j.started s.feed s.ink) s).feed with
        swathTarget := some (setJob i (fun j => j.started s.feed s.ink) s).feed.position } : Feed) = _
      rw [setJob_feed]
    have bf : t.feed.backFeeding = s.feed.backFeeding := by rw [feed]; rfl
    have cf : t.feed.cutting = s.feed.cutting := by rw [feed]; rfl
    have q : Queue s t := u.queue hj (.inl (by simp [st.1])) (by rw [← ht]; exact setJob_ed _ _ s)
    refine ⟨u.orderLaw hj c.order rfl, ?_, ?_⟩
    · refine u.path hj c.path q (fun _ k m hm a => c.path.one k i m j hm hj a on) (fun h => ?_) (fun h => ?_)
        (fun x hx => .inl ⟨?_, ?_⟩) (fun x hx => ?_) (fun h => ?_) (fun h => ?_)
      · have : j.state = .pending := h
        simp [st.1] at this
      · have : j.spoilWait = true := h
        simp [nospoil] at this
      · rw [eng, Option.some.injEq] at hx; subst hx; rfl
      · simp [Job.engaged, Job.started, st.1, nospoil, JobState.keepsSwathTarget]
      · rw [chk, c.path.no_checker hj on (.inl (by simp [st.1]))] at hx; cases hx
      · rw [bf, still] at h; cases h
      · rw [cf, cutting] at h; cases h
    · refine (u.mediaRest c.media.rest (fun h => c.media.held i j hj h) (fun h => ?_) (by rw [feed]) (by rw [feed])).law ?_
      · have : j.state = .closing := h
        simp [st.1] at this
      · have := u.reserved hj c.order (n := 0) (by simp [Job.started])
        rw [feed]
        exact (by simpa using this : t.reserved ≤ s.reserved).trans c.media.fits
  · exact (returnPending_next l c hj st' still).course

/-- The axis or the media path after a start: the axis stays IDLE or the path is taken. -/
theorem returnPending_feed (i : JobIx) (s : State) : (returnPending i s).feed = s.feed := by
  unfold returnPending; rw [holdRule_feed, changeJob_feed]

theorem startStep_axis (i : JobIx) (s : State) : (startStep i s).feed.axis = s.feed.axis := by
  unfold startStep
  split
  · split
    · change (setJob i _ s).feed.axis = _
      rw [setJob_feed]
    · rw [returnPending_feed]
  · rfl

/-- A chosen job starts with the path free and the axis IDLE (R11, R12). -/
theorem startJob_next {s : State} {i : JobIx} {j : Job} (l : s.feed.Law) (c : s.CourseLaw)
    (hj : s.liveJob i = some j) (pending : j.state = .pending) (held : j.holds.noMedia = false)
    (free : s.pathFree = true) (idle : s.feed.axis = .idle) :
    Next s (startJob i s) ∧ ((startJob i s).feed.axis = .idle ∨ (startJob i s).pathFree = false) := by
  have off := fun k m => State.pathFree_onPath c.order free (i := k) (j := m)
  obtain ⟨noctx, nochk⟩ := c.path.free_context off
  obtain ⟨sp, sw⟩ := c.path.waiting i j hj pending
  obtain ⟨bf, ct⟩ := l.idle_still idle
  have u : Update s (changeJob i (fun j => { j with state := .printing, drawn := 0 }) s) i
      { j with state := .printing, drawn := 0 } := Update.changeJob hj _
  have st : ({ j with state := .printing, drawn := 0 } : Job).starting = true := by simp [Job.starting, sp]
  have n : Next s (changeJob i (fun j => { j with state := .printing, drawn := 0 }) s) := by
    have q := u.queue hj (.inl (by simp [pending])) (changeJob_ed _ _ s)
    refine ⟨q, by rw [changeJob_feed]; exact l, u.orderLaw hj c.order rfl, ?_, ?_⟩
    · refine u.path hj c.path q (fun _ k m hm a => ?_) (fun h => ?_) (fun h => ?_) (fun x hx => ?_) (fun x hx => ?_)
        (fun h => ?_) (fun h => ?_)
      · rw [off k m hm] at a; cases a
      · cases h
      · have : j.spoilWait = true := h
        simp [sw] at this
      · rw [changeJob_eng, noctx] at hx; cases hx
      · rw [changeJob_chk, nochk] at hx; cases hx
      · rw [changeJob_feed, bf] at h; cases h
      · rw [changeJob_feed, ct] at h; cases h
    · refine (u.mediaRest c.media.rest (fun h => ?_) (fun h => by cases h) (by rw [changeJob_feed])
        (by rw [changeJob_feed])).law ?_
      · have : j.holds.noMedia = true := h
        simp [held] at this
      · have := u.reserved hj c.order (n := 0) (by simp)
        rw [changeJob_feed]
        exact (by simpa using this : _ ≤ s.reserved).trans c.media.fits
  have hj' := u.at_
  have idle' : (changeJob i (fun j => { j with state := .printing, drawn := 0 }) s).feed.axis = .idle := by
    rw [changeJob_feed]; exact idle
  unfold startJob
  dsimp only
  generalize changeJob i (fun j => { j with state := .printing, drawn := 0 }) s = v at n hj' idle'
  have taken : ∀ w : State, w.jobs = v.jobs → w.pathFree = false := fun w e => by
    cases h : w.pathFree with
    | false => rfl
    | true =>
      have o : w.OrderLaw := by
        have o := n.course.order
        have live : ∀ k, w.liveJob k = v.liveJob k := fun k => by unfold State.liveJob; rw [e]
        exact ⟨by rw [e]; exact o.nodup, fun k => by rw [e, live]; exact o.live k,
          fun a b x y hx hy => o.tags a b x y ((live a).symm.trans hx) ((live b).symm.trans hy)⟩
      have := State.pathFree_onPath o h (i := i) (j := { j with state := .printing, drawn := 0 })
        (by unfold State.liveJob; rw [e]; exact hj')
      cases this
  obtain ⟨bf', ct'⟩ := n.feed.idle_still idle'
  split
  · split
    · next t h =>
      obtain ⟨f, e, roll, load, cycle, -, same⟩ := requestMove_only h
      obtain ⟨move, axis⟩ := same (by simp)
      have bft : t.feed.backFeeding = false := by
        rw [e]; change (f v.feed).backFeeding = false
        unfold Feed.backFeeding; rw [move]; exact bf'
      have a : Aside v t := by
        rw [e]
        refine Aside.mapFeed (fun h => ?_) (fun h => ?_) (by rw [roll]) (by rw [roll]; exact id) (by rw [roll, load]; exact id)
        · unfold Feed.backFeeding at h ⊢; rw [move] at h; exact h
        · unfold Feed.cutting at h ⊢; rw [move, load, cycle] at h; exact h
      have hjt : t.liveJob i = some { j with state := .printing, drawn := 0 } := by rw [e]; exact hj'
      have m : Next s t := n.trans fun lv cv => a.next ((requestMove_to (by simp) h).feed lv) cv
      refine ⟨m.trans fun lt ct => startStep_next lt ct hjt st bft, .inl ?_⟩
      rw [startStep_axis, e]
      exact axis.trans idle'
    · next t m notDone h =>
      obtain ⟨f, e, roll, load, cycle, move, -⟩ := requestMove_only h
      refine ⟨n.trans fun lv cv => ?_, .inr (taken t (by rw [e]; rfl))⟩
      refine ⟨by rw [e]; exact Queue.of_jobs rfl, (requestMove_to (by simp) h).feed lv, ?_⟩
      rw [e]
      have only : ∀ k m, v.liveJob k = some m → m.state.onPath = true → m.starting = true := fun k m hm a => by
        have := cv.path.one k i m _ hm hj' a rfl
        subst this
        rw [hj', Option.some.injEq] at hm
        subst hm
        exact st
      refine ⟨⟨cv.order.nodup, cv.order.live, cv.order.tags⟩, cv.path.mapFeed (fun _ => only) (fun h => ?_), ?_⟩
      · unfold Feed.cutting at h ct'
        rw [cycle, load] at h
        rcases move with e | ⟨-, x, e, r⟩
        · rw [e, ct'] at h; cases h
        · rw [e] at h
          simp only [Option.any_some, r, Bool.or_eq_false_iff] at h ct'
          rw [ct'.2] at h
          cases h
      · exact ⟨by rw [State.mapFeed_feed, roll]; exact cv.media.fits, cv.media.held, cv.media.closed, by simpa [roll] using cv.media.reach,
          by simpa [roll, load] using cv.media.load⟩
  · exact ⟨n.trans fun lv cv => startStep_next lv cv hj' st bf', .inl (by rw [startStep_axis]; exact idle')⟩

theorem Holds.noMedia_of_empty {h : Holds} (e : h.isEmpty = true) : h.noMedia = false := by
  unfold Holds.isEmpty at e
  cases n : h.noMedia <;> simp_all

/-- One job of the start evaluation (R11). -/
theorem tryStart_next {s : State} (i : JobIx) (l : s.feed.Law) (c : s.CourseLaw)
    (h : s.feed.axis = .idle ∨ s.pathFree = false) :
    Next s (tryStart s i) ∧ ((tryStart s i).feed.axis = .idle ∨ (tryStart s i).pathFree = false) := by
  unfold tryStart
  split
  · next j hj =>
    split
    · next g =>
      have idle : s.feed.axis = .idle := h.resolve_right (by simp [g.1])
      split
      · refine ⟨(Aside.changeJob s).next (by rw [changeJob_feed]; exact l) c, .inl (by rw [changeJob_feed]; exact idle)⟩
      · exact startJob_next l c hj g.2.1 (Holds.noMedia_of_empty g.2.2) g.1 idle
    · exact ⟨Next.refl l c, h⟩
  · exact ⟨Next.refl l c, h⟩

theorem tryStarts_next : ∀ (xs : List JobIx) (s : State), s.feed.Law → s.CourseLaw →
    (s.feed.axis = .idle ∨ s.pathFree = false) → Next s (xs.foldl tryStart s)
  | [], _, l, c, _ => Next.refl l c
  | i :: xs, _, l, c, h =>
    have n := tryStart_next i l c h
    n.1.trans fun l' c' => tryStarts_next xs _ l' c' n.2

/-- The evaluation of the start conditions (R11). -/
theorem startEval_next {s : State} (l : s.feed.Law) (c : s.CourseLaw) : Next s (startEval s) := by
  unfold startEval
  split
  · next h =>
    refine tryStarts_next _ s l c (.inl ?_)
    unfold State.mayStart at h
    simp only [Bool.and_eq_true, beq_iff_eq] at h
    exact h.1.1.2
  · exact Next.refl l c

end Sys2Proof.Machine
end

