-- ==== Sys2Proof/Laws/Path.lean ====
section
/-!
SUPPORT. What moves a job along the media path and off it keeps the course: a change of state, closing, aborting, a feed
fault, a knife cycle, the spoil path and a cancel (R16 to R22, R69, R81, R83, R134).
-/

-- One theorem after another: waiting proofs would each hold a thread.
set_option Elab.async false

namespace Sys2Proof.Machine

/-- A job that is not CLOSING is still live after an operation aside from the course. -/
theorem PathAside.forward {s t : State} (a : PathAside s t) {i : JobIx} {j : Job} (hj : s.liveJob i = some j)
    (h : j.state ≠ .closing) :
    ∃ l, t.liveJob i = some l ∧ l.tag = j.tag ∧ l.state = j.state ∧ l.startPos = j.startPos ∧ l.spoilWait = j.spoilWait := by
  obtain ⟨l, hl⟩ := Option.isSome_iff_exists.1 (a.gone i j hj h)
  obtain ⟨m, hm, e⟩ := a.jobs i l hl
  rw [hj, Option.some.injEq] at hm
  subst hm
  exact ⟨l, hl, e.1.symm, e.2.1.symm, e.2.2.1.symm, e.2.2.2.symm⟩

/-! ### A change of job state -/

/-- What a change of job state leaves of the feed axis: all but the swath target (R65). -/
theorem setJobState_feed (i : JobIx) (st : JobState) (s : State) :
    (setJobState i st s).feed.move = s.feed.move ∧ (setJobState i st s).feed.load = s.feed.load ∧
      (setJobState i st s).feed.knifeCycle = s.feed.knifeCycle ∧ (setJobState i st s).feed.roll = s.feed.roll := by
  unfold setJobState
  rw [changeJob_feed]
  split <;> exact ⟨rfl, rfl, rfl, rfl⟩

theorem setJobState_eng (i : JobIx) (st : JobState) (s : State) : (setJobState i st s).eng = s.eng := by
  unfold setJobState
  rw [changeJob_eng]
  split <;> rfl

theorem setJobState_ed (i : JobIx) (st : JobState) (s : State) : (setJobState i st s).ed = s.ed := by
  unfold setJobState
  rw [changeJob_ed]
  split <;> rfl

theorem setJobState_chk (i : JobIx) (st : JobState) (s : State) : (setJobState i st s).chk = s.chk := by
  unfold setJobState
  rw [changeJob_chk]
  split <;> rfl

theorem setJobState_still (i : JobIx) (st : JobState) (s : State) :
    (setJobState i st s).feed.backFeeding = s.feed.backFeeding ∧ (setJobState i st s).feed.cutting = s.feed.cutting := by
  obtain ⟨a, b, c, -⟩ := setJobState_feed i st s
  exact ⟨by unfold Feed.backFeeding; rw [a], by unfold Feed.cutting; rw [a, b, c]⟩

theorem setJobState_update {i : JobIx} {j : Job} {s : State} (hj : s.liveJob i = some j) (st : JobState) :
    Update s (setJobState i st s) i { j with state := st } := by
  unfold setJobState
  split
  · have u := Update.changeJob (s := s.mapFeed fun f => { f with swathTarget := none }) hj fun j => { j with state := st }
    exact ⟨u.live, u.order, u.free⟩
  · exact Update.changeJob hj _

/-! ### Closing (R20 to R22) -/

/-- A job with which neither the engine nor the checker has to do enters CLOSING (R21). -/
theorem closeJob_next {s : State} {i : JobIx} {j : Job} (piece : Nat) (l : s.feed.Law) (c : s.CourseLaw)
    (hj : s.liveJob i = some j) (still : j.state ≠ .closing) (ctx : ∀ x, s.eng.ctx = some x → j.tag ≠ x.tag)
    (chk : ∀ x, s.chk.ctx = some x → x.slot ≠ i) : Next s (closeJob i piece s) := by
  have base : Next s (setJob i (fun j => { j with mediaRes := 0, spoilWait := false, holds := Holds.none })
      (setJobState i .closing s)) := by
    have u := (setJobState_update hj .closing).trans
      (Update.setJob (setJobState_update hj .closing).at_
        fun j => { j with mediaRes := 0, spoilWait := false, holds := Holds.none })
    have feed : (setJob i (fun j => { j with mediaRes := 0, spoilWait := false, holds := Holds.none })
      (setJobState i .closing s)).feed = (setJobState i .closing s).feed := setJob_feed _ _ _
    have eng : (setJob i (fun j => { j with mediaRes := 0, spoilWait := false, holds := Holds.none })
      (setJobState i .closing s)).eng = s.eng := by rw [setJob_eng, setJobState_eng]
    have chk' : (setJob i (fun j => { j with mediaRes := 0, spoilWait := false, holds := Holds.none })
      (setJobState i .closing s)).chk = s.chk := by rw [setJob_chk, setJobState_chk]
    have ed : (setJob i (fun j => { j with mediaRes := 0, spoilWait := false, holds := Holds.none })
      (setJobState i .closing s)).ed = s.ed := by rw [setJob_ed, setJobState_ed]
    have law := (setJobState_keeps i .closing s).feed l
    obtain ⟨-, load, -, roll⟩ := setJobState_feed i .closing s
    obtain ⟨bf, ct⟩ := setJobState_still i .closing s
    generalize setJob i (fun j => { j with mediaRes := 0, spoilWait := false, holds := Holds.none })
      (setJobState i .closing s) = t at u feed eng chk' ed
    have q := u.queue hj (.inl still) ed
    refine ⟨q, by rw [feed]; exact law, u.orderLaw hj c.order rfl, ?_, ?_⟩
    · refine u.path hj c.path q (fun h => by cases h) (fun h => by cases h) (fun h => by cases h)
        (fun x hx => .inr ⟨x, ?_, rfl, ctx x (eng ▸ hx)⟩) (fun x hx => .inr ⟨x, ?_, rfl, chk x (chk' ▸ hx)⟩)
        (fun h => ⟨?_, fun a => by cases a⟩) (fun h => ⟨?_, fun a => by cases a⟩)
      · rw [← eng]; exact hx
      · rw [← chk']; exact hx
      · rw [feed, bf] at h; exact h
      · rw [feed, ct] at h; exact h
    · refine (u.mediaRest c.media.rest (fun h => by cases h) (fun _ => rfl) (by rw [feed, roll]) (by rw [feed, load])).law ?_
      rw [feed, roll]
      have := u.reserved hj c.order (n := 0) (Nat.zero_le _)
      exact (by simpa using this : t.reserved ≤ s.reserved).trans c.media.fits
  have at_ : (setJob i (fun j => { j with mediaRes := 0, spoilWait := false, holds := Holds.none })
      (setJobState i .closing s)).liveJob i
      = some { j with state := .closing, mediaRes := 0, spoilWait := false, holds := Holds.none } := by
    rw [liveJob_setJob, if_pos rfl, (setJobState_update hj .closing).at_]; rfl
  have un : j.committed = false := by
    cases e : j.committed with
    | false => rfl
    | true => exact absurd (c.path.commits i j hj e) still
  unfold closeJob
  dsimp only
  refine base.trans fun l c => ?_
  have kept := retryMedia_copyJobs (setJob i (fun j => { j with mediaRes := 0, spoilWait := false, holds := Holds.none })
      (setJobState i .closing s))
  refine (retryMedia_next l c).trans fun l c => ?_
  generalize retryMedia _ = u at l c kept
  have a : Aside u (commitCopy i (setJob i (fun j => { j with ink := releaseInk j.ink }) u)) :=
    (Aside.setJob' u).trans <| commitCopy_aside fun k hk => by
      rw [liveJob_setJob, if_pos rfl] at hk
      obtain ⟨m, hm, rfl⟩ := Option.map_eq_some_iff.1 hk
      obtain ⟨n, hn, ⟨-, -, -, e, -⟩, st⟩ := kept i m hm
      rw [at_, Option.some.injEq] at hn
      subst hn
      exact ⟨st rfl, e.trans un⟩
  have k : u.feed.Law → (commitCopy i (setJob i (fun j => { j with ink := releaseInk j.ink }) u)).feed.Law := fun l =>
    (commitCopy_keeps i _).feed (by rw [setJob_feed]; exact l)
  refine (a.next (k l) c).trans fun l c => ?_
  generalize commitCopy i (setJob i (fun j => { j with ink := releaseInk j.ink }) u) = v at l c
  have file : Aside v (match v.liveJob i with
      | some j => fileRecord i (costRecord v j piece) v
      | none => v) := by
    split
    · exact fileRecord_aside _ _ v
    · exact Aside.refl v
  have filek : Keeps v (match v.liveJob i with
      | some j => fileRecord i (costRecord v j piece) v
      | none => v) := by
    split
    · exact fileRecord_keeps _ _ v
    · exact Keeps.refl v
  refine ((file.trans (departIfReady_aside i _)).next ((filek.trans (departIfReady_keeps i _)).feed l) c).trans
    fun l c => ?_
  exact startEval_next l c

theorem closeUncut_next {s : State} {i : JobIx} {j : Job} (l : s.feed.Law) (c : s.CourseLaw)
    (hj : s.liveJob i = some j) (still : j.state ≠ .closing) (ctx : ∀ x, s.eng.ctx = some x → j.tag ≠ x.tag)
    (chk : ∀ x, s.chk.ctx = some x → x.slot ≠ i) : Next s (closeUncut i s) := by
  unfold closeUncut
  refine ((Aside.changeJob s).next (by rw [changeJob_feed]; exact l) c).trans fun l' c' =>
    closeJob_next (j := { j with flags := { j.flags with uncut := true } }) _ l' c' ?_ still ?_ ?_
  · rw [liveJob_changeJob, if_pos rfl, hj]; rfl
  · rw [changeJob_eng]; exact ctx
  · rw [changeJob_chk]; exact chk

/-! ### Aborting (R134) -/

/-- What the feed axis shows of a job's course. -/
structure SameFeed (s t : State) : Prop where
  move : t.feed.move = s.feed.move
  load : t.feed.load = s.feed.load
  cycle : t.feed.knifeCycle = s.feed.knifeCycle
  roll : t.feed.roll = s.feed.roll

theorem SameFeed.backFeeding {s t : State} (f : SameFeed s t) : t.feed.backFeeding = s.feed.backFeeding := by
  unfold Feed.backFeeding; rw [f.move]

theorem SameFeed.cutting {s t : State} (f : SameFeed s t) : t.feed.cutting = s.feed.cutting := by
  unfold Feed.cutting; rw [f.move, f.load, f.cycle]

theorem setJobState_same (i : JobIx) (st : JobState) (s : State) : SameFeed s (setJobState i st s) :=
  have h := setJobState_feed i st s
  ⟨h.1, h.2.1, h.2.2.1, h.2.2.2⟩

/-- Neither a back-feed nor a cut is under way while the job on the media path can take the spoil path. -/
theorem State.PathLaw.spoilable_still {s : State} (p : s.PathLaw) {i : JobIx} {j : Job} (hj : s.liveJob i = some j)
    (h : j.spoilable = true) : s.feed.backFeeding = false ∧ s.feed.cutting = false := by
  have on : j.state.onPath = true := by
    unfold Job.spoilable at h
    cases e : j.state <;> simp [e, JobState.keepsSwathTarget, JobState.onPath] at h ⊢
  constructor
  · cases e : s.feed.backFeeding with
    | false => rfl
    | true =>
      have := p.backFeed e i j hj on
      simp only [Job.starting, Bool.and_eq_true, decide_eq_true_eq, Option.isNone_iff_eq_none] at this
      simp [Job.spoilable, this.1, this.2] at h
  · cases e : s.feed.cutting with
    | false => rfl
    | true =>
      have := p.cut e i j hj on
      simp [Job.spoilable, this, JobState.keepsSwathTarget] at h

theorem Job.engaged_spoilable {j : Job} (h : j.engaged = true) : j.spoilable = true := by
  obtain ⟨a, b, -⟩ := Job.engaged_state h
  simp [Job.spoilable, a, b]

theorem Job.spoilable_onPath {j : Job} (h : j.spoilable = true) : j.state.onPath = true := by
  unfold Job.spoilable at h
  cases e : j.state <;> simp [e, JobState.keepsSwathTarget, JobState.onPath] at h ⊢

/-- A job changes state and stays the engine's (R131, R132, R134). -/
theorem Update.engaged {s t : State} {i : JobIx} {j g : Job} (u : Update s t i g) (hj : s.liveJob i = some j)
    (c : s.CourseLaw) (en : j.engaged = true) (en' : g.engaged = true) (tag : g.tag = j.tag)
    (media : g.mediaRes = j.mediaRes ∧ g.holds = j.holds) (f : SameFeed s t) (eng : t.eng.ctx = s.eng.ctx)
    (chk : t.chk.ctx = s.chk.ctx) (law : t.feed.Law) (ed : t.ed = s.ed)
    (copy : j.SameCopy g := by exact ⟨rfl, rfl, rfl, rfl, id, fun _ => rfl⟩) : Next s t := by
  have on := Job.spoilable_onPath (Job.engaged_spoilable en)
  obtain ⟨bf, ct⟩ := c.path.spoilable_still hj (Job.engaged_spoilable en)
  obtain ⟨st, sp, sw⟩ := Job.engaged_state en
  obtain ⟨st', sp', sw'⟩ := Job.engaged_state en'
  have q := u.queue hj (.inl fun e => by rw [e] at on; cases on) ed copy
  refine ⟨q, law, u.orderLaw hj c.order tag, ?_, ?_⟩
  · refine u.path hj c.path q (fun _ k m hm a => c.path.one k i m j hm hj a on) (fun h => ?_)
      (fun h => ?_) (fun y hy => ?_) (fun y hy => ?_) (fun h => ?_) (fun h => ?_)
    · rw [h] at st'; cases st'
    · simp [sw'] at h
    · by_cases e : j.tag = y.tag
      · exact .inl ⟨tag.trans e, en'⟩
      · exact .inr ⟨y, by rw [← eng]; exact hy, rfl, e⟩
    · rw [chk, c.path.no_checker hj on (.inl fun e => by rw [e] at st; cases st)] at hy; cases hy
    · rw [f.backFeeding, bf] at h; cases h
    · rw [f.cutting, ct] at h; cases h
  · refine (u.mediaRest c.media.rest (fun h => ?_) (fun h => ?_) f.roll f.load).law ?_
    · rw [media.2, c.media.onPath hj (by intro e; rw [e] at on; cases on)] at h; cases h
    · rw [h] at st'; cases st'
    · rw [f.roll]
      have := u.reserved hj c.order (n := 0) (by simp [media.1])
      exact (by simpa using this : t.reserved ≤ s.reserved).trans c.media.fits

/-- The job on the media path enters ABORTING while the engine has its context. -/
theorem enterAborting_next {s : State} {i : JobIx} {j : Job} (l : s.feed.Law) (c : s.CourseLaw)
    (hj : s.liveJob i = some j) (on : j.state.onPath = true) : Next s (enterAborting i s) := by
  unfold enterAborting
  split
  · next x hx =>
    have en : j.engaged = true := by
      cases e : j.engaged with
      | true => rfl
      | false => rw [c.path.no_context hj on e] at hx; cases hx
    obtain ⟨-, sp, sw⟩ := Job.engaged_state en
    suffices key : ∀ v : State, v.feed.Law → v.CourseLaw → v.liveJob i = some j → Next v (setJobState i .aborting v) by
      refine Next.trans ?_ fun l c => key _ l c hj
      refine Aside.next (Aside.trans ?_ (mapContext_aside _)) l c
      exact sendEngine_aside _ s
    intro v l c hj
    exact (setJobState_update hj .aborting).engaged hj c en
      (by simp [Job.engaged, JobState.keepsSwathTarget, sp, sw]) rfl ⟨rfl, rfl⟩ (setJobState_same i .aborting v)
      (by rw [setJobState_eng]) (by rw [setJobState_chk]) ((setJobState_keeps i .aborting v).feed l)
      (setJobState_ed i .aborting v)
  · exact Next.refl l c

/-! ### Feed faults (R13, R18, R69) -/

/-- A feed fault reaches the job on the media path with nothing under way. -/
theorem faultJob_next {s : State} {i : JobIx} {j : Job} (l : s.feed.Law) (c : s.CourseLaw)
    (hj : s.liveJob i = some j) (on : j.state.onPath = true) (still : s.feed.backFeeding = false) :
    Next s (faultJob i j s) := by
  have away : j.engaged = false → ∀ x, s.eng.ctx = some x → j.tag ≠ x.tag := fun e x hx =>
    c.path.not_context c.order hj e hx
  have spoil := decideOutcome_aside i .spoiled (some .feedFault) s
  have spoilk := (decideOutcome_keeps i .spoiled (some .feedFault) s).feed l
  obtain ⟨m, hm, mt, ms, -, -⟩ := spoil.toPathAside.forward hj (by intro e; rw [e] at on; cases on)
  have abort : Next s (enterAborting i (decideOutcome i .spoiled (some .feedFault) s)) :=
    (spoil.next spoilk c).trans fun l c => enterAborting_next l c hm (by rw [ms]; exact on)
  unfold faultJob
  split
  · next h =>
    exact closeUncut_next l c hj (fun e => by rw [e] at on; cases on)
      (away (by simp [Job.engaged, h])) fun x hx => c.path.not_checker hj (.inr h) hx
  · next h =>
    split
    · next e =>
      split
      · next st =>
        split
        · refine closeJob_next 0 l c hj (by simp [e]) (away ?_) fun x hx => c.path.not_checker hj (.inl (by simp [e])) hx
          simp only [Job.starting, Bool.and_eq_true, Option.isNone_iff_eq_none] at st
          simp [Job.engaged, st.2]
        · exact returnPending_next l c hj st still
      · exact abort
    · exact abort
    · exact spoil.next spoilk c
    · next e =>
      have a := (stopChecker_aside s).trans (decideOutcome_aside i .spoiled (some .feedFault) _)
      have k := ((stopChecker_keeps s).trans (decideOutcome_keeps i .spoiled (some .feedFault) _)).feed l
      have none_ : (decideOutcome i .spoiled (some .feedFault) (stopChecker s)).chk.ctx = none := by
        obtain h | ⟨y, h⟩ := Option.eq_none_or_eq_some (decideOutcome i .spoiled (some .feedFault) (stopChecker s)).chk.ctx
        · exact h
        · obtain ⟨z, hz, -⟩ := (decideOutcome_aside i .spoiled (some .feedFault) (stopChecker s)).checker y h
          rw [stopChecker_ctx] at hz; cases hz
      obtain ⟨n, hn, nt, ns, -, -⟩ := a.toPathAside.forward hj (by intro e; rw [e] at on; cases on)
      refine (a.next k c).trans fun l c => closeUncut_next l c hn (by simp [ns, e]) (fun x hx => ?_) fun x hx => ?_
      · exact c.path.not_context c.order hn (by simp [Job.engaged, ns, e, JobState.keepsSwathTarget]) hx
      · rw [none_] at hx; cases hx
    · next e =>
      refine (spoil.next spoilk c).trans fun l c => closeUncut_next l c hm (by simp [ms, e]) (fun x hx => ?_) fun x hx => ?_
      · exact c.path.not_context c.order hm (by simp [Job.engaged, ms, e, JobState.keepsSwathTarget]) hx
      · exact c.path.not_checker hm (.inl (by simp [ms, e])) hx
    · exact Next.refl l c
    · exact Next.refl l c

/-- Media out (R88). -/
theorem mediaOut_next {s : State} (l : s.feed.Law) (c : s.CourseLaw) :
    Next s (mediaOut s) ∧ (mediaOut s).feed = { s.feed with roll := { s.feed.roll with state := .exhausted } } := by
  unfold mediaOut
  dsimp only
  generalize ht : (s.mapFeed fun f => { f with roll := { f.roll with state := .exhausted } }) = t
  have feed : t.feed = { s.feed with roll := { s.feed.roll with state := .exhausted } } := by rw [← ht]; rfl
  have law : t.feed.Law := by
    rw [feed]; exact ⟨l.quiet, l.moving, l.settling, l.timing, l.knife, l.cycle, l.search, l.loading⟩
  have path : PathAside s t := by
    rw [← ht]
    exact ⟨fun _ j h => ⟨j, h, rfl, rfl, rfl, rfl⟩, fun _ _ h _ => by simp [h], fun l => ⟨l.nodup, l.live, l.tags⟩,
      Queue.of_jobs rfl, fun x h => ⟨x, h, rfl⟩, fun x h => ⟨x, h, rfl⟩, id, id⟩
  have rest : t.MediaRest := by
    rw [← ht]; exact ⟨c.media.held, c.media.closed, c.media.reach, fun _ => by simp⟩
  clear ht
  split
  · next i j hp =>
    have a : PathAside t (setJob i (fun j => { j with mediaRes := 0 }) t) := PathAside.setJob fun _ _ => ⟨rfl, rfl, rfl, rfl⟩
    refine ⟨holdRule_next (path.trans a).queue (by rw [setJob_feed]; exact law) ((path.trans a).order c.order)
      ((path.trans a).law c.path)
      (rest.setJob fun k hk => ⟨fun h => ⟨(rest.held i k hk h).1, rfl⟩, fun _ => rfl⟩), ?_⟩
    rw [holdRule_feed, setJob_feed, feed]
  · exact ⟨holdRule_next path.queue law (path.order c.order) (path.law c.path) rest, by rw [holdRule_feed, feed]⟩

/-- A feed fault, whatever was under way (R69). -/
theorem feedFault_next (k : FaultKind) {s : State} (c : s.CourseLaw) : Next s (feedFault k s) := by
  unfold feedFault
  dsimp only
  have still : (s.feed.enterFault k).backFeeding = false ∧ (s.feed.enterFault k).cutting = false := ⟨rfl, rfl⟩
  have a : Aside s (s.mapFeed (Feed.enterFault k)) :=
    Aside.mapFeed (by rw [still.1]; intro h; cases h) (by rw [still.2]; intro h; cases h)
      (by simp [Feed.enterFault, Feed.outputsOff]) (by simp [Feed.enterFault, Feed.outputsOff])
      (by simp [Feed.enterFault])
  have n : Next s (s.mapFeed (Feed.enterFault k)) := a.next (Feed.enterFault_law k _) c
  have out : Next s (if k = .mediaOut then mediaOut (s.mapFeed (Feed.enterFault k)) else s.mapFeed (Feed.enterFault k)) ∧
      (if k = .mediaOut then mediaOut (s.mapFeed (Feed.enterFault k)) else s.mapFeed (Feed.enterFault k)).feed.backFeeding
        = false := by
    split
    · have m := mediaOut_next n.feed n.course
      exact ⟨n.trans fun l c => m.1, by rw [m.2]; rfl⟩
    · exact ⟨n, rfl⟩
  generalize (if k = .mediaOut then mediaOut (s.mapFeed (Feed.enterFault k)) else s.mapFeed (Feed.enterFault k)) = t at out
  refine Next.aside ?_ (notify_aside _ _) id
  refine out.1.trans fun l c => ?_
  split
  · next i j hp =>
    obtain ⟨hj, on⟩ := State.pathJob_some hp
    exact faultJob_next l c hj on out.2
  · exact Next.refl l c

/-! ### The knife and cut plans (R81, R83) -/

/-- A knife cycle begins where every job on the media path is in CUTTING, or for a load (R77, R81). -/
theorem beginKnife_course {s : State} (c : s.CourseLaw)
    (h : s.feed.load = none → ∀ i j, s.liveJob i = some j → j.state.onPath = true → j.state = .cutting) :
    Queue s (beginKnife s) ∧ (beginKnife s).CourseLaw := by
  have a : Aside s (s.mapFeed fun f => { f with axis := f.legState .knife }) := Aside.feedFields rfl rfl rfl rfl
  unfold beginKnife
  dsimp only
  split
  · refine ⟨Queue.of_jobs rfl, ⟨c.order.nodup, c.order.live, c.order.tags⟩, ?_, ?_⟩
    · refine (a.course c).path.mapFeed (fun e => c.path.backFeed e) (fun e i j hj on => ?_)
      cases hl : s.feed.load with
      | none => exact h hl i j hj on
      | some x =>
        refine c.path.cut ?_ i j hj on
        simpa [Feed.cutting, hl] using e
    · exact ⟨c.media.fits, c.media.held, c.media.closed, c.media.reach, c.media.load⟩
  · have n := feedFault_next .knife (a.course c)
    exact ⟨a.queue.trans n.queue, n.course⟩

/-- Planning a cut of the job in CUTTING (R83). -/
theorem planCut_next {s : State} {i : JobIx} (l : s.feed.Law) (c : s.CourseLaw)
    (h : ∀ j, s.liveJob i = some j → j.state = .cutting) : Next s (planCut i s) := by
  have law := (planCut_keeps i s).feed l
  unfold planCut at law ⊢
  split
  · next j hj =>
    simp only [hj] at law
    have on : j.state.onPath = true := by rw [h j hj]; rfl
    have only : ∀ k m, s.liveJob k = some m → m.state.onPath = true → m.state = .cutting := fun k m hm a => by
      have := c.path.one k i m j hm hj a on
      subst this
      exact h m hm
    split
    · next start offset hs ho =>
      simp only [hs, ho] at law
      split
      · next t e =>
        simp only [e] at law
        obtain ⟨f, ht, roll, load, cycle, -, same⟩ := requestMove_only e
        obtain ⟨move, axis⟩ := same (by simp)
        have a : Aside s t := by
          rw [ht]
          refine Aside.mapFeed (fun h => ?_) (fun h => ?_) (by rw [roll]) (by rw [roll]; exact id)
            (by rw [roll, load]; exact id)
          · unfold Feed.backFeeding at h ⊢; rw [move] at h; exact h
          · unfold Feed.cutting at h ⊢; rw [move, load, cycle] at h; exact h
        have n := beginKnife_course (a.course c) fun _ k m hm on => only k m (by rw [ht] at hm; exact hm) on
        exact ⟨a.queue.trans n.1, law, n.2⟩
      · next t m notDone e =>
        obtain ⟨f, ht, roll, load, cycle, move, -⟩ := requestMove_only e
        refine ⟨by rw [ht]; exact Queue.of_jobs rfl, (requestMove_to (by simp) e).feed l, ?_⟩
        rw [ht]
        refine ⟨⟨c.order.nodup, c.order.live, c.order.tags⟩, c.path.mapFeed (fun b => ?_) fun _ => only, ?_⟩
        · refine c.path.backFeed ?_
          unfold Feed.backFeeding at b ⊢
          rcases move with e | ⟨-, x, e, r⟩
          · rw [e] at b; exact b
          · rw [e] at b; simp [r] at b
        · exact ⟨by rw [State.mapFeed_feed, roll]; exact c.media.fits, c.media.held, c.media.closed,
            by rw [State.mapFeed_feed, roll]; exact c.media.reach, by rw [State.mapFeed_feed, roll, load]; exact c.media.load⟩
    · exact Next.refl l c
  · exact Next.refl l c

/-- A job that neither the engine nor the checker has to do with enters CUTTING. -/
theorem Update.cutting {s t : State} {i : JobIx} {j g : Job} (u : Update s t i g) (hj : s.liveJob i = some j)
    (c : s.CourseLaw) (sp : j.spoilable = true) (state : g.state = .cutting) (sw : g.spoilWait = false)
    (tag : g.tag = j.tag) (holds : g.holds = j.holds) (f : SameFeed s t) (eng : t.eng.ctx = none)
    (chk : t.chk.ctx = none) (ed : t.ed = s.ed)
    (copy : j.SameCopy g := by exact ⟨rfl, rfl, rfl, rfl, id, fun _ => rfl⟩) :
    Queue s t ∧ t.OrderLaw ∧ t.PathLaw ∧ t.MediaRest := by
  have on := Job.spoilable_onPath sp
  have q := u.queue hj (.inl fun e => by rw [e] at on; cases on) ed copy
  obtain ⟨bf, ct⟩ := c.path.spoilable_still hj sp
  refine ⟨q, u.orderLaw hj c.order tag, ?_, ?_⟩
  · refine u.path hj c.path q (fun _ k m hm a => c.path.one k i m j hm hj a on) (fun h => ?_)
      (fun h => ?_) (fun y hy => ?_) (fun y hy => ?_) (fun h => ?_) (fun h => ?_)
    · rw [state] at h; cases h
    · rw [sw] at h; cases h
    · rw [eng] at hy; cases hy
    · rw [chk] at hy; cases hy
    · rw [f.backFeeding, bf] at h; cases h
    · rw [f.cutting, ct] at h; cases h
  · refine u.mediaRest c.media.rest (fun h => ?_) (fun h => ?_) f.roll f.load
    · rw [holds, c.media.onPath hj (by intro e; rw [e] at on; cases on)] at h; cases h
    · rw [state] at h; cases h

/-- A job that no longer has to do with the engine and the checker enters CUTTING (R14, R15). -/
theorem enterCutting_next {s : State} {i : JobIx} {j : Job} (l : s.feed.Law) (c : s.CourseLaw)
    (hj : s.liveJob i = some j) (sp : j.spoilable = true) (sw : j.spoilWait = false) (ctx : s.eng.ctx = none)
    (chk : s.chk.ctx = none) : Next s (enterCutting i s) := by
  have u := setJobState_update hj .cutting
  have f := setJobState_same i .cutting s
  obtain ⟨q, o, p, r⟩ := u.cutting hj c sp rfl sw rfl rfl f (by rw [setJobState_eng]; exact ctx)
    (by rw [setJobState_chk]; exact chk) (setJobState_ed i .cutting s)
  have m : (setJobState i .cutting s).MediaLaw := r.law <| by
    rw [f.roll]
    have := u.reserved hj c.order (n := 0) (by simp)
    exact (by simpa using this : _ ≤ s.reserved).trans c.media.fits
  have n : Next s (setJobState i .cutting s) := ⟨q, (setJobState_keeps i .cutting s).feed l, o, p, m⟩
  exact n.trans fun l c => planCut_next l c fun k hk => by
    rw [u.at_, Option.some.injEq] at hk
    subst hk; rfl

/-! ### The spoil path (R19) -/

/-- The spoil cut of a job that neither the engine nor the checker has to do with. -/
theorem spoilCut_next {s : State} {i : JobIx} {j : Job} (l : s.feed.Law) (c : s.CourseLaw)
    (hj : s.liveJob i = some j) (sp : j.spoilable = true) (ctx : s.eng.ctx = none) (chk : s.chk.ctx = none) :
    Next s (spoilCut i s) := by
  have u1 : Update s (setJob i (fun j => j.spoilPlan s.feed) s) i (j.spoilPlan s.feed) := Update.setJob hj _
  have u := u1.trans (setJobState_update u1.at_ .cutting)
  have f : SameFeed s (setJobState i .cutting (setJob i (fun j => j.spoilPlan s.feed) s)) := by
    have h := setJobState_same i .cutting (setJob i (fun j => j.spoilPlan s.feed) s)
    exact ⟨by rw [h.move, setJob_feed], by rw [h.load, setJob_feed], by rw [h.cycle, setJob_feed], by rw [h.roll, setJob_feed]⟩
  have law : (setJobState i .cutting (setJob i (fun j => j.spoilPlan s.feed) s)).feed.Law :=
    (setJobState_keeps _ _ _).feed (by rw [setJob_feed]; exact l)
  obtain ⟨q, o, p, r⟩ := u.cutting hj c sp rfl rfl rfl rfl f (by rw [setJobState_eng, setJob_eng]; exact ctx)
    (by rw [setJobState_chk, setJob_chk]; exact chk) (by rw [setJobState_ed, setJob_ed])
  unfold spoilCut
  split
  · next k hk =>
    rw [hj, Option.some.injEq] at hk
    subst hk
    dsimp only
    generalize setJobState i .cutting (setJob i (fun j => j.spoilPlan s.feed) s) = t at u f law q o p r
    have cut : ∀ v, PathAside t v → ∀ m, v.liveJob i = some m → m.state = .cutting := fun v a m hm => by
      obtain ⟨x, hx, -, e, -⟩ := a.jobs i m hm
      rw [u.at_, Option.some.injEq] at hx
      subst hx
      exact e.symm
    split
    · exact (holdRule_next q law o p r).trans fun l c => planCut_next l c (cut _ (holdRule_path t))
    · next h =>
      have m : t.MediaLaw := r.law <| by
        rw [f.roll]
        have := u.reserved hj c.order (n := 0) (by simpa using h)
        exact (by simpa using this : t.reserved ≤ s.reserved).trans c.media.fits
      have n : Next s t := ⟨q, law, o, p, m⟩
      split
      · exact (n.trans fun l c => retryMedia_next l c).trans fun l c => planCut_next l c (cut _ (retryMedia_path t))
      · exact n.trans fun l c => planCut_next l c (cut _ (PathAside.refl t))
  · exact Next.refl l c

/-- The spoil path is taken by a job that neither the engine nor the checker has to do with (R19). -/
theorem takeSpoil_next {s : State} {i : JobIx} {j : Job} (l : s.feed.Law) (c : s.CourseLaw)
    (hj : s.liveJob i = some j) (sp : j.spoilable = true) (ctx : s.eng.ctx = none) (chk : s.chk.ctx = none) :
    Next s (takeSpoil i s) := by
  have on := Job.spoilable_onPath sp
  have wait : Next s (setJob i (fun j => { j with spoilWait := true }) s) := by
    have u : Update s (setJob i (fun j => { j with spoilWait := true }) s) i { j with spoilWait := true } :=
      Update.setJob hj _
    obtain ⟨bf, ct⟩ := c.path.spoilable_still hj sp
    have q := u.queue hj (.inl fun e => by rw [e] at on; cases on) (setJob_ed _ _ s)
    refine ⟨q, by rw [setJob_feed]; exact l, u.orderLaw hj c.order rfl, ?_, ?_⟩
    · refine u.path hj c.path q (fun _ k m hm a => c.path.one k i m j hm hj a on) (fun h => ?_)
        (fun h => sp) (fun y hy => ?_) (fun y hy => ?_) (fun h => ?_) (fun h => ?_)
      · have : j.state = .pending := h
        rw [this] at on; cases on
      · rw [setJob_eng, ctx] at hy; cases hy
      · rw [setJob_chk, chk] at hy; cases hy
      · rw [setJob_feed, bf] at h; cases h
      · rw [setJob_feed, ct] at h; cases h
    · refine MediaAside.law (s := s) ?_ c.media
      exact MediaAside.setJob fun _ _ => ⟨rfl, rfl, Nat.le_refl _⟩
  have uncut : Next s (closeUncut i s) := closeUncut_next l c hj (fun e => by rw [e] at on; cases on)
    (by simp [ctx]) (by simp [chk])
  unfold takeSpoil
  split
  · exact wait
  · exact wait
  · exact spoilCut_next l c hj sp ctx chk
  · exact uncut

/-! ### Cancelling (R13, R16, R17) -/

/-- CANCEL_JOB on the media path. -/
theorem cancelOnPath_next {s : State} {i : JobIx} {j : Job} (l : s.feed.Law) (c : s.CourseLaw)
    (hj : s.liveJob i = some j) : Next s (cancelOnPath i j s) := by
  have spoil := decideOutcome_aside i .spoiled (some .cancel) s
  have spoilk := (decideOutcome_keeps i .spoiled (some .cancel) s).feed l
  have abort : j.state.onPath = true → Next s (enterAborting i (decideOutcome i .spoiled (some .cancel) s)) := fun on => by
    obtain ⟨m, hm, mt, ms, -, -⟩ := spoil.toPathAside.forward hj (by intro e; rw [e] at on; cases on)
    exact (spoil.next spoilk c).trans fun l c => enterAborting_next l c hm (by rw [ms]; exact on)
  unfold cancelOnPath
  split
  · exact Next.refl l c
  · next w =>
    split
    · next e =>
      split
      · next st =>
        have a := decideOutcome_aside i .cancelled none s
        have k := (decideOutcome_keeps i .cancelled none s).feed l
        obtain ⟨m, hm, mt, ms, mp, -⟩ := a.toPathAside.forward hj (by rw [e]; simp)
        dsimp only
        split
        · exact a.next k c
        · refine (a.next k c).trans fun l c => closeJob_next 0 l c hm (by simp [ms, e]) (fun x hx => ?_) fun x hx => ?_
          · refine c.path.not_context c.order hm ?_ hx
            simp only [Job.starting, Bool.and_eq_true, Option.isNone_iff_eq_none] at st
            simp [Job.engaged, mp, st.2]
          · exact c.path.not_checker hm (.inl (by simp [ms, e])) hx
      · exact abort (by rw [e]; rfl)
    · next e => exact abort (by rw [e]; rfl)
    · next e =>
      have on : j.state.onPath = true := by rw [e]; rfl
      have a := (stopChecker_aside s).trans (decideOutcome_aside i .spoiled (some .cancel) _)
      have k := ((stopChecker_keeps s).trans (decideOutcome_keeps i .spoiled (some .cancel) _)).feed l
      have none_ : (decideOutcome i .spoiled (some .cancel) (stopChecker s)).chk.ctx = none := by
        obtain h | ⟨y, h⟩ := Option.eq_none_or_eq_some (decideOutcome i .spoiled (some .cancel) (stopChecker s)).chk.ctx
        · exact h
        · obtain ⟨z, hz, -⟩ := (decideOutcome_aside i .spoiled (some .cancel) (stopChecker s)).checker y h
          rw [stopChecker_ctx] at hz; cases hz
      obtain ⟨n, hn, nt, ns, np, nw⟩ := a.toPathAside.forward hj (by rw [e]; simp)
      refine (a.next k c).trans fun l c => takeSpoil_next l c hn (by simp [Job.spoilable, ns, e])
        (c.path.no_context hn (by rw [ns]; exact on) (by simp [Job.engaged, ns, e, JobState.keepsSwathTarget])) none_
    · exact spoil.next spoilk c
    · exact Next.refl l c
    · exact Next.refl l c
    · exact Next.refl l c

/-- CANCEL_JOB (R16, R17). -/
theorem cancelJob_next {s : State} {i : JobIx} {j : Job} (l : s.feed.Law) (c : s.CourseLaw)
    (hj : s.liveJob i = some j) : Next s (cancelJob i j s) := by
  unfold cancelJob
  split
  · next e =>
    have a := decideOutcome_aside i .cancelled none s
    have k := (decideOutcome_keeps i .cancelled none s).feed l
    obtain ⟨m, hm, mt, ms, -, -⟩ := a.toPathAside.forward hj (by rw [e]; simp)
    refine (a.next k c).trans fun l c => closeJob_next 0 l c hm (by simp [ms, e]) (fun x hx => ?_) fun x hx => ?_
    · exact c.path.not_context c.order hm (by simp [Job.engaged, ms, e, JobState.keepsSwathTarget]) hx
    · exact c.path.not_checker hm (.inl (by simp [ms, e])) hx
  · exact cancelOnPath_next l c hj

end Sys2Proof.Machine
end

