-- ==== Sys2Proof/Laws/EngineCourse.lean ====
section
/-!
SUPPORT. The engine's messages and timers keep the course of the jobs (R128 to R136).
-/

-- One theorem after another: waiting proofs would each hold a thread.
set_option Elab.async false

namespace Sys2Proof.Machine

/-! ### The engine's messages and timers -/

theorem abortContext_next (k : SpoilCause) {s : State} (l : s.feed.Law) (c : s.CourseLaw) : Next s (abortContext k s) := by
  unfold abortContext
  split
  · next i j h =>
    obtain ⟨hj, en, -⟩ := c.path.contextJob c.order h
    have on := Job.spoilable_onPath (Job.engaged_spoilable en)
    have a := decideOutcome_aside i .spoiled (some k) s
    obtain ⟨m, hm, -, ms, -, -⟩ := a.toPathAside.forward hj (by intro e; rw [e] at on; cases on)
    exact (a.next ((decideOutcome_keeps _ _ _ s).feed l) c).trans fun l c => enterAborting_next l c hm (by rw [ms]; exact on)
  · exact Next.refl l c

theorem dropContext_ctx (s : State) : (dropContext s).eng.ctx = none := rfl

theorem endToSpoil_next (k : Option SpoilCause) {s : State} (l : s.feed.Law) (c : s.CourseLaw) :
    Next s (endToSpoil k s) := by
  unfold endToSpoil
  split
  · next i j h =>
    obtain ⟨hj, en, -⟩ := c.path.contextJob c.order h
    have sp := Job.engaged_spoilable en
    have on := Job.spoilable_onPath sp
    have a : Aside s (if k.isSome then decideOutcome i .spoiled k (dropContext s) else dropContext s) :=
      Aside.ite (fun _ => (dropContext_aside s).trans (decideOutcome_aside _ _ _ _)) fun _ => dropContext_aside s
    have ka : Keeps s (if k.isSome then decideOutcome i .spoiled k (dropContext s) else dropContext s) :=
      Keeps.ite (fun _ => (dropContext_keeps s).trans (decideOutcome_keeps _ _ _ _)) fun _ => dropContext_keeps s
    have b : Aside (dropContext s) (if k.isSome then decideOutcome i .spoiled k (dropContext s) else dropContext s) :=
      Aside.ite (fun _ => decideOutcome_aside _ _ _ _) fun _ => Aside.refl _
    have chk : s.chk.ctx = none := c.path.no_checker hj on
      (.inl fun e => by have := (Job.engaged_state en).1; rw [e] at this; cases this)
    dsimp only
    generalize (if k.isSome then decideOutcome i .spoiled k (dropContext s) else dropContext s) = t at a ka b
    obtain ⟨m, hm, -, ms, mp, -⟩ := a.toPathAside.forward hj (by intro e; rw [e] at on; cases on)
    refine (a.next (ka.feed l) c).trans fun l c => takeSpoil_next l c hm ?_ ?_ ?_
    · unfold Job.spoilable at sp ⊢; rwa [ms, mp]
    · cases h : t.eng.ctx with
      | none => rfl
      | some x => obtain ⟨y, hy, -⟩ := b.engine x h; rw [dropContext_ctx] at hy; cases hy
    · cases h : t.chk.ctx with
      | none => rfl
      | some x => obtain ⟨y, hy, -⟩ := a.checker x h; rw [chk] at hy; cases hy
  · exact (dropContext_aside s).next ((dropContext_keeps s).feed l) c

theorem protocolError_next {s : State} (l : s.feed.Law) (c : s.CourseLaw) : Next s (protocolError s) := by
  have n : Next s (s.mapEng fun e => { e with protoErrors := sat16 (e.protoErrors + 1) }) :=
    (Aside.of_eq rfl rfl : Aside s (s.mapEng fun e => { e with protoErrors := sat16 (e.protoErrors + 1) })).next l c
  unfold protocolError
  dsimp only
  split
  · split
    · exact n.trans fun l c => abortContext_next _ l c
    · exact n
  · exact n

theorem dryTest_next {s : State} (l : s.feed.Law) (c : s.CourseLaw) : Next s (dryTest s) := by
  unfold dryTest
  split
  · next i j h =>
    obtain ⟨hj, en, -⟩ := c.path.contextJob c.order h
    obtain ⟨-, sp, sw⟩ := Job.engaged_state en
    split
    · suffices key : ∀ v : State, v.feed.Law → v.CourseLaw → v.liveJob i = some j → Next v
          (changeJob i (fun j => { j with state := .suspended, flags := { j.flags with suspendedOnce := true } }) v) by
        refine Next.trans ?_ fun l c => key _ l c hj
        refine Aside.next (Aside.trans ?_ (mapContext_aside _)) l c
        exact sendEngine_aside _ s
      intro v l c hj
      exact (Update.changeJob hj _).engaged hj c en (by simp [Job.engaged, JobState.keepsSwathTarget, sp, sw]) rfl
        ⟨rfl, rfl⟩ ⟨by rw [changeJob_feed], by rw [changeJob_feed], by rw [changeJob_feed], by rw [changeJob_feed]⟩
        (by rw [changeJob_eng]) (by rw [changeJob_chk]) (by rw [changeJob_feed]; exact l) (changeJob_ed _ _ v)
    · exact Next.refl l c
  · exact Next.refl l c

theorem resumeTest_next {s : State} (l : s.feed.Law) (c : s.CourseLaw) : Next s (resumeTest s) := by
  unfold resumeTest
  split
  · next x i j hx h =>
    obtain ⟨hj, en, -⟩ := c.path.contextJob c.order h
    obtain ⟨-, sp, sw⟩ := Job.engaged_state en
    split
    · suffices key : ∀ v : State, v.feed.Law → v.CourseLaw → v.liveJob i = some j →
          Next v (setJobState i .printing v) by
        refine Next.trans ?_ fun l c => key _ l c hj
        refine Aside.next (Aside.trans ?_ (mapContext_aside _)) l c
        exact sendEngine_aside _ s
      intro v l c hj
      exact (setJobState_update hj .printing).engaged hj c en
        (by simp [Job.engaged, JobState.keepsSwathTarget, sp, sw]) rfl ⟨rfl, rfl⟩ (setJobState_same i .printing v)
        (by rw [setJobState_eng]) (by rw [setJobState_chk]) ((setJobState_keeps i .printing v).feed l)
        (setJobState_ed i .printing v)
    · exact Next.refl l c
  · exact Next.refl l c

theorem swathDone_next {s : State} (l : s.feed.Law) (c : s.CourseLaw) : Next s (swathDone s) := by
  unfold swathDone
  split
  · split
    · refine Next.trans ?_ fun l c => dryTest_next l c
      refine Aside.next (Aside.trans ?_ (mapContext_aside _)) l c
      exact sendEngine_aside _ s
    · exact Next.refl l c
  · exact Next.refl l c

theorem takeSwath_next (index : U16) (feed : Nat) {s : State} (l : s.feed.Law) (c : s.CourseLaw) :
    Next s (takeSwath index feed s) := by
  suffices key : ∀ v : State, v.feed.Law → v.CourseLaw → Next v
      (match v.feed.swathTarget with
       | some t =>
         match requestMove (t + feed) .swath v with
         | (s', .done) => swathDone (s'.mapFeed fun f => { f with swathTarget := some (t + feed) })
         | (s', .begun) => s'.mapFeed fun f => { f with swathTarget := some (t + feed) }
         | (s', .refused) => s'
       | none => v) by
    unfold takeSwath
    refine Next.trans ?_ fun l c => key _ l c
    exact (mapContext_aside s).next l c
  intro v l c
  split
  · next t _ =>
    split
    · next s' h =>
      have a := requestMove_asideTo (by simp) (by simp) h
      have k := (requestMove_to (by simp) h).feed l
      refine Next.trans (t := s'.mapFeed fun f => { f with swathTarget := some (t + feed) }) ?_ fun l c => swathDone_next l c
      exact (a.trans (Aside.feedFields rfl rfl rfl rfl)).next (k.congr rfl rfl rfl rfl rfl rfl rfl) c
    · next s' h =>
      have a := requestMove_asideTo (by simp) (by simp) h
      have k := (requestMove_to (by simp) h).feed l
      exact (a.trans (Aside.feedFields rfl rfl rfl rfl)).next (k.congr rfl rfl rfl rfl rfl rfl rfl) c
    · next s' h =>
      exact (requestMove_asideTo (by simp) (by simp) h).next ((requestMove_to (by simp) h).feed l) c
  · exact Next.refl l c

theorem swathDrops_aside (tag : U16) (drops : List (Chan × Nat)) (s : State) : Aside s (swathDrops tag drops s) := by
  unfold swathDrops
  split
  · exact Aside.ite (fun _ => jobReport_aside _ _ s) fun _ => overheadDrops_aside _ s
  · exact overheadDrops_aside _ s

theorem swathMessage_next (tag index : U16) (feed : Nat) (drops : List (Chan × Nat)) {s : State} (l : s.feed.Law)
    (c : s.CourseLaw) : Next s (swathMessage tag index feed drops s) := by
  have n := (swathDrops_aside tag drops s).next ((swathDrops_keeps tag drops s).feed l) c
  unfold swathMessage
  dsimp only
  split
  · split
    · exact n.trans fun l c => takeSwath_next _ _ l c
    · split
      · exact n.trans fun l c => (mapContext_aside _).next l c
      · exact n.trans fun l c => protocolError_next l c
  · exact n.trans fun l c => protocolError_next l c

end Sys2Proof.Machine
end

