-- ==== Sys2Proof/Laws/CheckerCourse.lean ====
section
/-!
SUPPORT. The colour checker, the drift monitor and the end of a print keep the course of the jobs (R145 to R163).
-/

-- One theorem after another: waiting proofs would each hold a thread.
set_option Elab.async false

namespace Sys2Proof.Machine

/-! ### The colour checker and the drift monitor -/

/-- The end of an event that may have changed the channels in OUT (R161). -/
theorem settleDrift_next (before : Drift) {s : State} (l : s.feed.Law) (c : s.CourseLaw) : Next s (settleDrift before s) := by
  unfold settleDrift
  split
  · exact Next.refl l c
  · have k : Keeps s (s.jobs.order.foldl settleHold s) := Keeps.foldl settleHold settleHold_keeps _ s
    exact ((Aside.foldl settleHold settleHold_aside _ s).next (k.feed l) c).trans fun l c => startEval_next l c

theorem changeDrift_next (f : Drift → Drift) {s : State} (l : s.feed.Law) (c : s.CourseLaw) : Next s (changeDrift f s) :=
  Next.trans (t := s.mapDrift f) ((Aside.of_eq rfl rfl : Aside s (s.mapDrift f)).next l c) fun l c => settleDrift_next _ l c

/-- A job with a strip enters CHECKING (R14, R145). -/
theorem enterChecking_next {s : State} {i : JobIx} {j : Job} (k : Job) (x : Strip) (l : s.feed.Law) (c : s.CourseLaw)
    (hj : s.liveJob i = some j) (sp : j.spoilable = true) (sw : j.spoilWait = false) (ctx : s.eng.ctx = none) :
    Next s (enterChecking i k x s) := by
  have on := Job.spoilable_onPath sp
  obtain ⟨bf, ct⟩ := c.path.spoilable_still hj sp
  suffices key : ∀ d : Nat, Next s ((setJobState i .checking s).mapChk fun q =>
      { q with state := .dwell, ctx := some (StripContext.atDwell i k x d) }) by
    have h := key (s.chk.profile.dwellMs s.ink)
    unfold enterChecking
    dsimp only
    generalize ((setJobState i .checking s).mapChk fun q =>
      { q with state := .dwell, ctx := some (StripContext.atDwell i k x (s.chk.profile.dwellMs s.ink)) }) = t at h
    have a : Aside t (notify .checker (mapCounters (fun n => { n with started := sat16 (n.started + 1) }) t)) :=
      (mapCounters_aside _ t).trans (notify_aside _ _)
    have n : Next s (notify .checker (mapCounters (fun n => { n with started := sat16 (n.started + 1) }) t)) :=
      h.aside a id
    split
    · exact n.aside (dwellExpired_aside _) (dwellExpired_keeps _).feed
    · exact n
  intro d
  have u : Update s ((setJobState i .checking s).mapChk fun q =>
      { q with state := .dwell, ctx := some (StripContext.atDwell i k x d) }) i { j with state := .checking } :=
    have u := setJobState_update hj .checking
    ⟨u.live, u.order, u.free⟩
  have f := setJobState_same i .checking s
  have eng : (setJobState i .checking s).eng = s.eng := setJobState_eng _ _ _
  have law := (setJobState_keeps i .checking s).feed l
  have bf' := f.backFeeding
  have ct' := f.cutting
  have q := u.queue hj (.inl fun e => by rw [e] at on; cases on) (setJobState_ed i .checking s)
  refine ⟨q, law, u.orderLaw hj c.order rfl, ?_, ?_⟩
  · refine u.path hj c.path q (fun _ k m hm a => c.path.one k i m j hm hj a on) (fun h => by cases h) (fun h => ?_)
      (fun y hy => ?_) (fun y hy => ?_) (fun h => ?_) (fun h => ?_)
    · have : j.spoilWait = true := h
      simp [sw] at this
    · have : (setJobState i .checking s).eng.ctx = some y := hy
      rw [eng, ctx] at this; cases this
    · have : some (StripContext.atDwell i k x d) = some y := hy
      rw [Option.some.injEq] at this
      subst this
      exact .inl ⟨rfl, rfl, sw⟩
    · have : (setJobState i .checking s).feed.backFeeding = true := h
      rw [bf', bf] at this; cases this
    · have : (setJobState i .checking s).feed.cutting = true := h
      rw [ct', ct] at this; cases this
  · refine (u.mediaRest c.media.rest (fun h => ?_) (fun h => by cases h) f.roll f.load).law ?_
    · have n := c.media.onPath hj (by intro e; rw [e] at on; cases on)
      have : j.holds.noMedia = true := h
      simp [n] at this
    · have := u.reserved hj c.order (n := 0) (by simp)
      rw [show ((setJobState i .checking s).mapChk _).feed.roll = s.feed.roll from f.roll]
      exact (by simpa using this : _ ≤ s.reserved).trans c.media.fits

/-- The job's course by its verdict (R14, R152). -/
theorem verdictCourse_next {s : State} {i : JobIx} {j : Job} (k : Job) (v : Verdict) (l : s.feed.Law) (c : s.CourseLaw)
    (hj : s.liveJob i = some j) (st : j.state = .checking) (sw : j.spoilWait = false) (ctx : s.eng.ctx = none)
    (chk : s.chk.ctx = none) : Next s (verdictCourse i k v s) := by
  have sp : j.spoilable = true := by simp [Job.spoilable, st]
  have spoil : ∀ cause, Next s (takeSpoil i (decideOutcome i .spoiled (some cause) s)) := fun cause => by
    have a := decideOutcome_aside i .spoiled (some cause) s
    obtain ⟨m, hm, -, ms, mp, -⟩ := a.toPathAside.forward hj (by rw [st]; simp)
    refine (a.next ((decideOutcome_keeps _ _ _ s).feed l) c).trans fun l c => takeSpoil_next l c hm ?_ ?_ ?_
    · simp [Job.spoilable, ms, st]
    · cases h : (decideOutcome i .spoiled (some cause) s).eng.ctx with
      | none => rfl
      | some x => obtain ⟨y, hy, -⟩ := a.engine x h; rw [ctx] at hy; cases hy
    · cases h : (decideOutcome i .spoiled (some cause) s).chk.ctx with
      | none => rfl
      | some x => obtain ⟨y, hy, -⟩ := a.checker x h; rw [chk] at hy; cases hy
  unfold verdictCourse
  split
  · exact spoil _
  · exact spoil _
  · exact enterCutting_next l c hj sp sw ctx chk

/-- The strip ends with a verdict (R151, R152). -/
theorem endStrip_next (v : Verdict) {s : State} (l : s.feed.Law) (c : s.CourseLaw) : Next s (endStrip v s) := by
  unfold endStrip
  split
  · next x hx =>
    obtain ⟨j, hj, st, sw⟩ := c.path.checker x hx
    have on : j.state.onPath = true := by rw [st]; rfl
    have ctx : s.eng.ctx = none := c.path.no_context hj on (by simp [Job.engaged, st, JobState.keepsSwathTarget])
    suffices key : ∀ t : State, Aside s t → t.feed.Law → t.chk.ctx = none → Next s
        (match t.liveJob x.slot with
         | some j => settleDrift t.drift (verdictCourse x.slot j v (fileVerdict j v x.results t))
         | none => t) by
      dsimp only
      refine key _ ?_ ?_ ?_
      · refine Aside.trans ?_ (notify_aside _ _)
        refine Aside.trans ?_ (Aside.changeJob _)
        refine Aside.trans (mapCounters_aside (CheckCounters.judged v) s) ?_
        exact Aside.of_eq rfl rfl (fun x h => ⟨x, h, rfl⟩) fun x hx => by cases hx
      · change (changeJob x.slot _ _).feed.Law
        rw [changeJob_feed]; exact l
      · change (changeJob x.slot _ _).chk.ctx = none
        rw [changeJob_chk]; rfl
    intro t a l chk
    have n : Next s t := a.next l c
    obtain ⟨m, hm, -, ms, -, mw⟩ := a.toPathAside.forward hj (by rw [st]; simp)
    simp only [hm]
    have b := a.trans (fileVerdict_aside m v x.results t)
    have file : (fileVerdict m v x.results t).liveJob x.slot = some m ∧ (fileVerdict m v x.results t).chk.ctx = none := by
      unfold fileVerdict
      split <;> exact ⟨hm, chk⟩
    refine ((b.next ((fileVerdict_keeps m v x.results t).feed l) c).trans fun l c =>
      verdictCourse_next m v l c file.1 (ms.trans st) (mw.trans sw) ?_ file.2).trans fun l c => settleDrift_next _ l c
    cases h : (fileVerdict m v x.results t).eng.ctx with
    | none => rfl
    | some y => obtain ⟨z, hz, -⟩ := b.engine y h; rw [ctx] at hz; cases hz
  · exact Next.refl l c

theorem voidReading_next {s : State} (l : s.feed.Law) (c : s.CourseLaw) : Next s (voidReading s) := by
  suffices key : ∀ v : State, v.feed.Law → v.CourseLaw → Next v
      (match v.chk.ctx with
       | some x => if 3 ≤ x.voids then endStrip (.void .sensor) v else beginReading v
       | none => v) by
    unfold voidReading
    refine Next.trans ?_ fun l c => key _ l c
    refine Aside.next (Aside.trans ?_ (mapStrip_aside _)) l c
    exact mapCounters_aside _ s
  intro v l c
  split
  · split
    · exact endStrip_next _ l c
    · exact (beginReading_aside v).next l c
  · exact Next.refl l c

theorem nextRead_next {s : State} (l : s.feed.Law) (c : s.CourseLaw) : Next s (nextRead s) :=
  (nextRead_aside s).next ((nextRead_keeps s).feed l) c

/-- An operation after a change of the strip context in all but its slot. -/
theorem Next.afterStrip {f : StripContext → StripContext} {g : State → State} {s : State} (l : s.feed.Law)
    (c : s.CourseLaw) (h : ∀ x, (f x).slot = x.slot)
    (n : ∀ {t : State}, t.feed.Law → t.CourseLaw → Next t (g t)) : Next s (g (mapStrip f s)) :=
  Next.trans (t := mapStrip f s) ((mapStrip_aside s h).next l c) fun l c => n l c

theorem comparePatch_next (k : Colour) {s : State} (l : s.feed.Law) (c : s.CourseLaw) : Next s (comparePatch k s) := by
  unfold comparePatch
  split
  · next x hx =>
    dsimp only
    generalize s.chk.compare (x.order.getD x.patch 0) k = r
    generalize decide (s.chk.profile.gross < r.deltaE) = gross
    suffices key : ∀ t : State, t.feed.Law → t.CourseLaw → Next t
        (if gross = true ∧ x.lastGross = true then endStrip (.void .lostLock) t
         else if x.geo.t ≤ x.patch + 1 then
           endStrip ((mapStrip (fun x => { x with lastGross := gross }) t).chk.profile.judge (x.failing + r.failing.toNat)
             (x.sum + r.deltaE) x.geo.t) (mapStrip (fun x => { x with lastGross := gross }) t)
         else nextRead (mapStrip (fun x => { x with patch := x.patch + 1 })
           (mapStrip (fun x => { x with lastGross := gross }) t))) by
      refine Next.trans ?_ fun l c => key _ l c
      refine Aside.next (Aside.trans ?_ (mapStrip_aside _)) l c
      exact mapCounters_aside _ s
    intro t l c
    have n : Next t (mapStrip (fun x => { x with lastGross := gross }) t) := (mapStrip_aside t).next l c
    split
    · exact endStrip_next _ l c
    · split
      · exact n.trans fun l c => endStrip_next _ l c
      · exact n.trans fun l c => Next.afterStrip (g := nextRead) l c (fun _ => rfl) nextRead_next
  · exact Next.refl l c

theorem lockStrip_next (k : Colour) {s : State} (l : s.feed.Law) (c : s.CourseLaw) : Next s (lockStrip k s) := by
  unfold lockStrip
  refine Next.trans ?_ fun l c => comparePatch_next k l c
  refine Aside.next (Aside.trans ?_ (notify_aside _ _)) l c
  refine Aside.trans ?_ (mapChk_aside rfl)
  exact mapStrip_aside s

theorem searchReading_next (k : Colour) {s : State} (l : s.feed.Law) (c : s.CourseLaw) : Next s (searchReading k s) := by
  unfold searchReading
  split
  · next x hx =>
    dsimp only
    generalize decide (k.l < s.chk.profile.markThreshold) = mark
    generalize s.chk.profile = p
    suffices key : ∀ t : State, t.feed.Law → t.CourseLaw → Next t
        (if mark = false ∧ p.runMin ≤ x.run ∧ x.run ≤ p.runMax then lockStrip k t
         else if x.geo.m + 6 ≤ x.inSearch + 1 then
           endStrip (.void .noMarks) (mapStrip (fun x => { x with run := if mark = true then x.run + 1 else 0 }) t)
         else nextRead (mapStrip (fun x => { x with run := if mark = true then x.run + 1 else 0 }) t)) by
      refine Next.trans ?_ fun l c => key _ l c
      exact (mapStrip_aside s).next l c
    intro t l c
    split
    · exact lockStrip_next k l c
    · split
      · exact Next.afterStrip (g := endStrip (.void .noMarks)) l c (fun _ => rfl) (endStrip_next _)
      · exact Next.afterStrip (g := nextRead) l c (fun _ => rfl) nextRead_next
  · exact Next.refl l c

theorem goodReading_next (k : Colour) {s : State} (l : s.feed.Law) (c : s.CourseLaw) : Next s (goodReading k s) := by
  suffices key : ∀ {t : State}, t.feed.Law → t.CourseLaw → Next t
      (match t.chk.state with
       | .search => searchReading k t
       | .locked => comparePatch k t
       | _ => t) by
    unfold goodReading
    refine Next.trans ?_ fun l c => key l c
    exact (mapStrip_aside s).next l c
  intro t l c
  split
  · exact searchReading_next k l c
  · exact comparePatch_next k l c
  · exact Next.refl l c

theorem endReading_next (r : Reading) {f : State → State} (h : ∀ {s : State}, s.feed.Law → s.CourseLaw → Next s (f s))
    {s : State} (l : s.feed.Law) (c : s.CourseLaw) : Next s (endReading r f s) := by
  have n : Next s (s.mapChk fun k => { k with reading := none }) := (mapChk_aside rfl).next l c
  unfold endReading
  dsimp only
  split
  · exact n
  · exact n.trans fun l c => h l c

theorem measured_next (ack : Bool) {s : State} (l : s.feed.Law) (c : s.CourseLaw) : Next s (measured ack s) := by
  unfold measured
  split
  · split
    · split
      · exact (mapChk_aside rfl).next l c
      · exact endReading_next _ voidReading_next l c
    · exact Next.refl l c
  · exact Next.refl l c

theorem resultRead_next (ack : Bool) (b : Vector Byte 8) {s : State} (l : s.feed.Law) (c : s.CourseLaw) :
    Next s (resultRead ack b s) := by
  unfold resultRead
  split
  · split
    · exact Next.refl l c
    · split
      · split
        · exact Next.refl l c
        · exact endReading_next _ voidReading_next l c
        · exact endReading_next _ (goodReading_next _) l c
      · exact endReading_next _ voidReading_next l c
  · exact Next.refl l c

theorem readingExpired_next {s : State} (l : s.feed.Law) (c : s.CourseLaw) : Next s (readingExpired s) := by
  unfold readingExpired
  split
  · split
    · exact Next.refl l c
    · exact endReading_next _ voidReading_next l c
  · exact Next.refl l c

theorem dwellEnded_next {s : State} (l : s.feed.Law) (c : s.CourseLaw) : Next s (dwellEnded s) := by
  unfold dwellEnded
  split
  · split
    · exact (dwellExpired_aside s).next ((dwellExpired_keeps s).feed l) c
    · exact Next.refl l c
  · exact Next.refl l c

/-! ### The end of a print -/

theorem printDone_next {s : State} (l : s.feed.Law) (c : s.CourseLaw) : Next s (printDone s) := by
  unfold printDone
  split
  · next i j h =>
    obtain ⟨hj, en, -⟩ := c.path.contextJob c.order h
    have sp := Job.engaged_spoilable en
    obtain ⟨st, -, sw⟩ := Job.engaged_state en
    have chk : s.chk.ctx = none := c.path.no_checker hj (Job.spoilable_onPath sp) (.inl fun e => by rw [e] at st; cases st)
    dsimp only
    refine ((dropContext_aside s).next l c).trans fun l c => ?_
    split
    · exact enterChecking_next j _ l c (j := j) hj sp sw rfl
    · exact enterCutting_next l c (j := j) hj sp sw rfl chk
  · exact (dropContext_aside s).next l c

theorem endMessage_next (tag : U16) (complete : Bool) {s : State} (l : s.feed.Law) (c : s.CourseLaw) :
    Next s (endMessage tag complete s) := by
  unfold endMessage
  split
  · split
    · split
      · exact printDone_next l c
      · exact endToSpoil_next _ l c
    · split
      · exact endToSpoil_next _ l c
      · exact protocolError_next l c
  · exact protocolError_next l c

theorem stateMessage_next (st : EngineState) (code : Byte) {s : State} (l : s.feed.Law) (c : s.CourseLaw) :
    Next s (stateMessage st code s) := by
  unfold stateMessage
  split
  · exact Next.refl l c
  · dsimp only
    have a : Aside s (s.mapEng fun e => { e with state := st, code := code }) := Aside.of_eq rfl rfl
    have n : Next s (s.mapEng fun e => { e with state := st, code := code }) := a.next l c
    split
    · split
      · exact n.trans fun l c => endToSpoil_next _ l c
      · exact n
    · split
      · exact n.trans fun l c => startEval_next l c
      · exact n

theorem swathExpired_next {s : State} (l : s.feed.Law) (c : s.CourseLaw) : Next s (swathExpired s) := by
  unfold swathExpired
  split
  · split
    · exact Next.refl l c
    · split
      · exact abortContext_next _ l c
      · exact endToSpoil_next _ l c
      · exact Next.refl l c
      · exact Next.refl l c
  · exact Next.refl l c

theorem dryOutExpired_next {s : State} (l : s.feed.Law) (c : s.CourseLaw) : Next s (dryOutExpired s) := by
  unfold dryOutExpired
  split
  · split
    · exact abortContext_next _ l c
    · exact Next.refl l c
  · exact Next.refl l c

end Sys2Proof.Machine
end

