-- ==== Sys2Proof/Laws/AxisCourse.lean ====
section
/-!
SUPPORT. The load, a move's end, the encoder, the detectors and the knife keep the course of the jobs (R55, R62, R76, R77,
R81).
-/

-- One theorem after another: waiting proofs would each hold a thread.
set_option Elab.async false

namespace Sys2Proof.Machine

/-! ### The load (R76, R77) -/

theorem Roll.remaining_zero {r : Roll} (h : r.state ≠ .loaded) : r.remaining = 0 := by
  unfold Roll.remaining
  split
  · next e => exact absurd e h
  · rfl

/-- The trim cut is due in a load. -/
theorem trimCut_course {s : State} (c : s.CourseLaw) (load : s.feed.load.isSome = true) :
    Queue s (trimCut s) ∧ (trimCut s).CourseLaw := by
  have a : Aside s (s.mapFeed fun f => { f with load := some .trimCut }) := by
    refine Aside.mapFeed id (fun h => ?_) (Nat.le_refl _) id (fun h _ => h load)
    unfold Feed.cutting at h ⊢
    simp only [Option.isNone_some, Bool.and_false, Bool.or_false] at h
    rw [h]; rfl
  unfold trimCut
  have k := beginKnife_course (a.course c) fun h => by cases h
  exact ⟨a.queue.trans k.1, k.2⟩

/-- The load ends with nothing under way. -/
theorem loadEnd_next {s : State} (c : s.CourseLaw) (load : s.feed.load.isSome = true) (drive : s.feed.drive = .off)
    (knife : s.feed.knife = false) (move : s.feed.move = none) (settle : s.feed.settleLeft = none)
    (cycle : s.feed.knifeCycle = none) : Next s (loadEnd s) := by
  have a : Aside s (s.mapFeed fun f => { f with axis := .idle, load := none, roll := { f.roll with state := .loaded } }) := by
    refine Aside.mapFeed id (fun h => ?_) ?_ id (fun _ h => by cases h)
    · simp [Feed.cutting, move, cycle] at h
    · rw [Roll.remaining_zero (c.media.load load)]; exact Nat.zero_le _
  have law : (s.mapFeed fun f =>
      { f with axis := .idle, load := none, roll := { f.roll with state := .loaded } }).feed.Law :=
    Feed.Law.atRest drive knife move settle cycle rfl
  unfold loadEnd
  dsimp only
  exact (((a.next law c).aside (notify_aside _ _) id).trans fun l c => retryMedia_next l c).trans
    fun l c => startEval_next l c

theorem edgeReference_next {s : State} (c : s.CourseLaw) (load : s.feed.load.isSome = true) (axis : s.feed.axis = .loading)
    (move : s.feed.move = none) (settle : s.feed.settleLeft = none) (knife : s.feed.knife = false)
    (cycle : s.feed.knifeCycle = none) : Next s (edgeReference s) := by
  have law := edgeReference_feed axis move settle knife cycle
  have a : Aside s (s.mapFeed Feed.reference) := by
    refine Aside.mapFeed id (fun h => ?_) ?_ (fun _ => Int.le_refl 0) (fun h _ => h load)
    · simp [Feed.cutting, Feed.reference, move] at h
    · rw [Roll.remaining_zero (c.media.load load)]; exact Nat.zero_le _
  suffices key : Queue s (edgeReference s) ∧ (edgeReference s).CourseLaw from ⟨key.1, law, key.2⟩
  clear law
  unfold edgeReference
  dsimp only
  split
  · next t h =>
    have b := a.trans (requestMove_asideTo (by simp) (by simp) h)
    obtain ⟨f, e, -, hl, -⟩ := requestMove_only h
    have k := trimCut_course (b.course c) (by rw [e]; change ((f _).load).isSome = true; rw [hl]; rfl)
    exact ⟨b.queue.trans k.1, k.2⟩
  · next t m _ h =>
    have b := a.trans (requestMove_asideTo (by simp) (by simp) h)
    exact ⟨b.queue, b.course c⟩

theorem trimCutDone_next {s : State} (c : s.CourseLaw) (load : s.feed.load.isSome = true) (axis : s.feed.axis = .loading)
    (move : s.feed.move = none) (settle : s.feed.settleLeft = none) : Next s (trimCutDone s) := by
  have law := trimCutDone_feed axis move settle
  have a : Aside s (s.mapFeed Feed.trimCutMade) := by
    refine Aside.mapFeed id (fun h => ?_) ?_ (fun _ => Int.le_refl _) (fun h _ => h load)
    · simp [Feed.cutting, Feed.trimCutMade, Feed.cutMade, move] at h
    · rw [Roll.remaining_zero (c.media.load load)]; exact Nat.zero_le _
  unfold trimCutDone at law ⊢
  dsimp only at law ⊢
  generalize hv : ((s.mapFeed Feed.trimCutMade).mapCost fun k => { k with overhead := { k.overhead with
          trim := modifyAt k.overhead.trim (s.mapFeed Feed.trimCutMade).feed.roll.mediaType
            fun n => sat32 (n + s.feed.position.toNat)
          knife := sat32 (k.overhead.knife + 1) } }) = v at law ⊢
  have b : Aside s v := by rw [← hv]; exact a.trans (Aside.of_eq rfl rfl)
  have feed : v.feed = s.feed.trimCutMade := by rw [← hv]; rfl
  split
  · next t h =>
    obtain ⟨f, e, -, hl, hc, -, same⟩ := requestMove_only h
    have d := requestMove_loadDone h
    have k := b.trans (requestMove_asideTo (by simp) (by simp) h)
    have fv : t.feed = { v.feed.driveTo .off with rest := some (v.feed.backFeedTarget s.feed.position) } := by rw [d]; rfl
    have n := loadEnd_next (s := t) (k.course c) (by rw [fv, feed]; simp [Feed.trimCutMade]) (by rw [fv]; simp)
      (by rw [fv, feed]; simp [Feed.trimCutMade, Feed.cutMade])
      (by rw [fv, feed]; simpa [Feed.trimCutMade, Feed.cutMade] using move)
      (by rw [fv, feed]; simpa [Feed.trimCutMade, Feed.cutMade] using settle)
      (by rw [fv, feed]; simp [Feed.trimCutMade, Feed.cutMade])
    exact ⟨k.queue.trans n.queue, n.feed, n.course⟩
  · next t m nd h =>
    have k := b.trans (requestMove_asideTo (by simp) (by simp) h)
    refine ⟨k.queue, ?_, k.course c⟩
    rw [h] at law
    cases m with
    | done => exact (nd rfl).elim
    | refused => exact law
    | begun => exact law

/-! ### The completion of a move (R62) -/

theorem backFeedDone_next {s : State} (l : s.feed.Law) (c : s.CourseLaw) (still : s.feed.backFeeding = false)
    (h : ∀ i j, s.liveJob i = some j → j.state.onPath = true → j.starting = true) : Next s (backFeedDone s) := by
  unfold backFeedDone
  split
  · next i j hp =>
    obtain ⟨hj, on⟩ := State.pathJob_some hp
    have st := h i j hj on
    split
    · simp only [Job.starting, Bool.and_eq_true, decide_eq_true_eq, Option.isNone_iff_eq_none] at st
      exact closeJob_next 0 l c hj (by simp [st.1]) (fun x hx => c.path.not_context c.order hj (by simp [Job.engaged, st.2]) hx)
        fun x hx => c.path.not_checker hj (.inl (by simp [st.1])) hx
    · exact startStep_next l c hj st still
  · exact Next.refl l c

theorem moveDone_next (r : Requester) {s : State} (l : s.feed.Law) (c : s.CourseLaw) (move : s.feed.move = none)
    (drive : s.feed.drive = .off) (knife : s.feed.knife = false) (cycle : s.feed.knifeCycle = none)
    (search : ∀ p, s.feed.load ≠ some (.search p))
    (cut : r = .cut → ∀ i j, s.liveJob i = some j → j.state.onPath = true → j.state = .cutting)
    (backFeed : r = .backFeed → ∀ i j, s.liveJob i = some j → j.state.onPath = true → j.starting = true) :
    Next s (moveDone r s) := by
  have law := moveDone_feed r l move drive knife cycle search
  unfold moveDone at law ⊢
  split
  · exact swathDone_next l c
  · split
    · exact Next.refl l c
    · exact (beginReading_aside s).next l c
  · have k := beginKnife_course c fun _ => cut rfl
    exact ⟨k.1, law, k.2⟩
  · exact backFeedDone_next l c (by simp [Feed.backFeeding, move]) (backFeed rfl)
  · split
    · next h =>
      have k := trimCut_course c (by simp [h])
      simp only [h] at law
      exact ⟨k.1, law, k.2⟩
    · next h => exact loadEnd_next c (by simp [h]) drive knife move (l.settle_none move) cycle
    · exact Next.refl l c
  · exact (notify_aside _ s).next l c

theorem spoilAfterMove_next {s : State} (l : s.feed.Law) (c : s.CourseLaw) : Next s (spoilAfterMove s) := by
  unfold spoilAfterMove
  split
  · next i j hp =>
    obtain ⟨hj, on⟩ := State.pathJob_some hp
    split
    · next h =>
      exact spoilCut_next l c hj (c.path.spoil i j hj h.1) (c.path.no_context hj on (by simp [Job.engaged, h.1]))
        (c.path.no_checker hj on (.inr h.1))
    · exact Next.refl l c
  · exact Next.refl l c

/-- The end of the settle time (R62). -/
theorem settleEnded_next {s : State} (l : s.feed.Law) (c : s.CourseLaw) : Next s (settleEnded s) := by
  unfold settleEnded
  split
  · next m n hm hn =>
    obtain ⟨k, cy, o⟩ := l.inMove hm
    obtain ⟨x, hx, hp⟩ := l.timing (by simp [hn])
    have d := l.settling x hx hp
    have a : Aside s (s.mapFeed (Feed.completeMove m)) := by
      refine Aside.mapFeed (fun h => ?_) (fun h => ?_) (Nat.le_refl _) id id
      · simp [Feed.backFeeding, Feed.completeMove] at h
      · simp [Feed.cutting, Feed.completeMove, cy] at h
    have n : Next s (s.mapFeed (Feed.completeMove m)) := a.next (l.completeMove hm d) c
    refine ((n.trans fun l' c' => moveDone_next m.by_ l' c' rfl d k cy o (fun e => ?_) fun e => ?_).trans
      fun l c => spoilAfterMove_next l c).trans fun l c => startEval_next l c
    · exact c.path.cut (by simp [Feed.cutting, hm, e])
    · exact c.path.backFeed (by simp [Feed.backFeeding, hm, e])
  · exact Next.refl l c

/-! ### Counts -/

theorem chargeJog_aside (rise : Nat) (s : State) : Aside s (chargeJog rise s) := by
  unfold chargeJog
  split
  · split
    · refine Aside.trans (t := s.mapFeed fun f => { f with roll := { f.roll with pieceBase := f.roll.pieceBase.map (· + rise) } })
        ?_ (Aside.of_eq rfl rfl)
      exact Aside.mapFeed id id (Nat.le_refl _) id id
    · exact Aside.refl s
  · exact Aside.refl s

/-- A fall of the remaining length (R85, R86). -/
theorem mediaFell_next {s v : State} (mm : Nat) (q : Queue s v) (law : v.feed.Law) (o : v.OrderLaw) (p : v.PathLaw)
    (r : v.MediaRest) (fits : v.reserved ≤ v.feed.roll.remaining + mm) : Next s (mediaFell mm v) := by
  unfold mediaFell
  split
  · next h => subst h; exact ⟨q, law, o, p, r.law fits⟩
  · split
    · next i j hp =>
      obtain ⟨hj, on⟩ := State.pathJob_some hp
      have a : PathAside v (setJob i (fun j => { j with drawn := j.drawn + mm, mediaRes := j.planned - (j.drawn + mm) }) v) :=
        PathAside.setJob fun _ _ => ⟨rfl, rfl, rfl, rfl⟩
      refine holdRule_next (q.trans a.queue) (by rw [setJob_feed]; exact law) (a.order o) (a.law p) (r.setJob fun k hk => ?_)
      rw [hj, Option.some.injEq] at hk
      subst hk
      refine ⟨fun n => ?_, fun n => ?_⟩
      · have := (r.held i j hj n).1
        rw [this] at on; cases on
      · have : j.state = .closing := n
        rw [this] at on; cases on
    · exact holdRule_next q law o p r

/-- A count leaves the move's requester, the load, the knife cycle and the roll (R61 to R63). -/
theorem moveCount_same {f : Feed} {m : Move} (h : f.move = some m) :
    ((f.moveCount m).1.move.map (·.by_) = some m.by_) ∧ (f.moveCount m).1.load = f.load ∧
      (f.moveCount m).1.knifeCycle = f.knifeCycle ∧ (f.moveCount m).1.roll = f.roll := by
  unfold Feed.moveCount
  split
  · split
    · split <;> simp [Feed.approach, h]
    · simp [h]
  · split
    · unfold Feed.overrun; split <;> simp [h]
    · split <;> simp [Feed.enterWindow, h]
  · split
    · unfold Feed.overrun; split <;> simp [h]
    · split <;> simp [Feed.approach, h]

theorem judgeCount_next {s : State} (l : s.feed.Law) (c : s.CourseLaw) : Next s (judgeCount s) := by
  unfold judgeCount
  split
  · next m hm =>
    dsimp only
    split
    · obtain ⟨move, load, cycle, roll⟩ := moveCount_same hm
      have any : ∀ r : Requester, ((s.feed.moveCount m).1.move.any fun v => v.by_ == r) = (m.by_ == r) := fun r => by
        cases e : (s.feed.moveCount m).1.move with
        | none => rw [e] at move; cases move
        | some v => rw [e] at move; simp only [Option.map_some, Option.some.injEq] at move; simp [move]
      refine Aside.next (Aside.mapFeed (s := s) (f := fun _ => (s.feed.moveCount m).1) (fun h => ?_) (fun h => ?_)
        (by rw [roll]) (by rw [roll]; exact id) (by rw [roll, load]; exact id)) (l.moveCount hm) c
      · unfold Feed.backFeeding at h ⊢; rw [any] at h; simpa [hm] using h
      · unfold Feed.cutting at h ⊢; rw [any, load, cycle] at h; simpa [hm] using h
    · exact feedFault_next _ c
  · split
    · exact feedFault_next _ c
    · exact Next.refl l c

theorem encoderChange_next (a b : Bool) {s : State} (l : s.feed.Law) (c : s.CourseLaw) : Next s (encoderChange a b s) := by
  have pins : Aside s (s.mapFeed fun f => { f with encA := a, encB := b }) := Aside.feedFields rfl rfl rfl rfl
  have pinsk : (s.mapFeed fun f => { f with encA := a, encB := b }).feed.Law := l.congr rfl rfl rfl rfl rfl rfl rfl
  unfold encoderChange
  dsimp only
  generalize encStep s.feed.profile.invert s.feed.encA s.feed.encB a b = d
  split
  · exact pins.next pinsk c
  · refine Next.trans ?_ fun l c => judgeCount_next l c
    generalize hu : (s.mapFeed fun f => { f with encA := a, encB := b }) = u at pins pinsk
    have roll : u.feed.roll = s.feed.roll := by rw [← hu]; rfl
    have pc := pins.course c
    have path : PathAside u (u.mapFeed (Feed.count d)) :=
      ⟨fun _ j h => ⟨j, h, rfl, rfl, rfl, rfl⟩, fun _ _ h _ => by simp [h], fun l => ⟨l.nodup, l.live, l.tags⟩,
        Queue.of_jobs rfl, fun x h => ⟨x, h, rfl⟩, fun x h => ⟨x, h, rfl⟩, id, id⟩
    have rest : (u.mapFeed (Feed.count d)).MediaRest :=
      ⟨pc.media.held, pc.media.closed, Int.le_max_right _ _, pc.media.load⟩
    have law : (u.mapFeed (Feed.count d)).feed.Law := pinsk.count d
    have same : (u.mapFeed (Feed.count d)).reserved = u.reserved := rfl
    generalize (u.mapFeed (Feed.count d)) = t at path rest law same
    have g := chargeJog_aside (t.feed.roll.reach - s.feed.roll.reach).toNat t
    have gk := (chargeJog_keeps (t.feed.roll.reach - s.feed.roll.reach).toNat t).feed law
    have gr : (chargeJog (t.feed.roll.reach - s.feed.roll.reach).toNat t).MediaRest := by
      refine ⟨fun i j hj n => ?_, fun i j hj n => ?_, g.reach rest.reach, g.load rest.load⟩
      · obtain ⟨m, hm, e, f, r⟩ := g.res i j hj
        obtain ⟨x, y⟩ := rest.held i m hm (f.trans n)
        exact ⟨e.symm.trans x, Nat.le_zero.1 (y ▸ r)⟩
      · obtain ⟨m, hm, e, f, r⟩ := g.res i j hj
        exact Nat.le_zero.1 (rest.closed i m hm (e.trans n) ▸ r)
    refine mediaFell_next _ ((pins.queue.trans path.queue).trans g.queue) gk (g.toPathAside.order (path.order pc.order))
      (g.toPathAside.law (path.law pc.path)) gr ?_
    have r1 := g.toMediaAside.reserved
    have r2 := g.remaining
    have r3 := pc.media.fits
    rw [roll] at r3
    omega

/-! ### Detectors -/

theorem windowEnded_next {s : State} (l : s.feed.Law) (c : s.CourseLaw) : Next s (windowEnded s) := by
  unfold windowEnded
  split
  · split
    · exact feedFault_next _ c
    · exact (Aside.feedFields rfl rfl rfl rfl).next (l.congr rfl rfl rfl rfl rfl rfl rfl) c
  · exact Next.refl l c

theorem edgeChanged_next (present : Bool) {s : State} (l : s.feed.Law) (c : s.CourseLaw) :
    Next s (edgeChanged present s) := by
  have pin : Aside s (s.mapFeed fun f => { f with edge := present }) := Aside.feedFields rfl rfl rfl rfl
  have n : Next s (s.mapFeed fun f => { f with edge := present }) := pin.next (l.congr rfl rfl rfl rfl rfl rfl rfl) c
  unfold edgeChanged
  dsimp only
  split
  · next p hp =>
    have hl : s.feed.load = some (.search p) := hp
    split
    · refine n.trans fun l' c' => ?_
      obtain ⟨m, cy⟩ := l.search p hl
      refine edgeReference_next c' (by rw [hp]; rfl) (l.loading (by simp [hl])) m (l.settle_none m) ?_ cy
      cases e : s.feed.knife with
      | false => exact e
      | true => have := l.knife e; simp [cy] at this
    · exact n
  · split
    · exact n.trans fun _ c => feedFault_next _ c
    · exact n

theorem searchLimit_next {s : State} (l : s.feed.Law) (c : s.CourseLaw) : Next s (searchLimit s) := by
  unfold searchLimit
  split
  · split
    · exact feedFault_next _ c
    · exact Next.refl l c
  · exact Next.refl l c

/-! ### The knife cycle -/

theorem Roll.remaining_cut {r : Roll} (h : r.consumed ≤ r.reach) (e : MediaEvent) :
    r.remaining ≤ ({ r with reach := r.consumed, lastEvent := e } : Roll).remaining := by
  unfold Roll.remaining
  dsimp only
  split
  · have : r.consumed / 100 ≤ r.reach / 100 := Int.ediv_le_ediv (by norm_num) h
    omega
  · exact Nat.le_refl _

theorem planCutDone_next {s : State} {i : JobIx} {j : Job} (c : s.CourseLaw) (hj : s.liveJob i = some j)
    (state : j.state = .cutting) (drive : s.feed.drive = .off) (move : s.feed.move = none)
    (settle : s.feed.settleLeft = none) (load : s.feed.load = none) : Next s (planCutDone i j s) := by
  have a : Aside s (s.mapFeed fun f => { f.cutMade with axis := .idle }) := by
    refine Aside.mapFeed id (fun h => ?_) (Roll.remaining_cut c.media.reach _) (fun _ => Int.le_refl _) (fun _ h => ?_)
    · simp [Feed.cutting, Feed.cutMade, move] at h
    · simp [Feed.cutMade, load] at h
  have law : (s.mapFeed fun f => { f.cutMade with axis := .idle }).feed.Law :=
    Feed.Law.atRest drive rfl move settle rfl load
  have n : Next s (changeJob i (fun j => { j with cutsDone := j.cutsDone + 1 })
      (s.mapFeed fun f => { f.cutMade with axis := .idle })) :=
    (a.next law c).aside (Aside.changeJob _) fun l => by rw [changeJob_feed]; exact l
  have b : Aside s (changeJob i (fun j => { j with cutsDone := j.cutsDone + 1 })
      (s.mapFeed fun f => { f.cutMade with axis := .idle })) := a.trans (Aside.changeJob _)
  unfold planCutDone
  dsimp only
  generalize (changeJob i (fun j => { j with cutsDone := j.cutsDone + 1 })
      (s.mapFeed fun f => { f.cutMade with axis := .idle })) = t at n b
  split
  · refine n.trans fun l c => planCut_next l c fun k hk => ?_
    obtain ⟨m, hm, -, e, -⟩ := b.jobs i k hk
    rw [hj, Option.some.injEq] at hm
    subst hm
    exact e.symm.trans state
  · have d : Aside t (decideOutcome i .finished none (t.mapFeed fun f =>
        { f with roll := { f.roll with pieceBase := some s.feed.position } })) :=
      Aside.trans (Aside.mapFeed id id (Nat.le_refl _) id id) (decideOutcome_aside _ _ _ _)
    have dk : t.feed.Law → (decideOutcome i .finished none (t.mapFeed fun f =>
        { f with roll := { f.roll with pieceBase := some s.feed.position } })).feed.Law := fun l =>
      (decideOutcome_keeps _ _ _ _).feed (l.congr rfl rfl rfl rfl rfl rfl rfl)
    obtain ⟨m, hm, -, ms, -, -⟩ := (b.trans d).toPathAside.forward hj (by rw [state]; simp)
    refine (n.aside d dk).trans fun l c => closeJob_next _ l c hm (by simp [ms, state]) (fun x hx => ?_) fun x hx => ?_
    · exact c.path.not_context c.order hm (by simp [Job.engaged, ms, state, JobState.keepsSwathTarget]) hx
    · exact c.path.not_checker hm (.inl (by simp [ms, state])) hx

theorem knifeDone_next {s : State} (l : s.feed.Law) (c : s.CourseLaw) (h : s.feed.knifeCycle.isSome = true) :
    Next s (knifeDone s) := by
  obtain ⟨d, m, -⟩ := l.cycle h
  unfold knifeDone
  split
  · next x hx => exact trimCutDone_next c (by simp [hx]) (l.loading (by simp [hx])) m (l.settle_none m)
  · next hx =>
    split
    · next i j hp =>
      obtain ⟨hj, on⟩ := State.pathJob_some hp
      exact planCutDone_next c hj (c.path.cut (by simp [Feed.cutting, h, hx]) i j hj on) d m (l.settle_none m) hx
    · refine Aside.next (Aside.mapFeed id (fun h => ?_) (Roll.remaining_cut c.media.reach _) (fun _ => Int.le_refl _)
        (fun _ h => ?_)) (Feed.Law.atRest d rfl m (l.settle_none m) rfl hx) c
      · simp [Feed.cutting, Feed.cutMade, m] at h
      · simp [Feed.cutMade, hx] at h

theorem knifeHomeChanged_next (active : Bool) {s : State} (l : s.feed.Law) (c : s.CourseLaw) :
    Next s (knifeHomeChanged active s) := by
  have pin : Aside s (s.mapFeed fun f => { f with knifeHome := active }) := Aside.feedFields rfl rfl rfl rfl
  have n : Next s (s.mapFeed fun f => { f with knifeHome := active }) := pin.next (l.congr rfl rfl rfl rfl rfl rfl rfl) c
  unfold knifeHomeChanged
  dsimp only
  split
  · next k hk =>
    have hk : s.feed.knifeCycle = some (.stroke k) := hk
    split
    · exact n
    · refine n.aside (Aside.mapFeed id (fun h => ?_) (Nat.le_refl _) id id) fun _ => ?_
      · simpa [Feed.cutting, hk] using h
      · exact ⟨l.quiet, l.moving, l.settling, l.timing, fun _ => rfl, fun _ => l.cycle (by rw [hk]; rfl),
          fun p e => by have := (l.search p e).2; simp [hk] at this, l.loading⟩
  · next k hk =>
    split
    · exact n.trans fun l c => knifeDone_next l c (by rw [hk]; rfl)
    · exact n
  · exact n

theorem strokeExpired_next {s : State} (l : s.feed.Law) (c : s.CourseLaw) : Next s (strokeExpired s) := by
  unfold strokeExpired
  split
  · exact feedFault_next _ c
  · exact Next.refl l c

theorem returnExpired_next {s : State} (l : s.feed.Law) (c : s.CourseLaw) : Next s (returnExpired s) := by
  unfold returnExpired
  split
  · exact feedFault_next _ c
  · exact Next.refl l c

end Sys2Proof.Machine
end

