-- ==== Sys2Proof/Laws/RequestCourse.lean ====
section
/-!
SUPPORT. The requests of the jobs, the editions, the feed and the ink keep the course of the jobs.
-/

-- One theorem after another: waiting proofs would each hold a thread.
set_option Elab.async false

namespace Sys2Proof.Machine

/-! ### Requests -/

theorem cancelOwner_next (tag : U16) {s : State} (l : s.feed.Law) (c : s.CourseLaw) : Next s (cancelOwner tag s).1 := by
  unfold cancelOwner
  split
  · next i j h =>
    split
    · exact Next.refl l c
    · exact cancelJob_next l c (State.jobByTag_some h).1
  · exact Next.refl l c

theorem countersOwner_aside (group clear : Byte) (s : State) : Aside s (countersOwner group clear s).1 := by
  unfold countersOwner
  split
  · exact Aside.refl s
  · split
    · dsimp only; split
      · exact Aside.of_eq rfl rfl
      · exact Aside.refl s
    · split
      · dsimp only; split
        · exact Aside.of_eq rfl rfl
        · exact Aside.refl s
      · split
        · dsimp only; split
          · exact Aside.of_eq rfl rfl
          · exact Aside.refl s
        · exact Aside.refl s

theorem queryJobOwner_aside (tag : U16) (s : State) : Aside s (queryJobOwner tag s).1 := by
  unfold queryJobOwner; split <;> exact Aside.refl s

theorem openOwner_aside (id : U32) (limit : U16) (s : State) : Aside s (openOwner id limit s).1 := by
  unfold openOwner
  split
  · exact Aside.refl s
  · next ready =>
    split
    · exact Aside.refl s
    · split
      · exact Aside.refl s
      · next fresh =>
        split
        · exact Aside.refl s
        · next e he =>
          rw [not_or] at fresh
          refine changeSlot_aside _ _ fun c => c.openSlot (e := e) (id := id.toNat) (limit := limit.toNat) rfl rfl
            (by simpa using ready) ?_ (fun f => Editions.slotOf_none (by simpa using fresh.1) f) fun r hr h => ?_
          · have := List.find?_some he
            simp only [decide_eq_true_eq] at this
            unfold EdImage.isEdition
            rw [this]
            rfl
          · exact fresh.2 (List.any_eq_true.2 ⟨r, hr, by simp [h]⟩)

theorem closeOwner_aside (id : U32) (slot : Byte) (s : State) : Aside s (closeOwner id slot s).1 := by
  unfold closeOwner
  split
  · exact Aside.refl s
  · split
    · exact Aside.refl s
    · split
      · next h => exact changeSlot_aside _ _ fun c => c.closeSlot rfl rfl h
      · exact Aside.refl s

theorem removeOwner_aside (id : U32) (slot : Byte) (s : State) : Aside s (removeOwner id slot s).1 := by
  unfold removeOwner
  split
  · exact Aside.refl s
  · split
    · exact Aside.refl s
    · next e _ =>
      split
      · next h =>
        have a : Aside s (s.mapEd fun d =>
            { d with
              image := modifyAt d.image e fun _ => EdImage.emptySlot
              unrec := d.unrec.set e []
              removals := d.removals ++ d.removing e }) :=
          Aside.of_table rfl rfl fun c => c.removeSlot rfl rfl h.1 h.2
        exact (a.trans (mapEd_aside (f := Editions.imageChange (blockOf e)) fun c => StoreStep.imageChange c _)).trans
          (beginRotation_aside _)
      · exact Aside.refl s

theorem queryEditionOwner_aside (id : U32) (slot : Byte) (s : State) : Aside s (queryEditionOwner id slot s).1 := by
  unfold queryEditionOwner
  split
  · exact Aside.refl s
  · split <;> exact Aside.refl s

theorem feedProfileOwner_aside (a : FeedProfileArgs) (s : State) : Aside s (feedProfileOwner a s).1 := by
  unfold feedProfileOwner
  split
  · exact Aside.refl s
  · split
    · exact Aside.refl s
    · split
      · refine Aside.trans ?_ (notify_aside _ _)
        exact Aside.feedFields rfl rfl rfl rfl
      · exact Aside.refl s

theorem clearFeedOwner_aside (s : State) : Aside s (clearFeedOwner s).1 := by
  unfold clearFeedOwner
  split
  · refine Aside.trans ?_ (notify_aside _ _)
    exact Aside.feedFields (by simp [Feed.outputsOff]) (by simp [Feed.outputsOff]) (by simp [Feed.outputsOff])
      (by simp [Feed.outputsOff])
  · exact Aside.refl s

/-- LOAD_ROLL is taken (R75, R76). -/
theorem loadRoll_next (id declared : Nat) (mt : Fin 8) {s : State} (l : s.feed.Law) (c : s.CourseLaw)
    (axis : s.feed.axis = .unreferenced) : Next s (loadRoll id declared mt s) := by
  obtain ⟨drive, knife, move, settle, cycle, load⟩ := l.stopped (.inl axis)
  unfold loadRoll
  dsimp only
  have path : PathAside s (s.mapFeed fun f => { f with roll := Roll.loading id declared mt }) :=
    ⟨fun _ j h => ⟨j, h, rfl, rfl, rfl, rfl⟩, fun _ _ h _ => by simp [h], fun l => ⟨l.nodup, l.live, l.tags⟩,
      Queue.of_jobs rfl, fun x h => ⟨x, h, rfl⟩, fun x h => ⟨x, h, rfl⟩, fun h => h, fun h => h⟩
  have rest : (s.mapFeed fun f => { f with roll := Roll.loading id declared mt }).MediaRest :=
    ⟨c.media.held, c.media.closed, Int.le_refl 0, fun _ => by simp [Roll.loading, Roll.atReset]⟩
  have law : (s.mapFeed fun f => { f with roll := Roll.loading id declared mt }).feed.Law :=
    l.congr rfl rfl rfl rfl rfl rfl rfl
  have n := holdRule_next path.queue law (path.order c.order) (path.law c.path) rest
  have feed : (holdRule (s.mapFeed fun f => { f with roll := Roll.loading id declared mt })).feed
      = { s.feed with roll := Roll.loading id declared mt } := holdRule_feed _
  generalize holdRule (s.mapFeed fun f => { f with roll := Roll.loading id declared mt }) = t at n feed
  have a : Aside t (notify .feedAxis (t.mapFeed fun f => { f with axis := .loading, load := some (.search f.pos) })) := by
    refine Aside.trans (t := t.mapFeed fun f => { f with axis := .loading, load := some (.search f.pos) })
      (Aside.mapFeed (fun h => h) (fun h => ?_) (Nat.le_refl _) (fun h => h) fun _ _ => ?_) (notify_aside _ _)
    · simp [Feed.cutting, feed, move] at h
    · simp [feed, Roll.loading, Roll.atReset]
  have g : (notify .feedAxis (t.mapFeed fun f => { f with axis := .loading, load := some (.search f.pos) })).feed
      = { s.feed with axis := .loading, load := some (.search s.feed.pos), roll := Roll.loading id declared mt } := by
    change ({ t.feed with axis := .loading, load := some (.search t.feed.pos) } : Feed) = _
    rw [feed]
  have gl : (notify .feedAxis (t.mapFeed fun f => { f with axis := .loading, load := some (.search f.pos) })).feed.Law := by
    rw [g]
    exact ⟨by simp, by simp [move], by simp [move], by simp [settle], by simp [knife], by simp [cycle],
      fun _ _ => ⟨move, cycle⟩, fun _ => rfl⟩
  have m := n.aside a fun _ => gl
  generalize (notify .feedAxis (t.mapFeed fun f => { f with axis := .loading, load := some (.search f.pos) })) = v at g gl m
  split
  · exact m.trans fun _ c => edgeReference_next c (by simp [g]) (by simp [g]) (by simp [g, move]) (by simp [g, settle])
      (by simp [g, knife]) (by simp [g, cycle])
  · refine m.aside (Aside.feedFields (by simp) (by simp) (by simp) (by simp)) fun _ => ?_
    rw [State.mapFeed_feed, g]
    exact ⟨by simp, by simp [move], by simp [move], by simp [settle], by simp [knife], by simp [cycle],
      fun _ _ => ⟨by simp [move], by simp [cycle]⟩, fun _ => by simp⟩

theorem loadRollOwner_next (id : U32) (mt : Byte) (declared : U32) {s : State} (l : s.feed.Law) (c : s.CourseLaw) :
    Next s (loadRollOwner id mt declared s).1 := by
  unfold loadRollOwner
  split
  · exact Next.refl l c
  · next h =>
    split
    · split
      · exact loadRoll_next _ _ _ l c (by simpa using h)
      · exact Next.refl l c
    · exact Next.refl l c

/-- UNLOAD_ROLL is taken where nothing is reserved (R79). -/
theorem unloadOwner_next {s : State} (l : s.feed.Law) (c : s.CourseLaw) : Next s (unloadOwner s).1 := by
  have law := (unloadOwner_keeps s).feed l
  unfold unloadOwner at law ⊢
  split
  · next h =>
    rw [if_pos h] at law
    have zero : s.reserved = 0 := by
      unfold State.reserved
      rw [List.sum_eq_zero_iff_forall_eq_nat]
      intro x hx
      obtain ⟨p, hp, rfl⟩ := List.mem_map.1 hx
      simpa using List.all_eq_true.1 h.2.1 p hp
    have feed : s.feed.unload.move = s.feed.move ∧ s.feed.unload.load = s.feed.load
        ∧ s.feed.unload.knifeCycle = s.feed.knifeCycle ∧ s.feed.unload.roll = Roll.atReset := by
      unfold Feed.unload
      split <;> simp [Feed.outputsOff]
    obtain ⟨move, load, cycle, roll⟩ := feed
    refine ⟨Queue.of_jobs rfl, law, ⟨c.order.nodup, c.order.live, c.order.tags⟩, ?_, ?_⟩
    · have p : (s.mapFeed Feed.unload).PathLaw := c.path.mapFeed (fun b => c.path.backFeed <| by
        unfold Feed.backFeeding at b ⊢; rw [move] at b; exact b) fun b => c.path.cut <| by
        unfold Feed.cutting at b ⊢; rw [move, load, cycle] at b; exact b
      exact ⟨p.one, p.waiting, p.spoil, p.engine, p.checker, p.backFeed, p.cut, p.commits⟩
    · refine ⟨?_, c.media.held, c.media.closed, ?_, fun _ => ?_⟩
      · rw [show (notify .feedAxis (s.mapFeed Feed.unload)).reserved = s.reserved from rfl, zero]
        exact Nat.zero_le _
      · change s.feed.unload.roll.consumed ≤ s.feed.unload.roll.reach
        rw [roll]; exact Int.le_refl 0
      · change s.feed.unload.roll.state ≠ .loaded
        rw [roll]; simp [Roll.atReset]
  · exact Next.refl l c

theorem jogOwner_aside (mm : U16) (s : State) : Aside s (jogOwner mm s).1 := by
  unfold jogOwner
  split
  · exact Aside.refl s
  · split
    · exact Aside.refl s
    · split
      · exact Aside.refl s
      · next h => exact (requestMove_asideTo (by simp) (by simp) h).trans (notify_aside _ _)
      · next h => exact requestMove_asideTo (by simp) (by simp) h

theorem Feed.setTrim_same (mode : Byte) (v : Int) (f : Feed) : (f.setTrim mode v).move = f.move ∧
    (f.setTrim mode v).knifeCycle = f.knifeCycle ∧ (f.setTrim mode v).load = f.load ∧ (f.setTrim mode v).roll = f.roll := by
  unfold Feed.setTrim; split <;> exact ⟨rfl, rfl, rfl, rfl⟩

theorem trimOwner_aside (mode : Byte) (value : U16) (s : State) : Aside s (trimOwner mode value s).1 := by
  unfold trimOwner
  split
  · obtain ⟨a, b, c, d⟩ := Feed.setTrim_same mode value.toInt s.feed
    refine Aside.trans ?_ (notify_aside _ _)
    exact Aside.feedFields a b c d
  · exact Aside.refl s

/-! ### Ink -/

/-- FIT_CARTRIDGE is taken (R98, R161). -/
theorem fitCartridge_next {ch : Chan} (k : Cartridge) {s : State} (l : s.feed.Law) (c : s.CourseLaw) :
    Next s (fitCartridge ch k s) := by
  suffices key : ∀ v : State, Aside s v → v.feed.Law → Next s (settleDrift s.drift
      (noticeChannels s.ink.chans (arbiter (refillTest (notify (.channel ch) v) ch)))) by
    unfold fitCartridge
    dsimp only
    refine key _ ?_ ?_
    · refine Aside.trans ?_ (mapDrift_aside _ _)
      refine Aside.trans ?_ (mapAcct_aside _ _)
      exact setChan_aside _ _ s
    · exact l
  intro v a f
  have b : Aside s (noticeChannels s.ink.chans (arbiter (refillTest (notify (.channel ch) v) ch))) :=
    (((a.trans (notify_aside _ _)).trans (refillTest_aside _ _)).trans (arbiter_aside _)).trans (noticeChannels_aside _ _)
  have k : Keeps v (noticeChannels s.ink.chans (arbiter (refillTest (notify (.channel ch) v) ch))) :=
    (((notify_keeps _ v).trans (refillTest_keeps _ _)).trans (arbiter_keeps _)).trans (noticeChannels_keeps _ _)
  exact (b.next (k.feed f) c).trans fun l c => settleDrift_next _ l c

theorem fitOwner_next (ch : Byte) (capacity remaining lot : U32) {s : State} (l : s.feed.Law) (c : s.CourseLaw) :
    Next s (fitOwner ch capacity remaining lot s).1 := by
  unfold fitOwner
  split
  · exact Next.refl l c
  · split
    · exact Next.refl l c
    · split
      · exact fitCartridge_next _ l c
      · exact Next.refl l c

theorem inkStatusOwner_aside (sel clear : Byte) (s : State) : Aside s (inkStatusOwner sel clear s).1 := by
  unfold inkStatusOwner
  split
  · dsimp only
    split
    · exact Aside.foldl clearSticky clearSticky_aside _ s
    · exact Aside.refl s
  · exact Aside.refl s

theorem setProfile_next (ch : Chan) (p : InkProfile) {s : State} (l : s.feed.Law) (c : s.CourseLaw) :
    Next s (setProfile ch p s) := by
  have a : Aside s (noticeChannels s.ink.chans (arbiter (refillTest (notify (.channel ch)
      (setChan ch (Channel.withProfile p) s)) ch))) :=
    ((((setChan_aside _ _ s).trans (notify_aside _ _)).trans (refillTest_aside _ _)).trans (arbiter_aside _)).trans
      (noticeChannels_aside _ _)
  have k : Keeps (setChan ch (Channel.withProfile p) s) (noticeChannels s.ink.chans (arbiter (refillTest (notify (.channel ch)
      (setChan ch (Channel.withProfile p) s)) ch))) :=
    (((notify_keeps _ _).trans (refillTest_keeps _ _)).trans (arbiter_keeps _)).trans (noticeChannels_keeps _ _)
  have n := a.next (k.feed l) c
  unfold setProfile
  dsimp only
  split
  · exact n.trans fun l c => resumeTest_next l c
  · exact n

theorem inkProfileOwner_next (ch : Byte) (a : InkProfileArgs) {s : State} (l : s.feed.Law) (c : s.CourseLaw) :
    Next s (inkProfileOwner ch a s).1 := by
  unfold inkProfileOwner
  split
  · split
    · exact Next.refl l c
    · exact setProfile_next _ _ l c
  · exact Next.refl l c

/-- A scan and the resume test after it (R92, R132). -/
theorem scanAll_next (ain : Vector (BitVec 10) 11) (cart : Vector Bool 10) {s : State} (l : s.feed.Law)
    (c : s.CourseLaw) : Next s (scanAll ain cart s) := by
  unfold scanAll
  dsimp only
  generalize (!s.ink.scanned) = first
  have base : Keeps s (arbiter (eachChan refillTest (eachChan scanEnding (eachChan (cartInput cart)
      ((eachChan faultRefill (s.mapInk (Ink.readAll first ain))).mapInk (Ink.measureAll first)))))) := by
    refine Keeps.trans ?_ (arbiter_keeps _)
    refine Keeps.trans ?_ (eachChan_keeps refillTest_keeps _)
    refine Keeps.trans ?_ (eachChan_keeps scanEnding_keeps _)
    refine Keeps.trans ?_ (eachChan_keeps (cartInput_keeps cart) _)
    refine Keeps.trans ?_ (keeps_mapInk fun l => l.measureAll first)
    refine Keeps.trans ?_ (eachChan_keeps faultRefill_keeps _)
    exact keeps_mapInk fun l => l.readAll first ain
  have a : Aside s (arbiter (eachChan refillTest (eachChan scanEnding (eachChan (cartInput cart)
      ((eachChan faultRefill (s.mapInk (Ink.readAll first ain))).mapInk (Ink.measureAll first)))))) := by
    refine Aside.trans ?_ (arbiter_aside _)
    refine Aside.trans ?_ (eachChan_aside refillTest_aside _)
    refine Aside.trans ?_ (eachChan_aside scanEnding_aside _)
    refine Aside.trans ?_ (eachChan_aside (cartInput_aside cart) _)
    refine Aside.trans ?_ (mapInk_aside _ _)
    refine Aside.trans ?_ (eachChan_aside faultRefill_aside _)
    exact mapInk_aside _ s
  generalize arbiter _ = t at base a
  have n : Next s (noticeChannels s.ink.chans (t.mapInk Ink.markAbove)) := by
    refine Aside.next ((a.trans (mapInk_aside _ _)).trans (noticeChannels_aside _ _)) ?_ c
    exact ((base.trans (keeps_mapInk fun l => l.markAbove)).trans (noticeChannels_keeps s.ink.chans _)).feed l
  split
  · exact n.trans fun l c => resumeTest_next l c
  · exact n

end Sys2Proof.Machine
end

