-- ==== Sys2Proof/Laws/AcceptCourse.lean ====
section
/-!
SUPPORT. The acceptance of a job (R9) and the other requests keep the course of the jobs.
-/

-- One theorem after another: waiting proofs would each hold a thread.
set_option Elab.async false

namespace Sys2Proof.Machine

/-! ### The acceptance of a job (R9) -/

/-- The copy number of an accepted job is one that was free (R29). -/
structure Taken (s t : State) (j : Job) : Prop where
  none_ : j.edition = none → t.ed = s.ed
  some_ : ∀ x, j.edition = some x → s.ed.store = .ready ∧ s.ed.holds x.slot x.id ∧ s.ed.isFree x.slot x.copy = true ∧
    t.ed = Editions.reserve x.slot x.copy s.ed

/-- What a free number is in none of (R28). -/
theorem Editions.isFree_out {d : Editions} {e : EdIx} {n : Nat} (h : d.isFree e n = true) :
    (1 ≤ n ∧ n ≤ d.image[e].limit) ∧ n ∉ d.numbers e := by
  unfold Editions.isFree at h
  simp only [Bool.and_eq_true, decide_eq_true_eq, Bool.not_eq_true', List.contains_eq_mem, decide_eq_false_iff_not] at h
  refine ⟨h.1.1.1, fun m => ?_⟩
  unfold Editions.numbers at m
  simp only [List.mem_append] at m
  rcases m with (m | m) | m
  · exact h.1.1.2 m
  · exact h.1.2 m
  · exact h.2 m

/-- A new job that has taken a free number, or none (R9, R29). -/
theorem State.CopyLaw.accept {s t : State} {i : JobIx} {j : Job} (c : s.CopyLaw) (free : s.jobs.slots[i] = .free)
    (slots : t.jobs.slots = s.jobs.slots.set i (.live j)) (fresh : j.committed = false ∧ j.commitOpen = false)
    (taken : Taken s t j) : t.CopyLaw := by
  have live : ∀ k, t.liveJob k = if k = i then some j else s.liveJob k := fun k => liveJob_set slots k
  have none_ : s.liveJob i = none := by rw [liveJob_eq_job, free]; rfl
  have old : ∀ (k : JobIx) (m : Job), t.liveJob k = some m → (k = i ∧ m = j) ∨ s.liveJob k = some m := by
    intro k m hk
    rw [live] at hk
    split at hk
    · next e => exact .inl ⟨e, (Option.some.inj hk).symm⟩
    · exact .inr hk
  cases hx : j.edition with
  | none =>
    have ed := taken.none_ hx
    have bare : j.holdsCopy = none := by simp [Job.holdsCopy, hx]
    have keeps : ∀ k x, t.keeps k x → s.keeps k x := by
      rintro k x ⟨m, hm, e⟩
      rcases old k m hm with ⟨-, rfl⟩ | h
      · rw [bare] at e; cases e
      · exact ⟨m, h, e⟩
    have waits : ∀ k x g, t.waits k x g → s.waits k x g := by
      rintro k x g ⟨⟨m, hm, o, e⟩, p⟩
      rcases old k m hm with ⟨-, rfl⟩ | h
      · rw [fresh.2] at o; cases o
      · exact ⟨⟨m, h, o, e⟩, by rw [← ed]; exact p⟩
    refine ⟨by rw [ed]; exact c.table, fun m k l hl => ?_, fun k x h => by rw [ed]; exact c.held k x (keeps k x h),
      fun k m x y h h' => c.once k m x y (keeps k x h) (keeps m y h'), fun k l hl h => ?_,
      fun k x g h => by rw [ed]; exact c.waiting k x g (waits k x g h),
      fun k m x y g h hx hy => c.waitOnce k m x y g h (waits k x g hx) (waits m y h hy)⟩
    · rcases old k l hl with ⟨-, rfl⟩ | q
      · exact hx
      · exact c.mounting (ed ▸ m) k l q
    · rcases old k l hl with ⟨-, rfl⟩ | q
      · rw [fresh.1] at h; cases h
      · exact c.finished k l q h
  | some x =>
    obtain ⟨ready, hold, isFree, ed⟩ := taken.some_ x hx
    obtain ⟨range, out⟩ := Editions.isFree_out isFree
    have outResv : x.copy ∉ s.ed.resv[x.slot] := fun m => out (List.mem_append_right _ m)
    have resv : ∀ k : EdIx, t.ed.resv[k] = if k = x.slot then insertNum x.copy s.ed.resv[x.slot] else s.ed.resv[k] :=
      fun k => by rw [ed]; exact getElem_modifyAt _ _ _ _
    have perm : (t.ed.numbers x.slot).Perm (x.copy :: s.ed.numbers x.slot) := by
      unfold Editions.numbers
      rw [resv, if_pos rfl, ed]
      exact perm_reserve outResv
    have mem : ∀ (k : EdIx) (n : Nat), n ∈ s.ed.resv[k] → n ∈ t.ed.resv[k] := fun k n h => by
      rw [resv]
      split
      · next e =>
        subst e
        exact (insertNum_perm outResv).mem_iff.2 (List.mem_cons_of_mem _ h)
      · exact h
    have keeps : ∀ k y, t.keeps k y → (k = i ∧ y = x) ∨ s.keeps k y := by
      rintro k y ⟨m, hm, e⟩
      rcases old k m hm with ⟨q, rfl⟩ | h
      · refine .inl ⟨q, ?_⟩
        unfold Job.holdsCopy at e
        split at e
        · rw [hx] at e; exact (Option.some.inj e).symm
        · cases e
      · exact .inr ⟨m, h, e⟩
    have waits : ∀ k y g, t.waits k y g → s.waits k y g := by
      rintro k y g ⟨⟨m, hm, o, e⟩, p⟩
      rcases old k m hm with ⟨-, rfl⟩ | h
      · rw [fresh.2] at o; cases o
      · exact ⟨⟨m, h, o, e⟩, by rw [ed] at p; exact p⟩
    refine ⟨?_, fun m => ?_, fun k y h => ?_, fun k m y z h h' e e' => ?_, fun k l hl h => ?_,
      fun k y g h => by rw [ed]; exact c.waiting k y g (waits k y g h),
      fun k m y z g h hy hz => c.waitOnce k m y z g h (waits k y g hy) (waits m z h hz)⟩
    · refine c.table.move x.slot (by rw [ed]; exact c.table.store.congr rfl rfl rfl rfl rfl rfl rfl)
        (by rw [ed]; exact fun _ => ⟨rfl, rfl, rfl⟩) (fun k n => ?_)
        (perm.nodup_iff.2 (List.nodup_cons.2 ⟨out, c.table.disjoint x.slot⟩)) (fun n hn => ?_) (by rw [ed]; rfl)
        (by rw [ed]; rfl) (by rw [ed]; rfl) (fun m => ?_) (by rw [ed]; exact c.table.format)
      · unfold Editions.numbers
        rw [resv, if_neg n, ed]
        rfl
      · rcases List.mem_cons.1 (perm.mem_iff.1 hn) with h | h
        · subst h; exact .inr range
        · exact .inl h
      · rw [ed] at m; rw [show s.ed.store = .mounting from m] at ready; cases ready
    · rw [ed] at m; rw [show s.ed.store = .mounting from m] at ready; cases ready
    · rcases keeps k y h with ⟨-, rfl⟩ | h
      · refine ⟨by rw [ed]; exact hold, ?_⟩
        rw [resv, if_pos rfl]
        exact (insertNum_perm outResv).mem_iff.2 (List.mem_cons_self ..)
      · obtain ⟨a, b⟩ := c.held k y h
        exact ⟨by rw [ed]; exact a, mem _ _ b⟩
    · have clash : ∀ m z, s.keeps m z → x.slot = z.slot → x.copy ≠ z.copy := fun m z h e q => by
        have := (c.held m z h).2
        simp only [← e, ← q] at this
        exact outResv this
      rcases keeps k y h with ⟨a, rfl⟩ | h <;> rcases keeps m z h' with ⟨a', rfl⟩ | h'
      · rw [a, a']
      · exact absurd e' (clash m z h' e)
      · exact absurd e'.symm (clash k y h e.symm)
      · exact c.once k m y z h h' e e'
    · rcases old k l hl with ⟨-, rfl⟩ | q
      · rw [fresh.1] at h; cases h
      · exact c.finished k l q h

/-- A job enters the table and the end of the queue order, PENDING, with its planned length reserved. -/
theorem accept_next {s t : State} {i : JobIx} {j : Job} (l : s.feed.Law) (c : s.CourseLaw)
    (free : s.jobs.slots[i] = .free) (slots : t.jobs.slots = s.jobs.slots.set i (.live j))
    (order : t.jobs.order = s.jobs.order ++ [i]) (feed : t.feed = s.feed) (eng : t.eng = s.eng) (chk : t.chk = s.chk)
    (state : j.state = .pending) (start : j.startPos = none) (spoil : j.spoilWait = false)
    (hold : j.holds.noMedia = false) (fresh : j.committed = false ∧ j.commitOpen = false)
    (taken : Taken s t j) (tag : ∀ k m, s.liveJob k = some m → m.tag ≠ j.tag)
    (fits : j.mediaRes + s.reserved ≤ s.feed.roll.remaining) : Next s t := by
  have live : ∀ k, t.liveJob k = if k = i then some j else s.liveJob k := fun k => liveJob_set slots k
  have none_ : s.liveJob i = none := by rw [liveJob_eq_job, free]; rfl
  have out : i ∉ s.jobs.order := fun h => by
    have := (c.order.live i).1 h
    simp [none_] at this
  have old : ∀ (k : JobIx) (m : Job), t.liveJob k = some m → (k = i ∧ m = j) ∨ (k ≠ i ∧ s.liveJob k = some m) := by
    intro k m hk
    rw [live] at hk
    split at hk
    · next e => exact .inl ⟨e, (Option.some.inj hk).symm⟩
    · next e => exact .inr ⟨e, hk⟩
  have keep : ∀ (k : JobIx) (m : Job), s.liveJob k = some m → t.liveJob k = some m := fun k m hk => by
    rw [live]
    split
    · next e => subst e; simp [none_] at hk
    · exact hk
  have path : ∀ (k : JobIx) (m : Job), t.liveJob k = some m → m.state ≠ .pending → s.liveJob k = some m := by
    intro k m hk p
    rcases old k m hk with ⟨-, rfl⟩ | ⟨-, h⟩
    · exact absurd state p
    · exact h
  have on : ∀ m : Job, m.state.onPath = true → m.state ≠ .pending := fun m h e => by simp [e, JobState.onPath] at h
  have commits : s.Commits → t.Commits := fun c k m hm h => by
    rcases old k m hm with ⟨-, rfl⟩ | ⟨-, q⟩
    · rw [fresh.1] at h; cases h
    · exact c k m q h
  refine ⟨⟨⟨s.jobs.order, [i], List.Sublist.refl _, order, fun k hk => by rw [List.mem_singleton.1 hk]; exact free⟩,
    fun k hk => ?_, commits, fun c => c.accept free slots fresh taken⟩, by rw [feed]; exact l,
    ⟨?_, fun k => ?_, fun k k' m m' hk hk' e => ?_⟩, ?_, ?_⟩
  · rw [slots, getElem_set_fin] at hk
    split at hk
    · simp at hk
    · exact hk
  · rw [order]
    exact List.nodup_append.2 ⟨c.order.nodup, by simp, fun x hx y hy e => out (by simp_all)⟩
  · rw [order, live, List.mem_append, List.mem_singleton, c.order.live k]
    split
    · next e => simp [e]
    · next e => simp [e]
  · rcases old k m hk with ⟨rfl, rfl⟩ | ⟨-, h⟩ <;> rcases old k' m' hk' with ⟨rfl, rfl⟩ | ⟨-, h'⟩
    · rfl
    · exact absurd e.symm (tag k' m' h')
    · exact absurd e (tag k m h)
    · exact c.order.tags k k' m m' h h' e
  · refine ⟨fun k k' m m' hk hk' p p' => c.path.one k k' m m' (path k m hk (on m p)) (path k' m' hk' (on m' p')) p p',
      fun k m hk p => ?_, fun k m hk p => ?_, fun x hx => ?_, fun x hx => ?_, fun h k m hk p => ?_,
      fun h k m hk p => ?_, commits c.path.commits⟩
    · rcases old k m hk with ⟨-, rfl⟩ | ⟨-, h⟩
      · exact ⟨start, spoil⟩
      · exact c.path.waiting k m h p
    · rcases old k m hk with ⟨-, rfl⟩ | ⟨-, h⟩
      · simp [spoil] at p
      · exact c.path.spoil k m h p
    · rw [eng] at hx
      obtain ⟨k, m, hm, e, p⟩ := c.path.engine x hx
      exact ⟨k, m, keep k m hm, e, p⟩
    · rw [chk] at hx
      obtain ⟨m, hm, p⟩ := c.path.checker x hx
      exact ⟨m, keep _ m hm, p⟩
    · rw [feed] at h
      exact c.path.backFeed h k m (path k m hk (on m p)) p
    · rw [feed] at h
      exact c.path.cut h k m (path k m hk (on m p)) p
  · refine ⟨?_, fun k m hk p => ?_, fun k m hk p => ?_, by rw [feed]; exact c.media.reach, by rw [feed]; exact c.media.load⟩
    · have e : t.reserved = s.reserved + j.mediaRes := by
        rw [reserved_eq, reserved_eq, order, List.map_append, List.sum_append]
        congr 1
        · refine congrArg List.sum (List.map_congr_left fun k hk => ?_)
          rw [live, if_neg (fun e : k = i => out (e ▸ hk))]
        · simp [live]
      rw [e, feed]
      omega
    · rcases old k m hk with ⟨-, rfl⟩ | ⟨-, h⟩
      · simp [hold] at p
      · exact c.media.held k m h p
    · rcases old k m hk with ⟨-, rfl⟩ | ⟨-, h⟩
      · simp [state] at p
      · exact c.media.closed k m h p

theorem acceptJob_jobs (i : JobIx) (j : Job) (s : State) :
    (acceptJob i j s).jobs = { s.jobs with slots := s.jobs.slots.set i (.live j), order := s.jobs.order ++ [i] }
      ∧ (acceptJob i j s).feed = s.feed ∧ (acceptJob i j s).eng = s.eng ∧ (acceptJob i j s).chk = s.chk := by
  unfold acceptJob
  dsimp only
  split <;> exact ⟨rfl, rfl, rfl, rfl⟩

/-- The edition slot and the number that a request gets (R6, R29). -/
theorem judgeEdition_free {s : State} {id copy : Nat} {e : EdIx} {n : Nat}
    (h : judgeEdition s id copy = .ok (some (e, n))) :
    s.ed.store = .ready ∧ s.ed.holds e id ∧ s.ed.isFree e n = true := by
  unfold judgeEdition at h
  by_cases z : id = 0
  · rw [if_pos z] at h; cases h
  · rw [if_neg z] at h
    by_cases r : s.ed.store ≠ .ready
    · rw [if_pos r] at h; cases h
    · rw [if_neg r] at h
      have ready : s.ed.store = .ready := by simpa using r
      cases hf : s.ed.slotOf id with
      | none => rw [hf] at h; cases h
      | some f =>
        rw [hf] at h
        dsimp only at h
        have hold := Editions.slotOf_some hf
        by_cases o : s.ed.image[f].state ≠ .opened
        · rw [if_pos o] at h; cases h
        · rw [if_neg o] at h
          by_cases q : copy = 0
          · rw [if_pos q] at h
            cases hk : s.ed.freeNumbers f with
            | nil => rw [hk] at h; cases h
            | cons k xs =>
              rw [hk] at h
              have m : k ∈ s.ed.freeNumbers f := by rw [hk]; simp
              have g := (List.mem_filter.1 m).2
              cases h
              exact ⟨ready, hold, g⟩
          · rw [if_neg q] at h
            by_cases g : s.ed.isFree f copy = true
            · rw [if_pos g] at h; cases h; exact ⟨ready, hold, g⟩
            · rw [if_neg g] at h; cases h

theorem acceptJob_taken {s : State} {i : JobIx} {o : JobOrder} {mode : ColourMode} {est : List (Chan × Nat)}
    {ed : Option (EdIx × Nat)} {g : Option Geometry} {forced : Bool} {price : PriceIx}
    (h : judgeEdition s o.edition.toNat o.copy.toNat = .ok ed) :
    Taken s (acceptJob i (newJob s o mode est ed g forced price) s) (newJob s o mode est ed g forced price) := by
  cases ed with
  | none => exact ⟨fun _ => rfl, fun x hx => (nomatch hx)⟩
  | some p =>
    obtain ⟨e, n⟩ := p
    obtain ⟨a, b, c⟩ := judgeEdition_free h
    refine ⟨fun hx => (nomatch hx), fun x hx => ?_⟩
    cases hx
    exact ⟨a, b, c, rfl⟩

/-- A tag that no live job has. -/
theorem State.jobByTag_none {s : State} (o : s.OrderLaw) {tag : Nat} (h : s.jobByTag tag = none) (i : JobIx) (j : Job)
    (hj : s.liveJob i = some j) : j.tag ≠ tag := by
  have := List.find?_eq_none.1 h (i, j) (State.liveJobs_mem o hj)
  simpa using this

/-- SUBMIT_JOB (R5 to R9). -/
theorem submitOwner_next (o : JobOrder) {s : State} (l : s.feed.Law) (c : s.CourseLaw) : Next s (submitOwner o s).1 := by
  unfold submitOwner
  split
  · exact Next.refl l c
  · split
    · exact Next.refl l c
    · next dup =>
      split
      · exact Next.refl l c
      · next i _ hi =>
        split
        · exact Next.refl l c
        · split
          · exact Next.refl l c
          · split
            · exact Next.refl l c
            · split
              · exact Next.refl l c
              · next ed he =>
                unfold submitLast
                split
                · dsimp only
                  split
                  · next fits =>
                    obtain ⟨jobs, feed, eng, chk⟩ := acceptJob_jobs i
                      (newJob s o _ _ _ _ _ _) s
                    refine (accept_next l c (State.free_slot hi) (by rw [jobs]) (by rw [jobs]) feed eng chk rfl rfl rfl rfl
                      ⟨rfl, rfl⟩ (acceptJob_taken he)
                      (fun k m hk => State.jobByTag_none c.order (tag := o.tag.toNat) (by simpa using dup) k m hk) fits).trans
                      fun l c => startEval_next l c
                  · exact Next.refl l c
                · exact Next.refl l c

/-! ### The other requests -/

theorem applyPatch_aside (x : State × Bytes) (u : PatchUpdate) : Aside x.1 (applyPatch x u).1 := by
  unfold applyPatch
  split
  · exact Aside.refl _
  · split
    · exact Aside.refl _
    · exact Aside.of_eq rfl rfl
  · exact Aside.of_eq rfl rfl

theorem applyPatches_aside : ∀ (us : List PatchUpdate) (x : State × Bytes), Aside x.1 (us.foldl applyPatch x).1
  | [], x => Aside.refl x.1
  | u :: us, x => (applyPatch_aside x u).trans (applyPatches_aside us (applyPatch x u))

theorem patchesOwner_aside (us : List PatchUpdate) (s : State) : Aside s (patchesOwner us s).1 := by
  unfold patchesOwner
  split
  · exact Aside.refl s
  · split
    · exact Aside.refl s
    · dsimp only
      exact (applyPatches_aside us (s, [])).trans (Aside.ite (fun _ => notify_aside _ _) fun _ => Aside.refl _)

theorem stripProfileOwner_aside (a : StripProfileArgs) (s : State) : Aside s (stripProfileOwner a s).1 := by
  unfold stripProfileOwner
  split
  · exact Aside.refl s
  · split
    · exact Aside.refl s
    · next p _ =>
      split
      · refine Aside.trans (t := s.mapChk fun k => { k with profile := p }) ?_ (notify_aside _ _)
        exact mapChk_aside rfl
      · exact Aside.refl s

theorem driftLimitsOwner_next (warn out : U16) {s : State} (l : s.feed.Law) (c : s.CourseLaw) :
    Next s (driftLimitsOwner warn out s).1 := by
  unfold driftLimitsOwner
  split
  · exact changeDrift_next _ l c
  · exact Next.refl l c

theorem recalibratedOwner_next (ch : Byte) {s : State} (l : s.feed.Law) (c : s.CourseLaw) :
    Next s (recalibratedOwner ch s).1 := by
  unfold recalibratedOwner
  split
  · exact Next.refl l c
  · split
    · exact Next.refl l c
    · exact changeDrift_next _ l c

theorem loadPricesOwner_aside (a : PriceArgs) (s : State) : Aside s (loadPricesOwner a s).1 := by
  unfold loadPricesOwner
  split
  · exact Aside.refl s
  · split
    · exact Aside.refl s
    · exact mapCost_aside _ s

theorem costTakeOwner_aside (s : State) : Aside s (costTakeOwner s).1 := by
  unfold costTakeOwner
  split
  · exact Aside.refl s
  · exact (mapCost_aside _ s).trans (enterWaiting_aside _)

theorem costLevelOwner_aside (level : Byte) (s : State) : Aside s (costLevelOwner level s).1 := by
  unfold costLevelOwner
  split
  · dsimp only [report]
    split
    · exact (mapCost_aside _ s).trans (notify_aside _ _)
    · exact mapCost_aside _ s
  · exact Aside.refl s

theorem overheadOwner_aside (clear : Byte) (s : State) : Aside s (overheadOwner clear s).1 := by
  unfold overheadOwner
  split
  · exact Aside.refl s
  · dsimp only
    split
    · exact mapCost_aside _ s
    · exact Aside.refl s

/-- Every owner, from a lawful state. -/
theorem ownerOf_next (i : Instr) {s : State} (l : s.feed.Law) (c : s.CourseLaw) : Next s (ownerOf i s).1 := by
  have k := (ownerOf_keeps i s).feed l
  cases i <;> first
    | exact Next.refl l c
    | exact (countersOwner_aside _ _ s).next k c
    | exact (mapHost_aside _ s).next k c
    | exact submitOwner_next _ l c
    | exact cancelOwner_next _ l c
    | exact (queryJobOwner_aside _ s).next k c
    | exact (openOwner_aside _ _ s).next k c
    | exact (closeOwner_aside _ _ s).next k c
    | exact (removeOwner_aside _ _ s).next k c
    | exact (queryEditionOwner_aside _ _ s).next k c
    | exact (feedProfileOwner_aside _ s).next k c
    | exact (clearFeedOwner_aside s).next k c
    | exact loadRollOwner_next _ _ _ l c
    | exact unloadOwner_next l c
    | exact (jogOwner_aside _ s).next k c
    | exact (trimOwner_aside _ _ s).next k c
    | exact fitOwner_next _ _ _ _ l c
    | exact (inkStatusOwner_aside _ _ s).next k c
    | exact inkProfileOwner_next _ _ l c
    | exact (patchesOwner_aside _ s).next k c
    | exact (stripProfileOwner_aside _ s).next k c
    | exact driftLimitsOwner_next _ _ l c
    | exact recalibratedOwner_next _ l c
    | exact (loadPricesOwner_aside _ s).next k c
    | exact (costTakeOwner_aside s).next k c
    | exact (costLevelOwner_aside _ s).next k c
    | exact (overheadOwner_aside _ s).next k c

end Sys2Proof.Machine
end

