-- ==== Sys2Proof/Laws/Frame.lean ====
section
/-!
SUPPORT. A whole frame through the receive assembler of either line (R126, R179, R180): the fields read back, every
proper beginning of a frame waits for more, and the last byte decides.
-/

-- One theorem after another: waiting proofs would each hold a thread.
set_option Elab.async false

namespace Sys2Proof.Machine

/-! ### Fields read back -/

theorem word16_bytes16 (w : U16) : word16 (w.extractLsb' 0 8) (w.extractLsb' 8 8) = w := by
  apply BitVec.eq_of_toNat_eq
  simp only [word16, BitVec.toNat_append, BitVec.extractLsb'_toNat]
  rw [← Nat.shiftLeft_add_eq_or_of_lt (by omega), Nat.shiftLeft_eq, Nat.shiftRight_eq_div_pow, Nat.shiftRight_eq_div_pow]
  have := w.isLt
  omega

theorem word16_u16 {n : Nat} (h : n < 65536) : (word16 (BitVec.ofNat 8 n) (BitVec.ofNat 8 (n / 256))).toNat = n := by
  simp only [word16, BitVec.toNat_append, BitVec.toNat_ofNat]
  rw [← Nat.shiftLeft_add_eq_or_of_lt (by omega), Nat.shiftLeft_eq]
  omega

/-- The bytes of a frame after its start byte, with a CRC of any two bytes. -/
def frameTail (kind tag : Byte) (body : Bytes) (x y : Byte) : Bytes := frameCore kind tag body ++ [x, y]

theorem frameTail_length (kind tag : Byte) (body : Bytes) (x y : Byte) :
    (frameTail kind tag body x y).length = 4 + body.length + 2 := by
  simp [frameTail, frameCore, u16]; omega

theorem frameBytes_eq (kind tag : Byte) (body : Bytes) :
    frameBytes kind tag body = startByte :: frameTail kind tag body
      ((crc16 (frameCore kind tag body)).extractLsb' 0 8) ((crc16 (frameCore kind tag body)).extractLsb' 8 8) := rfl

/-- The length field of any beginning of a frame that holds it. -/
theorem frame_length_field {kind tag : Byte} {body : Bytes} {x y : Byte} {n : Nat} (h : 4 ≤ n)
    (b : body.length ≤ 512) : (u16At ((frameTail kind tag body x y).take n) 2).toNat = body.length := by
  obtain ⟨m, rfl⟩ := Nat.exists_eq_add_of_le' h
  have : ((frameTail kind tag body x y).take (m + 4)) =
      kind :: tag :: BitVec.ofNat 8 body.length :: BitVec.ofNat 8 (body.length / 256) :: (body ++ [x, y]).take m := by
    simp [frameTail, frameCore, u16]
  rw [this]
  simp only [u16At, byteAt, List.getD_cons_succ, List.getD_cons_zero]
  exact word16_u16 (by omega)

/-- A proper beginning of a frame waits for more (R180). -/
theorem frame_more {kind tag : Byte} {body : Bytes} {x y : Byte} {n : Nat} (h : n < 4 + body.length + 2)
    (b : body.length ≤ 512) :
    rxJudge ((frameTail kind tag body x y).take n) = (some ((frameTail kind tag body x y).take n), .more) := by
  have len : ((frameTail kind tag body x y).take n).length = n := by
    rw [List.length_take, frameTail_length]; omega
  unfold rxJudge
  by_cases s : n < 4
  · rw [if_pos (by rw [len]; exact s)]
  · rw [if_neg (by rw [len]; exact s)]
    dsimp only
    rw [frame_length_field (by omega) b, if_neg (by simp [Config.maxBody]; omega), if_pos (by rw [len]; exact h)]

/-- The last byte of a frame: its CRC decides (R179, R180). -/
theorem frame_end (kind tag : Byte) {body : Bytes} (x y : Byte) (b : body.length ≤ 512) :
    rxJudge (frameTail kind tag body x y) =
      if crc16 (frameCore kind tag body) = word16 x y then (none, .frame kind tag body) else (none, .crcBad) := by
  have full : (frameTail kind tag body x y).take (4 + body.length + 2) = frameTail kind tag body x y :=
    List.take_of_length_le (by rw [frameTail_length])
  have field : (u16At (frameTail kind tag body x y) 2).toNat = body.length := by
    rw [← full]; exact frame_length_field (by omega) b
  have core : (frameCore kind tag body).length = 4 + body.length := by simp [frameCore, u16]; omega
  unfold rxJudge
  rw [if_neg (by rw [frameTail_length]; omega)]
  dsimp only
  rw [field, if_neg (by simp [Config.maxBody]; omega), if_neg (by rw [frameTail_length]; omega)]
  have a : (frameTail kind tag body x y).take (4 + body.length) = frameCore kind tag body := by
    unfold frameTail; rw [← core, List.take_left]
  have c : u16At (frameTail kind tag body x y) (4 + body.length) = word16 x y := by
    unfold u16At byteAt frameTail
    rw [← core]
    simp [List.getD_eq_getElem?_getD]
  rw [a, c]
  have k : byteAt (frameTail kind tag body x y) 0 = kind := rfl
  have t : byteAt (frameTail kind tag body x y) 1 = tag := rfl
  have d : ((frameTail kind tag body x y).drop 4).take body.length = body := by
    simp [frameTail, frameCore, u16]
  rw [k, t, d]

/-! ### The host line -/

/-- While the assembler waits for more, bytes from the host only join it. -/
theorem hostBytes_more {bs : Bytes} : ∀ (n : Nat) (s : State), n ≤ bs.length → s.host.rx = some [] →
    (∀ k, k ≤ n → rxJudge (bs.take k) = (some (bs.take k), .more)) →
    (bs.take n).foldl hostByte s = s.mapHost fun h => { h with rx := some (bs.take n) }
  | 0, s, _, e, _ => by
    simp only [List.take_zero, List.foldl_nil]
    rw [← e]; rfl
  | n + 1, s, h, e, m => by
    have ih := hostBytes_more n s (by omega) e fun k hk => m k (by omega)
    rw [List.take_succ_eq_append_getElem (by omega), List.foldl_append, ih]
    have j := m (n + 1) (Nat.le_refl _)
    rw [List.take_succ_eq_append_getElem (by omega)] at j
    simp only [List.foldl_cons, List.foldl_nil, hostByte, State.mapHost_host, rxByte, j]
    rfl

/-- A whole frame on the host line, taken while hunting, ends as its CRC decides. -/
theorem hostFrame_run (kind tag : Byte) {body : Bytes} (x y : Byte) (s : State) (b : body.length ≤ 512)
    (h : s.host.rx = none) :
    (startByte :: frameTail kind tag body x y).foldl hostByte s =
      if crc16 (frameCore kind tag body) = word16 x y then serveFrame kind tag body s
      else s.mapHost fun h => { h with crcDrops := sat16 (h.crcDrops + 1) } := by
  have start : hostByte s startByte = s.mapHost fun h => { h with rx := some [] } := by
    simp [hostByte, h, rxByte_start]
  have len := frameTail_length kind tag body x y
  have cut : frameTail kind tag body x y = (frameTail kind tag body x y).take (4 + body.length + 1) ++ [y] := by
    have core : (frameCore kind tag body).length + 1 = 4 + body.length + 1 := by simp [frameCore, u16]; omega
    have : frameTail kind tag body x y = (frameCore kind tag body ++ [x]) ++ [y] := by simp [frameTail]
    rw [this, List.take_left' (by simpa using core)]
  have more := hostBytes_more (bs := frameTail kind tag body x y) (4 + body.length + 1)
    (s.mapHost fun h => { h with rx := some [] }) (by omega) rfl fun k hk => frame_more (by omega) b
  rw [List.foldl_cons, start, cut, List.foldl_append, more, List.foldl_cons, List.foldl_nil]
  unfold hostByte
  have back : (s.mapHost fun h => { h with rx := none }) = s := by
    have e : ({ s.host with rx := none } : HostLink) = s.host := by rw [← h]
    exact congrArg (fun h => { s with host := h }) e
  by_cases q : crc16 (frameCore kind tag body) = word16 x y
  · simp only [State.mapHost_host, rxByte, ← cut, frame_end kind tag x y b, if_pos q]
    change serveFrame kind tag body (s.mapHost fun h => { h with rx := none }) = _
    rw [back]
  · simp only [State.mapHost_host, rxByte, ← cut, frame_end kind tag x y b, if_neg q]
    change (s.mapHost fun h => { h with rx := none }).mapHost _ = _
    rw [back]

/-- A frame as the host sends it is the request it carries (R181). -/
theorem hostFrame_whole (kind tag : Byte) {body : Bytes} (s : State) (b : body.length ≤ 512) (h : s.host.rx = none) :
    (frameBytes kind tag body).foldl hostByte s = serveFrame kind tag body s := by
  rw [frameBytes_eq, hostFrame_run _ _ _ _ _ b h, if_pos (word16_bytes16 _).symm]

/-! ### The engine line -/

/-- While the assembler waits for more, bytes from the engine only join it. -/
theorem engineBytes_more {bs : Bytes} : ∀ (n : Nat) (s : State), n ≤ bs.length → s.eng.rx = some [] →
    (∀ k, k ≤ n → rxJudge (bs.take k) = (some (bs.take k), .more)) →
    (bs.take n).foldl engineByte s = s.mapEng fun e => { e with rx := some (bs.take n) }
  | 0, s, _, e, _ => by
    simp only [List.take_zero, List.foldl_nil]
    rw [← e]; rfl
  | n + 1, s, h, e, m => by
    have ih := engineBytes_more n s (by omega) e fun k hk => m k (by omega)
    rw [List.take_succ_eq_append_getElem (by omega), List.foldl_append, ih]
    have j := m (n + 1) (Nat.le_refl _)
    rw [List.take_succ_eq_append_getElem (by omega)] at j
    simp only [List.foldl_cons, List.foldl_nil, engineByte, State.mapEng_eng, rxByte, j]
    rfl

/-- A whole frame on the engine line, taken while hunting, ends as its CRC decides (R126). -/
theorem engineFrame_run (kind tag : Byte) {body : Bytes} (x y : Byte) (s : State) (b : body.length ≤ 512)
    (h : s.eng.rx = none) :
    (startByte :: frameTail kind tag body x y).foldl engineByte s =
      if crc16 (frameCore kind tag body) = word16 x y then giveLine (serveEngine (parseEngine kind body) s)
      else s.mapEng fun e => { e with crcDrops := sat16 (e.crcDrops + 1) } := by
  have start : engineByte s startByte = s.mapEng fun e => { e with rx := some [] } := by
    simp [engineByte, h, rxByte_start]
  have len := frameTail_length kind tag body x y
  have cut : frameTail kind tag body x y = (frameTail kind tag body x y).take (4 + body.length + 1) ++ [y] := by
    have core : (frameCore kind tag body).length + 1 = 4 + body.length + 1 := by simp [frameCore, u16]; omega
    have : frameTail kind tag body x y = (frameCore kind tag body ++ [x]) ++ [y] := by simp [frameTail]
    rw [this, List.take_left' (by simpa using core)]
  have more := engineBytes_more (bs := frameTail kind tag body x y) (4 + body.length + 1)
    (s.mapEng fun e => { e with rx := some [] }) (by omega) rfl fun k hk => frame_more (by omega) b
  rw [List.foldl_cons, start, cut, List.foldl_append, more, List.foldl_cons, List.foldl_nil]
  unfold engineByte
  have back : (s.mapEng fun e => { e with rx := none }) = s := by
    have q : ({ s.eng with rx := none } : EngineLink) = s.eng := by rw [← h]
    exact congrArg (fun e => { s with eng := e }) q
  by_cases q : crc16 (frameCore kind tag body) = word16 x y
  · simp only [State.mapEng_eng, rxByte, ← cut, frame_end kind tag x y b, if_pos q]
    change giveLine (serveEngine (parseEngine kind body) (s.mapEng fun e => { e with rx := none })) = _
    rw [back]
  · simp only [State.mapEng_eng, rxByte, ← cut, frame_end kind tag x y b, if_neg q]
    change (s.mapEng fun e => { e with rx := none }).mapEng _ = _
    rw [back]

/-- A frame as the engine sends it is the message it carries, whatever its tag byte (R124, R126). -/
theorem engineFrame_whole (kind tag : Byte) {body : Bytes} (s : State) (b : body.length ≤ 512)
    (h : s.eng.rx = none) :
    (frameBytes kind tag body).foldl engineByte s = giveLine (serveEngine (parseEngine kind body) s) := by
  rw [frameBytes_eq, engineFrame_run _ _ _ _ _ b h, if_pos (word16_bytes16 _).symm]

end Sys2Proof.Machine
end

