-- ==== Sys2Proof/Laws/LineCourse.lean ====
section
/-!
SUPPORT. The two lines, the tick, the resets and the mount keep the course of the jobs (R26, R48, R49, R180 to R186, R190).
-/

-- One theorem after another: waiting proofs would each hold a thread.
set_option Elab.async false

namespace Sys2Proof.Machine

/-! ### The lines, the tick and the resets -/

theorem giveLine_aside (s : State) : Aside s (giveLine s) := by
  unfold giveLine
  split
  · exact Aside.refl s
  · split
    · exact mapHost_aside _ s
    · exact Aside.of_eq rfl rfl
    · exact Aside.refl s

theorem Next.given {s t : State} (n : Next s t) : Next s (giveLine t) :=
  n.aside (giveLine_aside t) (giveLine_lawful t).feed

theorem serve_next (kind ft : Byte) {owner : State → Answer} {s : State} (l : s.feed.Law) (c : s.CourseLaw)
    (h : Next s (owner s).1) : Next s (serve kind ft owner s) := by
  unfold serve
  dsimp only
  split
  · split
    · exact h.aside (mapHost_aside _ _) fun l => l
    · exact (mapHost_aside _ s).next l c
  · exact (mapHost_aside _ s).next l c
  · exact (mapHost_aside _ s).next l c

/-- A request command. -/
theorem requestEvent_next (kind ft : Byte) {owner : State → Answer} {s : State} (l : s.feed.Law) (c : s.CourseLaw)
    (h : Next s (owner s).1) : Next s (requestEvent kind ft owner s) := (serve_next kind ft l c h).given

theorem serveFrame_next (kind ft : Byte) (body : Bytes) {s : State} (l : s.feed.Law) (c : s.CourseLaw) :
    Next s (serveFrame kind ft body s) := by
  unfold serveFrame
  split
  · exact requestEvent_next kind ft l c (ownerOf_next _ l c)
  · exact requestEvent_next kind ft l c (Next.refl l c)

/-- One byte from the host (R180). -/
theorem hostByte_next (b : Byte) {s : State} (l : s.feed.Law) (c : s.CourseLaw) : Next s (hostByte s b) := by
  have rx : ∀ x, Next s (s.mapHost fun h => { h with rx := x }) := fun x => (mapHost_aside _ s).next l c
  unfold hostByte
  dsimp only
  split
  · exact rx _
  · exact (rx _).aside (mapHost_aside _ _) fun l => l
  · exact (rx _).aside (mapHost_aside _ _) fun l => l
  · exact (rx _).trans fun l c => serveFrame_next _ _ _ l c

theorem Next.foldl {α : Type} (f : State → α → State)
    (h : ∀ (s : State) (a : α), s.feed.Law → s.CourseLaw → Next s (f s a)) :
    ∀ (xs : List α) (s : State), s.feed.Law → s.CourseLaw → Next s (xs.foldl f s)
  | [], _, l, c => Next.refl l c
  | a :: xs, s, l, c => (h s a l c).trans fun l c => Next.foldl f h xs (f s a) l c

theorem hostGap_next (b : Byte) {s : State} (l : s.feed.Law) (c : s.CourseLaw) : Next s (hostGap b s) := by
  unfold hostGap
  split
  · exact ((mapHost_aside _ s).next l c).trans fun l c => hostByte_next b l c
  · exact hostByte_next b l c

/-- A message of the engine (R126). -/
theorem serveEngine_next (i : Option Instr) {s : State} (l : s.feed.Law) (c : s.CourseLaw) : Next s (serveEngine i s) := by
  unfold serveEngine
  split
  · split
    · exact stateMessage_next _ _ l c
    · exact protocolError_next l c
  · split
    · exact swathMessage_next _ _ _ _ l c
    · exact protocolError_next l c
  · split
    · exact endMessage_next _ _ l c
    · exact protocolError_next l c
  · split
    · exact (overheadDrops_aside _ s).next ((overheadDrops_keeps _ s).feed l) c
    · exact protocolError_next l c
  · exact protocolError_next l c

/-- The engine link's assembler and counters are aside. -/
theorem mapEng_aside {f : EngineLink → EngineLink} {s : State} (h : (f s.eng).ctx = s.eng.ctx) : Aside s (s.mapEng f) :=
  Aside.of_eq rfl rfl fun x hx => ⟨x, h ▸ hx, rfl⟩

theorem engineByte_next (b : Byte) {s : State} (l : s.feed.Law) (c : s.CourseLaw) : Next s (engineByte s b) := by
  have rx : ∀ x, Next s (s.mapEng fun e => { e with rx := x }) := fun x =>
    (mapEng_aside (f := fun e => { e with rx := x }) rfl).next l c
  unfold engineByte
  dsimp only
  split
  · exact rx _
  · refine (rx _).aside (t := s.mapEng fun e => { e with rx := (rxByte s.eng.rx b).1 }) ?_ fun l => l
    exact Aside.of_eq rfl rfl
  · refine (rx _).aside (t := s.mapEng fun e => { e with rx := (rxByte s.eng.rx b).1 }) ?_ fun l => l
    exact Aside.of_eq rfl rfl
  · exact ((rx _).trans fun l c => serveEngine_next _ l c).given

theorem engineGap_next (b : Byte) {s : State} (l : s.feed.Law) (c : s.CourseLaw) : Next s (engineGap b s) := by
  have drop : Aside s (s.mapEng fun e => { e with rx := none, gapDrops := sat16 (e.gapDrops + 1) }) := Aside.of_eq rfl rfl
  unfold engineGap
  split
  · exact (drop.next l c).trans fun l c => engineByte_next b l c
  · exact engineByte_next b l c

theorem engineSent_aside (s : State) : Aside s (engineSent s) := Aside.of_eq rfl rfl

theorem replyGone_aside (s : State) : Aside s (replyGone s) := by
  unfold replyGone
  split
  · exact mapHost_aside _ s
  · exact Aside.refl s

theorem CopyJobs.of_table {s t : State} (h : t.jobs = s.jobs) : CopyJobs s t :=
  CopyJobs.of_live fun i => by unfold State.liveJob; rw [h]

/-- The course's laws look at the live jobs and the order alone, of the job table. -/
theorem State.CourseLaw.of_live {s t : State} (c : s.CourseLaw) (live : ∀ i, t.liveJob i = s.liveJob i)
    (order : t.jobs.order = s.jobs.order) (feed : t.feed = s.feed) (eng : t.eng = s.eng) (chk : t.chk = s.chk) :
    t.CourseLaw := by
  refine ⟨⟨by rw [order]; exact c.order.nodup, fun k => by rw [order, live]; exact c.order.live k,
      fun k m j j' hj hj' => c.order.tags k m j j' ((live k).symm.trans hj) ((live m).symm.trans hj')⟩,
    ⟨fun k m j j' hj hj' => c.path.one k m j j' ((live k).symm.trans hj) ((live m).symm.trans hj'),
      fun k j hj => c.path.waiting k j ((live k).symm.trans hj), fun k j hj => c.path.spoil k j ((live k).symm.trans hj),
      fun x hx => ?_, fun x hx => ?_, fun p k j hj => c.path.backFeed (feed ▸ p) k j ((live k).symm.trans hj),
      fun p k j hj => c.path.cut (feed ▸ p) k j ((live k).symm.trans hj),
      fun k j hj => c.path.commits k j ((live k).symm.trans hj)⟩,
    ⟨?_, fun k j hj => c.media.held k j ((live k).symm.trans hj), fun k j hj => c.media.closed k j ((live k).symm.trans hj),
      by rw [feed]; exact c.media.reach, by rw [feed]; exact c.media.load⟩⟩
  · obtain ⟨k, j, hj, p⟩ := c.path.engine x (eng ▸ hx)
    exact ⟨k, j, (live k).trans hj, p⟩
  · obtain ⟨j, hj, p⟩ := c.path.checker x (chk ▸ hx)
    exact ⟨j, (live _).trans hj, p⟩
  · have := c.media.fits
    rw [reserved_eq] at this ⊢
    simp only [live, order, feed]
    exact this

/-- A RELEASING slot that becomes FREE leaves the order and the live jobs (R1). -/
theorem freeSlot_live (sub : Subject) (s : State) :
    (freeSlot sub s).jobs.order = s.jobs.order ∧ (∀ k, (freeSlot sub s).liveJob k = s.liveJob k) ∧
      (freeSlot sub s).feed = s.feed ∧ (freeSlot sub s).eng = s.eng ∧ (freeSlot sub s).chk = s.chk ∧
      (freeSlot sub s).ed = s.ed := by
  unfold freeSlot
  split
  · next i =>
    split
    · next h =>
      refine ⟨rfl, fun k => ?_, rfl, rfl, rfl, rfl⟩
      rw [liveJob_set (s := s) (i := i) (x := .free) rfl]
      split
      · next e =>
        subst e
        rw [liveJob_eq_job]
        cases e : s.jobs.slots[k] with
        | free => rfl
        | live j => rw [e] at h; simp [Slot.isReleasing] at h
        | releasing j => rfl
      · rfl
    · exact ⟨rfl, fun _ => rfl, rfl, rfl, rfl, rfl⟩
  · exact ⟨rfl, fun _ => rfl, rfl, rfl, rfl, rfl⟩

/-- The end of a notice (R186). -/
theorem noticeGone_live (s : State) :
    (noticeGone s).jobs.order = s.jobs.order ∧ (∀ k, (noticeGone s).liveJob k = s.liveJob k) ∧
      (noticeGone s).feed = s.feed ∧ (noticeGone s).eng = s.eng ∧ (noticeGone s).chk = s.chk ∧
      (noticeGone s).ed = s.ed := by
  unfold noticeGone
  split
  · next sub rel _ _ _ =>
    cases rel with
    | false => exact ⟨rfl, fun _ => rfl, rfl, rfl, rfl, rfl⟩
    | true => exact freeSlot_live sub s
  · exact ⟨rfl, fun _ => rfl, rfl, rfl, rfl, rfl⟩

theorem tickStrip_aside (s : State) : Aside s (s.mapChk Checker.tick) :=
  Aside.of_eq rfl rfl (fun x h => ⟨x, h, rfl⟩) fun x hx => by
    obtain ⟨y, hy, rfl⟩ := Option.map_eq_some_iff.1
      (show s.chk.ctx.map (fun x => { x with dwell := x.dwell.map (· - 1) }) = some x from hx)
    exact ⟨y, hy, rfl⟩

/-- The passing of a millisecond (log 1). -/
theorem tick_aside (s : State) : Aside s (tick s) := by
  unfold tick
  refine Aside.trans ?_ (tickStrip_aside _)
  refine Aside.trans ?_ (mapEd_aside StoreStep.tick)
  refine Aside.trans ?_ (mapInk_aside _ _)
  refine Aside.trans ?_ (Aside.mapFeed (fun h => h) (fun h => ?_) (Nat.le_refl _) (fun h => h) fun h => h)
  · exact mapContext_aside s
  · simpa [Feed.cutting, Feed.tick] using h

/-- The copy numbers after a reset are those of no job (R26), and the flash holds what it held (R49). -/
theorem resetAll_copy (rate1 rate0 : Bool) {flash : Vector FlashBlock 6} (s : State)
    (good : ∀ (p : PBlock) (k : Fin 16), flash[p].images[k].Law) : (resetAll rate1 rate0 flash s).CopyLaw := by
  have no : ∀ i, (resetAll rate1 rate0 flash s).liveJob i = none := fun i => by
    rw [liveJob_eq_job]
    simp [resetAll, JobTable.atReset, Slot.job]
  have keeps : ∀ i x, ¬ (resetAll rate1 rate0 flash s).keeps i x := fun i x ⟨j, hj, _⟩ => by rw [no] at hj; cases hj
  have waits : ∀ i x g, ¬ (resetAll rate1 rate0 flash s).waits i x g := fun i x g ⟨⟨j, hj, _⟩, _⟩ => by
    rw [no] at hj; cases hj
  have image : ∀ e : EdIx, (Editions.atReset flash).image[e] = EdImage.emptySlot := fun e => by simp [Editions.atReset]
  have bare : ∀ e : EdIx, (Editions.atReset flash).unrec[e] = [] ∧ (Editions.atReset flash).resv[e] = [] := fun e => by
    simp [Editions.atReset]
  have numbers : ∀ e : EdIx, (Editions.atReset flash).numbers e = [] := fun e => by
    unfold Editions.numbers
    rw [image, (bare e).1, (bare e).2]
    rfl
  refine ⟨⟨Editions.atReset_law flash, fun e => ?_, fun e n hn => ?_, fun e _ => ?_, fun e f id h => ?_, good,
    fun r h => (nomatch h), fun _ => bare, fun h => (nomatch h)⟩, fun _ i j h => (by rw [no] at h; cases h),
    fun i x h => absurd h (keeps i x), fun i k x y h => absurd h (keeps i x), fun i j h => (by rw [no] at h; cases h),
    fun i x g h => absurd h (waits i x g), fun i k x y g h w => absurd w (waits i x g)⟩
  · change ((Editions.atReset flash).numbers e).Nodup
    rw [numbers]; exact List.nodup_nil
  · change n ∈ (Editions.atReset flash).numbers e at hn
    rw [numbers] at hn; cases hn
  · change (Editions.atReset flash).image[e].limit = 0
    rw [image]; rfl
  · have := h.1
    change (Editions.atReset flash).image[e].isEdition = true at this
    rw [image] at this
    cases this

/-- A programming that the loss of power ends leaves images that obey R27 (R49). -/
theorem flashAfterLoss_good (flight : FlightEnd) {d : Editions} (l : d.CopyLaw) (p : PBlock) (k : Fin 16) :
    ((flashAfterLoss flight d)[p].images[k]).Law := by
  unfold flashAfterLoss
  split
  · split
    · exact flash_erased l.flash _ p k
    · exact flash_marked l.flash _ .complete p k
    · exact l.flash p k
  · exact l.flash p k

/-! ### The mount (R46 to R48) -/

theorem retireWorn_same (marks : Vector Bool 6) {d : Editions} (flash : ∀ (p : PBlock) (k : Fin 16), d.flash[p].images[k].Law) :
    ∃ (t : Vector BlockInfo 6) (f : Vector FlashBlock 6), d.retireWorn marks = { d with table := t, flash := f } ∧
      ∀ (p : PBlock) (k : Fin 16), f[p].images[k].Law := by
  have key : ∀ (xs : List PBlock) (c : Editions), (∃ (t : Vector BlockInfo 6) (f : Vector FlashBlock 6),
      c = { d with table := t, flash := f } ∧ ∀ (p : PBlock) (k : Fin 16), f[p].images[k].Law) →
      ∃ (t : Vector BlockInfo 6) (f : Vector FlashBlock 6), xs.foldl (fun d p => d.retire p marks[p]) c
        = { d with table := t, flash := f } ∧ ∀ (p : PBlock) (k : Fin 16), f[p].images[k].Law := by
    intro xs
    induction xs with
    | nil => intro c h; exact h
    | cons p ps ih =>
      rintro c ⟨t, f, rfl, h⟩
      refine ih _ ?_
      beta_reduce
      unfold Editions.retire
      dsimp only
      split
      · exact ⟨_, _, rfl, flash_marked h p .retired⟩
      · exact ⟨_, f, rfl, h⟩
  exact key _ d ⟨d.table, d.flash, rfl, flash⟩

/-- What a mount leaves of the table before its images are read. -/
structure Unmounted (d e : Editions) : Prop where
  image : ∀ x : EdIx, e.image[x].Law
  unrec : e.unrec = d.unrec
  resv : e.resv = d.resv
  flash : ∀ (p : PBlock) (k : Fin 16), e.flash[p].images[k].Law
  rot : e.rot = d.rot
  formatting : e.formatting = d.formatting

/-- The table may change its images while it mounts. -/
theorem Unmounted.withImage {d e : Editions} (u : Unmounted d e) {v : Vector EdImage 64} (h : ∀ x : EdIx, v[x].Law)
    (change : Vector Nat 4) (writes : List LBlock) : Unmounted d { e with image := v, change := change, writes := writes } :=
  ⟨h, u.unrec, u.resv, u.flash, u.rot, u.formatting⟩

theorem Unmounted.loadBlock {d e : Editions} (u : Unmounted d e) (b : LBlock) {v : Vector EdImage 16}
    (good : ∀ k : Fin 16, v[k].Law) : Unmounted d (e.loadBlock b v) := by
  refine u.withImage (v := (e.loadBlock b v).image) (fun x => ?_) e.change e.writes
  unfold Editions.loadBlock
  simp only [Fin.getElem_fin, Vector.getElem_ofFn]
  split
  · exact good ⟨x.val % 16, by omega⟩
  · exact u.image x

theorem Unmounted.imageChange {d e : Editions} (u : Unmounted d e) (b : LBlock) : Unmounted d (e.imageChange b) :=
  u.withImage u.image _ _

theorem Unmounted.loadBest {d e : Editions} (u : Unmounted d e) (b : LBlock) : Unmounted d (e.loadBest b) := by
  unfold Editions.loadBest
  split
  · next p _ => exact u.loadBlock b (u.flash p)
  · refine (u.loadBlock b (v := Vector.replicate 16 EdImage.lostSlot) fun k => ?_).imageChange b
    simpa using EdImage.lostSlot_law

/-- The images that a mount ends with obey R27, and no number is held. -/
theorem mounted_law {d : Editions} {marks : Vector Bool 6} (l : d.CopyLaw) (h : d.store = .mounting)
    (law : ((d.readHeaders.retireWorn marks).loadImages.endMount).Law)
    (ids : ((d.readHeaders.retireWorn marks).loadImages.endMount).DistinctIds) (rot : d.rot = none)
    (format : d.formatting = false) : ((d.readHeaders.retireWorn marks).loadImages.endMount).CopyLaw := by
  obtain ⟨t, f, e, flash⟩ := retireWorn_same marks (d := d.readHeaders) l.flash
  have start : Unmounted d (d.readHeaders.retireWorn marks) := by
    rw [e]; exact ⟨fun x => l.imageLaw x, rfl, rfl, flash, rfl, rfl⟩
  have u : Unmounted d (d.readHeaders.retireWorn marks).loadImages := by
    unfold Editions.loadImages
    have key : ∀ (xs : List LBlock) (e : Editions), Unmounted d e → Unmounted d (xs.foldl Editions.loadBest e) := by
      intro xs
      induction xs with
      | nil => exact fun _ u => u
      | cons b bs ih => exact fun e u => ih _ (u.loadBest b)
    exact key _ _ start
  generalize (d.readHeaders.retireWorn marks).loadImages = m at law ids u
  have v : Unmounted d m.endMount ∧ m.endMount.store ≠ .mounting := by
    unfold Editions.endMount
    split
    · exact ⟨⟨u.image, u.unrec, u.resv, u.flash, u.rot, u.formatting⟩, by simp⟩
    · exact ⟨⟨u.image, u.unrec, u.resv, u.flash, u.rot, u.formatting⟩, by simp⟩
  generalize m.endMount = n at law ids v
  obtain ⟨v, st⟩ := v
  have numbers : ∀ x, n.numbers x = n.image[x].issued := fun x => by
    unfold Editions.numbers
    rw [v.unrec, v.resv, (l.mounting h x).1, (l.mounting h x).2]
    simp
  refine ⟨law, fun x => by rw [numbers]; exact (v.image x).nodup, fun x k hk => ?_, fun x => (v.image x).absent, ids, v.flash,
    fun r hr => ?_, fun m => absurd m st, fun m => ?_⟩
  · rw [numbers] at hk; exact (v.image x).range k hk
  · rw [v.rot, rot] at hr; cases hr
  · rw [v.formatting, format] at m; cases m

/-- A format leaves an empty table (R46). -/
theorem format_copy {d : Editions} {marks : Vector Bool 6} (l : d.CopyLaw) (h : d.store = .mounting)
    (law : (d.readHeaders.retireWorn marks).format.Law) (rot : d.rot = none) :
    (d.readHeaders.retireWorn marks).format.CopyLaw := by
  obtain ⟨t, f, e, flash⟩ := retireWorn_same marks (d := d.readHeaders) l.flash
  rw [e] at law ⊢
  generalize hn : Editions.format { d.readHeaders with table := t, flash := f } = n at law
  have image : ∀ x : EdIx, n.image[x] = EdImage.emptySlot := fun x => by rw [← hn]; simp [Editions.format]
  have unrec : n.unrec = d.unrec := by rw [← hn]; rfl
  have resv : n.resv = d.resv := by rw [← hn]; rfl
  have numbers : ∀ x, n.numbers x = [] := fun x => by
    unfold Editions.numbers
    rw [image, unrec, resv, (l.mounting h x).1, (l.mounting h x).2]
    rfl
  refine ⟨law, fun x => by rw [numbers]; exact List.nodup_nil, fun x k hk => (by rw [numbers] at hk; cases hk),
    fun x _ => (by rw [image]; rfl), fun x y id hx => ?_, by rw [← hn]; exact flash, fun r hr => ?_,
    fun _ => by rw [unrec, resv]; exact l.mounting h, fun _ => by rw [← hn]; exact h⟩
  · have := hx.1
    rw [image] at this
    cases this
  · rw [← hn] at hr
    have : d.rot = some r := hr
    rw [rot] at this; cases this

/-- The editions of the slots stay, and whether the headers have been read. -/
structure SameIds (d e : Editions) : Prop where
  holds : ∀ (x : EdIx) (id : Nat), e.holds x id ↔ d.holds x id
  headers : e.headersRead = d.headersRead

theorem SameIds.refl (d : Editions) : SameIds d d := ⟨fun _ _ => Iff.rfl, rfl⟩
theorem SameIds.trans {d e f : Editions} (a : SameIds d e) (b : SameIds e f) : SameIds d f :=
  ⟨fun x id => (b.holds x id).trans (a.holds x id), b.headers.trans a.headers⟩
theorem SameIds.of_image {d e : Editions} (h : e.image = d.image) (headers : e.headersRead = d.headersRead) : SameIds d e :=
  ⟨fun x id => by unfold Editions.holds; rw [h], headers⟩

theorem unrecord_ids (id copy : Nat) (d : Editions) : SameIds d (d.unrecord id copy) := by
  unfold Editions.unrecord
  split
  · next e _ =>
    refine ⟨fun x n => ?_, rfl⟩
    have k := holds_modify (d := d) (e := e) (f := fun m => { m with issued := m.issued.erase copy }) ⟨rfl, rfl, rfl⟩ x
    unfold Editions.holds
    dsimp only
    rw [k.1, k.2.1]
  · exact SameIds.refl d

theorem departIfReady_ed (i : JobIx) (s : State) : (departIfReady i s).ed = s.ed := by
  unfold departIfReady
  split
  · split <;> rfl
  · rfl

theorem failCommit_ids (s : State) (i : JobIx) : SameIds s.ed (failCommit s i).ed := by
  unfold failCommit
  split
  · next j _ =>
    dsimp only
    rw [departIfReady_ed, changeJob_ed]
    rw [State.mapCost_ed, State.mapEd_ed]
    cases j.edition with
    | none => exact SameIds.refl _
    | some x => exact unrecord_ids x.id x.copy s.ed
  · exact SameIds.refl _

theorem failCommits_ids : ∀ (xs : List JobIx) (s : State), SameIds s.ed (xs.foldl failCommit s).ed
  | [], _ => SameIds.refl _
  | i :: xs, s => (failCommit_ids s i).trans (failCommits_ids xs _)

theorem storeFail_ids (s : State) : SameIds s.ed (storeFail s).ed := by
  have noticed : ∀ v : State, SameIds s.ed v.ed → SameIds s.ed (notify .store v).ed := fun _ h => h
  unfold storeFail
  refine noticed _ (SameIds.trans ?_ (failCommits_ids _ _))
  exact SameIds.of_image rfl rfl

theorem beginWrite_ids (b : LBlock) (images : Vector EdImage 16) (gen : Nat) (s : State) :
    SameIds s.ed (beginWrite b images gen s).ed := by
  unfold beginWrite
  split
  · exact SameIds.of_image rfl rfl
  · exact storeFail_ids s

/-- A rotation leaves the editions of the slots. -/
theorem beginRotation_ids (s : State) : SameIds s.ed (beginRotation s).ed := by
  unfold beginRotation
  split
  · split
    · exact SameIds.refl _
    · next rest _ =>
      exact (SameIds.of_image (d := s.ed) (e := { s.ed with writes := rest }) rfl rfl).trans
        (beginWrite_ids _ _ _ (s.mapEd fun d => { d with writes := rest }))
  · exact SameIds.refl _

theorem SameIds.distinct {d e : Editions} (a : SameIds d e) (l : e.DistinctIds) : d.DistinctIds := fun x y id hx hy =>
  l x y id ((a.holds x id).2 hx) ((a.holds y id).2 hy)

/-- Where the images that a mount has read hold no id twice, the copy numbers obey their law (R28, R48). -/
theorem mountHeaders_copy (marks : Vector Bool 6) {s : State} (c : s.CopyLaw) (unread : s.ed.headersRead = false)
    (ids : (mountHeaders marks s).ed.DistinctIds) : (mountHeaders marks s).CopyLaw := by
  obtain ⟨mounting, format, rot⟩ := c.table.store.unread unread
  have hr : (s.ed.readHeaders.retireWorn marks).headersRead = true := retireWorn_headers marks _
  have bare : ∀ i x, ¬ s.keeps i x := fun i x ⟨j, hj, e⟩ => by
    have := c.mounting mounting i j hj
    simp [Job.holdsCopy, this] at e
  have free : ∀ (t : State), t.jobs = s.jobs → t.ed.CopyLaw → t.CopyLaw := fun t jobs table => by
    have live : ∀ k, t.liveJob k = s.liveJob k := fun k => by unfold State.liveJob; rw [jobs]
    have none_ : ∀ i j, t.liveJob i = some j → j.edition = none := fun i j hj =>
      c.mounting mounting i j ((live i).symm.trans hj)
    refine ⟨table, fun _ => none_, fun i x ⟨j, hj, e⟩ => ?_, fun i k x y ⟨j, hj, e⟩ => ?_,
      fun i j hj => c.finished i j ((live i).symm.trans hj), fun i x g ⟨⟨j, hj, _, e, _⟩, _⟩ => ?_,
      fun i k x y g h ⟨⟨j, hj, _, e, _⟩, _⟩ => ?_⟩
    · exact absurd ⟨j, (live i).symm.trans hj, e⟩ (bare i x)
    · exact absurd ⟨j, (live i).symm.trans hj, e⟩ (bare i x)
    · rw [none_ i j hj] at e; cases e
    · rw [none_ i j hj] at e; cases e
  have mounted : ∀ d : Editions, (d.DistinctIds → d.CopyLaw) →
      (beginRotation (notify .store (s.mapEd fun _ => d))).ed.DistinctIds →
        (beginRotation (notify .store (s.mapEd fun _ => d))).CopyLaw := fun d table ids =>
    (beginRotation_aside _).queue.copy (free (notify .store (s.mapEd fun _ => d)) rfl
      (table ((beginRotation_ids (notify .store (s.mapEd fun _ => d))).distinct ids)))
  have formatted : ∀ d : Editions, d.CopyLaw → ∀ same : Prop, [Decidable same] →
      (beginRotation (if same then s.mapEd fun _ => d else notify .store (s.mapEd fun _ => d))).CopyLaw :=
    fun d table same => by
      intro _
      refine (beginRotation_aside _).queue.copy ?_
      split
      · exact free _ rfl table
      · exact free (notify .store (s.mapEd fun _ => d)) rfl table
  unfold mountHeaders at ids ⊢
  dsimp only at ids ⊢
  split
  · next full =>
    rw [if_pos full] at ids
    exact mounted _ (fun ids => mounted_law c.table mounting
      ((c.table.store.readHeaders.retireWorn marks).mounted hr) ids rot format) ids
  · exact formatted _ (format_copy c.table mounting (Editions.format_law hr ((retireWorn_rot marks _).trans rot)) rot) _

theorem format_read (d : Editions) : d.format.headersRead = d.headersRead := rfl

theorem endMount_read (d : Editions) : d.endMount.headersRead = d.headersRead := by
  unfold Editions.endMount
  split <;> rfl

/-- A mount has read the headers (R48). -/
theorem mountHeaders_read (marks : Vector Bool 6) (s : State) (l : (s.ed.readHeaders.retireWorn marks).Law) :
    (mountHeaders marks s).ed.headersRead = true := by
  have hr : (s.ed.readHeaders.retireWorn marks).headersRead = true := retireWorn_headers marks _
  have noticed : ∀ (d : Editions) (same : Prop) [Decidable same], d.headersRead = true →
      (beginRotation (if same then s.mapEd fun _ => d else notify .store (s.mapEd fun _ => d))).ed.headersRead = true :=
    fun d same _ h => by
      refine (beginRotation_ids _).headers.trans ?_
      split <;> exact h
  unfold mountHeaders
  dsimp only
  split
  · refine (beginRotation_ids _).headers.trans (Eq.trans ?_ (Editions.Law.loadImages ⟨l, hr⟩).2)
    generalize (s.ed.readHeaders.retireWorn marks).loadImages = d
    exact endMount_read d
  · exact noticed (s.ed.readHeaders.retireWorn marks).format _ (by rw [format_read]; exact hr)

/-- A mount leaves the course (R46 to R48). -/
theorem mountHeaders_live (marks : Vector Bool 6) (s : State) :
    ∃ v : State, v.jobs = s.jobs ∧ v.feed = s.feed ∧ v.eng = s.eng ∧ v.chk = s.chk ∧
      mountHeaders marks s = beginRotation v := by
  have noticed : ∀ (d : Editions) (same : Prop) [Decidable same],
      ∃ v : State, v.jobs = s.jobs ∧ v.feed = s.feed ∧ v.eng = s.eng ∧ v.chk = s.chk ∧
        beginRotation (if same then s.mapEd fun _ => d else notify .store (s.mapEd fun _ => d)) = beginRotation v :=
    fun d same _ => by
      split
      · exact ⟨s.mapEd fun _ => d, rfl, rfl, rfl, rfl, rfl⟩
      · exact ⟨notify .store (s.mapEd fun _ => d), rfl, rfl, rfl, rfl, rfl⟩
  unfold mountHeaders
  dsimp only
  split
  · exact noticed (_ : Editions) False
  · exact noticed (_ : Editions) _

end Sys2Proof.Machine
end

