-- ==== Sys2Proof/Laws/Operands.lean ====
section
/-!
SUPPORT. Bodies written and read back (R126, R181, R191, R192, R194): the command that a body spells is the command that
wrote it.
-/

-- One theorem after another: waiting proofs would each hold a thread.
set_option Elab.async false

namespace Sys2Proof.Machine

/-! ### Fields at an offset -/

/-- The byte at the end of what stands before it. -/
theorem byteAt_append (xs : Bytes) (b : Byte) (ys : Bytes) : byteAt (xs ++ b :: ys) xs.length = b := by
  simp [byteAt, List.getD_eq_getElem?_getD]

theorem byteAt_append_add (xs ys : Bytes) (k : Nat) : byteAt (xs ++ ys) (xs.length + k) = byteAt ys k := by
  simp [byteAt, List.getD_eq_getElem?_getD, List.getElem?_append_right]

theorem u16At_append (xs : Bytes) (w : U16) (ys : Bytes) : u16At (xs ++ (bytes16 w ++ ys)) xs.length = w := by
  have a := byteAt_append_add xs (bytes16 w ++ ys) 0
  have b := byteAt_append_add xs (bytes16 w ++ ys) 1
  unfold u16At
  rw [b]
  rw [Nat.add_zero] at a
  rw [a]
  exact word16_bytes16 w

theorem word32_bytes32 (w : U32) :
    word32 (w.extractLsb' 0 8) (w.extractLsb' 8 8) (w.extractLsb' 16 8) (w.extractLsb' 24 8) = w := by
  apply BitVec.eq_of_toNat_eq
  simp only [word32, BitVec.toNat_append, BitVec.extractLsb'_toNat]
  have := w.isLt
  rw [← Nat.shiftLeft_add_eq_or_of_lt (b := (w.toNat >>> 0) % 2 ^ 8) (by omega),
    ← Nat.shiftLeft_add_eq_or_of_lt (b := (w.toNat >>> 16) % 2 ^ 8) (by omega),
    ← Nat.shiftLeft_add_eq_or_of_lt (by simp only [Nat.shiftLeft_eq, Nat.shiftRight_eq_div_pow]; omega)]
  simp only [Nat.shiftLeft_eq, Nat.shiftRight_eq_div_pow]
  omega

theorem u32At_append (xs : Bytes) (w : U32) (ys : Bytes) : u32At (xs ++ (bytes32 w ++ ys)) xs.length = w := by
  have a := byteAt_append_add xs (bytes32 w ++ ys) 0
  have b := byteAt_append_add xs (bytes32 w ++ ys) 1
  have c := byteAt_append_add xs (bytes32 w ++ ys) 2
  have d := byteAt_append_add xs (bytes32 w ++ ys) 3
  unfold u32At
  rw [b, c, d]
  rw [Nat.add_zero] at a
  rw [a]
  exact word32_bytes32 w

theorem bytes16_length (w : U16) : (bytes16 w).length = 2 := rfl
theorem bytes32_length (w : U32) : (bytes32 w).length = 4 := rfl
theorem pairBytes_length (p : Byte × U32) : (pairBytes p).length = 5 := rfl
theorem updateBytes_length (u : PatchUpdate) : (updateBytes u).length = 9 := rfl

/-! ### Lists -/

theorem flatMap_length {α : Type} (f : α → Bytes) (k : Nat) (h : ∀ a, (f a).length = k) :
    ∀ xs : List α, (xs.flatMap f).length = k * xs.length
  | [] => by simp
  | a :: xs => by
    rw [List.flatMap_cons, List.length_append, flatMap_length f k h xs, h, List.length_cons, Nat.mul_succ, Nat.add_comm]

theorem wordsAt_flatMap : ∀ (ws : List U16) (xs ys : Bytes),
    wordsAt (xs ++ (ws.flatMap bytes16 ++ ys)) xs.length ws.length = ws
  | [], _, _ => rfl
  | w :: ws, xs, ys => by
    have ih := wordsAt_flatMap ws (xs ++ bytes16 w) ys
    rw [List.length_append, bytes16_length] at ih
    simp only [List.append_assoc] at ih
    rw [List.flatMap_cons, List.length_cons, List.append_assoc]
    unfold wordsAt
    rw [u16At_append, ih]

theorem pairsAt_flatMap : ∀ (ps : List (Byte × U32)) (xs ys : Bytes),
    pairsAt (xs ++ (ps.flatMap pairBytes ++ ys)) xs.length ps.length = ps
  | [], _, _ => rfl
  | p :: ps, xs, ys => by
    have ih := pairsAt_flatMap ps (xs ++ pairBytes p) ys
    rw [List.length_append, pairBytes_length] at ih
    simp only [List.append_assoc] at ih
    rw [List.flatMap_cons, List.length_cons, List.append_assoc]
    unfold pairsAt
    have a := byteAt_append xs p.1 (bytes32 p.2 ++ (ps.flatMap pairBytes ++ ys))
    have b := u32At_append (xs ++ [p.1]) p.2 (ps.flatMap pairBytes ++ ys)
    rw [List.length_append, List.length_singleton, List.append_assoc] at b
    change (byteAt (xs ++ p.1 :: (bytes32 p.2 ++ (ps.flatMap pairBytes ++ ys))) xs.length,
      u32At (xs ++ p.1 :: (bytes32 p.2 ++ (ps.flatMap pairBytes ++ ys))) (xs.length + 1)) :: _ = _
    rw [a]
    change _ :: pairsAt (xs ++ (pairBytes p ++ (ps.flatMap pairBytes ++ ys))) (xs.length + 5) ps.length = _
    rw [ih]
    exact congrArg (· :: ps) (Prod.ext rfl b)

theorem updatesAt_flatMap : ∀ (us : List PatchUpdate) (xs ys : Bytes),
    updatesAt (xs ++ (us.flatMap updateBytes ++ ys)) xs.length us.length = us
  | [], _, _ => rfl
  | u :: us, xs, ys => by
    have ih := updatesAt_flatMap us (xs ++ updateBytes u) ys
    rw [List.length_append, updateBytes_length] at ih
    simp only [List.append_assoc] at ih
    rw [List.flatMap_cons, List.length_cons, List.append_assoc]
    unfold updatesAt
    rw [ih]
    have at_ := fun k => byteAt_append_add xs (updateBytes u ++ (us.flatMap updateBytes ++ ys)) k
    have a := at_ 0
    rw [Nat.add_zero] at a
    simp only [u16At, Nat.add_assoc, a, at_]
    congr 1
    cases u
    simp only [PatchUpdate.mk.injEq]
    exact ⟨rfl, rfl, word16_bytes16 _, word16_bytes16 _, word16_bytes16 _, rfl⟩

/-! ### Bodies with lists -/

theorem ofNat8_toNat {n : Nat} (h : n < 256) : (BitVec.ofNat 8 n).toNat = n := by
  rw [BitVec.toNat_ofNat]; omega

theorem orderBody_length (o : JobOrder) : (orderBody o).length = 14 + 2 * o.cuts.length + 5 * o.est.length := by
  simp only [orderBody, List.length_append, flatMap_length bytes16 2 bytes16_length,
    flatMap_length pairBytes 5 pairBytes_length, bytes16_length, bytes32_length, u8, List.length_cons, List.length_nil]

/-- An order's body of an admitted size is read back (R5, R192). -/
theorem parseOrder_orderBody (o : JobOrder) (h : (orderBody o).length ≤ 70) : parseOrder (orderBody o) = some o := by
  have len := orderBody_length o
  have c : (byteAt (orderBody o) 5).toNat = o.cuts.length := by
    change (BitVec.ofNat 8 o.cuts.length).toNat = _
    exact ofNat8_toNat (by omega)
  have e : (byteAt (orderBody o) 6).toNat = o.est.length := by
    change (BitVec.ofNat 8 o.est.length).toNat = _
    exact ofNat8_toNat (by omega)
  have pre : (bytes16 o.tag ++ bytes16 o.printLen ++ [o.mode] ++ u8 o.cuts.length ++ u8 o.est.length ++ [0]
    ++ bytes32 o.edition ++ bytes16 o.copy).length = 14 := rfl
  have w := wordsAt_flatMap o.cuts (bytes16 o.tag ++ bytes16 o.printLen ++ [o.mode] ++ u8 o.cuts.length
    ++ u8 o.est.length ++ [0] ++ bytes32 o.edition ++ bytes16 o.copy) (o.est.flatMap pairBytes)
  have p := pairsAt_flatMap o.est (bytes16 o.tag ++ bytes16 o.printLen ++ [o.mode] ++ u8 o.cuts.length
    ++ u8 o.est.length ++ [0] ++ bytes32 o.edition ++ bytes16 o.copy ++ o.cuts.flatMap bytes16) []
  rw [List.length_append, pre, flatMap_length bytes16 2 bytes16_length, List.append_nil] at p
  rw [pre, ← List.append_assoc] at w
  unfold parseOrder
  dsimp only
  rw [c, e, if_pos len]
  have w' : wordsAt (orderBody o) 14 o.cuts.length = o.cuts := w
  have p' : pairsAt (orderBody o) (14 + 2 * o.cuts.length) o.est.length = o.est := p
  rw [w', p']
  congr 1
  cases o
  simp only [JobOrder.mk.injEq, and_true]
  refine ⟨word16_bytes16 _, word16_bytes16 _, rfl, word32_bytes32 _, word16_bytes16 _⟩

/-- A list of updates is read back (R140). -/
theorem parseUpdates_updates (us : List PatchUpdate) (h : us.length < 256) :
    parseUpdates (u8 us.length ++ us.flatMap updateBytes) = some us := by
  have c : (byteAt (u8 us.length ++ us.flatMap updateBytes) 0).toNat = us.length := by
    change (BitVec.ofNat 8 us.length).toNat = _
    exact ofNat8_toNat h
  have w := updatesAt_flatMap us (u8 us.length) []
  rw [List.append_nil] at w
  unfold parseUpdates
  dsimp only
  rw [c, if_pos (by rw [List.length_append, flatMap_length updateBytes 9 updateBytes_length]; simp [u8])]
  exact congrArg some w

/-! ### Requests -/

theorem pricesBody_length (p : PriceArgs) : (pricesBody p).length = 76 := by
  simp only [pricesBody, List.length_append, flatMap_length bytes32 4 bytes32_length, bytes32_length,
    Vector.length_toList]

/-- A price list is read back. -/
theorem parsePrices_pricesBody (p : PriceArgs) : parsePrices (pricesBody p) = p := by
  have split : ∀ {n : Nat} (v : Vector U32 n) (i : Nat) (h : i < n) (xs ys : Bytes),
      u32At (xs ++ (v.toList.flatMap bytes32 ++ ys)) (xs.length + 4 * i) = v[i] := by
    intro n v i h xs ys
    have l : i < v.toList.length := by simpa using h
    have cut : v.toList = v.toList.take i ++ v[i] :: v.toList.drop (i + 1) := by
      have := List.take_append_drop i v.toList
      rw [List.drop_eq_getElem_cons l] at this
      simpa using this.symm
    have len : (xs ++ (v.toList.take i).flatMap bytes32).length = xs.length + 4 * i := by
      rw [List.length_append, flatMap_length bytes32 4 bytes32_length, List.length_take]; omega
    have r := u32At_append (xs ++ (v.toList.take i).flatMap bytes32) v[i] ((v.toList.drop (i + 1)).flatMap bytes32 ++ ys)
    rw [len] at r
    rw [cut, List.flatMap_append, List.flatMap_cons]
    simpa only [List.append_assoc] using r
  cases p with
  | mk ink media cut =>
    simp only [parsePrices, PriceArgs.mk.injEq]
    refine ⟨?_, ?_, ?_⟩
    · refine Vector.ext fun i h => ?_
      rw [Vector.getElem_ofFn]
      have := split ink i h [] (media.toList.flatMap bytes32 ++ bytes32 cut)
      simpa only [pricesBody, List.nil_append, List.length_nil, Nat.zero_add, List.append_assoc] using this
    · refine Vector.ext fun i h => ?_
      rw [Vector.getElem_ofFn]
      have := split media i h (ink.toList.flatMap bytes32) (bytes32 cut)
      rw [flatMap_length bytes32 4 bytes32_length, Vector.length_toList] at this
      have e : 4 * 10 + 4 * i = 40 + 4 * i := rfl
      rw [e] at this
      simpa only [pricesBody, List.append_assoc] using this
    · have := u32At_append (ink.toList.flatMap bytes32 ++ media.toList.flatMap bytes32) cut []
      rw [List.length_append, flatMap_length bytes32 4 bytes32_length, flatMap_length bytes32 4 bytes32_length,
        Vector.length_toList, Vector.length_toList, List.append_nil] at this
      exact this

theorem parseFeedProfile_body (p : FeedProfileArgs) : parseFeedProfile (feedProfileBody p) = p := by
  cases p
  simp only [parseFeedProfile, FeedProfileArgs.mk.injEq]
  exact ⟨word16_bytes16 _, rfl, rfl, word16_bytes16 _, rfl, word16_bytes16 _, rfl, rfl, rfl, rfl, word16_bytes16 _⟩

theorem parseInkProfile_body (ch : Byte) (p : InkProfileArgs) : parseInkProfile ([ch] ++ inkProfileBody p) = p := by
  cases p
  simp only [parseInkProfile, InkProfileArgs.mk.injEq]
  exact ⟨rfl, word16_bytes16 _, word16_bytes16 _, word16_bytes16 _, word16_bytes16 _, word16_bytes16 _⟩

theorem parseStripProfile_body (p : StripProfileArgs) : parseStripProfile (stripProfileBody p) = p := by
  cases p
  simp only [parseStripProfile, StripProfileArgs.mk.injEq]
  exact ⟨rfl, rfl, rfl, rfl, rfl, rfl, rfl, word16_bytes16 _, word16_bytes16 _, rfl, word16_bytes16 _, word16_bytes16 _,
    rfl, word16_bytes16 _, word16_bytes16 _, word16_bytes16 _⟩

/-- A request's body is within the frame's limit (R179, R192). -/
theorem requestBody_length {i : Instr} {k ft : Byte} {b : Bytes} (w : i.wellFormed = true)
    (h : requestBody i = some (k, ft, b)) : b.length ≤ 512 := by
  cases i <;> simp only [requestBody, Option.some.injEq, Prod.mk.injEq, reduceCtorEq] at h <;>
    obtain ⟨rfl, rfl, rfl⟩ := h
  case submitJob => have := of_decide_eq_true w; omega
  case setPatches ft us =>
    have : us.length ≤ 4 := of_decide_eq_true w
    rw [List.length_append, flatMap_length updateBytes 9 updateBytes_length]
    simp [u8]; omega
  case loadPrices => rw [pricesBody_length]; omega
  all_goals simp [bytes16, bytes32, feedProfileBody, inkProfileBody, stripProfileBody]

/-- The command that a request's frame spells is the command that wrote it (R181). -/
theorem parseRequest_requestBody {i : Instr} {k ft : Byte} {b : Bytes} (w : i.wellFormed = true)
    (h : requestBody i = some (k, ft, b)) : parseRequest k ft b = some i := by
  cases i <;> simp only [requestBody, Option.some.injEq, Prod.mk.injEq, reduceCtorEq] at h <;>
    obtain ⟨rfl, rfl, rfl⟩ := h
  case submitJob ft o =>
    have w := of_decide_eq_true w
    change (if 21 ≤ (orderBody o).length ∧ (orderBody o).length ≤ 70 then (parseOrder (orderBody o)).map (Instr.submitJob ft)
      else none) = _
    rw [if_pos w, parseOrder_orderBody o w.2]; rfl
  case setPatches ft us =>
    have l : us.length ≤ 4 := of_decide_eq_true w
    have n : (u8 us.length ++ us.flatMap updateBytes).length = 1 + 9 * us.length := by
      rw [List.length_append, flatMap_length updateBytes 9 updateBytes_length]; rfl
    change (if 1 ≤ (u8 us.length ++ us.flatMap updateBytes).length ∧ (u8 us.length ++ us.flatMap updateBytes).length ≤ 37
      then (parseUpdates (u8 us.length ++ us.flatMap updateBytes)).map (Instr.setPatches ft) else none) = _
    rw [if_pos (by omega), parseUpdates_updates us (by omega)]; rfl
  case loadPrices ft p =>
    unfold parseRequest
    rw [pricesBody_length]
    change some (Instr.loadPrices ft (parsePrices (pricesBody p))) = _
    rw [parsePrices_pricesBody]
  case setFeedProfile ft p =>
    change some (Instr.setFeedProfile ft (parseFeedProfile (feedProfileBody p))) = _
    rw [parseFeedProfile_body]
  case setInkProfile ft ch p =>
    change some (Instr.setInkProfile ft ch (parseInkProfile ([ch] ++ inkProfileBody p))) = _
    rw [parseInkProfile_body]
  case setStripProfile ft p =>
    change some (Instr.setStripProfile ft (parseStripProfile (stripProfileBody p))) = _
    rw [parseStripProfile_body]
  case cancelJob ft tag => exact congrArg (fun t => some (Instr.cancelJob ft t)) (word16_bytes16 tag)
  case queryJob ft tag => exact congrArg (fun t => some (Instr.queryJob ft t)) (word16_bytes16 tag)
  case openEdition ft id lim =>
    exact congrArg some (congr (congrArg (Instr.openEdition ft) (word32_bytes32 id)) (word16_bytes16 lim))
  case closeEdition ft id slot => exact congrArg (fun t => some (Instr.closeEdition ft t slot)) (word32_bytes32 id)
  case removeEdition ft id slot => exact congrArg (fun t => some (Instr.removeEdition ft t slot)) (word32_bytes32 id)
  case queryEdition ft id slot => exact congrArg (fun t => some (Instr.queryEdition ft t slot)) (word32_bytes32 id)
  case loadRoll ft id mt len =>
    exact congrArg some (congr (congrArg (fun t => Instr.loadRoll ft t mt) (word32_bytes32 id)) (word32_bytes32 len))
  case jog ft mm => exact congrArg (fun t => some (Instr.jog ft t)) (word16_bytes16 mm)
  case setTrim ft mode v => exact congrArg (fun t => some (Instr.setTrim ft mode t)) (word16_bytes16 v)
  case fitCartridge ft ch cap rem lot =>
    exact congrArg some (congr (congr (congrArg (Instr.fitCartridge ft ch) (word32_bytes32 cap)) (word32_bytes32 rem))
      (word32_bytes32 lot))
  case setDriftLimits ft warn out =>
    exact congrArg some (congr (congrArg (Instr.setDriftLimits ft) (word16_bytes16 warn)) (word16_bytes16 out))
  all_goals rfl

/-! ### Engine messages -/

theorem mapM_some_length {α β : Type} (f : α → Option β) :
    ∀ {xs : List α} {ys : List β}, xs.mapM f = some ys → xs.length = ys.length
  | [], ys, h => by simp at h; subst h; rfl
  | x :: xs, ys, h => by
    rw [List.mapM_cons] at h
    cases e : f x with
    | none => simp [e] at h
    | some y =>
      cases e' : xs.mapM f with
      | none => simp [e, e'] at h
      | some zs =>
        simp [e, e'] at h
        subst h
        simp [mapM_some_length f e']

theorem readDrops_length {drops : List (Byte × U32)} {xs : List (Chan × Nat)} (h : readDrops drops = some xs) :
    drops.length ≤ 10 := by
  unfold readDrops at h
  split at h
  · next ys e =>
    split at h
    · next c =>
      rw [mapM_some_length _ e]; exact c.1
    · simp at h
  · simp at h

/-- The command that an engine message's frame spells is the command that wrote it (R126, R194). -/
theorem parseEngine_engineBody {i : Instr} {k : Byte} {b : Bytes} (w : i.wellFormed = true)
    (h : engineBody i = some (k, b)) : parseEngine k b = some i ∧ b.length ≤ 512 := by
  cases i <;> simp only [engineBody, Option.some.injEq, Prod.mk.injEq, reduceCtorEq] at h <;>
    obtain ⟨rfl, rfl⟩ := h
  case engineState st code => exact ⟨rfl, by simp⟩
  case endPrint tag st =>
    exact ⟨congrArg (fun t => some (Instr.endPrint t st)) (word16_bytes16 tag), by simp [bytes16]⟩
  case swath tag index feed drops =>
    have l : drops.length ≤ 10 := by
      simp only [Instr.wellFormed, readSwath] at w
      split at w
      · cases e : readDrops drops with
        | none => simp [e] at w
        | some xs => exact readDrops_length e
      · simp at w
    have n : (bytes16 tag ++ bytes16 index ++ bytes32 feed ++ u8 drops.length ++ drops.flatMap pairBytes).length
        = 9 + 5 * drops.length := by
      simp only [List.length_append, flatMap_length pairBytes 5 pairBytes_length, bytes16_length, bytes32_length, u8,
        List.length_cons, List.length_nil]
    have c : (byteAt (bytes16 tag ++ bytes16 index ++ bytes32 feed ++ u8 drops.length ++ drops.flatMap pairBytes) 8).toNat
        = drops.length := by
      change (BitVec.ofNat 8 drops.length).toNat = _
      exact ofNat8_toNat (by omega)
    have p := pairsAt_flatMap drops (bytes16 tag ++ bytes16 index ++ bytes32 feed ++ u8 drops.length) []
    rw [List.append_nil] at p
    refine ⟨?_, by omega⟩
    unfold parseEngine
    rw [if_neg (by simp), if_pos ⟨rfl, by omega, by rw [n, c]⟩, c]
    exact congrArg some (congr (congr (congr (congrArg Instr.swath (word16_bytes16 tag)) (word16_bytes16 index))
      (word32_bytes32 feed)) p)
  case maint drops =>
    have l : drops.length ≤ 10 := by
      simp only [Instr.wellFormed, readMaint] at w
      split at w
      · simp at w
      · cases e : readDrops drops with
        | none => simp [e] at w
        | some xs => exact readDrops_length e
    have n : (u8 drops.length ++ drops.flatMap pairBytes).length = 1 + 5 * drops.length := by
      rw [List.length_append, flatMap_length pairBytes 5 pairBytes_length]; rfl
    have c : (byteAt (u8 drops.length ++ drops.flatMap pairBytes) 0).toNat = drops.length := by
      change (BitVec.ofNat 8 drops.length).toNat = _
      exact ofNat8_toNat (by omega)
    have p := pairsAt_flatMap drops (u8 drops.length) []
    rw [List.append_nil] at p
    refine ⟨?_, by omega⟩
    unfold parseEngine
    rw [if_neg (by simp), if_neg (by simp), if_neg (by simp), if_pos ⟨rfl, by omega, by rw [n, c]⟩, c]
    exact congrArg (fun d => some (Instr.maint d)) p

end Sys2Proof.Machine
end

