-- ==== Sys2Proof/Tests/Slice0.lean ====
section
/-!
SUPPORT. Small tests of the model: an ill-formed term for each check of WellFormed, the numbers of the manual's worked
sequences, one or two events for each command, and for each statement of Obligations.lean a state and operands that meet
its hypotheses, clause by clause, at the ends of their ranges.
-/

-- One theorem after another: waiting proofs would each hold a thread.
set_option Elab.async false

namespace Sys2Proof.Tests

open Sys2Proof Sys2Proof.Machine

/-! ### States the tests begin from -/

/-- The state a command leaves. -/
def after (i : Instr) (s : State) : State :=
  match exec i s with
  | .next t => t
  | _ => s

/-- The body of the reply that waits after a command. -/
def answer (i : Instr) (s : State) : Bytes := (((after i s).host.reply).map (·.body)).getD []

def noPrices : Prices := { ink := Vector.replicate 10 0, media := Vector.replicate 8 0, cut := 0 }

/-- An OPEN edition 77 of three numbers, 2 issued, in slot 0. -/
def edition77 : EdImage := { state := .opened, id := 77, limit := 3, issued := [2] }

def spare (n : Nat) : BlockInfo := { role := .spare, erases := n, mark := .blank }

/-- Store READY with edition 77, axis IDLE at rest 0, a roll of 1,000 mm, engine READY, price list 1 current. -/
def ready : State :=
  { State.reset with
    ed :=
      { State.reset.ed with
        store := .ready, headersRead := true, image := State.reset.ed.image.set 0 edition77
        table := #v[{ role := .holds 0, erases := 1, mark := .complete }, { role := .holds 1, erases := 1, mark := .complete },
          { role := .holds 2, erases := 1, mark := .complete }, { role := .holds 3, erases := 1, mark := .complete },
          spare 7, spare 7] }
    feed :=
      { State.reset.feed with
        axis := .idle, referenced := true, rest := some 0, edge := true
        roll := { Roll.atReset with state := .loaded, declared := 1000, pieceBase := some 0 } }
    eng := { State.reset.eng with state := .ready, txList := [] }
    cost :=
      { State.reset.cost with
        slots := State.reset.cost.slots.set 0 { loaded := some (1, noPrices), refs := 1 }
        current := some 0, genCounter := 1 } }

/-- A PENDING job of 200 mm with one cut and 50 µL on channel 0. -/
def job : Job where
  tag := 5
  state := .pending
  outcome := none
  cause := none
  holds := Holds.none
  printLen := 200
  cuts := [200]
  est := [(0, 50)]
  lots := none
  edition := none
  mode := .plain
  forced := false
  strip := none
  priceSlot := 0
  mediaRes := 220
  planned := 220
  drawn := 0
  startPos := none
  cutsDone := 0
  commitGen := none
  flags := JobFlags.none
  ink := freshEntries [(0, 50)]
  spoilWait := false
  costIn := false
  commitOpen := false

/-- The job in a state with START sent at position 0. -/
def started (st : JobState) : Job := { job with state := st, startPos := some 0 }

/-- The one live job, in slot 0. -/
def withJob (j : Job) (s : State) : State :=
  s.mapJobs fun _ => { slots := (Vector.replicate 16 Slot.free).set 0 (.live j), order := [0] }

/-- The print context of the job. -/
def context (p : PrintPhase) : PrintContext where
  tag := 5
  phase := p
  next := 1
  inFeed := if p = .feed then some 1 else none
  swathTimer := if p = .await ∨ p = .ending then some 5000 else none
  dryTimer := if p = .held then some 600000 else none
  endingSwath := false

/-- The job being printed in a phase. -/
def printing (p : PrintPhase) (st : JobState) : State :=
  (withJob (started st) ready).mapEng fun e => { e with ctx := some (context p) }

def withFeed (f : Feed → Feed) : State := ready.mapFeed f

def withChan (c : Chan) (f : Channel → Channel) : State := setChan c f ready

/-- A READY channel of 20,000 µL with half a cartridge. -/
def fitted (x : Channel) : Channel :=
  { x with supply := .ready, ring := [661], level := 20000, cond := .normal, above := true,
           cart := some { capacity := 100000, remaining := 50000, lot := 9 } }

/-! ### Checks of well-formedness: an ill-formed term for each -/

theorem test_wf_submitJob : (Instr.submitJob 1
    { tag := 1, printLen := 1, mode := 0, edition := 0, copy := 0, cuts := [], est := [] }).wellFormed = false := by decide
theorem test_wf_setPatches : (Instr.setPatches 1 (List.replicate 5
    { index := 0, define := 0, l := 0, a := 0, b := 0, dominant := 0 })).wellFormed = false := by decide
theorem test_wf_hostFrame : (Instr.hostFrame []).wellFormed = false := by decide
theorem test_wf_engineFrame : (Instr.engineFrame []).wellFormed = false := by decide
theorem test_wf_engineState : (Instr.engineState 3 0).wellFormed = false := by decide
theorem test_wf_swath : (Instr.swath 1 0 200001 []).wellFormed = false := by decide
theorem test_wf_endPrint : (Instr.endPrint 1 2).wellFormed = false := by decide
theorem test_wf_maint : (Instr.maint []).wellFormed = false := by decide
theorem test_wf_good : (Instr.maint [(9, 1)]).wellFormed = true ∧ (Instr.engineState 3 7).wellFormed = true ∧
    (Instr.swath 1 0 200000 [(0, 5)]).wellFormed = true ∧ (Instr.maint [(9, 1), (9, 2)]).wellFormed = false := by decide

/-! ### Numbers of the manual -/

theorem test_crc_check_value : crc16 [0x31, 0x32, 0x33, 0x34, 0x35, 0x36, 0x37, 0x38, 0x39] = 0x29B1 := by
  decide +kernel

theorem test_deltaE_conventions :
    deltaE { l := 5030, a := -120, b := 240 } { l := 5000, a := -100, b := 200 } = 53 := by decide
theorem test_deltaE_strip :
    deltaE { l := 5100, a := 2250, b := -1340 } { l := 5000, a := 2000, b := -1500 } = 313 := by decide

theorem test_level_example :
    levelOf InkProfile.default (meanOf [420, 421, 422, 422, 423, 423, 422, 424]) = 11986 := by decide

theorem test_strip_order :
    Geometry.order { t := 8, stride := 3, seed := 5, m := 3, pitch := 6 } = [5, 0, 3, 6, 1, 4, 7, 2] := by decide

theorem test_sensor_bytes :
    readResult #v[0x01, 0xEC, 0x13, 0xCA, 0x08, 0xC4, 0xFA, 0x70] = .good { l := 5100, a := 2250, b := -1340 } ∧
    readResult #v[0x01, 0xEC, 0x13, 0xCA, 0x08, 0xC4, 0xFA, 0x71] = .bad ∧
    readResult #v[0x00, 0xEC, 0x13, 0xCA, 0x08, 0xC4, 0xFA, 0x70] = .notReady := by decide

theorem test_spoil_cut :
    spoilOffset 178431 120000 = 595 ∧
    cutTarget { State.reset.feed with trimBase := -12 } 120000 595 = 229488 := by decide

theorem test_costs : inkPrice 520000 3200 = 166 ∧ inkPrice 80000 2900 = 23 ∧ inkPrice 6 3000 = 0 ∧
    mediaPrice 242002 10000 = 24200 := by decide

/-- Section 6.7: the three channels of job 8200 after its two swaths. -/
theorem test_two_swaths :
    ((((freshEntries [(2, 500), (5, 120)] |> (debitEntries · 2 60000000 4) |> (debitEntries · 5 10000001 4)
      |> (debitEntries · 6 1499 4) |> (debitEntries · 2 70000001 4) |> (debitEntries · 5 9999999 4)
      |> (debitEntries · 6 1 4))).map fun e => (e.used, e.drawn, e.remaining, e.overdraw)) =
      [(520000, 500000, 0, 20000), (80000, 80000, 40000, 0), (6, 0, 0, 6)]) := by decide

/-! ### Commands: the queue, resets and the host link -/

theorem test_step_front : step (State.reset.setPending [.replySent, .noticeSent])
    = .next (State.reset.setPending [.noticeSent]) := by rfl
theorem test_word_spells_nothing : State.reset.withFetchWord 8 1 = State.reset := rfl
theorem test_powerOnReset : (after (.powerOnReset true false .blank) ready).ed.store = .mounting ∧
    (after (.powerOnReset true false .blank) ready).host.rate1 = true := by decide
theorem test_resetEffect : (after (.resetEffect false true) (ready.mapHost fun h => { h with restart := .replyGone })).host
    = HostLink.atReset false true := by decide
theorem test_hostFrame_identify : answer (.hostFrame (frameBytes 0x01 9 [])) State.reset
    = [0x00, 0x5D, 0x0E, 0x47, 0x70, 0x01, 0x00, 0xC2, 0x01, 0x00] := by decide +kernel
theorem test_hostFrame_in_pieces :
    answer (.hostFrame ((frameBytes 0x63 9 [5]).drop 4)) (after (.hostFrame ((frameBytes 0x63 9 [5]).take 4)) State.reset)
      = [0x00, 0, 0] := by decide +kernel
theorem test_gapDrop : (after (.gapDrop 0xA5) (after (.hostFrame [0xA5, 0x01]) State.reset)).host.rx = some [] ∧
    (after (.gapDrop 0xA5) (after (.hostFrame [0xA5, 0x01]) State.reset)).host.gapDrops = 1 := by decide
theorem test_identify : answer (.identify 3) State.reset = [0x00, 0x5D, 0x0E, 0x47, 0x70, 0x01, 0x00, 0xC2, 0x01, 0x00] := by
  decide
theorem test_status : (answer (.status 3) ready).head? = some 0x00 := by decide
theorem test_counters : answer (.counters 3 0 1) (State.reset.mapHost fun h => { h with gapDrops := 258 })
    = [0x00, 0x00, 0, 0, 0, 0, 2, 1, 0, 0] ∧ answer (.counters 3 3 0) State.reset = [0x21] := by decide
theorem test_restart : (after (.restart 3) ready).host.restart = .replyWaiting ∧
    answer (.openEdition 4 1 1) (after .replySent (after (.restart 3) ready)) = [0x20] := by decide
theorem test_link_busy : (after (.identify 2) (after (.identify 1) State.reset)).host.busy
    = some { kind := 0x81, tag := 2, body := [0x11] } := by decide
theorem test_replySent : (after .replySent (after (.identify 1) State.reset)).host.reply = none := by decide
theorem test_noticeSent : (after .noticeSent (giveLine (notify .store ready))).host.queue = [] ∧
    (after .noticeSent (giveLine (notify .store ready))).host.seq = 1 := by decide

/-! ### Commands: jobs -/

def order7 : JobOrder where
  tag := 7
  printLen := 200
  mode := 0
  edition := 77
  copy := 0
  cuts := [210]
  est := [(0, 50)]

/-- Ready with channel 0 fitted. -/
def inked : State := withChan 0 fitted

theorem test_submitJob_accepted : answer (.submitJob 1 order7) inked = [0x00, 0x00, 1, 0, 1, 0, 0, 0, 0] ∧
    (after (.submitJob 1 order7) inked).ed.resv[0] = [1] ∧
    (after (.submitJob 1 order7) inked).cost.slots[0].refs = 2 ∧
    (after (.submitJob 1 order7) inked).eng.txList = [.start 7 200 0 []] := by decide +kernel
theorem test_submitJob_ink : answer (.submitJob 1 { order7 with est := [(3, 1)] }) inked
    = [0x29, 1, 3, 0, 0, 0, 0, 0] := by decide +kernel
theorem test_cancelJob : ((after (.cancelJob 1 5) (withJob job ready)).jobs.slots[0]).isReleasing = true ∧
    (after (.cancelJob 1 5) (withJob job ready)).cost.log.length = 1 := by decide +kernel
theorem test_queryJob : answer (.queryJob 1 6) (withJob job ready) = [0x24] ∧
    (answer (.queryJob 1 5) (withJob job ready)).head? = some 0x00 := by decide +kernel
theorem test_listJobs : (answer (.listJobs 1) (withJob job ready)).head? = some 0x00 := by decide +kernel

/-! ### Commands: editions and the store -/

theorem test_openEdition : (after (.openEdition 1 78 999) ready).ed.image[1]
    = { state := .opened, id := 78, limit := 999, issued := [] } ∧
    ((after (.openEdition 1 78 999) ready).ed.rot.map (·.phys)) = some 4 := by decide +kernel
theorem test_openEdition_duplicate : answer (.openEdition 1 77 3) ready = [0x22] := by decide +kernel
theorem test_closeEdition : (after (.closeEdition 1 77 0) ready).ed.image[0].state = .closed := by decide +kernel
theorem test_removeEdition : answer (.removeEdition 1 77 0) ready = [0x20] ∧
    (after (.removeEdition 1 77 0) (after .replySent (after (.closeEdition 1 77 0) ready))).ed.removals
      = [{ id := 77, block := 0, gen := 2 }] := by decide +kernel
theorem test_queryEdition : answer (.queryEdition 1 0 64) ready = [0x21] ∧
    (answer (.queryEdition 1 77 0) ready).take 8 = [0x00, 0, 1, 77, 0, 0, 0, 3] := by decide +kernel
theorem test_storeStatus : (answer (.storeStatus 1) ready).head? = some 0x00 := by decide +kernel

/-- A fresh store after the header reading: the format's first rotation is erasing. -/
def formatting : State := after (.mountHeadersRead (Vector.replicate 6 true)) State.reset

theorem test_mountHeadersRead : formatting.ed.formatting = true ∧ formatting.ed.writes = [1, 2, 3] ∧
    (formatting.ed.rot.map fun r => (r.block, r.phys, r.phase)) = some (0, 0, .erasing) := by decide +kernel
theorem test_eraseDone : ((after (.eraseDone true true) formatting).ed.rot.map (·.phase)) = some .programming ∧
    (after (.eraseDone true true) formatting).ed.flash[0].seq = some 1 ∧
    (after (.eraseDone false true) formatting).ed.table[0].role = .retired := by decide +kernel
theorem test_programDone :
    (after (.programDone true true) (after (.eraseDone true true) formatting)).ed.persisted[0] = 1 ∧
    (after (.programDone true true) (after (.eraseDone true true) formatting)).ed.flash[0].mark = .complete := by
  decide +kernel

/-! ### Commands: the feed axis and the roll -/

def feedArgs : FeedProfileArgs where
  slow := 30
  window := 5
  settle := 30
  backoff := 40
  reversal := 1
  slip := 20
  invert := 0
  lead := 5
  trim := 15
  sensor := 60
  knife := 500

theorem test_setFeedProfile : (after (.setFeedProfile 1 feedArgs) ready).feed.profile.lead = 5 ∧
    answer (.setFeedProfile 1 { feedArgs with knife := 479 }) ready = [0x21] ∧
    answer (.setFeedProfile 1 { feedArgs with invert := 1 }) ready = [0x20] := by decide +kernel
theorem test_clearFeed : (after (.clearFeed 1) (feedFault .slip ready)).feed.axis = .unreferenced ∧
    answer (.clearFeed 1) ready = [0x20] := by decide +kernel
theorem test_feedStatus : (answer (.feedStatus 1) ready).head? = some 0x00 := by decide +kernel
theorem test_loadRoll : (after (.loadRoll 1 4 7 1000) State.reset).feed.axis = .loading ∧
    (after (.loadRoll 1 4 7 1000) State.reset).feed.drive = .slow ∧
    answer (.loadRoll 1 4 8 1000) State.reset = [0x21] := by decide +kernel
theorem test_unloadRoll : (after (.unloadRoll 1) ready).feed.roll = Roll.atReset ∧
    (after (.unloadRoll 1) ready).feed.axis = .unreferenced := by decide +kernel
theorem test_jog : ((after (.jog 1 1000) ready).feed.move.map (·.target)) = some 100000 ∧
    answer (.jog 1 1001) ready = [0x21] := by decide +kernel
theorem test_setTrim : answer (.setTrim 1 1 500) (withFeed fun f => { f with trimFine := 12 })
    = [0x00, 0xF4, 1, 0, 0, 0xF4, 1] := by decide +kernel
theorem test_encoderCount : (after (.encoderCount true false) ready).feed.pos = 1 ∧
    (after (.encoderCount false true) ready).feed.pos = -1 ∧ (after (.encoderCount true true) ready).feed.pos = 0 := by
  decide +kernel
theorem test_edgeSearchLimit : (after .edgeSearchLimit
    (withFeed fun f => { f with axis := .loading, load := some (.search 0), pos := 100000 })).feed.axis = .fault := by
  decide +kernel
theorem test_stallWindowEnd : (after .stallWindowEnd
    (withFeed fun f => { f with axis := .moving, drive := .slow, window := some { net := 3, left := 0 } })).feed.axis
    = .fault := by decide +kernel

/-- A jog in its settle phase. -/
def settling : State := withFeed fun f =>
  { f with axis := .moving, settleLeft := some 0,
           move := some { target := 0, by_ := .jog true, phase := .settle, reversalUsed := false, endPoint := none } }

theorem test_settleTimeout : (after .settleTimeout settling).feed.axis = .idle ∧
    (after .settleTimeout settling).feed.move = none := by decide +kernel
/-- A jog in its approach. -/
def jogging : State := withFeed fun f =>
  { f with axis := .moving, drive := .fast
           move := some { target := 900, by_ := .jog true, phase := .approach, reversalUsed := false, endPoint := none } }

theorem test_edgeChange : (after (.edgeChange false) jogging).feed.roll.state = .exhausted := by decide +kernel

/-- A knife cycle in its stroke. -/
def stroke : State := beginKnife (withJob (started .cutting) ready)

theorem test_knifeHomeChange : (after (.knifeHomeChange true) (after (.knifeHomeChange false) stroke)).cost.log.map
    (fun r => (r.outcome, r.cuts)) = [(some .finished, 1)] := by decide +kernel
theorem test_knifeStrokeTimeout : (after .knifeStrokeTimeout stroke).feed.axis = .fault := by decide +kernel
theorem test_knifeReturnTimeout :
    (after .knifeReturnTimeout (after (.knifeHomeChange false) stroke)).feed.axis = .fault ∧
    (after .knifeReturnTimeout stroke).feed.axis = .knife := by decide +kernel

/-! ### Commands: ink -/

theorem test_fitCartridge : ((after (.fitCartridge 1 0 1000 1000 9) (withChan 0 fun x => { x with supply := .undeclared })
    ).ink.chans[0].supply) = .refilling ∧ answer (.fitCartridge 1 0 999 0 9) ready = [0x21] := by decide +kernel
theorem test_inkStatus : answer (.inkStatus 1 10 0) ready = [0x21] ∧
    (answer (.inkStatus 1 0xFF 0) ready).head? = some 0x00 := by decide +kernel

def inkArgs : InkProfileArgs where
  drop := 4
  emptyAt := 64
  fullAt := 960
  start := 12000
  stop := 29000
  floor := 1000

theorem test_setInkProfile : (after (.setInkProfile 1 9 inkArgs) ready).ink.chans[9].profile.floor = 1000 ∧
    answer (.setInkProfile 1 9 { inkArgs with fullAt := 163 }) ready = [0x21] := by decide +kernel
theorem test_scan : (after (.scan (Vector.replicate 11 422) (Vector.replicate 10 true)) State.reset).ink.chans[3].level
    = 11986 ∧ (after (.scan (Vector.replicate 11 422) (Vector.replicate 10 true)) State.reset).ink.chans[3].supply
    = .undeclared := by decide +kernel

/-- Channel 0 REFILLING with the third grant. -/
def refilling : State := grantPump 2 0 ((withChan 0 fun x => { fitted x with supply := .waiting, level := 9000 }).mapInk
  fun k => { k with wait := [0] })

theorem test_pumpStroke : ((after (.pumpStroke 0) refilling).ink.chans[0].cart.map (·.remaining)) = some 49950 ∧
    (after (.pumpStroke 1) refilling).ink = refilling.ink := by decide +kernel

/-! ### Commands: the engine link -/

theorem test_engineStatus : (answer (.engineStatus 1) ready).head? = some 0x00 := by decide +kernel
theorem test_engineFrameSent : (after .engineFrameSent State.reset).eng.txList = [] := by decide +kernel
theorem test_engineFrame : (after (.engineFrame (frameBytes 0x81 0 [1, 0])) State.reset).eng.state = .ready := by
  decide +kernel
theorem test_engineGapDrop : (after (.engineGapDrop 0) (after (.engineFrame [0xA5]) State.reset)).eng.gapDrops = 1 := by
  decide +kernel
theorem test_engineState : (after (.engineState 3 8) (printing .await .printing)).eng.code = 8 ∧
    (after (.engineState 3 8) (printing .await .printing)).eng.ctx = none := by decide +kernel
/-- A job of 200 mm awaiting its first swath. -/
def awaiting : State := (printing .await .printing).mapFeed fun f => { f with swathTarget := some 0 }

theorem test_swath : ((after (.swath 5 1 5 [(0, 1000)]) awaiting).eng.ctx.map fun x => (x.phase, x.next)) = some (.held, 2) ∧
    ((after (.swath 5 1 5 []) (setChan 0 fitted awaiting)).eng.ctx.map (·.phase)) = some .await ∧
    ((after (.swath 5 1 20000 []) awaiting).feed.move.map (·.target)) = some 20000 ∧
    (after (.swath 5 2 5 []) awaiting).eng.protoErrors = 1 := by decide +kernel
theorem test_endPrint : ((after (.endPrint 5 0) (printing .await .printing)).liveJob 0).map (·.state) = some .cutting := by
  decide +kernel
theorem test_maint : (after (.maint [(3, 1250)]) ready).cost.overhead.maint[3] = 5 := by decide +kernel
theorem test_swathTimerExpiry : ((after .swathTimerExpiry (printing .await .printing)).liveJob 0).map
    (fun j => (j.state, j.cause)) = some (.aborting, some .engineStall) := by decide +kernel
theorem test_dryOutTimerExpiry : ((after .dryOutTimerExpiry (printing .held .suspended)).liveJob 0).map
    (fun j => (j.state, j.cause)) = some (.aborting, some .dryout) := by decide +kernel

/-! ### Commands: colour and drift -/

def geometry : Geometry := { t := 8, stride := 3, seed := 5, m := 3, pitch := 6 }

def strip : Strip := { geo := geometry, length := 66, order := some geometry.order, marks := some 3, verdict := none }

/-- The job in CHECKING with its strip in DWELL. -/
def dwelling : State :=
  enterChecking 0 { started .checking with strip := some strip } strip
    (withJob { started .checking with strip := some strip } ready)

theorem test_setPatches : answer (.setPatches 1 [{ index := 47, define := 1, l := 10000, a := 0, b := 0, dominant := 0xFF },
    { index := 48, define := 0, l := 0, a := 0, b := 0, dominant := 0 }]) ready = [0x00, 2, 0, 1] := by decide +kernel
theorem test_readPatches : (answer (.readPatches 1) ready).head? = some 0x00 := by decide +kernel

def stripArgs : StripProfileArgs where
  t := 8
  stride := 3
  seed := 5
  m := 3
  runMin := 2
  runMax := 4
  pitch := 6
  markThreshold := 2000
  tolerance := 300
  allowed := 1
  meanTolerance := 200
  gross := 1500
  learn := 1
  dwellLow := 30
  dwellMid := 60
  dwellHigh := 120

/-- The patch table with all entries defined. -/
def patched : State := ready.mapChk fun k =>
  { k with patches := Vector.replicate 48 (some { target := { l := 5000, a := 0, b := 0 }, dominant := some 0 }) }

theorem test_setStripProfile : (after (.setStripProfile 1 stripArgs) patched).chk.profile.set
    = some { t := 8, stride := 3, seed := 5 } ∧ answer (.setStripProfile 1 stripArgs) ready = [0x20] := by decide +kernel
theorem test_checkStatus : (answer (.checkStatus 1) ready).head? = some 0x00 := by decide +kernel
theorem test_setDriftLimits : answer (.setDriftLimits 1 400 400) ready = [0x21] ∧
    (after (.setDriftLimits 1 10 10000) ready).drift.out = 10000 := by decide +kernel
theorem test_recalibrated : answer (.recalibrated 1 9) ready = [0x00, 0] ∧ answer (.recalibrated 1 10) ready = [0x21] := by
  decide +kernel
theorem test_driftStatus : (answer (.driftStatus 1) ready).head? = some 0x00 := by decide +kernel
theorem test_dwellExpiry : (after .dwellExpiry dwelling).chk.state = .search ∧
    ((after .dwellExpiry dwelling).feed.move.map (·.target)) = some 24800 := by decide +kernel

/-- A reading of the strip's search under way. -/
def measuring : State := dwelling.mapChk fun k =>
  { k with state := .search, reading := some { phase := .command, discard := false }
           ctx := k.ctx.map fun x => { x with dwell := none, stripStart := some 26000, n := 0 } }

theorem test_measureCommandDone : (after (.measureCommandDone true) measuring).chk.reading
    = some { phase := .result 20, discard := false } ∧
    (after (.measureCommandDone false) measuring).chk.counters.timeouts = 1 := by decide +kernel
theorem test_resultReadDone :
    ((after (.resultReadDone true #v[0x01, 0xEC, 0x13, 0xCA, 0x08, 0xC4, 0xFA, 0x70]) (after (.measureCommandDone true) measuring)
      ).chk.ctx.map fun x => (x.n, x.inSearch)) = some (1, 1) := by decide +kernel
theorem test_readingTimeout : (after .readingTimeout (after (.measureCommandDone true) measuring)).chk.counters.timeouts = 1 ∧
    (after .readingTimeout measuring).chk = measuring.chk := by decide +kernel

/-! ### Commands: costs -/

def priceArgs : PriceArgs := { ink := Vector.replicate 10 1000000, media := Vector.replicate 8 10000000, cut := 1000000 }

theorem test_loadPrices : answer (.loadPrices 1 priceArgs) ready = [0x00, 1, 2, 0, 0, 0] ∧
    (after (.loadPrices 1 priceArgs) ready).cost.slots[0].refs = 0 ∧
    answer (.loadPrices 1 { priceArgs with cut := 1000001 }) ready = [0x21] := by decide +kernel
theorem test_priceStatus : (answer (.priceStatus 1) ready).head? = some 0x00 := by decide +kernel
theorem test_costTake : answer (.costTake 1) ready = [0x01] ∧
    (answer (.costTake 2) (after .replySent (after (.cancelJob 1 5) (withJob job ready)))).take 5 = [0x00, 0, 0, 5, 0] := by
  decide +kernel
theorem test_setCostLevel : answer (.setCostLevel 1 33) ready = [0x21] ∧ answer (.setCostLevel 1 1) ready = [0x00, 0, 0] := by
  decide +kernel
theorem test_overheadRead : (after (.overheadRead 1 1) (after (.maint [(3, 1250)]) ready)).cost.overhead = Overhead.zero := by
  decide +kernel

/-! ### States and operands that meet the hypotheses of each statement, clause by clause -/

/-- A signed 16-bit operand. -/
def i16 (n : Int) : U16 := BitVec.ofInt 16 n

/-- The restart is due: the RESTART reply has gone and the store is drained. -/
def restarting : State := ready.mapHost fun h => { h with restart := .replyGone }

/-- A fresh store with its first block being programmed. -/
def programming : State := after (.eraseDone true true) formatting

/-- The result of a measurement being read. -/
def resultRead : State := after (.measureCommandDone true) measuring

/-- A reply on the line. -/
def replied : State := after (.identify 1) State.reset

/-- A second request answered LINK_BUSY. -/
def busy : State := after (.identify 2) replied

/-- A notice on the line. -/
def noticed : State := giveLine (notify .store ready)

/-- The notice of a cancelled job's RELEASING slot on the line. -/
def releasing : State := after .replySent (after (.cancelJob 1 5) (withJob job ready))

theorem witness_IdleStepLowersRunningTimers :
    ready.feed.knifeCycle = none ∧ stroke.feed.knifeCycle = some (.stroke 50) ∧
    (after (.knifeHomeChange false) stroke).feed.knifeCycle = some (.return_ 500) ∧
    measuring.chk.reading = some { phase := .command, discard := false } ∧
    resultRead.chk.reading = some { phase := .result 20, discard := false } := by decide +kernel

theorem witness_ResetsAndRestartTakeTheResetEffect :
    (restarting.host.restart = .replyGone ∧ restarting.ed.store ≠ .mounting ∧ restarting.ed.rot = none ∧
      restarting.ed.writes = [] ∧ restarting.host.tx = none) ∧ ready.host.restart ≠ .replyGone ∧
    ready.takesRequest ∧ ready.ed.rot = none ∧ (formatting.ed.rot.map (·.phase)) = some .erasing ∧
    (programming.ed.rot.map (·.phase)) = some .programming := by decide +kernel

theorem witness_RequestsMeetTheOneRequestDiscipline :
    requestBody (.identify 7) = some (0x01, 7, []) ∧ State.reset.takesRequest ∧
    (restarting.host.reply = none ∧ restarting.host.restart ≠ .none) ∧
    (replied.host.reply.isSome = true ∧ replied.host.busy = none) ∧
    (busy.host.reply.isSome = true ∧ busy.host.busy.isSome = true) := by decide +kernel

theorem witness_HostFrameIsTheRequestItCarries :
    (Instr.submitJob 1 order7).wellFormed = true ∧ (requestBody (.submitJob 1 order7)).isSome = true ∧
    (Instr.loadPrices 1 priceArgs).wellFormed = true ∧ (requestBody (.loadPrices 1 priceArgs)).isSome = true ∧
    State.reset.host.rx = none := by decide +kernel

theorem witness_BadHostFramesAndGapsAreDropped :
    (State.reset.takesRequest ∧ State.reset.host.rx = none) ∧ (List.replicate 512 (0 : Byte)).length ≤ 512 ∧
    (∀ k ∈ ([0x00, 0x7F, 0x80, 0xFF] : List Byte), k ∉ ([0x01, 0x02, 0x03, 0x04, 0x10, 0x11, 0x12, 0x13, 0x20, 0x21, 0x22,
      0x23, 0x24, 0x30, 0x31, 0x32, 0x33, 0x34, 0x35, 0x36, 0x40, 0x41, 0x42, 0x48, 0x50, 0x51, 0x52, 0x53, 0x58, 0x59,
      0x5A, 0x60, 0x61, 0x62, 0x63, 0x64] : List Byte)) ∧
    word16 0 0 ≠ crc16 (frameCore 0x01 1 []) ∧ 512 < (word16 0x01 0x02).toNat := by decide +kernel

theorem witness_NoticesQueueOnceAndTheLineIsGiven :
    replied.host.tx.isSome = true ∧ restarting.lineClosed = true ∧
    (ready.host.tx = none ∧ ready.lineClosed = false ∧ ready.host.reply = none ∧ ready.host.queue = []) ∧
    ((ready.mapHost fun h => { h with reply := some { kind := 0x81, tag := 1, body := [] } }).host.reply.isSome = true) ∧
    ((notify .store ready).host.tx = none ∧ (notify .store ready).host.reply = none ∧
      (notify .store ready).host.queue = [.store]) ∧
    Subject.store ∉ ready.host.queue ∧ (notify .store ready).host.sending .store = false ∧
    (Subject.store ∈ noticed.host.queue ∧ noticed.host.sending .store = true) := by decide +kernel

theorem witness_SentFramesLeaveTheLine :
    replied.host.tx = (replied.host.reply.map TxFrame.reply) ∧ replied.host.tx.isSome = true ∧
    (noticed.host.tx.map fun x => match x with | .notice s r _ _ => (s, r) | .reply _ => (.costLog, true))
      = some (.store, false) ∧ noticed.host.queue = [.store] ∧
    (releasing.host.tx.map fun x => match x with | .notice s r _ _ => (s, r) | .reply _ => (.costLog, false))
      = some (.jobSlot 0, true) ∧ releasing.host.queue.head? = some (.jobSlot 0) ∧
    releasing.jobs.slots[0].isReleasing = true := by decide +kernel

theorem witness_ReportsAnswerTheirSnapshotAndChangeNothing : State.reset.takesRequest ∧ ready.takesRequest := by
  decide +kernel

theorem witness_CountersReadAndClearTheirGroup :
    State.reset.takesRequest ∧ 2 < (3 : Byte).toNat ∧ 1 < (2 : Byte).toNat ∧ ¬ (2 < (2 : Byte).toNat ∨ 1 < (1 : Byte).toNat) := by
  decide +kernel

/-- Every slot of the job table RELEASING. -/
def full : State := inked.mapJobs fun _ => { slots := Vector.replicate 16 (.releasing job 0), order := [] }

theorem witness_SubmitRefusalsComeInOrder :
    inked.takesRequest ∧ JobOrder.formed { order7 with mode := 3 } = none ∧ JobOrder.formed order7 = some .plain ∧
    ((withJob job inked).jobByTag 5).isSome = true ∧ inked.jobByTag 7 = none ∧ full.slotsWhere Slot.isFree = [] ∧
    full.jobByTag 7 = none ∧ inked.slotsWhere Slot.isFree ≠ [] ∧
    JobOrder.inRange { order7 with tag := 0 } .plain inked.chk.profile.geometry = none ∧
    JobOrder.inRange order7 .plain inked.chk.profile.geometry = some [(0, 50)] ∧ State.reset.cost.current = none ∧
    inked.cost.current.isSome = true ∧ State.reset.feed.roll.state ≠ .loaded ∧ inked.feed.roll.state = .loaded ∧
    judgeEdition inked 77 2 = .error 0x27 ∧ judgeEdition inked 77 0 = .ok (some (0, 1)) ∧
    judgeEstimate inked [(0, 50), (3, 1)] = [(3, .notFitted, 0)] := by decide +kernel

/-- Edition 77 with all its numbers issued. -/
def issued77 : State := ready.mapEd fun d => { d with image := d.image.set 0 { edition77 with issued := [1, 2, 3] } }

theorem witness_OrdersTakeFreeNumbersAndAvailableInk :
    State.reset.ed.store ≠ .ready ∧ ready.ed.store = .ready ∧ ready.ed.slotOf 5 = none ∧ ready.ed.slotOf 77 = some 0 ∧
    ready.ed.image[0].state = .opened ∧ (after (.closeEdition 1 77 0) ready).ed.slotOf 77 = some 0 ∧
    (after (.closeEdition 1 77 0) ready).ed.image[0].state ≠ .opened ∧
    (1 ≤ 1 ∧ 1 ≤ ready.ed.image[0].limit ∧ 1 ∉ ready.ed.image[0].issued ∧ 1 ∉ ready.ed.unrec[0] ∧ 1 ∉ ready.ed.resv[0]) ∧
    (∀ m ≤ issued77.ed.image[0].limit, 1 ≤ m → m ∈ issued77.ed.image[0].issued) ∧
    (3 ≤ ready.ed.image[0].limit ∧ 3 ∉ ready.ed.image[0].issued) ∧ ¬ 4 ≤ ready.ed.image[0].limit ∧
    2 ∈ ready.ed.image[0].issued ∧
    State.reset.ink.chans[0].supply = .unfitted ∧
    (withChan 0 fun x => { x with supply := .undeclared }).ink.chans[0].supply = .undeclared ∧
    (withChan 0 fun x => { fitted x with fault := true }).ink.chans[0].fault = true ∧
    (inked.ink.chans[0].fault = false ∧ inked.ink.chans[0].supply = .ready ∧ inked.availability 0 = 67000 ∧
      inked.availability 0 < (67001 : Nat) ∧ ((67000 : Nat) : Int) ≤ inked.availability 0) := by decide +kernel

/-- The roll's remaining length is 230 mm, the planned length of order 7, or 229 mm. -/
def rollOf (n : Nat) : State := inked.mapFeed fun f => { f with roll := { f.roll with declared := n } }

/-- The strip profile set with learning on, and channel 0 UNVERIFIED: a PLAIN job of it is forced. -/
def learning : State := inked.mapChk fun k =>
  { k with profile := { k.profile with set := some { t := 8, stride := 3, seed := 5 }, learn := true } }

theorem witness_AcceptedOrderBecomesAPendingJob :
    inked.takesRequest ∧ JobOrder.formed order7 = some .plain ∧ inked.jobByTag 7 = none ∧
    inked.slotsWhere Slot.isFree = 0 :: (List.finRange 16).tail ∧
    JobOrder.inRange order7 .plain inked.chk.profile.geometry = some [(0, 50)] ∧
    inked.cost.current = some 0 ∧ inked.feed.roll.state = .loaded ∧ judgeEdition inked 77 0 = .ok (some (0, 1)) ∧
    judgeEstimate inked [(0, 50)] = [] ∧ inked.chk.profile.set = none ∧
    (learning.chk.profile.set.isSome = true ∧ learning.chk.profile.learn = true ∧ learning.drift.states[0] = .unverified ∧
      learning.chk.profile.geometry.isSome = true) ∧
    (rollOf 229).feed.roll.remaining < 230 + (rollOf 229).reserved ∧
    230 + (rollOf 230).reserved ≤ (rollOf 230).feed.roll.remaining := by decide +kernel

theorem witness_QueriesReportWhatTheyName :
    ready.takesRequest ∧ (withJob job ready).jobByTag 5 = some (0, job) ∧ ready.jobByTag 5 = none ∧
    State.reset.ed.store = .mounting ∧ ready.ed.store ≠ .mounting ∧ 64 ≤ (64 : Byte).toNat ∧ ready.ed.slotOf 77 = some 0 ∧
    ready.ed.slotOf 5 = none := by decide +kernel

/-- The jobs that a cancel meets, each found by its tag. -/
theorem witness_CancelActsByTheJobsState :
    ready.takesRequest ∧ ready.jobByTag 5 = none ∧
    (∀ j ∈ [job, { job with state := .closing }, { started .cutting with spoilWait := true }, started .aborting,
        started .suspended, started .printing, { job with state := .printing }, started .checking, started .cutting],
      (withJob j ready).jobByTag 5 = some (0, j)) ∧
    jogging.feed.move.isSome = true ∧ ready.feed.move = none := by decide +kernel

/-- The job with copy 1 of edition 77. -/
def numbered : Job := { job with edition := some { id := 77, copy := 1, slot := 0 } }

/-- The job whose record is in the log. -/
def recorded : Job := { job with state := .closing, costIn := true, outcome := some .cancelled }

theorem witness_OutcomesAreDecidedOnceAndClosedJobsDepart :
    (withJob recorded ready).liveJob 0 = some recorded ∧ recorded.outcome.isSome = true ∧
    (withJob job ready).liveJob 0 = some job ∧ (job.outcome = none ∧ job.edition = none) ∧
    (withJob numbered ready).liveJob 0 = some numbered ∧ (numbered.outcome = none ∧ numbered.edition.isSome = true) ∧
    (recorded.state = .closing ∧ recorded.costIn = true ∧ recorded.commitOpen = false) ∧ ¬ job.state = .closing := by
  decide +kernel

/-- A held job in slot 1 before the job of slot 0. -/
def twoJobs : State := ready.mapJobs fun _ =>
  { slots := ((Vector.replicate 16 Slot.free).set 0 (.live job)).set 1
      (.live { job with tag := 6, holds := { noMedia := true, colourOut := false } })
    order := [1, 0] }

theorem witness_FirstEligibleJobStarts :
    State.reset.eng.state ≠ .ready ∧ twoJobs.pathFree = true ∧ twoJobs.feed.axis = .idle ∧
    twoJobs.feed.roll.state = .loaded ∧ twoJobs.eng.state = .ready ∧ twoJobs.jobs.order = [1] ++ 0 :: [] ∧
    twoJobs.liveJob 0 = some job ∧ (∀ x ∈ twoJobs.liveJob 1, ¬ (x.state = .pending ∧ x.holds.isEmpty = true)) ∧
    job.state = .pending ∧ job.holds.isEmpty = true ∧ job.mode = .plain ∧
    (∀ p ∈ ({ job with mode := .critical } : Job).est, ready.drift.states[p.1] ≠ .out) := by decide +kernel

/-- Edition 77 closed; its removal waits to persist. -/
def closed77 : State := (after (.closeEdition 1 77 0) ready).mapHost fun h => { h with reply := none }
def removed77 : State := (after (.removeEdition 1 77 0) closed77).mapHost fun h => { h with reply := none }

/-- Every edition slot taken. -/
def noSlot : State := ready.mapEd fun d => { d with image := Vector.replicate 64 edition77 }

theorem witness_OpenEditionTakesTheLowestEmptySlot :
    ready.takesRequest ∧ State.reset.ed.store ≠ .ready ∧ ready.ed.store = .ready ∧ (0 : U16).toNat = 0 ∧
    999 < (1000 : U16).toNat ∧ (1 ≤ (1 : U16).toNat ∧ (999 : U16).toNat ≤ 999) ∧
    (ready.ed.slotOf 77).isSome = true ∧
    (∃ r ∈ removed77.ed.removals, r.id = 77) ∧ ready.ed.slotOf 78 = none ∧ (∀ r ∈ ready.ed.removals, r.id ≠ 78) ∧
    (noSlot.ed.slotOf 78 = none ∧ ∀ e : EdIx, noSlot.ed.image[e].state ≠ .empty) ∧
    ready.ed.image[1].state = .empty ∧ (∀ x : EdIx, x < 1 → ready.ed.image[x].state ≠ .empty) := by decide +kernel

theorem witness_CloseAndRemoveChangeTheSelectedSlot :
    ready.takesRequest ∧ State.reset.ed.store ≠ .ready ∧ ready.ed.store = .ready ∧ 64 ≤ (64 : Byte).toNat ∧
    ready.ed.slotOf 5 = none ∧ (63 : Byte).toNat = (63 : EdIx).val ∧ ready.ed.slotOf 77 = some 0 ∧
    ready.ed.image[0].state = .opened ∧ ready.ed.image[1].state = .empty ∧
    (after (.submitJob 1 order7) inked).ed.resv[0] ≠ [] ∧ closed77.takesRequest ∧ closed77.ed.store = .ready ∧
    closed77.ed.image[0].state = .closed ∧ closed77.ed.resv[0] = [] := by decide +kernel

/-- A pending write with no rotation in flight, with two spares of 7 erases, and with none. -/
def waitingWrite : State := ready.mapEd fun d => { d with writes := [2] }
def worn : BlockInfo := { role := .retired, erases := 7, mark := .retired }
def noSpare : State := waitingWrite.mapEd fun d => { d with table := (d.table.set 4 worn).set 5 worn }

theorem witness_ImageChangesQueueBlocksAndRotationsEraseSpares :
    formatting.ed.rot.isSome = true ∧ ready.ed.writes = [] ∧
    (State.reset.ed.store ≠ .ready ∧ State.reset.ed.formatting = false) ∧
    (waitingWrite.ed.store = .ready ∧ waitingWrite.ed.rot = none ∧ waitingWrite.ed.writes = [2]) ∧
    (noSpare.ed.rot = none ∧ ∀ p : PBlock, noSpare.ed.table[p].role ≠ .spare) ∧ waitingWrite.ed.table[4].role = .spare ∧
    (∀ q : PBlock, waitingWrite.ed.table[q].role = .spare → waitingWrite.ed.table[4].erases ≤ waitingWrite.ed.table[q].erases ∧
      (waitingWrite.ed.table[q].erases = waitingWrite.ed.table[4].erases → (4 : PBlock) ≤ q)) := by decide +kernel

/-- A rotation of block 0 being programmed on block 4, the old copy on block 0 with its erase count given. -/
def rotating (n : Nat) : State := ready.mapEd fun d =>
  { d with
    rot := some { block := 0, phys := 4, images := d.blockImages 0, gen := 1, phase := .programming, left := 10 }
    table := d.table.set 0 { role := .holds 0, erases := n, mark := .complete } }

theorem witness_EraseAndProgramEndsAdvanceOrRetire :
    ready.ed.rot = none ∧ (formatting.ed.rot.map (·.phase)) = some .erasing ∧
    (programming.ed.rot.map (·.phase)) = some .programming ∧
    (rotating 9999).ed.rot.isSome = true ∧ (rotating 9999).ed.table[0].role = .holds 0 ∧
    (rotating 9999).ed.table[0].erases < 10000 ∧ 10000 ≤ (rotating 10000).ed.table[0].erases ∧
    (rotating 9999).ed.table[1].role ≠ .holds 0 := by decide +kernel

/-- A block of the flash with a COMPLETE header. -/
def completeBlock (b : LBlock) (n : Nat) : FlashBlock :=
  { mark := .complete, role := some b, seq := some n, erases := some 3, images := Vector.replicate 16 edition77 }

/-- The flash with two copies of logical block 0 and none of the others. -/
def twoCopies : State := State.reset.mapEd fun d =>
  { d with flash := (d.flash.set 0 (completeBlock 0 1)).set 1 (completeBlock 0 2) }

theorem witness_MountReadsOrFormatsTheStore :
    ready.ed.store ≠ .mounting ∧ formatting.ed.headersRead = true ∧
    (State.reset.ed.store = .mounting ∧ State.reset.ed.headersRead = false) ∧
    (∀ p : PBlock, State.reset.ed.flash[p].mark ≠ .complete) ∧
    (twoCopies.ed.store = .mounting ∧ twoCopies.ed.headersRead = false ∧ twoCopies.ed.flash[1].mark = .complete ∧
      twoCopies.ed.flash[1].role = some 0) ∧
    (∀ q : PBlock, q ≠ 1 → twoCopies.ed.flash[q].mark = .complete → twoCopies.ed.flash[q].role = some 0 →
      twoCopies.ed.flash[q].seq.getD 0 < twoCopies.ed.flash[1].seq.getD 0) ∧
    (∀ q : PBlock, twoCopies.ed.flash[q].mark = .complete → twoCopies.ed.flash[q].role ≠ some 3) := by decide +kernel

/-- The ranges of a feed profile as SET_FEED_PROFILE judges them. -/
def feedRange (a : FeedProfileArgs) : Bool := decide (
  a.reversal.toNat ≤ 1 ∧ a.invert.toNat ≤ 1 ∧ (5 ≤ a.slow.toNat ∧ a.slow.toNat ≤ 200) ∧
  (2 ≤ a.window.toNat ∧ a.window.toNat ≤ 50) ∧ (10 ≤ a.settle.toNat ∧ a.settle.toNat ≤ 200) ∧
  (a.slow.toNat + 5 ≤ a.backoff.toNat ∧ a.backoff.toNat ≤ 300) ∧
  (a.window.toNat ≤ a.slip.toNat ∧ a.slip.toNat ≤ 500) ∧ (5 ≤ a.lead.toNat ∧ a.lead.toNat ≤ 100) ∧
  (5 ≤ a.trim.toNat ∧ a.trim.toNat ≤ 50) ∧ (20 ≤ a.sensor.toNat ∧ a.sensor.toNat ≤ 200) ∧
  (a.sensor.toNat + 420 ≤ a.knife.toNat ∧ a.knife.toNat ≤ 1000))

def feedLow : FeedProfileArgs where
  slow := 5
  window := 2
  settle := 10
  backoff := 10
  reversal := 0
  slip := 2
  invert := 0
  lead := 5
  trim := 5
  sensor := 20
  knife := 440

def feedHigh : FeedProfileArgs where
  slow := 200
  window := 50
  settle := 200
  backoff := 300
  reversal := 1
  slip := 500
  invert := 1
  lead := 100
  trim := 50
  sensor := 200
  knife := 1000

/-- Each field by itself below and above its range. -/
def feedOutside : List FeedProfileArgs :=
  [{ feedLow with slow := 4 }, { feedLow with window := 1 }, { feedLow with settle := 9 },
    { feedLow with backoff := 9 }, { feedLow with slip := 1 }, { feedLow with lead := 4 }, { feedLow with trim := 4 },
    { feedLow with sensor := 19 }, { feedLow with knife := 439 }, { feedHigh with slow := 201 },
    { feedHigh with window := 51 }, { feedHigh with settle := 201 }, { feedHigh with backoff := 301 },
    { feedHigh with reversal := 2 }, { feedHigh with slip := 501 }, { feedHigh with invert := 2 },
    { feedHigh with lead := 101 }, { feedHigh with trim := 51 }, { feedHigh with sensor := 201 },
    { feedHigh with knife := 1001 }]

theorem witness_FeedProfileIsReplacedWhole :
    ready.takesRequest ∧ (ready.feed.axis = .idle ∧ ready.pathFree = true) ∧ State.reset.feed.axis = .unreferenced ∧
    jogging.feed.axis = .moving ∧ (withJob (started .printing) ready).pathFree = false ∧
    feedRange feedLow = true ∧ feedRange feedHigh = true ∧ feedOutside.all (fun a => !feedRange a) = true ∧
    decide (feedHigh.invert = 1) ≠ ready.feed.profile.invert ∧ decide (feedLow.invert = 1) = ready.feed.profile.invert := by
  decide +kernel

/-- The axis in FAULT with the media path free. -/
def faulted : State := feedFault .slip ready

theorem witness_ClearFeedAndUnloadRollLeaveTheirStates :
    ready.takesRequest ∧ ready.feed.axis ≠ .fault ∧ faulted.takesRequest ∧ faulted.feed.axis = .fault ∧
    faulted.pathFree = true ∧ (withJob (started .printing) ready).pathFree = false ∧
    (∃ p ∈ (withJob job ready).liveJobs, p.2.mediaRes ≠ 0) ∧ jogging.feed.axis = .moving ∧
    (ready.pathFree = true ∧ (∀ p ∈ ready.liveJobs, p.2.mediaRes = 0) ∧ ready.feed.axis = .idle) ∧
    State.reset.feed.axis = .unreferenced := by decide +kernel

theorem witness_LoadRollBeginsTheEdgeSearch :
    State.reset.takesRequest ∧ ready.feed.axis ≠ .unreferenced ∧ State.reset.feed.axis = .unreferenced ∧
    7 < (8 : Byte).toNat ∧ (999 : U32).toNat < 1000 ∧ 200000 < (200001 : U32).toNat ∧
    (7 : Fin 8).val = (7 : Byte).toNat ∧ 1000 ≤ (1000 : U32).toNat ∧ (200000 : U32).toNat ≤ 200000 ∧
    (State.reset.mapFeed fun f => { f with edge := true }).feed.edge = true ∧
    (State.reset.mapFeed fun f => { f with edge := false }).feed.edge = false := by decide +kernel

/-- IDLE at the counter's upper end. -/
def farthest : State := withFeed fun f => { f with pos := 2147483647, rest := some 2147483647 }

theorem witness_JogAsksForAMoveFromTheRestTarget :
    ready.takesRequest ∧ (i16 (-101)).toInt < -100 ∧ 1000 < (i16 1001).toInt ∧ (-100 ≤ (i16 (-100)).toInt ∧
    (i16 1000).toInt ≤ 1000) ∧ jogging.feed.axis ≠ .idle ∧ (withJob (started .printing) ready).pathFree = false ∧
    ready.feed.axis = .idle ∧ ready.pathFree = true ∧ ready.feed.rest = some 0 ∧
    (requestMove (0 + 100 * (i16 1000).toInt) (.jog true) ready).2 = .begun ∧ (requestMove (0 + 100 * (i16 0).toInt) (.jog true) ready).2 = .done ∧
    farthest.feed.rest = some 2147483647 ∧ (requestMove (2147483647 + 100 * (i16 1).toInt) (.jog true) farthest).2 = .refused := by
  decide +kernel

/-- IDLE at a position. -/
def idleAt (p : Int) : State := withFeed fun f => { f with pos := BitVec.ofInt 32 p }

theorem witness_MovesBeginByThePositionAgainstTheWindow :
    ¬ (-2147483648 : Int) ≤ -2147483649 ∧ jogging.feed.axis ≠ .idle ∧ ready.feed.axis = .idle ∧
    (withFeed fun f => { f with axis := .loading, load := some .trimLeg }).feed.axis = .loading ∧
    (0 - (ready.feed.profile.window : Int) ≤ (idleAt (-5)).feed.position ∧ (idleAt 5).feed.position ≤ 0 + ready.feed.profile.window) ∧
    (idleAt (-6)).feed.position < 0 - ready.feed.profile.window ∧
    0 + (ready.feed.profile.window : Int) < (idleAt 6).feed.position := by decide +kernel

theorem witness_TrimIsSetAndReadWhenACutIsPlanned :
    ready.takesRequest ∧ 1 < (2 : Byte).toNat ∧ (i16 (-501)).toInt < -500 ∧ 500 < (i16 501).toInt ∧
    (-500 ≤ (i16 (-500)).toInt ∧ (i16 500).toInt ≤ 500) ∧
    (withJob (started .cutting) ready).liveJob 0 = some (started .cutting) ∧ (started .cutting).startPos = some 0 ∧
    (started .cutting).cuts[(started .cutting).cutsDone]? = some 200 ∧
    (requestMove (0 + 100 * 200 + 100 * 500 + 0) .cut (withJob (started .cutting) ready)).2 = .begun ∧
    (requestMove (0 + 100 * 200 + 100 * 500 + 0) .cut (withJob (started .cutting) (idleAt 70000))).2 = .done ∧
    (restarting.host.restart = .replyGone ∧ restarting.ed.store ≠ .mounting ∧ restarting.ed.rot = none ∧
      restarting.ed.writes = [] ∧ restarting.host.tx = none) := by decide +kernel

theorem witness_EncoderCountsReachPositionAndRoll :
    (ready.feed.encA = false ∧ ready.feed.encB = false ∧ ready.feed.profile.invert = false) ∧
    (false = ready.feed.encA ↔ false = ready.feed.encB) ∧ (true = ready.feed.encA ↔ true = ready.feed.encB) ∧
    ¬ (true = ready.feed.encA ↔ false = ready.feed.encB) ∧ ¬ (false = ready.feed.encA ↔ true = ready.feed.encB) ∧
    (false, false, true, false) ∈
      [(false, false, true, false), (true, false, true, true), (true, true, false, true), (false, true, false, false)] := by
  decide +kernel

/-- A move to target 900 in a phase, at a position. -/
def moveAt (ph : MovePhase) (used : Bool) (p : Int) : State := withFeed fun f =>
  { f with axis := if ph = .reverse then .reversing else .moving
           pos := BitVec.ofInt 32 p
           settleLeft := if ph = .settle then some 30 else none
           move := some { target := 900, by_ := .jog true, phase := ph, reversalUsed := used,
                          endPoint := if ph = .reverse then some (-3100) else none } }

theorem witness_CountsAndTheSettleTimeCarryTheMove :
    (∀ ph ∈ [MovePhase.approach, .settle, .reverse], ((moveAt ph false 0).feed.move.map (·.phase)) = some ph) ∧
    (moveAt .approach false 894).feed.position < 900 - ready.feed.profile.window ∧
    (900 - (ready.feed.profile.window : Int) ≤ (moveAt .approach false 895).feed.position ∧
      (moveAt .settle false 905).feed.position ≤ 900 + ready.feed.profile.window) ∧
    900 + (ready.feed.profile.window : Int) < (moveAt .settle false 906).feed.position ∧
    ready.feed.profile.reversal = true ∧ ((moveAt .settle true 906).feed.move.map (·.reversalUsed)) = some true ∧
    ((moveAt .reverse true (-3100)).feed.move.map (·.endPoint)) = some (some (-3100)) ∧
    (moveAt .reverse true (-3100)).feed.position ≤ -3100 ∧ (-3100 : Int) < (moveAt .reverse true (-3099)).feed.position ∧
    (settling.feed.move.isSome = true ∧ settling.feed.settleLeft = some 0) ∧ ready.feed.move = none := by decide +kernel

/-- An edge search that began at 0, at a count. -/
def searchAt (p : Nat) : State := withFeed fun f =>
  { f with axis := .loading, edge := false, load := some (.search 0), pos := BitVec.ofNat 32 p }

/-- A drive window with a net count. -/
def windowed (n : Int) : State := withFeed fun f => { f with axis := .moving, drive := .slow, window := some { net := n, left := 1 } }

theorem witness_DetectorsTakeFaultsThatStopTheAxis :
    ready.feed.window = none ∧ ((windowed 3).feed.window.map (·.net)) = some 3 ∧ ((windowed 4).feed.window.map (·.net)) = some 4 ∧
    (searchAt 0).feed.load = some (.search 0) ∧ 100000 ≤ ((searchAt 100000).feed.pos - 0).toInt ∧
    ((searchAt 99999).feed.pos - 0).toInt < 100000 ∧
    stroke.feed.knifeCycle = some (.stroke 50) ∧
    (after (.knifeHomeChange false) stroke).feed.knifeCycle = some (.return_ 500) ∧ ready.feed.knifeCycle = none ∧
    (ready.feed.axis = .idle ∧ ready.feed.move = none ∧ ready.feed.rest = some 0) ∧
    (0 + (ready.feed.profile.slip : Int) < (idleAt 21).feed.position ∧ (idleAt (-21)).feed.position < 0 - ready.feed.profile.slip ∧
      (idleAt 20).feed.position ≤ 0 + ready.feed.profile.slip ∧ 0 - (ready.feed.profile.slip : Int) ≤ (idleAt (-20)).feed.position) ∧
    (faulted.feed.axis ≠ .idle ∧ faulted.feed.move = none) ∧ FaultKind.mediaOut ≠ .slip ∧ ready.pathJob = none ∧
    (withJob (started .printing) ready).pathJob = some (0, started .printing) := by decide +kernel

/-- The trim leg of a load about to begin, with a trim length. -/
def trimLeg (mm : Nat) : State := (searchAt 0).mapFeed fun f =>
  { f with referenced := true, load := some .trimLeg, profile := { f.profile with trim := mm } }

theorem witness_EdgeChangeIsMediaOutOrTheReference :
    jogging.feed.load = none ∧ (jogging.feed.edge = true ∧ jogging.feed.forwardApproach = true) ∧
    ready.feed.forwardApproach = false ∧ (searchAt 0).feed.load = some (.search 0) ∧ (searchAt 0).feed.edge = false ∧
    (requestMove 1500 .load (trimLeg 15)).2 = .begun ∧ (requestMove 0 .load (trimLeg 0)).2 = .done := by
  decide +kernel

/-- The job with two cuts, the first being made. -/
def twoCuts : Job := { started .cutting with cuts := [100, 200] }

/-- The trim cut of a load in its return. -/
def trimCutting : State := withFeed fun f =>
  { f with axis := .loading, load := some .trimCut, knifeCycle := some (.return_ 1) }

theorem witness_KnifeCycleStrokesAndReturns :
    ready.feed.knifeHome = true ∧ (withFeed fun f => { f with knifeHome := false }).feed.knifeHome = false ∧
    stroke.feed.knifeCycle = some (.stroke 50) ∧
    (after (.knifeHomeChange false) stroke).feed.knifeCycle = some (.return_ 500) ∧ ready.feed.knifeCycle = none ∧
    (trimCutting.feed.load.isSome = true ∧ trimCutting.feed.knifeCycle = some (.return_ 1)) ∧
    (stroke.feed.load = none ∧ stroke.pathJob = some (0, started .cutting)) ∧
    twoCuts.cutsDone + 1 < twoCuts.cuts.length ∧ (started .cutting).cuts.length ≤ (started .cutting).cutsDone + 1 := by
  decide +kernel

/-- The drift monitor with a lot known on channel 0. -/
def lotKnown : Drift := { ready.drift with lots := ready.drift.lots.set 0 (some 9) }

theorem witness_FitCartridgeDeclaresTheContents :
    ready.takesRequest ∧ 9 < (10 : Byte).toNat ∧ (999 : U32).toNat < 1000 ∧ 2000000 < (2000001 : U32).toNat ∧
    (1000 : U32).toNat < (1001 : U32).toNat ∧
    ((9 : Chan).val = (9 : Byte).toNat ∧ 1000 ≤ (1000 : U32).toNat ∧ (2000000 : U32).toNat ≤ 2000000 ∧
      (1000 : U32).toNat ≤ (1000 : U32).toNat) ∧
    ready.ink.chans[9].supply ≠ .undeclared ∧
    (withChan 9 fun x => { x with supply := .undeclared }).ink.chans[9].supply = .undeclared ∧
    ready.drift.lots[0] = none ∧ lotKnown.lots[0] = some (9 : U32).toNat ∧ 9 ≠ (8 : U32).toNat := by decide +kernel

/-- Channel 0 with an ended refill failure. -/
def refillFailed : State := withChan 0 fun x => { x with sticky := { x.sticky with refillFail := true } }

theorem witness_InkStatusReportsAndClears :
    ready.takesRequest ∧ 9 < (10 : Byte).toNat ∧ (10 : Byte) ≠ 0xFF ∧ (9 < (0xFE : Byte).toNat ∧ (0xFE : Byte) ≠ 0xFF) ∧
    1 < (2 : Byte).toNat ∧ ready.ink.chans[0].sticky.refillFail = false ∧
    refillFailed.ink.chans[0].sticky.refillFail = true := by decide +kernel

/-- The ranges of an ink profile as SET_INK_PROFILE judges them. -/
def inkRange (a : InkProfileArgs) : Bool := decide (
  (1 ≤ a.drop.toNat ∧ a.drop.toNat ≤ 20) ∧ a.emptyAt.toNat ≤ 1023 ∧ a.fullAt.toNat ≤ 1023 ∧
  (a.emptyAt.toNat + 100 ≤ a.fullAt.toNat ∨ a.fullAt.toNat + 100 ≤ a.emptyAt.toNat) ∧
  (a.floor.toNat < a.start.toNat ∧ a.start.toNat < a.stop.toNat ∧ a.stop.toNat ≤ 29000) ∧
  (1000 ≤ a.floor.toNat ∧ a.floor.toNat ≤ 10000))

def inkLow : InkProfileArgs := { drop := 1, emptyAt := 0, fullAt := 100, start := 1001, stop := 1002, floor := 1000 }
def inkHigh : InkProfileArgs := { drop := 20, emptyAt := 1023, fullAt := 923, start := 28999, stop := 29000, floor := 10000 }

/-- One bound of the ink profile passed by each. -/
def inkOutside : List InkProfileArgs :=
  [{ inkLow with drop := 0 }, { inkLow with fullAt := 99 }, { inkLow with start := 1000 },
    { inkLow with stop := 1001 }, { inkLow with floor := 999 }, { inkHigh with drop := 21 },
    { inkHigh with emptyAt := 1024 }, { inkHigh with fullAt := 924 }, { inkHigh with stop := 29001 },
    { inkHigh with floor := 10001 }]

theorem witness_InkProfileIsReplacedWhole :
    inked.takesRequest ∧ 9 < (10 : Byte).toNat ∧ (9 : Chan).val = (9 : Byte).toNat ∧ inkRange inkLow = true ∧ inkRange inkHigh = true ∧ inkOutside.all (fun a => !inkRange a) = true ∧
    (∃ x ∈ (withJob (started .printing) inked).liveJobs, x.2.state = .printing) ∧
    (∀ x ∈ (withJob job inked).liveJobs, x.2.state ≠ .printing ∧ x.2.state ≠ .suspended ∧ x.2.state ≠ .aborting) ∧
    inked.ink.chans[0].above = true ∧
    (withChan 0 fun x => { fitted x with level := 3500, above := false }).ink.chans[0].above = false := by decide +kernel

/-- Channel 3 after a first good scan. -/
def scanned : State := after (.scan (Vector.replicate 11 422) (Vector.replicate 10 true)) State.reset

/-- A falling sensor: EMPTY above FULL. -/
def falling : InkProfile := { InkProfile.default with emptyAt := 960, fullAt := 64 }

theorem witness_ScanTakesRingsLevelsAndCartridges :
    State.reset.ink.Law ∧
    ((7 : BitVec 10).toNat < 8 ∧ 1015 < (1016 : BitVec 10).toNat ∧ (8 ≤ (8 : BitVec 10).toNat ∧ (1015 : BitVec 10).toNat ≤ 1015) ∧
    State.reset.ink.scanned = false ∧
    (scanned.ink.scanned = true ∧ scanned.ink.chans[3].fault = false ∧ scanned.ink.chans[3].ring.length = 8 ∧
      scanned.ink.chans[3].supply = .undeclared) ∧
    State.reset.ink.chans[3].supply = .unfitted ∧
    (InkProfile.default.emptyAt < InkProfile.default.fullAt ∧ InkProfile.default.emptyAt ≤ 64 ∧ 960 ≤ InkProfile.default.fullAt) ∧
    (falling.fullAt < falling.emptyAt ∧ falling.fullAt ≤ 64 ∧ 960 ≤ falling.emptyAt)) :=
  ⟨Ink.atReset_law, by decide +kernel⟩

/-- Channel 0 REFILLING after some strokes, its level at their beginning, its level now, its cartridge's contents. -/
def pumping (strokes first level rest : Nat) : State := withChan 0 fun x =>
  { fitted x with
    supply := .refilling, pump := true, level := level, strokeLeft := some 250
    cart := some { capacity := 100000, remaining := rest, lot := 9 }
    progress := some { strokes := strokes, ring := first :: List.replicate (min strokes 40) level } }

theorem witness_PumpStrokeMovesInkAndJudgesTheRefill :
    ready.ink.chans[0].supply ≠ .refilling ∧
    (∀ s ∈ [pumping 39 8000 8499 50, pumping 38 8000 8499 50, pumping 39 8000 8500 51],
      s.ink.chans[0].supply = .refilling ∧ s.ink.chans[0].cart.isSome = true ∧ s.ink.chans[0].progress.isSome = true) ∧
    (40 ≤ 39 + 1 ∧ 8499 < 8000 + 500) ∧ 38 + 1 < 40 ∧ 8000 + 500 ≤ 8500 ∧ 50 ≤ 50 ∧ 50 < 51 := by decide +kernel

/-- An entry of 500 µL reserved. -/
def entry500 : InkEntry where
  chan := 2
  estimated := true
  reservation := 500000
  drawn := 0
  remaining := 500000
  overdraw := 0
  drops := 0
  used := 0
  released := false

/-- Channel 0's levels over a refill that rose by 2,000 µL or 2,001 µL. -/
def risen (n : Nat) : State := withChan 0 fun x => { x with levelBegin := 10000, levelEnd := 10000 + n }

theorem witness_DropsAreDebitedAsInkOrOverhead :
    min (entry500.drops + 125000000) 4294967295 * 4 / 1000 - entry500.used ≤ entry500.remaining ∧
    entry500.remaining < min (entry500.drops + 125000250) 4294967295 * 4 / 1000 - entry500.used ∧
    (((risen 2000).ink.chans[0].levelEnd : Int) - (risen 2000).ink.chans[0].levelBegin
      - ((risen 2000).acct.useBegin[0] / 1000 : Nat) ≤ 2000) ∧
    (2000 < ((risen 2001).ink.chans[0].levelEnd : Int) - (risen 2001).ink.chans[0].levelBegin
      - ((risen 2001).acct.useBegin[0] / 1000 : Nat)) ∧
    readMaint [(9, 1)] = some [(9, 1)] ∧ readMaint [] = none ∧ readMaint [(10, 1)] = none := by decide +kernel

theorem witness_EngineFrameIsTheMessageItCarries :
    (Instr.swath 5 1 200000 [(0, 1), (9, 4294967295)]).wellFormed = true ∧
    (engineBody (.swath 5 1 200000 [(0, 1), (9, 4294967295)])).isSome = true ∧
    (engineBody (.engineState 1 0)).isSome = true ∧ (Instr.engineState 1 0).wellFormed = true ∧
    State.reset.eng.rx = none := by decide +kernel

/-- The job printing in SUSPENDED, dry since its channel has no ink. -/
def held : State := printing .held .suspended

theorem witness_BadEngineFramesAreCounted :
    ready.eng.rx = none ∧ (List.replicate 512 (0 : Byte)).length ≤ 512 ∧ word16 0 0 ≠ crc16 (frameCore 0x81 0 [1, 0]) ∧
    512 < (word16 0x01 0x02).toNat ∧ (∀ k ∈ ([0x80, 0x85] : List Byte), k ∉ ([0x81, 0x82, 0x83, 0x84] : List Byte)) ∧
    readSwath 200001 [] = none ∧ readSwath 0 [(10, 1)] = none ∧ 1 < (2 : Byte).toNat ∧ ready.eng.ctx = none ∧
    ((held.eng.ctx.map (·.phase)) = some .held ∧ ((printing .ending .aborting).eng.ctx.map (·.phase)) = some .ending) ∧
    ((awaiting.eng.ctx.map (·.phase)) = some .await ∧ awaiting.contextJob = some (0, started .printing)) ∧
    (((printing .feed .printing).eng.ctx.map (·.phase)) = some .feed ∧
      (printing .feed .printing).contextJob = some (0, started .printing)) := by decide +kernel

theorem witness_EngineStateSetsTheState :
    (ready.eng.state = .ready ∧ ready.eng.code = 0) ∧ State.reset.eng.state ≠ .ready ∧ (1 : Byte) ≠ 0 ∧
    ((after (.engineState 3 255) ready).eng.state = .fault ∧ (after (.engineState 3 255) ready).eng.code = 255) ∧
    ready.eng.ctx = none ∧ awaiting.contextJob = some (0, started .printing) ∧ 3 < (4 : Byte).toNat ∧
    ((2 : Byte).toNat < 3 ∧ (1 : Byte) ≠ 0) := by decide +kernel

theorem witness_SwathIsDebitedAndFed :
    readSwath 200000 [(0, 5)] = some (200000, [(0, 5)]) ∧ readSwath 0 [] = some (0, []) ∧
    (awaiting.eng.ctx = some (context .await) ∧ (context .await).tag = (5 : U16).toNat ∧
      awaiting.contextJob = some (0, started .printing) ∧ (context .await).next = 1 ∧ awaiting.feed.swathTarget = some 0) ∧
    (requestMove (0 + 200000) .swath awaiting).2 = .begun ∧ (requestMove (0 + 0) .swath awaiting).2 = .done ∧
    (requestMove (0 + 200000) .swath (awaiting.mapFeed fun f => { f with axis := .fault })).2 = .refused ∧
    ((printing .ending .aborting).contextJob = some (0, started .aborting) ∧ (context .ending).endingSwath = false) ∧
    (printing .feed .printing).contextJob = some (0, started .printing) ∧ (context .await).next ≠ 2 ∧
    ({ context .ending with endingSwath := true } : PrintContext).endingSwath = true ∧ ready.eng.ctx = none ∧
    (context .await).tag ≠ (6 : U16).toNat := by decide +kernel

/-- The job held with its channel returned to the resume level, and one below it. -/
def returned (level : Nat) : State := setChan 0 (fun x => { fitted x with level := level }) held

theorem witness_FeedDoneHoldAndResume :
    ((printing .feed .printing).eng.ctx = some (context .feed) ∧
      (printing .feed .printing).contextJob = some (0, started .printing) ∧ (context .feed).inFeed = some 1) ∧
    (setChan 0 fitted (printing .feed .printing)).jobDry (started .printing) = false ∧
    (printing .feed .printing).jobDry (started .printing) = true ∧ (context .await).phase ≠ .feed ∧
    ((returned 4000).eng.ctx = some (context .held) ∧ (returned 4000).contextJob = some (0, started .suspended)) ∧
    (∀ c ∈ (started .suspended).inkChannels, (returned 4000).ink.chans[c].fault = false ∧
      (returned 4000).ink.chans[c].profile.floor + 1000 ≤ (returned 4000).ink.chans[c].level) ∧
    (∃ c ∈ (started .suspended).inkChannels,
      (returned 3999).ink.chans[c].level < (returned 3999).ink.chans[c].profile.floor + 1000) := by decide +kernel

theorem witness_EndAndTimersEndTheEnginesPart :
    ready.eng.ctx = none ∧
    (∀ p ∈ [(PrintPhase.await, JobState.printing), (.feed, .printing), (.held, .suspended), (.ending, .aborting)],
      (printing p.1 p.2).eng.ctx = some (context p.1) ∧ (printing p.1 p.2).contextJob = some (0, started p.2)) ∧
    (context .await).tag = (5 : U16).toNat ∧ (context .await).tag ≠ (6 : U16).toNat ∧
    (started .printing).strip = none ∧ ({ started .printing with strip := some strip } : Job).strip = some strip ∧
    ((context .await).swathTimer.isSome = true ∧ (context .ending).swathTimer.isSome = true ∧
      (context .feed).swathTimer = none) ∧
    ((context .held).dryTimer.isSome = true ∧ (context .await).dryTimer = none) := by decide +kernel

/-- An update of a patch, its target at the ends of the ranges. -/
def patchLow : PatchUpdate := { index := 0, define := 1, l := 0, a := i16 (-12800), b := i16 (-12800), dominant := 0xFF }
def patchHigh : PatchUpdate := { index := 47, define := 1, l := 10000, a := i16 12700, b := i16 12700, dominant := 9 }

def patchRange (u : PatchUpdate) : Bool := decide (
  u.l.toNat ≤ 10000 ∧ (-12800 ≤ u.a.toInt ∧ u.a.toInt ≤ 12700) ∧ (-12800 ≤ u.b.toInt ∧ u.b.toInt ≤ 12700) ∧
  ¬ (9 < u.dominant.toNat ∧ u.dominant ≠ 0xFF))

/-- The ranges of a strip profile as SET_STRIP_PROFILE judges them. -/
def stripRange (a : StripProfileArgs) : Bool := decide (
  (8 ≤ a.t.toNat ∧ a.t.toNat ≤ 48) ∧ (1 ≤ a.stride.toNat ∧ a.stride.toNat < a.t.toNat) ∧
  Nat.gcd a.stride.toNat a.t.toNat = 1 ∧ a.seed.toNat < a.t.toNat ∧ (2 ≤ a.m.toNat ∧ a.m.toNat ≤ 4) ∧
  (1 ≤ a.runMin.toNat ∧ a.runMin.toNat ≤ a.m.toNat) ∧ (a.m.toNat ≤ a.runMax.toNat ∧ a.runMax.toNat ≤ a.m.toNat + 1) ∧
  (4 ≤ a.pitch.toNat ∧ a.pitch.toNat ≤ 8) ∧ (100 ≤ a.markThreshold.toNat ∧ a.markThreshold.toNat ≤ 9000) ∧
  (10 ≤ a.tolerance.toNat ∧ a.tolerance.toNat ≤ 5000) ∧ a.allowed.toNat ≤ a.t.toNat ∧
  (10 ≤ a.meanTolerance.toNat ∧ a.meanTolerance.toNat ≤ 5000) ∧
  (a.tolerance.toNat < a.gross.toNat ∧ a.gross.toNat ≤ 20000) ∧ a.learn.toNat ≤ 1 ∧
  a.dwellLow.toNat ≤ 900 ∧ a.dwellMid.toNat ≤ 900 ∧ a.dwellHigh.toNat ≤ 900)

/-- The job with its strip on the media path. -/
def stripPrinting : State := withJob { started .printing with strip := some strip } patched

/-- The patch table defined but for entry 7. -/
def gapAt7 : State := patched.mapChk fun k => { k with patches := k.patches.set 7 none }

/-- One bound of a patch passed by each. -/
def patchOutside : List PatchUpdate :=
  [{ patchHigh with l := 10001 }, { patchHigh with a := i16 12701 }, { patchHigh with b := i16 12701 },
    { patchHigh with dominant := 10 }, { patchLow with a := i16 (-12801) }, { patchLow with b := i16 (-12801) },
    { patchLow with dominant := 0xFE }]

/-- One bound of the strip profile passed by each. -/
def stripOutside : List StripProfileArgs :=
  [{ stripArgs with t := 7 }, { stripArgs with stride := 4 }, { stripArgs with seed := 8 },
    { stripArgs with pitch := 9 }, { stripArgs with gross := 300 }, { stripArgs with learn := 2 }]

theorem witness_PatchAndStripProfileRequests :
    ready.takesRequest ∧ ([] : List PatchUpdate).length < 1 ∧ 4 < (List.replicate 5 patchLow).length ∧
    (1 ≤ [patchLow].length ∧ (List.replicate 4 patchLow).length ≤ 4) ∧
    (∃ p ∈ stripPrinting.liveJobs, p.2.strip.isSome = true ∧ p.2.state = .printing) ∧
    (∀ p ∈ (withJob job ready).liveJobs, ¬ p.2.strip.isSome = true) ∧ 47 < (48 : Byte).toNat ∧
    (47 : Fin 48).val = patchHigh.index.toNat ∧ (stripPrinting.liveJobs.map fun p => p.2.strip) = [some strip] ∧
    (7 : Fin 48).val < strip.geo.t ∧ strip.geo.t ≤ (8 : Fin 48).val ∧
    ready.chk.profile.set = none ∧ patchRange patchLow = true ∧ patchRange patchHigh = true ∧ patchOutside.all (fun u => !patchRange u) = true ∧
    (stripPrinting.stripOnPath = true ∧ patched.stripOnPath = false) ∧ stripRange stripArgs = true ∧
    stripOutside.all (fun a => !stripRange a) = true ∧
    gapAt7.chk.patches[7] = none ∧ (∀ k : Fin 48, k.val < stripArgs.t.toNat → patched.chk.patches[k].isSome = true) := by
  decide +kernel

/-- Channel 0 OUT of the drift limits. -/
def drifted : State := ready.mapDrift fun d => { d with rings := d.rings.set 0 [400], states := d.states.set 0 .out }

/-- A CRITICAL job, and the same job held for colour. -/
def critical : Job := { job with mode := .critical }
def colourHeld : Job := { critical with holds := { noMedia := false, colourOut := true } }

theorem witness_DriftLimitsAndClearingsSettleTheHolds :
    ready.takesRequest ∧ (9 : U16).toNat < 10 ∧ 5000 < (5001 : U16).toNat ∧ (10 : U16).toNat ≤ (10 : U16).toNat ∧
    10000 < (10001 : U16).toNat ∧ (10 ≤ (10 : U16).toNat ∧ (5000 : U16).toNat ≤ 5000 ∧ (10 : U16).toNat < (11 : U16).toNat ∧
      (10000 : U16).toNat ≤ 10000) ∧ 9 < (10 : Byte).toNat ∧ (9 : Chan).val = (9 : Byte).toNat ∧
    stripPrinting.stripOnPath = true ∧ ready.stripOnPath = false ∧
    (∀ c : Chan, drifted.drift.states[c] = .out ↔ drifted.drift.states[c] = .out) ∧
    (∃ c : Chan, ¬ (drifted.drift.states[c] = .out ↔ ready.drift.states[c] = .out)) ∧
    (withJob (started .printing) ready).liveJob 0 = some (started .printing) ∧ job.mode ≠ .critical ∧
    (withJob critical drifted).liveJob 0 = some critical ∧ (∃ p ∈ critical.est, drifted.drift.states[p.1] = .out) ∧
    (critical.state = .pending ∧ critical.holds.colourOut = false ∧ colourHeld.holds.colourOut = true) ∧
    (withJob colourHeld ready).liveJob 0 = some colourHeld ∧ (∀ p ∈ colourHeld.est, ready.drift.states[p.1] ≠ .out) := by
  decide +kernel

/-- A result at the ends of the ranges. -/
def brightest : Vector Byte 8 := #v[1, 0x10, 0x27, 0x9C, 0x31, 0x00, 0xCE, 0x2D]

theorem witness_DwellAndReadingsOnTheSensorLink :
    ready.chk.ctx = none ∧ (dwelling.chk.ctx.map fun x => (x.dwell.isSome, x.slot)) = some (true, 0) ∧
    (dwelling.liveJob 0).isSome = true ∧ (measuring.chk.ctx.map (·.stripStart)) = some (some 26000) ∧
    (requestMove (26000 - 200 * 6 + 100 * (0 * 6)) .strip measuring).2 = .begun ∧
    (requestMove (26000 - 200 * 6 + 100 * (0 * 6)) .strip (measuring.mapFeed fun f => { f with pos := 24800 })).2 = .done ∧
    ready.chk.reading = none ∧ measuring.chk.reading = some { phase := .command, discard := false } ∧
    resultRead.chk.reading = some { phase := .result 20, discard := false } ∧
    (brightest[0] = 1 ∧ (brightest.toList.map (·.toNat)).sum % 256 = 0 ∧ (word16 brightest[1] brightest[2]).toNat = 10000 ∧
      (word16 brightest[3] brightest[4]).toInt = 12700 ∧ (word16 brightest[5] brightest[6]).toInt = -12800) ∧
    (brightest.set 0 0)[0] = 0 ∧ (brightest.set 0 2)[0] ≠ 0 ∧ (brightest.set 0 2)[0] ≠ 1 ∧
    ((brightest.set 7 0).toList.map (·.toNat)).sum % 256 ≠ 0 ∧ 10000 < (word16 (brightest.set 1 0x11)[1] 0x27).toNat ∧
    (2 ≤ 2 ∧ 1 < 2) := by decide +kernel


/-- A strip's search after some readings and a run of dark ones. -/
def searching (inSearch run : Nat) : State := measuring.mapChk fun k =>
  { k with ctx := k.ctx.map fun x => { x with inSearch := inSearch, run := run } }

/-- A locked strip before a patch, with what its patches have given so far; every target is (5000, 0, 0). -/
def locked (patch failing sum : Nat) (lastGross : Bool) : State := measuring.mapChk fun k =>
  { k with
    state := .locked
    patches := Vector.replicate 48 (some { target := { l := 5000, a := 0, b := 0 }, dominant := some 0 })
    ctx := k.ctx.map fun x => { x with patch := patch, failing := failing, sum := sum, lastGross := lastGross } }

/-- Numbers at which the clauses of the statement meet. -/
theorem witness_ReadingsAreJudgedAndVerdictsActedOn :
    ((searching 8 5).chk.ctx.map fun x => (x.inSearch, x.run, x.geo.m)) = some (8, 5, 3) ∧
    (7 + 1 < 3 + 6 ∧ 3 + 6 ≤ 8 + 1) ∧
    ((1999 : Int) < ready.chk.profile.markThreshold ∧ (ready.chk.profile.markThreshold : Int) ≤ 2000) ∧
    (1 < ready.chk.profile.runMin ∧ ready.chk.profile.runMin ≤ 2 ∧ 4 ≤ ready.chk.profile.runMax ∧ ready.chk.profile.runMax < 5) ∧
    ((locked 7 1 1600 true).chk.ctx.map fun x => (x.order.getD x.patch 0, x.geo.t)) = some (2, 8) ∧
    (locked 7 1 1600 true).chk.patches[2]? = some (some { target := { l := 5000, a := 0, b := 0 }, dominant := some 0 }) ∧
    (deltaE { l := 6500, a := 0, b := 0 } { l := 5000, a := 0, b := 0 } ≤ ready.chk.profile.gross ∧
      ready.chk.profile.gross < deltaE { l := 6501, a := 0, b := 0 } { l := 5000, a := 0, b := 0 }) ∧
    (deltaE { l := 5300, a := 0, b := 0 } { l := 5000, a := 0, b := 0 } ≤ ready.chk.profile.tolerance ∧
      ready.chk.profile.tolerance < deltaE { l := 5301, a := 0, b := 0 } { l := 5000, a := 0, b := 0 }) ∧
    (6 + 1 < 8 ∧ 8 ≤ 7 + 1) ∧ (1 ≤ ready.chk.profile.allowed ∧ ready.chk.profile.allowed < 2) ∧
    ((1600 + 7) / 8 ≤ ready.chk.profile.meanTolerance ∧ ready.chk.profile.meanTolerance < (1600 + 8) / 8) ∧
    ((locked 7 1 1600 true).chk.ctx.map (·.slot)) = some 0 ∧ ((locked 7 1 1600 true).liveJob 0).isSome = true ∧
    job.mode ≠ .critical ∧ critical.mode = .critical := by decide +kernel

/-- Every price slot referenced. -/
def pricesFull : State := ready.mapCost fun k => { k with slots := k.slots.map fun x => { x with refs := 1 } }

theorem witness_LoadPricesFillsTheLowestOpenSlot :
    ready.takesRequest ∧ (∃ c : Fin 10, 1000000 < ({ priceArgs with ink := priceArgs.ink.set 9 1000001 } : PriceArgs).ink[c].toNat) ∧
    (∃ m : Fin 8, 10000000 < ({ priceArgs with media := priceArgs.media.set 7 10000001 } : PriceArgs).media[m].toNat) ∧
    1000000 < (1000001 : U32).toNat ∧
    ((∀ c : Fin 10, priceArgs.ink[c].toNat ≤ 1000000) ∧ (∀ m : Fin 8, priceArgs.media[m].toNat ≤ 10000000) ∧
      priceArgs.cut.toNat ≤ 1000000) ∧
    (∀ p : PriceIx, pricesFull.cost.current = some p ∨ pricesFull.cost.slots[p].refs ≠ 0) ∧
    (ready.cost.current ≠ some 1 ∧ ready.cost.slots[1].refs = 0) ∧
    (∀ q : PriceIx, q < 1 → ready.cost.current = some q ∨ ready.cost.slots[q].refs ≠ 0) ∧
    (State.reset.cost.current = none ∧ State.reset.cost.slots[0].refs = 0) ∧ ready.cost.current = some 0 := by
  decide +kernel

/-- The cost record of the job. -/
def record : CostRecord := costRecord ready job 0

/-- A log of some records, with some that wait. -/
def logged (n waits : Nat) : State := ready.mapCost fun k =>
  { k with log := List.replicate n record, waiting := List.replicate waits record }

/-- The job in CLOSING with its record waiting. -/
def recordWaits : State := withJob { job with state := .closing } (logged 32 1)

theorem witness_CostTakeReturnsTheFrontRecord :
    ready.takesRequest ∧ ready.cost.log = [] ∧ (logged 1 0).takesRequest ∧
    ((logged 1 0).cost.log = record :: [] ∧ (logged 1 0).cost.waiting = []) ∧
    ((logged 32 1).cost.log = record :: List.replicate 31 record ∧ (logged 32 1).cost.waiting = record :: []) ∧
    (logged 32 1).jobByTag record.tag = none ∧ recordWaits.takesRequest ∧
    recordWaits.jobByTag record.tag = some (0, { job with state := .closing }) := by decide +kernel

theorem witness_CostRecordsLevelsAndOverhead :
    ready.cost.slots[job.priceSlot].loaded = some (1, noPrices) ∧
    ((logged 31 0).cost.log.length < 32 ∧ (logged 31 0).cost.waiting = [] ∧ (logged 22 0).cost.log.length + 1 < ready.cost.critical ∧
      ready.cost.critical ≤ (logged 23 0).cost.log.length + 1) ∧
    (32 ≤ (logged 32 0).cost.log.length ∧ (logged 31 1).cost.waiting ≠ []) ∧ (logged 23 0).takesRequest ∧
    (0 : Byte).toNat < 1 ∧ 32 < (33 : Byte).toNat ∧ (1 ≤ (1 : Byte).toNat ∧ (32 : Byte).toNat ≤ 32) ∧
    ((logged 23 0).cost.log.length < (24 : Byte).toNat ∧ (23 : Byte).toNat ≤ (logged 23 0).cost.log.length) ∧
    1 < (2 : Byte).toNat := by decide +kernel

theorem witness_FeedFaultsAndTheSpoilPathByState :
    ({ started .cutting with spoilWait := true } : Job).spoilWait = true ∧ (started .printing).spoilWait = false ∧
    (({ job with state := .printing } : Job).startPos = none ∧ ({ job with state := .printing } : Job).outcome = none) ∧
    ({ job with state := .printing, outcome := some .cancelled } : Job).outcome.isSome = true ∧
    (started .printing).startPos.isSome = true ∧ (started .suspended).state = .suspended ∧
    (started .aborting).state = .aborting ∧ (started .checking).state = .checking ∧ (started .cutting).state = .cutting ∧
    job.state = .pending ∧ recorded.state = .closing ∧ jogging.feed.axis = .moving ∧
    (moveAt .reverse true 0).feed.axis = .reversing ∧ faulted.feed.axis = .fault ∧ ready.feed.axis = .idle ∧
    (started .cutting).startPos = some 0 := by decide +kernel

/-! ### Points of a review: what must not be lost, and what must not be charged -/

/-- A job printing in slot 0 with its swath target, and a PENDING job in slot 1. -/
def oneMore : State := (printing .await .printing).mapJobs fun t =>
  { slots := t.slots.set 1 (.live { job with tag := 6, holds := { noMedia := true, colourOut := false }, mediaRes := 0 })
    order := [0, 1] }

theorem test_cancel_of_a_pending_job_keeps_the_swath_target :
    (after (.cancelJob 1 6) (oneMore.mapFeed fun f => { f with swathTarget := some 40 })).feed.swathTarget = some 40 := by
  decide +kernel

/-- The slot of a departed job, after two price lists have come since. -/
def repriced : State :=
  let fresh := fun s : State => s.mapHost fun h => { h with reply := none }
  after (.loadPrices 3 priceArgs) (fresh (after (.loadPrices 2 priceArgs) (fresh releasing)))

theorem test_releasing_slot_keeps_its_generation :
    repriced.cost.genCounter = 3 ∧ jobSlotReport repriced 0 = jobSlotReport releasing 0 := by decide +kernel

theorem test_storeStatus_before_the_headers :
    (storeReport State.reset.ed).take 11 = [0, 0, 0, 0, 0, 0, 0, 0, 0, 0, 0] ∧
    (storeReport ready.ed).take 8 = [1, 2, 0, 1, 1, 1, 0, 3] := by
  decide +kernel

/-- A jog at the reach, forward or backward. -/
def joggingAt (forward : Bool) : State := withFeed fun f =>
  { f with axis := .moving, drive := .fast
           move := some { target := 900, by_ := .jog forward, phase := .approach, reversalUsed := false, endPoint := none } }

theorem test_forward_jog_alone_is_charged :
    (after (.encoderCount true false) (joggingAt true)).cost.overhead.jog.toList.sum = 1 ∧
    (after (.encoderCount true false) (joggingAt false)).cost.overhead.jog.toList.sum = 0 ∧
    (after (.encoderCount true false) (joggingAt false)).feed.roll.reach = 1 := by decide +kernel

/-- A job held COLOUR_OUT for channel 0, whose next cartridge has another lot. -/
def newLot : State :=
  ((withJob { job with mode := .critical, holds := { noMedia := false, colourOut := true } }
    (withChan 0 fun x => { x with supply := .undeclared })).mapDrift fun d =>
      { d with rings := d.rings.set 0 [400], states := d.states.set 0 .out, lots := d.lots.set 0 (some 9) })

theorem test_holds_settle_after_the_channel_notice :
    (after (.fitCartridge 1 0 1000 1000 8) newLot).host.queue.take 2 = [.channel 0, .jobSlot 0] := by decide +kernel

/-! ### States and operands for the clauses on the operations, at the values where the clauses meet -/

theorem witness_BadHostFramesAndGapsAreDropped_sizes :
    (List.replicate 20 (0 : Byte)).length < 21 ∧ 70 < (List.replicate 71 (0 : Byte)).length ∧
    (List.replicate 71 (0 : Byte)).length ≤ 512 ∧ 0 < ([0] : Bytes).length ∧ ([] : Bytes).length < 1 := by decide +kernel

/-- The counts of an order as its body is judged. -/
def orderCounts (o : JobOrder) : Bool := decide (
  (1 ≤ o.cuts.length ∧ o.cuts.length ≤ 3) ∧ (1 ≤ o.est.length ∧ o.est.length ≤ 10) ∧ (o.copy = 0 ∨ o.edition ≠ 0))

/-- The ranges of an order as its step 4 judges them. -/
def orderFits (o : JobOrder) (mode : ColourMode) (g : Option Geometry) : Bool :=
  (o.cuts.all fun c => decide (o.printLen.toNat ≤ c.toNat)) &&
  ((o.cuts.getLast?).all fun c => decide (c.toNat ≤ o.printLen.toNat
    + (if mode = .plain then 0 else (g.map fun x => (x.m + x.t) * x.pitch).getD 0) + 1000)) &&
  (o.est.all fun p => decide (p.1.toNat ≤ 9 ∧ 1 ≤ p.2.toNat ∧ p.2.toNat ≤ 30000000)) &&
  decide (o.tag ≠ 0 ∧ (100 ≤ o.printLen.toNat ∧ o.printLen.toNat ≤ 20000) ∧
    (o.cuts.map (·.toNat)).Pairwise (· < ·) ∧ (mode = .plain ∨ g.isSome = true) ∧ (o.est.map (·.1)).Nodup)

def orderLow : JobOrder := { order7 with printLen := 100, cuts := [100], est := [(0, 1)] }
def orderHigh : JobOrder := { order7 with printLen := 20000, cuts := [20000, 20001, 21000], est := [(9, 30000000), (0, 1)] }

/-- One bound of an order passed by each. -/
def orderOutside : List JobOrder :=
  [{ orderLow with tag := 0 }, { orderLow with printLen := 99 }, { orderHigh with printLen := 20001 },
    { orderLow with cuts := [99] }, { orderHigh with cuts := [20000, 20000] }, { orderHigh with cuts := [21001] },
    { orderLow with est := [(10, 1)] }, { orderLow with est := [(0, 0)] }, { orderLow with est := [(0, 30000001)] },
    { orderLow with est := [(0, 1), (0, 1)] }]

theorem witness_SubmitRefusalsComeInOrder_counts :
    orderCounts order7 = true ∧ orderCounts { order7 with cuts := [1, 2, 3], est := List.replicate 10 (0, 1) } = true ∧
    ([{ order7 with cuts := [] }, { order7 with cuts := [1, 2, 3, 4] }, { order7 with est := [] },
      { order7 with est := List.replicate 11 (0, 1) }, { order7 with edition := 0, copy := 1 }] : List JobOrder).all
        (fun o => !orderCounts o) = true ∧
    2 < ({ order7 with mode := 3 } : JobOrder).mode.toNat ∧ order7.mode = 0 ∧
    ({ order7 with mode := 2 } : JobOrder).mode = 2 := by decide +kernel

theorem witness_SubmitRefusalsComeInOrder_fits :
    orderFits orderLow .plain none = true ∧ orderFits orderHigh .plain none = true ∧
    orderOutside.all (fun o => !orderFits o .plain none) = true ∧ orderFits orderLow .check none = false ∧
    orderFits { orderHigh with cuts := [21066] } .check (some geometry) = true ∧
    orderFits { orderHigh with cuts := [21067] } .check (some geometry) = false := by decide +kernel

theorem witness_OrdersTakeFreeNumbersAndAvailableInk_list :
    (([(3, 1), (0, 50)] : List (Chan × Nat)).map (·.1)).Nodup ∧
    judgePair inked (3, 1) = some (3, .notFitted, 0) ∧ judgePair inked (0, 50) = none ∧
    ∃ e ∈ job.ink, e.chan = 0 ∧ e.released = false := by decide +kernel

/-- A FINISHED job with copy 1 of edition 77, and the entry into CLOSING of the job in slot 0. -/
def finished77 : Job := { numbered with state := .cutting, startPos := some 0, outcome := some .finished }
def entering (j : Job) (s : State) : State := setJobState 0 .closing
  (setJob 0 (fun _ => { j with mediaRes := 0, spoilWait := false, holds := Holds.none }) s)

theorem witness_OutcomesAreDecidedOnceAndClosedJobsDepart_closing :
    (withJob finished77 ready).liveJob 0 = some finished77 ∧
    ((commitCopy 0 (setJob 0
      (fun j => { j with ink := j.ink.map fun e => if e.estimated then { e with released := true } else e })
      (retryMedia (entering finished77 (withJob finished77 ready))))).liveJob 0).isSome = true ∧
    (job.edition = none ∧ numbered.outcome ≠ some .finished) ∧
    (finished77.edition.isSome = true ∧ finished77.outcome = some .finished ∧ (0 : LBlock).val = (15 : EdIx).val / 16 ∧
      (1 : LBlock).val = (16 : EdIx).val / 16) ∧
    ((ready.mapEd fun d => { d with store := .readOnly }).ed.store = .readOnly ∧ ready.ed.store ≠ .readOnly) ∧
    faulted.feed.fault.isSome = true ∧ ready.feed.fault = none := by decide +kernel

/-- The last media event a cut at a position, with the position given. -/
def afterCut (p q : Int) : State := withFeed fun f =>
  { f with pos := BitVec.ofInt 32 q, roll := { f.roll with lastEvent := .cut p } }

/-- A job with a strip. -/
def stripped : Job := { job with strip := some { strip with order := none, marks := none } }

theorem witness_FirstEligibleJobStarts_steps :
    ((withJob critical drifted).jobs.order = [] ++ 0 :: [] ∧ (withJob critical drifted).pathFree = true ∧
      (withJob critical drifted).liveJob 0 = some critical ∧ ∃ p ∈ critical.est, drifted.drift.states[p.1] = .out) ∧
    twoJobs.jobs.order = [] ++ 1 :: [0] ∧
    oneMore.pathFree = false ∧ (started .printing).state ≠ .pending ∧ colourHeld.holds.isEmpty = false ∧
    (∀ p : Int, ready.feed.roll.lastEvent ≠ .cut p) ∧ (afterCut 0 0).feed.roll.lastEvent = .cut 0 ∧
    (requestMove (0 - 100 * 500 + 100 * 20) .backFeed (afterCut 0 (-48000))).2 = .done ∧
    (requestMove (0 - 100 * 500 + 100 * 20) .backFeed (afterCut 0 0)).2 = .begun ∧
    (requestMove (-2147483648 - 100 * 500 + 100 * 20) .backFeed (afterCut (-2147483648) (-2147483648))).2 = .refused ∧
    job.strip = none ∧ stripped.strip.isSome = true ∧ (withJob stripped ready).liveJob 0 = some stripped ∧
    ready.eng.state = .ready ∧ State.reset.eng.state ≠ .ready := by
  refine ⟨by decide +kernel, by decide +kernel, by decide +kernel, by decide +kernel, by decide +kernel, fun p h => ?_,
    by decide +kernel⟩
  cases (show MediaEvent.none = .cut p from h)

/-- The job of copy 1 in CLOSING, its commit open at generation 2. -/
def committed77 : Job := { finished77 with state := .closing, commitGen := some 2, commitOpen := true }

/-- Block 0 persisted at a generation. -/
def persistedAt (g : Nat) : State := (withJob committed77 ready).mapEd fun d =>
  { d with persisted := d.persisted.set 0 g, image := d.image.set 0 { edition77 with issued := [1, 2] } }

theorem witness_ImageChangesQueueBlocksAndRotationsEraseSpares_failure :
    (persistedAt 1).liveJob 0 = some committed77 ∧ job.state ≠ .closing ∧ job.edition = none ∧ job.commitGen = none ∧
    (committed77.state = .closing ∧ committed77.commitOpen = true ∧
      committed77.edition = some { id := 77, copy := 1, slot := 0 } ∧ committed77.commitGen = some 2) ∧
    ((persistedAt 1).ed.persisted[blockOf 0] < 2 ∧ 2 ≤ (persistedAt 2).ed.persisted[blockOf 0]) ∧
    (persistedAt 1).ed.slotOf 77 = some 0 ∧
    ((persistedAt 1).mapEd fun d => { d with image := d.image.set 0 EdImage.emptySlot }).ed.slotOf 77 = none ∧
    ({ job with flags := { JobFlags.none with costPending := true } } : Job).flags.costPending = true ∧
    (recorded.flags.costPending = false ∧ recorded.costIn = true) ∧ (job.flags.costPending = false ∧ job.costIn = false) ∧
    record.tag = 5 ∧ ∀ x ∈ ([] : List CostRecord), x.tag ≠ 5 := by decide +kernel

/-- The last rotation of a format has completed, with the spares given. -/
def formatted (spares : Bool) : Editions :=
  { ready.ed with store := .mounting, formatting := true, table := if spares then ready.ed.table else noSpare.ed.table }

theorem witness_EraseAndProgramEndsAdvanceOrRetire_settling :
    (persistedAt 2).liveJob 0 = some committed77 ∧ 2 ≤ (persistedAt 2).ed.persisted[(0 : LBlock)] ∧
    blockOf 0 = 0 ∧ (persistedAt 1).ed.persisted[(0 : LBlock)] < 2 ∧ blockOf 0 ≠ 1 ∧ ready.ed.formatting = false ∧
    formatting.ed.writes ≠ [] ∧
    ((formatted true).formatting = true ∧ (formatted true).writes = [] ∧ ∃ p : PBlock, (formatted true).table[p].role = .spare) ∧
    ∀ p : PBlock, (formatted false).table[p].role ≠ .spare := by decide +kernel

theorem witness_MountReadsOrFormatsTheStore_counts :
    twoCopies.ed.flash[(1 : PBlock)].erases = some 3 ∧
    (State.reset.ed.flash[(0 : PBlock)].erases = none ∧ State.reset.ed.flash[(0 : PBlock)].mark ≠ .retired) ∧
    ({ FlashBlock.erased with mark := .retired } : FlashBlock).mark = .retired ∧ FlashBlock.erased.erases = none ∧
    twoCopies.ed.flash[(1 : PBlock)].seq = some 2 := by decide +kernel

/-- The older of two copies worn out. -/
def wornCopy : State := twoCopies.mapEd fun d =>
  { d with flash := d.flash.set 0 { completeBlock 0 1 with erases := some 10000 } }

theorem witness_MountReadsOrFormatsTheStore_roles :
    (∀ s ∈ [twoCopies, wornCopy], s.ed.store = .mounting ∧ s.ed.headersRead = false ∧
      s.ed.flash[(0 : PBlock)].mark ≠ .retired ∧
      ∀ b : LBlock, s.ed.flash[(0 : PBlock)].mark = .complete → s.ed.flash[(0 : PBlock)].role = some b →
        ∃ q : PBlock, s.ed.flash[q].mark = .complete ∧ s.ed.flash[q].role = some b ∧
          s.ed.flash[(0 : PBlock)].seq.getD 0 < s.ed.flash[q].seq.getD 0) ∧
    (twoCopies.ed.flash[(0 : PBlock)].erases = some 3 ∧ wornCopy.ed.flash[(0 : PBlock)].erases = some 10000) ∧
    (twoCopies.ed.readHeaders.table[(0 : PBlock)].erases < 10000 ∧
      10000 ≤ wornCopy.ed.readHeaders.table[(0 : PBlock)].erases) ∧
    (mountHeaders (Vector.replicate 6 true) wornCopy).ed.flash[(0 : PBlock)].mark = .retired ∧
    (twoCopies.ed.writes = [] ∧ (mountHeaders (Vector.replicate 6 true) twoCopies).ed.store = .ready) := by decide +kernel

/-- The job in a state, on a roll of 219 mm or 220 mm. -/
def onRoll (mm : Nat) (st : JobState) : State :=
  withJob { job with state := st } (withFeed fun f => { f with roll := { f.roll with declared := mm } })

theorem witness_LoadRollBeginsTheEdgeSearch_holds :
    ((onRoll 219 .pending).feed.roll.remaining < (onRoll 219 .pending).reserved ∧ job.state = .pending ∧ 0 < job.mediaRes) ∧
    (onRoll 220 .pending).reserved ≤ (onRoll 220 .pending).feed.roll.remaining ∧ (onRoll 219 .pending).pathJob = none ∧
    ((onRoll 219 .printing).feed.roll.remaining < (onRoll 219 .printing).reserved ∧
      (onRoll 219 .printing).pathJob = some (0, { job with state := .printing })) ∧ ready.feed.roll.state = .loaded ∧
    State.reset.feed.roll.state ≠ .loaded := by decide +kernel

theorem witness_TrimIsSetAndReadWhenACutIsPlanned_refused :
    (requestMove (0 + 100 * 200 + 100 * 500 + 0) .cut (withJob (started .cutting) jogging)).2 = .refused := by decide +kernel

theorem witness_EncoderCountsReachPositionAndRoll_charges :
    ((joggingAt true).feed.move.map (·.by_)) = some (.jog true) ∧ ((joggingAt false).feed.move.map (·.by_)) = some (.jog false) ∧
    ready.feed.move = none ∧ ready.pathJob = none ∧
    (withJob (started .printing) ready).pathJob = some (0, started .printing) := by decide +kernel

/-- A load's leg. -/
def legOf (l : LoadPhase) : State := withFeed fun f => { f with axis := .loading, load := some l }

theorem witness_CountsAndTheSettleTimeCarryTheMove_requesters :
    ready.chk.state = .idle ∧ dwelling.chk.state ≠ .idle ∧ ready.pathJob = none ∧
    (withJob { job with state := .printing } ready).pathJob = some (0, { job with state := .printing }) ∧ job.outcome = none ∧
    (withJob { job with state := .printing, outcome := some .cancelled } ready).pathJob =
      some (0, { job with state := .printing, outcome := some .cancelled }) ∧
    (legOf .trimLeg).feed.load = some .trimLeg ∧ (legOf .backFeed).feed.load = some .backFeed ∧ ready.feed.load = none ∧
    (withJob { started .cutting with spoilWait := true } ready).pathJob = some (0, { started .cutting with spoilWait := true }) ∧
    ready.feed.axis = .idle ∧ jogging.feed.axis ≠ .idle ∧ (started .cutting).spoilWait = false := by decide +kernel

theorem witness_EdgeChangeIsMediaOutOrTheReference_refused :
    (requestMove 1500 .load jogging).2 = .refused ∧
    ∃ m, jogging.feed.move = some m ∧ jogging.feed.axis = .moving ∧ m.phase = .approach :=
  ⟨by decide +kernel, _, rfl, by decide +kernel⟩

/-- The back-feed of a load about to begin at 0, with the lead and knife offsets equal or the defaults. -/
def loadBack (same : Bool) : State := (legOf .backFeed).mapFeed fun f =>
  { f with profile := { f.profile with lead := if same then 500 else 20 } }

/-- A job held NO_MEDIA, on a roll of 219 mm or 220 mm. -/
def heldOn (mm : Nat) : State :=
  withJob { job with holds := { noMedia := true, colourOut := false }, mediaRes := 0 }
    (withFeed fun f => { f with roll := { f.roll with declared := mm } })

theorem witness_KnifeCycleStrokesAndReturns_loads :
    (requestMove (0 - 100 * 500 + 100 * 500) .load (loadBack true)).2 = .done ∧
    (requestMove (0 - 100 * 500 + 100 * 20) .load (loadBack false)).2 = .begun ∧
    (requestMove (0 - 100 * 500 + 100 * 20) .load jogging).2 = .refused ∧
    (ready.feed.roll.state = .loaded ∧ State.reset.feed.roll.state ≠ .loaded) ∧
    ((job.cuts.getLast?).getD 0 + ready.feed.profile.lead + (job.strip.map (·.length)).getD 0 = 220 ∧
      220 + (heldOn 220).reserved ≤ (heldOn 220).feed.roll.remaining ∧
      (heldOn 219).feed.roll.remaining < 220 + (heldOn 219).reserved) ∧
    (started .printing).state ≠ .pending ∧ job.holds.noMedia = false := by decide +kernel

/-- Channel 0 at the refill start, or below it; the three pumps granted. -/
def atStart (level : Nat) : State := withChan 0 fun x => { fitted x with level := level }
def allGranted : State := ready.mapInk fun k => { k with grants := #v[some 7, some 8, some 9], wait := [0] }

theorem witness_InkProfileIsReplacedWhole_refills :
    ((atStart 11999).ink.chans[0].supply = .ready ∧ (atStart 11999).ink.chans[0].fault = false ∧
      (atStart 11999).ink.chans[0].level < (atStart 11999).ink.chans[0].profile.start ∧
      ∃ k, (atStart 11999).ink.chans[0].cart = some k ∧ 0 < k.remaining) ∧
    ¬ (atStart 12000).ink.chans[0].level < (atStart 12000).ink.chans[0].profile.start ∧
    (∀ g : Fin 3, allGranted.ink.grants[g].isSome = true) ∧ ready.ink.wait = [] ∧
    (ready.ink.grants[(0 : Fin 3)] = none ∧ (ready.mapInk fun k => { k with wait := [3, 2] }).ink.wait = [3, 2] ∧
      ready.ink.chans[(2 : Chan)].level = ready.ink.chans[(3 : Chan)].level ∧ (2 : Chan) ≤ 3) :=
  ⟨⟨by decide +kernel, by decide +kernel, by decide +kernel, _, rfl, by decide +kernel⟩, by decide +kernel⟩

/-- The state of a scan before its resume test: the statement's first three passes. -/
def scanPasses (ain : Vector (BitVec 10) 11) (cart : Vector Bool 10) (s : State) : State :=
  arbiter ((List.finRange 10).foldl refillTest ((List.finRange 10).foldl scanEnding
    ((List.finRange 10).foldl (cartInput cart) (((List.finRange 10).foldl faultRefill
      (s.mapInk (Ink.readAll (!s.ink.scanned) ain))).mapInk (Ink.measureAll (!s.ink.scanned))))))

/-- Channel 0 in a supply state, with a sensor fault or without, at a level. -/
def supplied (x : Supply) (fault : Bool) (level : Nat) : State :=
  withChan 0 fun c => { fitted c with supply := x, fault := fault, level := level }

theorem witness_ScanTakesRingsLevelsAndCartridges_endings :
    (∃ c : Chan, (scanPasses (Vector.replicate 11 422) (Vector.replicate 10 true) State.reset).ink.chans[c].fault = false ∧
      4000 ≤ (scanPasses (Vector.replicate 11 422) (Vector.replicate 10 true) State.reset).ink.chans[c].level ∧
      (scanPasses (Vector.replicate 11 422) (Vector.replicate 10 true) State.reset).ink.chans[c].above = false) ∧
    (∀ c : Chan, (scanPasses (Vector.replicate 11 422) (Vector.replicate 10 true) scanned).ink.chans[c].above = true) ∧
    ((supplied .waiting true 0).ink.chans[0].supply = .waiting ∧ (supplied .refilling true 0).ink.chans[0].supply = .refilling ∧
      (supplied .ready true 0).ink.chans[0].fault = true ∧ (supplied .ready false 0).ink.chans[0].fault = false) ∧
    ((supplied .refilling false 27000).ink.chans[0].profile.stop ≤ (supplied .refilling false 27000).ink.chans[0].level ∧
      (supplied .refilling false 26999).ink.chans[0].level < (supplied .refilling false 26999).ink.chans[0].profile.stop) ∧
    (Vector.replicate 10 true)[(0 : Chan)] = true ∧ (Vector.replicate 10 false)[(0 : Chan)] = false := by decide +kernel

/-- The job with 1 µL of 500 µL left to draw. -/
def nearlyDrawn : Job :=
  { started .printing with ink := [{ entry500 with chan := 0, drawn := 499000, remaining := 1000, used := 499000 }] }

theorem witness_DropsAreDebitedAsInkOrOverhead_reports :
    (∃ e ∈ nearlyDrawn.ink, e.chan = 0) ∧ (∀ e ∈ nearlyDrawn.ink, e.chan ≠ 1) ∧
    (∃ k, (([(1, 1000000)] : List (Chan × Nat)).foldl (debitPair 0) (withJob nearlyDrawn ready)).liveJob 0 = some k ∧
      (nearlyDrawn.ink.map (·.overdraw)).sum < (k.ink.map (·.overdraw)).sum ∧ k.flags.overdraw = false) ∧
    (∃ k, (([] : List (Chan × Nat)).foldl (debitPair 0) (withJob nearlyDrawn ready)).liveJob 0 = some k ∧
      (k.ink.map (·.overdraw)).sum ≤ (nearlyDrawn.ink.map (·.overdraw)).sum) :=
  ⟨by decide +kernel, by decide +kernel, ⟨_, rfl, by decide +kernel⟩, ⟨_, rfl, by decide +kernel⟩⟩

/-- One drop on a channel outside the estimate: 4 pL, 0 nL, no overdraw, and OVERDRAW all the same (R115). -/
theorem witness_DropsAreDebitedAsInkOrOverhead_outside :
    (∃ p ∈ ([(1, 1)] : List (Chan × Nat)), 0 < p.2 ∧ ∀ q ∈ nearlyDrawn.est, q.1 ≠ p.1) ∧
    (∃ k, (([(1, 1)] : List (Chan × Nat)).foldl (debitPair 0) (withJob nearlyDrawn ready)).liveJob 0 = some k ∧
      (k.ink.map (·.overdraw)).sum = (nearlyDrawn.ink.map (·.overdraw)).sum ∧ k.flags.overdraw = false) ∧
    ((jobReport 0 [(1, 1)] (withJob nearlyDrawn ready)).liveJob 0).map (·.flags.overdraw) = some true :=
  ⟨by decide +kernel, ⟨_, rfl, by decide +kernel⟩, by decide +kernel⟩

theorem test_timer_bytes : timer (some 258) = [0, 2, 1, 0, 0] ∧ timer none = [1, 0, 0, 0, 0] := by decide

theorem witness_EndAndTimersEndTheEnginesPart_states :
    (withJob (started .printing) ready).liveJob 0 = some (started .printing) ∧ (withJob job ready).liveJob 0 = some job ∧
    (started .printing).state = .printing ∧ job.state ≠ .printing ∧ job.state ≠ .suspended ∧ job.state ≠ .aborting ∧
    ((60 : Nat) < 61 ∧ (39 : Nat) < 40 ∧ (40 : Nat) ≤ 60) ∧ State.reset.ink.humFault = false ∧
    (1000 * 0 = 0 ∧ 0 < 1000 * ready.chk.profile.dwellLow) := by decide +kernel

theorem witness_DriftLimitsAndClearingsSettleTheHolds_changes :
    (∀ c : Chan, drifted.drift.states[c] = .out ↔ drifted.drift.states[c] = .out) ∧
    ∃ c : Chan, ¬ (drifted.drift.states[c] = .out ↔ ready.drift.states[c] = .out) :=
  ⟨fun _ => Iff.rfl, by decide +kernel⟩

theorem witness_DwellAndReadingsOnTheSensorLink_courses :
    (measuring.chk.state = .search ∧ (locked 0 0 0 false).chk.state = .locked ∧ ready.chk.state = .idle ∧
      dwelling.chk.state = .dwell) ∧
    (requestMove (26000 - 200 * 6 + 100 * (0 * 6)) .strip (measuring.mapFeed fun f => { f with axis := .fault })).2
      = .refused := by
  decide +kernel

/-- The job with the lot of channel 0 at its START, and the channel's cartridge of lot 9. -/
def lotted (lot : Nat) : Job := { started .checking with lots := some [(0, some lot)] }

theorem witness_ReadingsAreJudgedAndVerdictsActedOn_filing :
    ready.chk.ctx = none ∧ measuring.chk.ctx.isSome = true ∧ (Verdict.pass = .pass ∧ Verdict.fail = .fail) ∧
    ((lotted 9).lots = some [(0, some 9)] ∧ ([((0 : Chan), some 9)].find? fun q => q.1 == 0) = some (0, some 9) ∧
      (inked.ink.chans[0].cart.map (·.lot)) = some 9) ∧ (lotted 8).lots ≠ some [(0, some 9)] := by decide +kernel

/-- The job in CUTTING with a media reservation. -/
def reserving (mm : Nat) : Job := { started .printing with mediaRes := mm }

theorem witness_FeedFaultsAndTheSpoilPathByState_plans :
    (withJob (reserving 29) ready).liveJob 0 = some (reserving 29) ∧
    (reserving 29).mediaRes < ((reserving 29).spoilPlan ready.feed).mediaRes ∧
    ((reserving 30).spoilPlan ready.feed).mediaRes = (reserving 30).mediaRes ∧
    ((reserving 31).spoilPlan ready.feed).mediaRes < (reserving 31).mediaRes ∧
    ((0 - 0 : Int).toNat + 99) / 100 + 10 = 10 := by decide +kernel

/-! ### The laws that every step keeps -/

/-- A step from a state that keeps every law, on the empty queue and on one command. -/
theorem witness_StepKeepsTheHostLinkLaw :
    ∃ t, step State.reset = .next t ∧ State.reset.host.Law ∧ State.reset.eng.Law ∧ State.reset.chk.counters.Law :=
  ⟨_, rfl, HostLink.atReset_law _ _, by unfold EngineLink.Law; decide, by unfold CheckCounters.Law; decide⟩
theorem witness_StepKeepsTheFeedLaw : ∃ t, step (State.reset.setPending [.loadRoll 1 4 7 1000]) = .next t ∧ State.reset.feed.Law :=
  ⟨_, rfl, Feed.atReset_law _ _ _ _⟩
theorem witness_StepKeepsTheInkLaw :
    ∃ t, step (State.reset.setPending [.scan (Vector.replicate 11 422) (Vector.replicate 10 true)]) = .next t ∧
      State.reset.ink.Law :=
  ⟨_, rfl, Ink.atReset_law⟩
theorem witness_StepKeepsTheStoreLaw :
    ∃ t, step (State.reset.setPending [.mountHeadersRead (Vector.replicate 6 true)]) = .next t ∧ State.reset.ed.Law :=
  ⟨_, rfl, Editions.atReset_law _⟩
theorem witness_StepKeepsTheAccountLaws :
    ∃ t, step (State.reset.setPending [.loadPrices 1 priceArgs]) = .next t ∧ State.reset.jobs.Law ∧ State.reset.PriceLaw ∧
      State.reset.cost.Law :=
  ⟨_, rfl, JobTable.atReset_law, by unfold State.PriceLaw; decide +kernel, Cost.atReset_law⟩

/-- The job of copy 1, PENDING, with its number and its media reserved; nothing else is live. -/
def numberedReady : State := (withJob numbered ready).mapEd fun d => { d with resv := d.resv.set 0 [1] }

theorem numberedReady_live : ∀ i : JobIx, numberedReady.liveJob i = if i = 0 then some numbered else none := by
  decide +kernel

theorem numberedReady_job {i : JobIx} {j : Job} (h : numberedReady.liveJob i = some j) : i = 0 ∧ j = numbered := by
  rw [numberedReady_live] at h
  split at h
  · next e => exact ⟨e, (Option.some.inj h).symm⟩
  · cases h

theorem numberedReady_course : numberedReady.CourseLaw := by
  refine ⟨⟨by decide +kernel, by decide +kernel, fun i k j l hj hl _ => ?_⟩,
    ⟨fun i k j l hj hl _ _ => ?_, fun i j hj _ => ?_, fun i j hj h => ?_, fun x h => (nomatch h), fun x h => (nomatch h),
      fun h => (nomatch h), fun h => (nomatch h), fun i j hj h => ?_⟩,
    ⟨by decide +kernel, fun i j hj h => ?_, fun i j hj h => ?_, by decide +kernel, fun h => (nomatch h)⟩⟩
  · rw [(numberedReady_job hj).1, (numberedReady_job hl).1]
  · rw [(numberedReady_job hj).1, (numberedReady_job hl).1]
  · rw [(numberedReady_job hj).2]; exact ⟨rfl, rfl⟩
  all_goals rw [(numberedReady_job hj).2] at h; exact absurd h (by decide)

theorem numberedReady_copy : numberedReady.CopyLaw := by
  have flash : ∀ (p : PBlock) (k : Fin 16), numberedReady.ed.flash[p].images[k] = EdImage.emptySlot := by decide +kernel
  have alone : ∀ e : EdIx, numberedReady.ed.image[e].isEdition = true → e = 0 := by decide +kernel
  have held : numbered.holdsCopy = some { id := 77, copy := 1, slot := 0 } := by decide
  refine ⟨⟨⟨by decide +kernel, by decide +kernel, fun r h => (nomatch h), fun h => (nomatch h)⟩, by decide +kernel,
      by decide +kernel, by decide +kernel, fun e f id he hf => ?_, fun p k => ?_, fun r h => (nomatch h),
      fun h => (nomatch h), fun h => (nomatch h)⟩,
    fun h => (nomatch h), fun i x ⟨j, hj, hx⟩ => ?_, fun i k x y ⟨j, hj, _⟩ ⟨l, hl, _⟩ _ _ => ?_, fun i j hj h => ?_,
    fun i x g ⟨⟨j, hj, h, _⟩, _⟩ => ?_, fun i k x y g h ⟨⟨j, hj, o, _⟩, _⟩ => ?_⟩
  · rw [alone e he.1, alone f hf.1]
  · rw [flash]; exact EdImage.emptySlot_law
  · rw [(numberedReady_job hj).2, held] at hx
    cases hx
    exact ⟨⟨by decide +kernel, by decide +kernel⟩, by decide +kernel⟩
  · rw [(numberedReady_job hj).1, (numberedReady_job hl).1]
  · rw [(numberedReady_job hj).2] at h; exact absurd h (by decide)
  · rw [(numberedReady_job hj).2] at h; exact absurd h (by decide)
  · rw [(numberedReady_job hj).2] at o; exact absurd o (by decide)

/-- The course of the jobs and the copy numbers: a step from a state with a reservation, and the reading of the headers. -/
theorem witness_StepKeepsTheAccountLaws_course :
    (∃ t, step (numberedReady.setPending [.cancelJob 1 5]) = .next t) ∧
    (numberedReady.feed.Law ∧ numberedReady.CourseLaw ∧ numberedReady.CopyLaw ∧ numberedReady.ed.headersRead = true) ∧
    (∃ t, step (State.reset.setPending [.mountHeadersRead (Vector.replicate 6 true)]) = .next t ∧
      State.reset.ed.headersRead = false ∧ t.ed.headersRead = true ∧ t.ed.DistinctIds) := by
  refine ⟨⟨_, rfl⟩, ⟨?_, numberedReady_course, numberedReady_copy, by decide +kernel⟩, formatting, ?_,
    by decide +kernel, by decide +kernel, ?_⟩
  · exact Feed.Law.atRest (by decide +kernel) (by decide +kernel) (by decide +kernel) (by decide +kernel)
      (by decide +kernel) (by decide +kernel)
  · rfl
  · have none_ : ∀ e : EdIx, formatting.ed.image[e].isEdition = false := by decide +kernel
    exact fun e f id he => absurd he.1 (by rw [none_]; decide)

end Sys2Proof.Tests
end

section
/-!
PROOFS. Every command of the queue, once: a request is its owner's event, and what each command keeps of the laws, of the
jobs' course and of the copy numbers. With it O60.
-/

-- One theorem after another: waiting proofs would each hold a thread.
set_option Elab.async false

namespace Sys2Proof.Machine

/-! ### Requests and events -/

/-- A request command is the event of its owner (section 11.5). -/
theorem exec_request {i : Instr} {kind ft : Byte} {body : Bytes} (h : requestBody i = some (kind, ft, body)) (s : State) :
    exec i s = .next (requestEvent kind ft (ownerOf i) s) := by
  cases i <;> cases h <;> rfl

/-- Where the link takes a request, its owner's answer is the reply (R181, R182). -/
theorem exec_answered {i : Instr} {kind ft : Byte} {body : Bytes} {s : State} (h : s.takesRequest)
    (b : requestBody i = some (kind, ft, body)) :
    exec i s = .next (answered (replyKind kind) ft (ownerOf i s).2 (ownerOf i s).1) := by
  rw [exec_request b, requestEvent_taken h]

/-! ### The laws along a command -/

/-- An operation that keeps the laws, with the line given at its end, is a lawful event. -/
theorem Keeps.given {s t : State} (k : Keeps s t) : Lawful s (giveLine t) := k.lawful.trans (giveLine_lawful t)

theorem mount_lawful (marks : Vector Bool 6) (s : State) :
    Lawful s (if s.ed.store = .mounting ∧ s.ed.headersRead = false then giveLine (mountHeaders marks s) else s) := by
  split
  · next h => exact (mountHeaders_keeps marks h.2).given
  · exact Lawful.refl s

theorem resetEffect_lawful (rate1 rate0 : Bool) (s : State) :
    Lawful s (if s.restartDue then resetAll rate1 rate0 s.ed.flash s else s) := by
  split
  · exact resetAll_lawful rate1 rate0 _ s
  · exact Lawful.refl s

/-- Every command has a next state, which keeps the laws of the blocks. -/
theorem exec_lawful (i : Instr) (s : State) : ∃ t, exec i s = .next t ∧ Lawful s t := by
  cases b : requestBody i with
  | some x => exact ⟨_, exec_request b s, requestEvent_lawful _ _ (ownerOf_keeps i) s⟩
  | none =>
    cases i with
    | powerOnReset rate1 rate0 flight => exact ⟨_, rfl, resetAll_lawful rate1 rate0 _ s⟩
    | resetEffect rate1 rate0 => exact ⟨_, rfl, resetEffect_lawful rate1 rate0 s⟩
    | hostFrame bytes => exact ⟨_, rfl, Lawful.foldl hostByte hostByte_lawful bytes s⟩
    | gapDrop byte => exact ⟨_, rfl, hostGap_lawful byte s⟩
    | replySent => exact ⟨_, rfl, (replyGone_lawful s).trans (giveLine_lawful _)⟩
    | noticeSent => exact ⟨_, rfl, (noticeGone_lawful s).trans (giveLine_lawful _)⟩
    | engineFrameSent => exact ⟨_, rfl, (engineSent_keeps s).lawful⟩
    | engineFrame bytes => exact ⟨_, rfl, Lawful.foldl engineByte engineByte_lawful bytes s⟩
    | engineGapDrop byte => exact ⟨_, rfl, engineGap_lawful byte s⟩
    | engineState st code => exact ⟨_, rfl, (serveEngine_keeps _ s).given⟩
    | swath tag index feed drops => exact ⟨_, rfl, (serveEngine_keeps _ s).given⟩
    | endPrint tag status => exact ⟨_, rfl, (serveEngine_keeps _ s).given⟩
    | maint drops => exact ⟨_, rfl, (serveEngine_keeps _ s).given⟩
    | swathTimerExpiry => exact ⟨_, rfl, (swathExpired_keeps s).given⟩
    | dryOutTimerExpiry => exact ⟨_, rfl, (dryOutExpired_keeps s).given⟩
    | encoderCount x y => exact ⟨_, rfl, (encoderChange_keeps x y s).given⟩
    | edgeSearchLimit => exact ⟨_, rfl, (searchLimit_keeps s).given⟩
    | settleTimeout => exact ⟨_, rfl, (settleEnded_keeps s).given⟩
    | stallWindowEnd => exact ⟨_, rfl, (windowEnded_keeps s).given⟩
    | edgeChange present => exact ⟨_, rfl, (edgeChanged_keeps present s).given⟩
    | knifeHomeChange active => exact ⟨_, rfl, (knifeHomeChanged_keeps active s).given⟩
    | knifeStrokeTimeout => exact ⟨_, rfl, (strokeExpired_keeps s).given⟩
    | knifeReturnTimeout => exact ⟨_, rfl, (returnExpired_keeps s).given⟩
    | scan ain cart => exact ⟨_, rfl, (scanAll_keeps ain cart s).given⟩
    | pumpStroke ch => exact ⟨_, rfl, (strokePump_keeps ch s).given⟩
    | mountHeadersRead marks => exact ⟨_, rfl, mount_lawful marks s⟩
    | eraseDone verified mark => exact ⟨_, rfl, (eraseEnded_keeps verified mark s).given⟩
    | programDone verified mark => exact ⟨_, rfl, (programEnded_keeps verified mark s).given⟩
    | dwellExpiry => exact ⟨_, rfl, (dwellEnded_keeps s).given⟩
    | measureCommandDone ack => exact ⟨_, rfl, (measured_keeps ack s).given⟩
    | resultReadDone ack bytes => exact ⟨_, rfl, (resultRead_keeps ack bytes s).given⟩
    | readingTimeout => exact ⟨_, rfl, (readingExpired_keeps s).given⟩
    | _ => exact nomatch b

/-- A step has a next state, which keeps the laws of the blocks. -/
theorem step_lawful {s t : State} (h : step s = .next t) :
    (s.host.Law → t.host.Law) ∧ (s.feed.Law → t.feed.Law) ∧ (s.ink.Law → t.ink.Law) ∧ (s.ed.Law → t.ed.Law) ∧
      (s.cost.Law → t.cost.Law) ∧ (s.jobs.Law → t.jobs.Law) ∧ (s.eng.Law → t.eng.Law) ∧
      (s.chk.counters.Law → t.chk.counters.Law) ∧ (s.PriceLaw → t.PriceLaw) := by
  unfold step at h
  split at h
  · obtain rfl := Host.Outcome.next.inj h
    have k := tick_keeps s
    exact ⟨k.host, k.feed, k.ink, k.ed, k.cost, k.jobs, k.eng, k.chk, k.price⟩
  · next i rest _ =>
    obtain ⟨u, e, k⟩ := exec_lawful i (s.setPending rest)
    obtain rfl := Host.Outcome.next.inj (e.symm.trans h)
    exact ⟨k.host, k.feed, k.ink, k.ed, k.cost, k.jobs, k.eng, k.chk, k.price⟩

/-! ### The course along a command -/

/-- What a step brings about of the jobs' course and of the copy numbers: the queue order keeps its entries' order (R2),
and where the step has read the store's headers, the ids that it read are different. -/
structure Advance (s t : State) : Prop where
  course : t.CourseLaw
  order : ∃ kept new, kept.Sublist s.jobs.order ∧ t.jobs.order = kept ++ new ∧ ∀ i ∈ new, s.jobs.slots[i] = .free
  copy : s.CopyLaw → (s.ed.headersRead = false → t.ed.headersRead = true → t.ed.DistinctIds) → t.CopyLaw

theorem Next.advance {s t : State} (n : Next s t) : Advance s t := ⟨n.course, n.queue.order, fun c _ => n.queue.copy c⟩

theorem Aside.advance {s t : State} (a : Aside s t) (c : s.CourseLaw) : Advance s t :=
  ⟨a.course c, a.toPathAside.queue.order, fun d _ => a.toPathAside.queue.copy d⟩

theorem Advance.refl {s : State} (c : s.CourseLaw) : Advance s s := (Aside.refl s).advance c

theorem giveLine_ed (s : State) : (giveLine s).ed = s.ed := by
  unfold giveLine
  split
  · rfl
  · split <;> rfl

/-- The line given at the end of an event leaves what the event has brought about. -/
theorem Advance.given {s t : State} (a : Advance s t) : Advance s (giveLine t) where
  course := (giveLine_aside t).course a.course
  order := by
    obtain ⟨kept, new, sub, eq, free⟩ := a.order
    refine ⟨kept, new, sub, Eq.trans ?_ eq, free⟩
    unfold giveLine
    split
    · rfl
    · split <;> rfl
  copy := fun c ids => (giveLine_aside t).queue.copy (a.copy c (giveLine_ed t ▸ ids))

/-- The waiting commands have no part in the laws. -/
theorem Advance.unqueued {s t : State} {q : List Instr} (a : Advance (s.setPending q) t) : Advance s t :=
  ⟨a.course, a.order, fun c ids => a.copy (State.CopyLaw.same (s := s) (CopyJobs.of_table rfl) rfl c) ids⟩

/-- A reset leaves no job (R26), and the flash as it stands or as a loss of power leaves it (R49). -/
theorem resetAll_advance (rate1 rate0 : Bool) {flash : Vector FlashBlock 6} {s : State}
    (good : s.CopyLaw → ∀ (p : PBlock) (k : Fin 16), flash[p].images[k].Law) :
    Advance s (resetAll rate1 rate0 flash s) :=
  ⟨resetAll_course rate1 rate0 flash s, ⟨[], [], List.nil_sublist _, rfl, by simp⟩,
    fun c _ => resetAll_copy rate1 rate0 s (good c)⟩

/-- The end of a notice can free a RELEASING slot, which no law of the course looks at (R1, R186). -/
theorem noticeGone_advance {s : State} (c : s.CourseLaw) : Advance s (noticeGone s) := by
  obtain ⟨order, live, feed, eng, chk, ed⟩ := noticeGone_live s
  exact ⟨c.of_live live order feed eng chk, ⟨s.jobs.order, [], List.Sublist.refl _, by simp [order], by simp⟩,
    fun d _ => State.CopyLaw.same (CopyJobs.of_live live) ed d⟩

/-- The reading of the headers leaves the jobs; the copy numbers keep their law where the ids read are different
(R46 to R48). -/
theorem mountHeaders_advance (marks : Vector Bool 6) {s : State} (c : s.CourseLaw) (unread : s.ed.headersRead = false) :
    Advance s (mountHeaders marks s) := by
  obtain ⟨v, jobs, feed, eng, chk, e⟩ := mountHeaders_live marks s
  have live : ∀ i, v.liveJob i = s.liveJob i := fun i => by unfold State.liveJob; rw [jobs]
  have rotated := beginRotation_aside v
  refine ⟨e ▸ rotated.course (c.of_live live (by rw [jobs]) feed eng chk), ?_, fun d ids =>
    mountHeaders_copy marks d unread (ids unread (mountHeaders_read marks s (d.table.store.readHeaders.retireWorn marks)))⟩
  rw [e, ← jobs]
  exact rotated.toPathAside.queue.order

theorem mount_advance (marks : Vector Bool 6) {s : State} (c : s.CourseLaw) :
    Advance s (if s.ed.store = .mounting ∧ s.ed.headersRead = false then giveLine (mountHeaders marks s) else s) := by
  split
  · next h => exact (mountHeaders_advance marks c h.2).given
  · exact Advance.refl c

theorem resetEffect_advance (rate1 rate0 : Bool) {s : State} (c : s.CourseLaw) :
    Advance s (if s.restartDue then resetAll rate1 rate0 s.ed.flash s else s) := by
  split
  · exact resetAll_advance rate1 rate0 fun d => d.table.flash
  · exact Advance.refl c

/-- Every command from a lawful state. -/
theorem exec_advance (i : Instr) {s : State} (l : s.feed.Law) (c : s.CourseLaw) :
    ∃ t, exec i s = .next t ∧ Advance s t := by
  cases b : requestBody i with
  | some x => exact ⟨_, exec_request b s, (requestEvent_next _ _ l c (ownerOf_next i l c)).advance⟩
  | none =>
    cases i with
    | powerOnReset rate1 rate0 flight =>
      exact ⟨_, rfl, resetAll_advance rate1 rate0 fun d => flashAfterLoss_good flight d.table⟩
    | resetEffect rate1 rate0 => exact ⟨_, rfl, resetEffect_advance rate1 rate0 c⟩
    | hostFrame bytes => exact ⟨_, rfl, (Next.foldl hostByte (fun _ b => hostByte_next b) bytes s l c).advance⟩
    | gapDrop byte => exact ⟨_, rfl, (hostGap_next byte l c).advance⟩
    | replySent => exact ⟨_, rfl, ((replyGone_aside s).advance c).given⟩
    | noticeSent => exact ⟨_, rfl, (noticeGone_advance c).given⟩
    | engineFrameSent => exact ⟨_, rfl, (engineSent_aside s).advance c⟩
    | engineFrame bytes => exact ⟨_, rfl, (Next.foldl engineByte (fun _ b => engineByte_next b) bytes s l c).advance⟩
    | engineGapDrop byte => exact ⟨_, rfl, (engineGap_next byte l c).advance⟩
    | engineState st code => exact ⟨_, rfl, (serveEngine_next _ l c).given.advance⟩
    | swath tag index feed drops => exact ⟨_, rfl, (serveEngine_next _ l c).given.advance⟩
    | endPrint tag status => exact ⟨_, rfl, (serveEngine_next _ l c).given.advance⟩
    | maint drops => exact ⟨_, rfl, (serveEngine_next _ l c).given.advance⟩
    | swathTimerExpiry => exact ⟨_, rfl, (swathExpired_next l c).given.advance⟩
    | dryOutTimerExpiry => exact ⟨_, rfl, (dryOutExpired_next l c).given.advance⟩
    | encoderCount x y => exact ⟨_, rfl, (encoderChange_next x y l c).given.advance⟩
    | edgeSearchLimit => exact ⟨_, rfl, (searchLimit_next l c).given.advance⟩
    | settleTimeout => exact ⟨_, rfl, (settleEnded_next l c).given.advance⟩
    | stallWindowEnd => exact ⟨_, rfl, (windowEnded_next l c).given.advance⟩
    | edgeChange present => exact ⟨_, rfl, (edgeChanged_next present l c).given.advance⟩
    | knifeHomeChange active => exact ⟨_, rfl, (knifeHomeChanged_next active l c).given.advance⟩
    | knifeStrokeTimeout => exact ⟨_, rfl, (strokeExpired_next l c).given.advance⟩
    | knifeReturnTimeout => exact ⟨_, rfl, (returnExpired_next l c).given.advance⟩
    | scan ain cart => exact ⟨_, rfl, (scanAll_next ain cart l c).given.advance⟩
    | pumpStroke ch => exact ⟨_, rfl, ((strokePump_aside ch s).advance c).given⟩
    | mountHeadersRead marks => exact ⟨_, rfl, mount_advance marks c⟩
    | eraseDone verified mark => exact ⟨_, rfl, ((eraseEnded_aside verified mark s).advance c).given⟩
    | programDone verified mark => exact ⟨_, rfl, ((programEnded_aside verified mark s).advance c).given⟩
    | dwellExpiry => exact ⟨_, rfl, (dwellEnded_next l c).given.advance⟩
    | measureCommandDone ack => exact ⟨_, rfl, (measured_next ack l c).given.advance⟩
    | resultReadDone ack bytes => exact ⟨_, rfl, (resultRead_next ack bytes l c).given.advance⟩
    | readingTimeout => exact ⟨_, rfl, (readingExpired_next l c).given.advance⟩
    | _ => exact nomatch b

/-- A step from a lawful state: a millisecond, or the front command. -/
theorem step_advance {s t : State} (h : step s = .next t) (l : s.feed.Law) (c : s.CourseLaw) : Advance s t := by
  unfold step at h
  split at h
  · obtain rfl := Host.Outcome.next.inj h
    exact (tick_aside s).advance c
  · next i rest _ =>
    have queued : (s.setPending rest).CourseLaw := c.of_live (fun _ => rfl) rfl rfl rfl rfl
    obtain ⟨u, e, a⟩ := exec_advance i (s := s.setPending rest) l queued
    obtain rfl := Host.Outcome.next.inj (e.symm.trans h)
    exact a.unqueued

/-- Settles O60: the laws of the accounts by `step_lawful`, those of the course and of the copy numbers by
`step_advance`. -/
theorem stepKeepsTheAccountLaws : Obligations.StepKeepsTheAccountLaws := by
  unfold Obligations.StepKeepsTheAccountLaws
  intro s t h
  obtain ⟨-, -, -, -, cost, jobs, -, -, price⟩ := step_lawful h
  refine ⟨jobs, price, cost, fun l c => ?_⟩
  have a := step_advance h l c
  refine ⟨a.course, a.order, fun d ids => ?_⟩
  have copy := a.copy d ids
  exact ⟨copy, copy.table.sizes⟩

end Sys2Proof.Machine
end

section
/-!
PROOFS. SUBMIT_JOB's checks in their order (R5 to R7): one equation of the owner for each check that can fail, and what
a body in range is. With it O13.
-/

-- One theorem after another: waiting proofs would each hold a thread.
set_option Elab.async false

namespace Sys2Proof.Machine

/-- A request command whose owner's answer is known, where the link takes it (R181, R182). -/
theorem exec_reply {i : Instr} {kind ft reply : Byte} {body answer : Bytes} {s t : State} (h : s.takesRequest)
    (b : requestBody i = some (kind, ft, body)) (owner : ownerOf i s = (t, answer)) (r : replyKind kind = reply) :
    exec i s = .next (answered reply ft answer t) := by
  rw [exec_answered h b, owner, r]

/-! ### The checks (R6) -/

section Checks
variable {o : JobOrder} {s : State} {mode : ColourMode} {i : JobIx} {is : List JobIx} {est : List (Chan × Nat)}
  {price : PriceIx}

theorem submitOwner_unformed (formed : JobOrder.formed o = none) : submitOwner o s = (s, [0x10]) := by
  unfold submitOwner
  rw [formed]
  rfl

variable (formed : JobOrder.formed o = some mode)
include formed

theorem submitOwner_duplicate (live : (s.jobByTag o.tag.toNat).isSome = true) : submitOwner o s = (s, [0x22]) := by
  unfold submitOwner
  rw [formed]
  exact if_pos live

variable (new : s.jobByTag o.tag.toNat = none)
include new

theorem submitOwner_full (full : s.slotsWhere Slot.isFree = []) : submitOwner o s = (s, [0x23]) := by
  simp only [submitOwner, formed, new, full]
  rfl

variable (free : s.slotsWhere Slot.isFree = i :: is)
include free

theorem submitOwner_outOfRange (range : JobOrder.inRange o mode s.chk.profile.geometry = none) :
    submitOwner o s = (s, [0x21]) := by
  simp only [submitOwner, formed, new, free, range]
  rfl

variable (range : JobOrder.inRange o mode s.chk.profile.geometry = some est)
include range

theorem submitOwner_unpriced (unpriced : s.cost.current = none) : submitOwner o s = (s, [0x25]) := by
  simp only [submitOwner, formed, new, free, range, unpriced]
  rfl

variable (priced : s.cost.current = some price)
include priced

theorem submitOwner_unloaded (roll : s.feed.roll.state ≠ .loaded) : submitOwner o s = (s, [0x26]) := by
  simp only [submitOwner, formed, new, free, range, priced]
  exact if_pos roll

variable (loaded : s.feed.roll.state = .loaded)
include loaded

theorem submitOwner_edition {e : Byte} (edition : judgeEdition s o.edition.toNat o.copy.toNat = .error e) :
    submitOwner o s = (s, [e]) := by
  simp only [submitOwner, formed, new, free, range, priced, loaded, edition]
  rfl

/-- An order that passes steps 1 to 7 comes to the ink and the media (R6, steps 8 and 9). -/
theorem submitOwner_last {ed : Option (EdIx × Nat)}
    (edition : judgeEdition s o.edition.toNat o.copy.toNat = .ok ed) :
    submitOwner o s = submitLast o mode est ed i price s := by
  simp only [submitOwner, formed, new, free, range, priced, loaded, edition]
  rfl

theorem submitOwner_ink {ed : Option (EdIx × Nat)} {f : Chan × InkReason × Int} {fs : List (Chan × InkReason × Int)}
    (edition : judgeEdition s o.edition.toNat o.copy.toNat = .ok ed) (ink : judgeEstimate s est = f :: fs) :
    submitOwner o s = (s, inkRefusal (f :: fs)) := by
  rw [submitOwner_last formed new free range priced loaded edition]
  unfold submitLast
  rw [ink]

end Checks

/-! ### What is well formed and in range (R5, R7) -/

/-- Only 0, 1 and 2 are colour modes (section 12.5). -/
theorem ColourMode.ofByte_none {b : Byte} (h : 2 < b.toNat) : ColourMode.ofByte b = none := by
  have zero : b ≠ 0 := by rintro rfl; exact absurd h (by decide)
  have one : b ≠ 1 := by rintro rfl; exact absurd h (by decide)
  have two : b ≠ 2 := by rintro rfl; exact absurd h (by decide)
  unfold ColourMode.ofByte
  rw [if_neg zero, if_neg one, if_neg two]

theorem increasing_iff : ∀ xs : List Nat, increasing xs = true ↔ xs.Pairwise (· < ·)
  | [] => by simp [increasing]
  | [x] => by simp [increasing]
  | x :: y :: r => by
    have ih := increasing_iff (y :: r)
    simp only [increasing, Bool.and_eq_true, decide_eq_true_eq, ih, List.pairwise_cons (a := x)]
    refine and_congr_left fun p => ⟨fun h z hz => ?_, fun h => h y (List.mem_cons_self ..)⟩
    rcases List.mem_cons.1 hz with rfl | hz
    · exact h
    · exact h.trans ((List.pairwise_cons.1 p).1 z hz)

/-- A channel byte is read as its channel, and as none above 9. -/
theorem chanOf_eq_some {b : Byte} {c : Chan} : chanOf b = some c ↔ c.val = b.toNat := by
  by_cases h : b.toNat < 10
  · simp [chanOf, h, Fin.ext_iff, eq_comm]
  · have := c.isLt
    simp only [chanOf, h, dite_false, reduceCtorEq, false_iff]
    omega

/-- The pairs of an estimate by number, as they stand in the order and as they are read. -/
theorem readPairs_some : ∀ {est : List (Byte × U32)} {xs : List (Chan × Nat)},
    est.mapM (fun p => (chanOf p.1).map fun c => (c, p.2.toNat)) = some xs →
      xs.map (fun p => (p.1.val, p.2)) = est.map fun p => (p.1.toNat, p.2.toNat)
  | [], xs, h => by
    simp only [List.mapM_nil, Option.pure_def, Option.some.injEq] at h
    subst h
    rfl
  | p :: est, xs, h => by
    simp only [List.mapM_cons, Option.bind_eq_bind, Option.bind_eq_some_iff, Option.map_eq_some_iff, Option.pure_def,
      Option.some.injEq] at h
    obtain ⟨_, ⟨c, hc, rfl⟩, ys, hys, rfl⟩ := h
    rw [List.map_cons, List.map_cons, readPairs_some hys, chanOf_eq_some.1 hc]

/-- Pairs whose channels are 0 to 9 can be read. -/
theorem readPairs_exists : ∀ {est : List (Byte × U32)}, (∀ p ∈ est, p.1.toNat ≤ 9) →
    ∃ xs, est.mapM (fun p => (chanOf p.1).map fun c => (c, p.2.toNat)) = some xs
  | [], _ => ⟨[], rfl⟩
  | p :: est, h => by
    obtain ⟨ys, hys⟩ := readPairs_exists fun q hq => h q (List.mem_cons_of_mem p hq)
    have hp : p.1.toNat < 10 := Nat.lt_succ_of_le (h p (List.mem_cons_self ..))
    have read : chanOf p.1 = some ⟨p.1.toNat, hp⟩ := chanOf_eq_some.2 rfl
    exact ⟨(⟨p.1.toNat, hp⟩, p.2.toNat) :: ys, by rw [List.mapM_cons, hys, read]; rfl⟩

/-- Each channel is named once in the read pairs as in the order's. -/
theorem readPairs_nodup {est : List (Byte × U32)} {xs : List (Chan × Nat)}
    (h : xs.map (fun p => (p.1.val, p.2)) = est.map fun p => (p.1.toNat, p.2.toNat)) :
    (xs.map (·.1)).Nodup ↔ (est.map (·.1)).Nodup := by
  have same : (xs.map (·.1)).map Fin.val = (est.map (·.1)).map BitVec.toNat := by
    simpa only [List.map_map, Function.comp_def] using congrArg (List.map Prod.fst) h
  have byNumber : ((xs.map (·.1)).map Fin.val).Nodup ↔ (xs.map (·.1)).Nodup :=
    List.nodup_map_iff Fin.val_injective
  have byByte : ((est.map (·.1)).map BitVec.toNat).Nodup ↔ (est.map (·.1)).Nodup :=
    List.nodup_map_iff fun _ _ => BitVec.eq_of_toNat_eq
  rw [← byNumber, same, byByte]

/-- The amounts read are the amounts of the order. -/
theorem readPairs_amounts {est : List (Byte × U32)} {xs : List (Chan × Nat)} {P : Nat → Prop}
    (h : xs.map (fun p => (p.1.val, p.2)) = est.map fun p => (p.1.toNat, p.2.toNat)) :
    (∀ x ∈ xs, P x.2) ↔ ∀ p ∈ est, P p.2.toNat := by
  have same : xs.map (·.2) = est.map (·.2.toNat) := by
    simpa only [List.map_map, Function.comp_def] using congrArg (List.map Prod.snd) h
  rw [← List.forall_mem_map, same, List.forall_mem_map]

/-- An estimate is read exactly when its channels and amounts are in range and each channel is named once (R7). -/
theorem readEstimate_some {est : List (Byte × U32)} {xs : List (Chan × Nat)} (h : readEstimate est = some xs) :
    (∀ p ∈ est, p.1.toNat ≤ 9 ∧ 1 ≤ p.2.toNat ∧ p.2.toNat ≤ 30000000) ∧ (est.map (·.1)).Nodup := by
  unfold readEstimate at h
  split at h
  · next ys hys =>
    have read := readPairs_some hys
    split at h
    · next ok =>
      obtain ⟨nodup, amounts⟩ := ok
      refine ⟨fun p hp => ⟨?_, (readPairs_amounts (P := fun n => 1 ≤ n ∧ n ≤ 30000000) read).1 amounts p hp⟩,
        (readPairs_nodup read).1 nodup⟩
      have mem : (p.1.toNat, p.2.toNat) ∈ ys.map fun q => (q.1.val, q.2) :=
        read ▸ List.mem_map_of_mem (f := fun q : Byte × U32 => (q.1.toNat, q.2.toNat)) hp
      obtain ⟨q, -, e⟩ := List.mem_map.1 mem
      have : q.1.val = p.1.toNat := congrArg Prod.fst e
      omega
    · cases h
  · cases h

theorem readEstimate_exists {est : List (Byte × U32)}
    (range : ∀ p ∈ est, p.1.toNat ≤ 9 ∧ 1 ≤ p.2.toNat ∧ p.2.toNat ≤ 30000000) (nodup : (est.map (·.1)).Nodup) :
    ∃ xs, readEstimate est = some xs ∧
      xs.map (fun p => (p.1.val, p.2)) = est.map fun p => (p.1.toNat, p.2.toNat) := by
  obtain ⟨xs, hxs⟩ := readPairs_exists fun p hp => (range p hp).1
  have read := readPairs_some hxs
  refine ⟨xs, ?_, read⟩
  unfold readEstimate
  rw [hxs]
  exact if_pos ⟨(readPairs_nodup read).2 nodup,
    (readPairs_amounts (P := fun n => 1 ≤ n ∧ n ≤ 30000000) read).2 fun p hp => (range p hp).2⟩

/-- The last offset is bounded exactly when the last cut is. -/
theorem lastOffset_le {cuts : List U16} {n : Nat} :
    lastOffset (cuts.map (·.toNat)) ≤ n ↔ ∀ c ∈ cuts.getLast?, c.toNat ≤ n := by
  unfold lastOffset
  rw [List.getLast?_map]
  cases cuts.getLast? <;> simp

/-- What step 4 finds in range (R7), with the strip's length. -/
def JobOrder.Fits (o : JobOrder) (mode : ColourMode) (g : Option Geometry) (strip : Nat) : Prop :=
  o.tag ≠ 0 ∧ (100 ≤ o.printLen.toNat ∧ o.printLen.toNat ≤ 20000) ∧
    (o.cuts.map (·.toNat)).Pairwise (· < ·) ∧ (∀ c ∈ o.cuts, o.printLen.toNat ≤ c.toNat) ∧
    (∀ c ∈ o.cuts.getLast?, c.toNat ≤ o.printLen.toNat + strip + 1000) ∧ (mode = .plain ∨ g.isSome = true) ∧
    (∀ p ∈ o.est, p.1.toNat ≤ 9 ∧ 1 ≤ p.2.toNat ∧ p.2.toNat ≤ 30000000) ∧ (o.est.map (·.1)).Nodup

section Range
variable {o : JobOrder} {mode : ColourMode} {g : Option Geometry} {strip : Nat}
  (length : strip = if mode = .plain then 0 else (g.map fun x => (x.m + x.t) * x.pitch).getD 0)
include length

/-- Step 4 reads the estimate where everything else of the order is in range. -/
theorem JobOrder.inRange_eq :
    JobOrder.inRange o mode g =
      if o.tag ≠ 0 ∧ (100 ≤ o.printLen.toNat ∧ o.printLen.toNat ≤ 20000) ∧
        (o.cuts.map (·.toNat)).Pairwise (· < ·) ∧ (∀ c ∈ o.cuts, o.printLen.toNat ≤ c.toNat) ∧
        (∀ c ∈ o.cuts.getLast?, c.toNat ≤ o.printLen.toNat + strip + 1000) ∧ (mode = .plain ∨ g.isSome = true)
      then readEstimate o.est else none := by
  subst length
  unfold JobOrder.inRange
  simp only [increasing_iff, lastOffset_le, List.all_map, List.all_eq_true, Function.comp_apply, decide_eq_true_eq]
  rfl

theorem JobOrder.inRange_fits {est : List (Chan × Nat)} (h : JobOrder.inRange o mode g = some est) :
    JobOrder.Fits o mode g strip := by
  rw [JobOrder.inRange_eq length] at h
  split at h
  · next ok =>
    obtain ⟨tag, len, up, least, most, strip⟩ := ok
    exact ⟨tag, len, up, least, most, strip, readEstimate_some h⟩
  · cases h

theorem JobOrder.Fits.inRange (h : JobOrder.Fits o mode g strip) :
    ∃ est, JobOrder.inRange o mode g = some est ∧
      est.map (fun p => (p.1.val, p.2)) = o.est.map fun p => (p.1.toNat, p.2.toNat) := by
  obtain ⟨tag, len, up, least, most, strip, range, nodup⟩ := h
  rw [JobOrder.inRange_eq length, if_pos ⟨tag, len, up, least, most, strip⟩]
  exact readEstimate_exists range nodup

end Range

/-- What makes a body well formed in its counts and its copy number (R5). -/
def JobOrder.Counts (o : JobOrder) : Prop :=
  (1 ≤ o.cuts.length ∧ o.cuts.length ≤ 3) ∧ (1 ≤ o.est.length ∧ o.est.length ≤ 10) ∧ (o.copy = 0 ∨ o.edition ≠ 0)

theorem JobOrder.formed_counts {o : JobOrder} (h : JobOrder.Counts o) :
    JobOrder.formed o = ColourMode.ofByte o.mode := if_pos h

theorem JobOrder.formed_none {o : JobOrder} (h : ¬ JobOrder.Counts o ∨ 2 < o.mode.toNat) : JobOrder.formed o = none := by
  by_cases counts : JobOrder.Counts o
  · rw [JobOrder.formed_counts counts]
    exact ColourMode.ofByte_none (h.resolve_left (not_not_intro counts))
  · exact if_neg counts

/-- Settles O13: the owner's equation for each check, and the ranges by `JobOrder.Fits`. -/
theorem submitRefusalsComeInOrder : Obligations.SubmitRefusalsComeInOrder := by
  unfold Obligations.SubmitRefusalsComeInOrder
  refine ⟨fun ft o s taken => ?_, fun o counts hc => ?_, fun o mode g strip fits length hf => ?_⟩
  · have refused : ∀ {answer : Bytes}, submitOwner o s = (s, answer) →
        exec (.submitJob ft o) s = .next (answered 0x90 ft answer s) := fun owner =>
      exec_reply taken rfl owner rfl
    refine ⟨fun unformed => refused (submitOwner_unformed unformed), fun mode formed =>
      ⟨fun live => refused (submitOwner_duplicate formed live), fun new =>
        ⟨fun full => refused (submitOwner_full formed new full), fun room => ?_⟩⟩⟩
    obtain ⟨i, is, free⟩ := List.exists_cons_of_ne_nil room
    refine ⟨fun range => refused (submitOwner_outOfRange formed new free range), fun est range =>
      ⟨fun unpriced => refused (submitOwner_unpriced formed new free range unpriced), fun hp => ?_⟩⟩
    obtain ⟨price, priced⟩ := Option.isSome_iff_exists.1 hp
    exact ⟨fun roll => refused (submitOwner_unloaded formed new free range priced roll), fun loaded =>
      ⟨fun e edition => refused (submitOwner_edition formed new free range priced loaded edition),
        fun ed f fs edition ink => refused (submitOwner_ink formed new free range priced loaded edition ink)⟩⟩
  · rw [show counts ↔ JobOrder.Counts o from hc]
    refine ⟨JobOrder.formed_none, fun h => ?_⟩
    rw [JobOrder.formed_counts h]
    exact ⟨fun e => by rw [e]; rfl, fun e => by rw [e]; rfl, fun e => by rw [e]; rfl⟩
  · rw [show fits ↔ JobOrder.Fits o mode g strip from hf]
    refine ⟨fun out => ?_, fun fit => JobOrder.Fits.inRange length fit⟩
    cases h : JobOrder.inRange o mode g with
    | none => rfl
    | some est => exact absurd (JobOrder.inRange_fits length h) out

end Sys2Proof.Machine
end

section
/-!
PROOFS. Steps 7 and 8 of SUBMIT_JOB: the copy number of an order (R6, R28) and its estimate against the availability
(R110, R111). With it O14.
-/

-- One theorem after another: waiting proofs would each hold a thread.
set_option Elab.async false

namespace Sys2Proof.Machine

/-! ### Free numbers (R28) -/

theorem Editions.isFree_iff {d : Editions} {e : EdIx} {k : Nat} :
    d.isFree e k = true ↔
      1 ≤ k ∧ k ≤ d.image[e].limit ∧ k ∉ d.image[e].issued ∧ k ∉ d.unrec[e] ∧ k ∉ d.resv[e] := by
  simp [Editions.isFree, and_assoc]

/-- A number within the limit is not free when one of the three sets holds it. -/
theorem Editions.isFree_false {d : Editions} {e : EdIx} {k : Nat}
    (h : k ∈ d.image[e].issued ∨ k ∈ d.unrec[e] ∨ k ∈ d.resv[e]) : d.isFree e k = false := by
  rw [Bool.eq_false_iff, Ne, Editions.isFree_iff]
  rintro ⟨-, -, issued, unrec, resv⟩
  exact h.elim issued fun h => h.elim unrec resv

/-- The lowest free number is the first of the free numbers. -/
theorem Editions.freeNumbers_first {d : Editions} {e : EdIx} {k : Nat} (free : d.isFree e k = true)
    (below : ∀ m, 1 ≤ m → m < k → d.isFree e m = false) : ∃ ks, d.freeNumbers e = k :: ks := by
  obtain ⟨low, high, -⟩ := Editions.isFree_iff.1 free
  have first : (d.freeNumbers e).head? = some k := by
    unfold Editions.freeNumbers
    rw [List.head?_filter, List.find?_range'_eq_some]
    refine ⟨free, List.mem_range'_1.2 ⟨low, by omega⟩, fun m hm lt => by rw [below m hm lt]; rfl⟩
  exact List.head?_eq_some_iff.1 first

theorem Editions.freeNumbers_none {d : Editions} {e : EdIx}
    (taken : ∀ m, 1 ≤ m → m ≤ d.image[e].limit → d.isFree e m = false) : d.freeNumbers e = [] := by
  unfold Editions.freeNumbers
  rw [List.filter_eq_nil_iff]
  intro m hm
  obtain ⟨low, high⟩ := List.mem_range'_1.1 hm
  rw [taken m low (by omega)]
  exact Bool.false_ne_true

/-! ### Step 7: the copy number (R6) -/

section Edition
variable {s : State} {id copy : Nat} {e : EdIx}

theorem judgeEdition_none (s : State) (copy : Nat) : judgeEdition s 0 copy = .ok none := if_pos rfl

variable (named : id ≠ 0)
include named

theorem judgeEdition_store (h : s.ed.store ≠ .ready) : judgeEdition s id copy = .error 0x28 := by
  unfold judgeEdition
  rw [if_neg named]
  exact if_pos h

variable (ready : s.ed.store = .ready)
include ready

theorem judgeEdition_unknown (h : s.ed.slotOf id = none) : judgeEdition s id copy = .error 0x27 := by
  simp only [judgeEdition, named, ready, h]
  rfl

variable (slot : s.ed.slotOf id = some e)
include slot

theorem judgeEdition_closed (h : s.ed.image[e].state ≠ .opened) : judgeEdition s id copy = .error 0x27 := by
  simp only [judgeEdition, named, ready, slot]
  exact if_pos h

variable (opened : s.ed.image[e].state = .opened)
include opened

theorem judgeEdition_lowest {k : Nat} {ks : List Nat} (free : s.ed.freeNumbers e = k :: ks) :
    judgeEdition s id 0 = .ok (some (e, k)) := by
  simp only [judgeEdition, named, ready, slot, opened, free]
  rfl

theorem judgeEdition_exhausted (free : s.ed.freeNumbers e = []) : judgeEdition s id 0 = .error 0x27 := by
  simp only [judgeEdition, named, ready, slot, opened, free]
  rfl

theorem judgeEdition_copy (asked : copy ≠ 0) :
    judgeEdition s id copy = if s.ed.isFree e copy then .ok (some (e, copy)) else .error 0x27 := by
  simp only [judgeEdition, named, ready, slot, opened, asked]
  rfl

end Edition

/-! ### Step 8: the estimate (R110, R111) -/

theorem ceilDiv_thousand (n : Nat) : ceilDiv n 1000 = (n + 999) / 1000 := by
  unfold ceilDiv
  rw [Nat.add_sub_assoc (by decide)]

theorem State.availability_eq (s : State) (c : Chan) :
    s.availability c =
      (s.ink.chans[c].level : Int) + (((s.ink.chans[c].cart).map (·.remaining)).getD 0 : Nat)
        - s.ink.chans[c].profile.floor - ((s.heldNl c + 999) / 1000 : Nat) := by
  rw [← ceilDiv_thousand]
  rfl

section Pair
variable {s : State} {c : Chan} {amount : Nat}

theorem judgePair_unavailable {r : InkReason} (h : s.ink.chans[c].unavailable = some r) :
    judgePair s (c, amount) = some (c, r, 0) := by
  unfold judgePair
  rw [h]

/-- A channel that can be drawn from is judged by its availability. -/
theorem judgePair_available (h : s.ink.chans[c].unavailable = none) :
    judgePair s (c, amount) =
      if s.availability c < amount then some (c, .short, s.availability c) else none := by
  unfold judgePair
  rw [h]

theorem Channel.unavailable_declared {x : Channel} (fitted : x.supply ≠ .unfitted) (declared : x.supply ≠ .undeclared) :
    x.unavailable = if x.fault then some .sensor else none := by
  unfold Channel.unavailable
  rw [if_neg fitted, if_neg declared]

end Pair

/-- A failing pair is listed by its channel. -/
theorem judgePair_chan {s : State} {p : Chan × Nat} {x : Chan × InkReason × Int} (h : judgePair s p = some x) :
    x.1 = p.1 := by
  unfold judgePair at h
  split at h
  · exact (Option.some.inj h) ▸ rfl
  · dsimp only at h
    split at h
    · exact (Option.some.inj h) ▸ rfl
    · cases h

theorem find_pair_some {est : List (Chan × Nat)} {c : Chan} {p : Chan × Nat}
    (h : est.find? (fun q => q.1 == c) = some p) : p ∈ est ∧ p.1 = c := by
  have chan := List.find?_some h
  exact ⟨List.mem_of_find?_eq_some h, by simpa using chan⟩

/-- Each channel is judged by the pair of the estimate that names it. -/
theorem find_pair {est : List (Chan × Nat)} (nodup : (est.map (·.1)).Nodup) {c : Chan} {p : Chan × Nat} :
    est.find? (fun q => q.1 == c) = some p ↔ p ∈ est ∧ p.1 = c := by
  refine ⟨find_pair_some, fun ⟨mem, e⟩ => ?_⟩
  have found : (est.find? fun q => q.1 == c).isSome = true := by
    rw [List.find?_isSome]
    exact ⟨p, mem, by simpa using e⟩
  obtain ⟨q, hq⟩ := Option.isSome_iff_exists.1 found
  obtain ⟨inEst, chan⟩ := find_pair_some hq
  rw [hq, List.inj_on_of_nodup_map nodup inEst mem (chan.trans e.symm)]

theorem judgeEstimate_mem {s : State} {est : List (Chan × Nat)} (nodup : (est.map (·.1)).Nodup)
    {x : Chan × InkReason × Int} : x ∈ judgeEstimate s est ↔ ∃ p ∈ est, judgePair s p = some x := by
  simp only [judgeEstimate, List.mem_filterMap, List.mem_finRange, true_and, Option.bind_eq_some_iff, find_pair nodup]
  exact ⟨fun ⟨c, p, ⟨mem, _⟩, h⟩ => ⟨p, mem, h⟩, fun ⟨p, mem, h⟩ => ⟨p.1, p, ⟨mem, rfl⟩, h⟩⟩

/-- The failing pairs stand in ascending channel order (R111). -/
theorem judgeEstimate_ascending (s : State) (est : List (Chan × Nat)) :
    (judgeEstimate s est).Pairwise fun x y => x.1 < y.1 := by
  have chan : ∀ {c : Chan} {x : Chan × InkReason × Int},
      (est.find? fun p => p.1 == c).bind (judgePair s) = some x → x.1 = c := fun h => by
    obtain ⟨p, find, judged⟩ := Option.bind_eq_some_iff.1 h
    exact (judgePair_chan judged).trans (find_pair_some find).2
  unfold judgeEstimate
  refine List.pairwise_filterMap.2 ((List.pairwise_lt_finRange 10).imp fun lt x hx y hy => ?_)
  rw [chan hx, chan hy]
  exact lt

/-- Settles O14: step 7 by the free numbers, step 8 by the judging of each pair. -/
theorem ordersTakeFreeNumbersAndAvailableInk : Obligations.OrdersTakeFreeNumbersAndAvailableInk := by
  unfold Obligations.OrdersTakeFreeNumbersAndAvailableInk
  refine ⟨fun s id copy => ⟨judgeEdition_none s copy, judgeEdition_store, fun named ready =>
      ⟨judgeEdition_unknown named ready, fun e slot => ⟨judgeEdition_closed named ready slot, fun opened => ?_⟩⟩⟩,
    fun s c amount => ⟨s.availability_eq c, fun h => ?_, fun h => ?_, fun fitted declared => ?_⟩, fun s c => rfl,
    fun s est nodup => ⟨judgeEstimate_ascending s est, fun x => judgeEstimate_mem nodup⟩⟩
  · refine ⟨fun k free below => ?_, fun taken => ?_, fun asked => ?_⟩
    · obtain ⟨ks, first⟩ := Editions.freeNumbers_first (Editions.isFree_iff.2 free) fun m low lt =>
        Editions.isFree_false (below m low lt)
      exact judgeEdition_lowest named ready slot opened first
    · exact judgeEdition_exhausted named ready slot opened
        (Editions.freeNumbers_none fun m low high => Editions.isFree_false (taken m low high))
    · have free : s.ed.isFree e copy = true ↔ copy ≤ s.ed.image[e].limit ∧ copy ∉ s.ed.image[e].issued ∧
          copy ∉ s.ed.unrec[e] ∧ copy ∉ s.ed.resv[e] :=
        Editions.isFree_iff.trans (and_iff_right (Nat.one_le_iff_ne_zero.2 asked))
      rw [judgeEdition_copy named ready slot opened asked, ← free]
      exact ⟨fun h => if_pos h, fun h => if_neg h⟩
  · exact judgePair_unavailable (if_pos h)
  · exact judgePair_unavailable (by unfold Channel.unavailable; rw [h]; rfl)
  · have declared := Channel.unavailable_declared fitted declared
    refine ⟨fun fault => judgePair_unavailable (by rw [declared, fault]; rfl), fun good short => ?_, fun good enough => ?_⟩
    · rw [judgePair_available (by rw [declared, good]; rfl), if_pos short]
    · rw [judgePair_available (by rw [declared, good]; rfl), if_neg (Int.not_lt.2 enough)]

end Sys2Proof.Machine
end

section
/-!
PROOFS. The acceptance of a job (R8, R9, R85, R112, R163): the strip decision, the adjusted cut plan, and the state after
it. With it O15.
-/

-- One theorem after another: waiting proofs would each hold a thread.
set_option Elab.async false

namespace Sys2Proof.Machine

/-! ### The strip and the plan (R8, R163) -/

theorem forcesStrip_iff {s : State} {mode : ColourMode} {est : List (Chan × Nat)} :
    forcesStrip s mode est = true ↔ mode = .plain ∧ s.chk.profile.set.isSome = true ∧ s.chk.profile.learn = true ∧
      ∃ p ∈ est, s.drift.states[p.1] = .unverified := by
  simp only [forcesStrip, Bool.and_eq_true, decide_eq_true_eq, List.any_eq_true, and_assoc]

/-- Where a strip is forced the strip profile is set, and its geometry is the strip's. -/
theorem forcesStrip_geometry {s : State} {mode : ColourMode} {est : List (Chan × Nat)}
    (h : forcesStrip s mode est = true) : ∃ g, s.chk.profile.geometry = some g := by
  obtain ⟨-, set, -⟩ := forcesStrip_iff.1 h
  exact Option.isSome_iff_exists.1 (by unfold StripProfile.geometry; rw [Option.isSome_map]; exact set)

/-- The plan is the order's, its last offset raised where a strip is forced (R8). -/
theorem planOf_eq {o : JobOrder} {geo : Option Geometry} {forced : Bool} {strip : Nat}
    (strips : forced = true → geo.isSome = true)
    (length : strip = (geo.map fun g => (g.m + g.t) * g.pitch).getD 0) :
    planOf o geo forced =
      if forced then
        (o.cuts.map (·.toNat)).dropLast ++
          [max (((o.cuts.map (·.toNat)).getLast?).getD 0) (o.printLen.toNat + strip + 10)]
      else o.cuts.map (·.toNat) := by
  subst length
  cases forced with
  | false => cases geo <;> rfl
  | true =>
    obtain ⟨g, rfl⟩ := Option.isSome_iff_exists.1 (strips rfl)
    rfl

/-! ### The acceptance (R9) -/

/-- The accepted job takes the slot and the end of the queue order, its number is reserved and its price slot counted. -/
theorem acceptJob_eq {i : JobIx} {j : Job} {s : State} {ed : Option (EdIx × Nat)} {id : Nat} {price : PriceIx}
    (named : price = j.priceSlot)
    (edition : j.edition = ed.map fun x => { id := id, copy := x.2, slot := x.1 }) :
    acceptJob i j s = notify (.jobSlot i)
      { s with
        jobs := { slots := s.jobs.slots.set i (.live j), order := s.jobs.order ++ [i] }
        ed := (ed.map fun x => { s.ed with resv := s.ed.resv.set x.1 (insertNum x.2 s.ed.resv[x.1]) }).getD s.ed
        cost := { s.cost with
                  slots := s.cost.slots.set price
                    { s.cost.slots[price] with refs := s.cost.slots[price].refs + 1 } } } := by
  subst named
  unfold acceptJob
  rw [edition]
  cases ed <;> rfl

theorem acceptReply_eq {i : JobIx} {j : Job} {s : State} {ed : Option (EdIx × Nat)} {id : Nat}
    (edition : j.edition = ed.map fun x => { id := id, copy := x.2, slot := x.1 }) :
    acceptReply s i j =
      0x00 :: (u8 i ++ u16 ((ed.map (·.2)).getD 0) ++ u32 (s.cost.generation j.priceSlot) ++ yesNo j.forced) := by
  unfold acceptReply
  rw [edition]
  cases ed <;> rfl

/-- An order whose estimate passes is accepted where its planned reservation fits, and else refused (R6, step 9). -/
theorem submitLast_media {o : JobOrder} {mode : ColourMode} {est : List (Chan × Nat)} {ed : Option (EdIx × Nat)}
    {i : JobIx} {price : PriceIx} {s : State} {j : Job} (ink : judgeEstimate s est = [])
    (job : j = newJob s o mode est ed (stripOf s mode est).1 (stripOf s mode est).2 price) :
    submitLast o mode est ed i price s =
      if j.planned + s.reserved ≤ s.feed.roll.remaining then (startEval (acceptJob i j s), acceptReply s i j)
      else (s, [0x26]) := by
  subst job
  unfold submitLast
  rw [ink]
  rfl

/-- Settles O15: the job is `newJob` of the order, and its acceptance is `acceptJob_eq`. -/
theorem acceptedOrderBecomesAPendingJob : Obligations.AcceptedOrderBecomesAPendingJob := by
  unfold Obligations.AcceptedOrderBecomesAPendingJob
  intro ft o s mode i is est price ed forced geo strip planned cuts taken formed new free range priced loaded edition
    ink hforced hgeo hstrip hcuts hplanned
  have decided : forced = forcesStrip s mode est := Bool.eq_iff_iff.2 (hforced.trans forcesStrip_iff.symm)
  have strips : stripOf s mode est = (geo, forced) := by rw [hgeo, decided]; rfl
  have plan : planOf o geo forced = cuts := by
    rw [hcuts]
    refine planOf_eq (fun h => ?_) hstrip
    obtain ⟨g, hg⟩ := forcesStrip_geometry (decided ▸ h)
    rw [hgeo, if_neg (by rw [h]; simp), hg]
    rfl
  have owner := submitOwner_last formed new free range priced loaded edition
  obtain ⟨j, hj⟩ : ∃ j, j = newJob s o mode est ed geo forced price := ⟨_, rfl⟩
  rw [submitLast_media (j := j) ink (by rw [strips]; exact hj)] at owner
  have res : j.planned = planned := by
    rw [hplanned, hstrip, ← plan, hj]
    rfl
  rw [res] at owner
  refine ⟨fun full => exec_reply taken rfl (owner.trans (if_neg (Nat.not_le.2 full))) rfl, fun fits => ?_⟩
  have colour : j.holds.colourOut = true ↔ mode = .critical ∧ ∃ p ∈ est, s.drift.states[p.1] = .out := by
    rw [hj]
    simp only [newJob, Bool.and_eq_true, decide_eq_true_eq, List.any_eq_true]
  have copy : j.edition = ed.map fun x => { id := o.edition.toNat, copy := x.2, slot := x.1 } := by rw [hj]; rfl
  have accepted := owner.trans (if_pos fits)
  rw [acceptJob_eq (by rw [hj]; rfl : price = j.priceSlot) copy, acceptReply_eq copy] at accepted
  refine ⟨j, ?_, ⟨by rw [hj]; rfl, colour⟩, copy, by rw [hj]; rfl, ⟨?_, res, by rw [hj]; rfl⟩, by rw [hj]; rfl,
    exec_reply taken rfl (accepted.trans ?_) rfl⟩
  · subst hj
    exact ⟨rfl, rfl, rfl, rfl, rfl, plan, rfl, rfl, rfl, rfl, rfl, rfl, rfl, rfl, rfl⟩
  · rw [← res, hj]; rfl
  · rw [hj]; rfl

end Sys2Proof.Machine
end

section
/-!
PROOFS. QUERY_JOB, QUERY_EDITION and CANCEL_JOB by what they name (R13, R16, R17, R23, R36). With it O16 and O17.
-/

-- One theorem after another: waiting proofs would each hold a thread.
set_option Elab.async false

namespace Sys2Proof.Machine

/-! ### Selectors and queries (R23, R36) -/

/-- With id 0 the selector names a slot by its number. -/
theorem selectSlot_slot (d : Editions) (e : EdIx) : selectSlot d 0 (BitVec.ofNat 8 e) = .ok e := by
  have number : (BitVec.ofNat 8 e.val).toNat = e.val := ofNat8_toNat (e.isLt.trans (by decide))
  unfold selectSlot
  rw [if_pos rfl, dif_pos (by rw [number]; exact e.isLt)]
  exact congrArg _ (Fin.ext number)

theorem selectSlot_outOfRange (d : Editions) {slot : Byte} (h : 64 ≤ slot.toNat) : selectSlot d 0 slot = .error 0x21 := by
  unfold selectSlot
  rw [if_pos rfl]
  exact dif_neg (Nat.not_lt.2 h)

theorem selectSlot_id {d : Editions} {id : U32} (slot : Byte) {e : EdIx} (named : id ≠ 0)
    (h : d.slotOf id.toNat = some e) : selectSlot d id slot = .ok e := by
  unfold selectSlot
  rw [if_neg named, h]

theorem selectSlot_unknown {d : Editions} {id : U32} (slot : Byte) (named : id ≠ 0) (h : d.slotOf id.toNat = none) :
    selectSlot d id slot = .error 0x24 := by
  unfold selectSlot
  rw [if_neg named, h]
  rfl

section Queries
variable {s : State} {tag : U16} {id : U32} {slot : Byte}

theorem queryJobOwner_live {i : JobIx} {j : Job} (h : s.jobByTag tag.toNat = some (i, j)) :
    queryJobOwner tag s = (s, 0x00 :: jobFields s i true j) := by
  unfold queryJobOwner
  rw [h]
  rfl

theorem queryJobOwner_unknown (h : s.jobByTag tag.toNat = none) : queryJobOwner tag s = (s, [0x24]) := by
  unfold queryJobOwner
  rw [h]
  rfl

theorem queryEditionOwner_mounting (h : s.ed.store = .mounting) : queryEditionOwner id slot s = (s, [0x28]) := if_pos h

theorem queryEditionOwner_slot {e : EdIx} (h : s.ed.store ≠ .mounting) (sel : selectSlot s.ed id slot = .ok e) :
    queryEditionOwner id slot s = (s, 0x00 :: editionReport s.ed e) := by
  unfold queryEditionOwner
  rw [if_neg h, sel]
  rfl

theorem queryEditionOwner_refused {e : Byte} (h : s.ed.store ≠ .mounting) (sel : selectSlot s.ed id slot = .error e) :
    queryEditionOwner id slot s = (s, [e]) := by
  unfold queryEditionOwner
  rw [if_neg h, sel]
  rfl

end Queries

/-- Settles O16: each query by its owner, QUERY_EDITION by its selector. -/
theorem queriesReportWhatTheyName : Obligations.QueriesReportWhatTheyName := by
  unfold Obligations.QueriesReportWhatTheyName
  intro ft s taken
  have job : ∀ {tag answer}, queryJobOwner tag s = (s, answer) →
      exec (.queryJob ft tag) s = .next (answered 0x92 ft answer s) := fun owner => exec_reply taken rfl owner rfl
  have edition : ∀ {id slot answer}, queryEditionOwner id slot s = (s, answer) →
      exec (.queryEdition ft id slot) s = .next (answered 0xA3 ft answer s) := fun owner =>
    exec_reply taken rfl owner rfl
  exact ⟨fun tag i j live => job (queryJobOwner_live live), fun tag unknown => job (queryJobOwner_unknown unknown),
    fun id slot mounting => edition (queryEditionOwner_mounting mounting), fun mounted =>
    ⟨fun e => edition (queryEditionOwner_slot mounted (selectSlot_slot s.ed e)),
      fun slot out => edition (queryEditionOwner_refused mounted (selectSlot_outOfRange s.ed out)),
      fun id slot e named sel => edition (queryEditionOwner_slot mounted (selectSlot_id slot named sel)),
      fun id slot named sel => edition (queryEditionOwner_refused mounted (selectSlot_unknown slot named sel))⟩⟩

/-! ### CANCEL_JOB (R13, R16, R17) -/

/-- The starting phase by its fields (R12). -/
theorem Job.starting_iff {j : Job} : j.starting = true ↔ j.state = .printing ∧ j.startPos = none := by
  simp only [Job.starting, Bool.and_eq_true, decide_eq_true_eq, Option.isNone_iff_eq_none]

theorem Job.starting_false {j : Job} (h : j.startPos.isSome = true) : j.starting = false := by
  rw [Bool.eq_false_iff, Ne, Job.starting_iff]
  rintro ⟨-, none⟩
  rw [none] at h
  cases h

section Cancel
variable {s : State} {i : JobIx} {j : Job}

theorem cancelJob_pending (h : j.state = .pending) :
    cancelJob i j s = closeJob i 0 (decideOutcome i .cancelled none s) := if_pos h

theorem cancelJob_onPath (h : j.state ≠ .pending) : cancelJob i j s = cancelOnPath i j s := if_neg h

/-- A job that waits to take the spoil path has its outcome already (R19). -/
theorem cancelOnPath_waiting (h : j.spoilWait = true) : cancelOnPath i j s = s := if_pos h

variable (h : j.spoilWait = false)
include h

theorem cancelOnPath_engaged (st : j.state = .suspended ∨ (j.state = .printing ∧ j.startPos.isSome = true)) :
    cancelOnPath i j s = enterAborting i (decideOutcome i .spoiled (some .cancel) s) := by
  rcases st with st | ⟨st, pos⟩
  · simp [cancelOnPath, h, st]
  · simp [cancelOnPath, h, st, Job.starting_false pos]

/-- In the starting phase the job closes at once where no back-feed is under way, and else at its end (R13). -/
theorem cancelOnPath_starting (st : j.state = .printing) (pos : j.startPos = none) :
    cancelOnPath i j s =
      if (decideOutcome i .cancelled none s).feed.move.isSome then decideOutcome i .cancelled none s
      else closeJob i 0 (decideOutcome i .cancelled none s) := by
  simp [cancelOnPath, h, st, Job.starting_iff.2 ⟨st, pos⟩]

theorem cancelOnPath_state :
    (j.state = .aborting → cancelOnPath i j s = s) ∧
    (j.state = .checking → cancelOnPath i j s =
      takeSpoil i (decideOutcome i .spoiled (some .cancel) (stopChecker s))) ∧
    (j.state = .cutting → cancelOnPath i j s = decideOutcome i .spoiled (some .cancel) s) := by
  refine ⟨fun st => ?_, fun st => ?_, fun st => ?_⟩ <;> simp [cancelOnPath, h, st]

end Cancel

/-- Deciding an outcome leaves the feed axis. -/
theorem decideOutcome_feed (i : JobIx) (o : JobOutcome) (c : Option SpoilCause) (s : State) :
    (decideOutcome i o c s).feed = s.feed := by
  unfold decideOutcome
  split
  · split
    · rfl
    · dsimp only
      split <;> simp
  · rfl

theorem cancelOwner_unknown {tag : U16} {s : State} (h : s.jobByTag tag.toNat = none) :
    cancelOwner tag s = (s, [0x24]) := by
  unfold cancelOwner
  rw [h]
  rfl

section CancelOwner
variable {tag : U16} {s : State} {i : JobIx} {j : Job} (live : s.jobByTag tag.toNat = some (i, j))
include live

theorem cancelOwner_closing (h : j.state = .closing) : cancelOwner tag s = (s, [0x30]) := by
  unfold cancelOwner
  rw [live]
  exact if_pos h

theorem cancelOwner_live (h : j.state ≠ .closing) : cancelOwner tag s = (cancelJob i j s, [0x00]) := by
  unfold cancelOwner
  rw [live]
  exact if_neg h

end CancelOwner

/-- Settles O17: the owner cancels by the job's state. -/
theorem cancelActsByTheJobsState : Obligations.CancelActsByTheJobsState := by
  unfold Obligations.CancelActsByTheJobsState
  intro ft tag s taken
  have reply : ∀ {t answer}, cancelOwner tag s = (t, answer) →
      exec (.cancelJob ft tag) s = .next (answered 0x91 ft answer t) := fun owner => exec_reply taken rfl owner rfl
  refine ⟨fun unknown => reply (cancelOwner_unknown unknown), fun i j live => ?_⟩
  have cancelled : ∀ {t}, j.state ≠ .closing → cancelJob i j s = t →
      exec (.cancelJob ft tag) s = .next (answered 0x91 ft [0x00] t) := fun st e => e ▸ reply (cancelOwner_live live st)
  have onPath : ∀ {t}, j.state.onPath = true → cancelOnPath i j s = t →
      exec (.cancelJob ft tag) s = .next (answered 0x91 ft [0x00] t) := fun on e =>
    cancelled (by rintro h; rw [h] at on; cases on)
      ((cancelJob_onPath (by rintro h; rw [h] at on; cases on)).trans e)
  refine ⟨fun st => reply (cancelOwner_closing live st), fun st => cancelled (by rw [st]; decide) (cancelJob_pending st),
    fun waiting closing pending => cancelled closing ((cancelJob_onPath pending).trans (cancelOnPath_waiting waiting)),
    fun h => ?_⟩
  obtain ⟨aborting, checking, cutting⟩ := cancelOnPath_state (i := i) (s := s) h
  have moving : (decideOutcome i .cancelled none s).feed.move = s.feed.move := by rw [decideOutcome_feed]
  refine ⟨fun st => onPath (by rw [st]; rfl) (aborting st), fun st => onPath ?_ (cancelOnPath_engaged h st),
    fun st pos under => onPath (by rw [st]; rfl) ((cancelOnPath_starting h st pos).trans (if_pos (moving ▸ under))),
    fun st pos still => onPath (by rw [st]; rfl) ((cancelOnPath_starting h st pos).trans (if_neg ?_)),
    fun st => onPath (by rw [st]; rfl) (checking st), fun st => onPath (by rw [st]; rfl) (cutting st)⟩
  · rcases st with st | ⟨st, -⟩ <;> rw [st] <;> rfl
  · rw [moving, still]
    exact Bool.false_ne_true

end Sys2Proof.Machine
end

section
/-!
PROOFS. One job put in its slot, and what the changes of one job come to: outcomes, the departure from the table, the
closing and the commit (R4, R20 to R22, R31, R84, R119). With it O18.
-/

-- One theorem after another: waiting proofs would each hold a thread.
set_option Elab.async false

namespace Sys2Proof.Machine

/-! ### One job put in its slot -/

/-- The state with this job in this slot. -/
def putJob (i : JobIx) (j : Job) (s : State) : State :=
  s.mapJobs fun t => { t with slots := t.slots.set i (.live j) }

section Put
variable {i : JobIx} {j : Job} {s : State}

theorem putJob_live : (putJob i j s).liveJob i = some j := by
  rw [liveJob_set (s := s) (i := i) (x := .live j) rfl, if_pos rfl]
  rfl

theorem putJob_putJob (k : Job) : putJob i k (putJob i j s) = putJob i k s := by
  simp [putJob, State.mapJobs]

theorem notify_live {x : Subject} : (notify x s).liveJob i = s.liveJob i := rfl

theorem putJob_notify (x : Subject) : putJob i j (notify x s) = notify x (putJob i j s) := rfl

variable (live : s.liveJob i = some j)
include live

theorem setJob_put (f : Job → Job) : setJob i f s = putJob i (f j) s := by
  unfold setJob
  rw [live]
  rfl

theorem changeJob_put (f : Job → Job) : changeJob i f s = notify (.jobSlot i) (putJob i (f j) s) :=
  congrArg (notify (.jobSlot i)) (setJob_put live f)

end Put

/-! ### A change of job state (R65) -/

theorem JobState.keepsSwathTarget_iff {x : JobState} :
    x.keepsSwathTarget = true ↔ x = .printing ∨ x = .suspended ∨ x = .aborting := by
  cases x <;> simp [JobState.keepsSwathTarget]

/-- The swath target as a job in this state leaves it on its way out of the engine's part (R65). -/
def Feed.leaveEngine (x : JobState) (f : Feed) : Feed :=
  { f with swathTarget := if x = .printing ∨ x = .suspended ∨ x = .aborting then none else f.swathTarget }

theorem setJobState_put {i : JobIx} {j : Job} {s : State} {st : JobState} (live : s.liveJob i = some j)
    (out : st.keepsSwathTarget = false) :
    setJobState i st s = notify (.jobSlot i) (putJob i { j with state := st } (s.mapFeed (Feed.leaveEngine j.state))) := by
  have leaves : s.leavesEngine i st = j.state.keepsSwathTarget := by
    unfold State.leavesEngine
    rw [live, out]
    exact Bool.true_and _
  have target : (if s.leavesEngine i st then s.mapFeed fun f => { f with swathTarget := none } else s) =
      s.mapFeed (Feed.leaveEngine j.state) := by
    rw [leaves]
    unfold Feed.leaveEngine
    simp only [← JobState.keepsSwathTarget_iff]
    cases j.state.keepsSwathTarget <;> rfl
  unfold setJobState
  rw [target]
  exact changeJob_put (s := s.mapFeed (Feed.leaveEngine j.state)) live _

/-! ### Outcomes (R4, R30) -/

section Outcome
variable {i : JobIx} {j : Job} {s : State} {o : JobOutcome} {c : Option SpoilCause} (live : s.liveJob i = some j)
include live

theorem decideOutcome_decided (h : j.outcome.isSome = true) : decideOutcome i o c s = s := by
  unfold decideOutcome
  rw [live]
  exact if_pos h

variable (undecided : j.outcome = none)
include undecided

/-- A copy that is finished, or that has no number, gives none back. -/
theorem decideOutcome_record (h : o = .finished ∨ j.edition = none) :
    decideOutcome i o c s = notify (.jobSlot i) (putJob i { j with outcome := some o, cause := c } s) := by
  unfold decideOutcome
  rw [live]
  dsimp only
  rw [undecided, ← changeJob_put live fun j => { j with outcome := some o, cause := c }]
  rcases h with rfl | h
  · rfl
  · rw [h]
    cases o <;> rfl

/-- A spoiled or cancelled copy gives its number back at once (R30). -/
theorem decideOutcome_givesBack {x : JobEdition} (h : o ≠ .finished) (edition : j.edition = some x) :
    decideOutcome i o c s =
      (notify (.jobSlot i) (putJob i { j with outcome := some o, cause := c } s)).mapEd (Editions.giveBack x) := by
  unfold decideOutcome
  rw [live]
  dsimp only
  rw [undecided, ← changeJob_put live fun j => { j with outcome := some o, cause := c }, edition]
  cases o with
  | finished => exact absurd rfl h
  | spoiled => rfl
  | cancelled => rfl

end Outcome

/-! ### Departure and closing (R20 to R22) -/

section Closing
variable {i : JobIx} {j : Job} {s : State} (live : s.liveJob i = some j)
include live

theorem departIfReady_departs (h : j.state = .closing ∧ j.costIn = true ∧ j.commitOpen = false) :
    departIfReady i s = notify (.jobSlot i)
      ((s.mapJobs fun t =>
          { t with slots := t.slots.set i (.releasing { j with ink := [] } (s.cost.generation j.priceSlot)),
                   order := t.order.erase i }).mapCost (Cost.dropRef j.priceSlot)) := by
  unfold departIfReady
  rw [live]
  exact if_pos h

theorem departIfReady_stays (h : ¬ (j.state = .closing ∧ j.costIn = true ∧ j.commitOpen = false)) :
    departIfReady i s = s := by
  unfold departIfReady
  rw [live]
  exact if_neg h

/-- The entry to CLOSING: the state, the reservation, the wait for the spoil path and the holds (R21). -/
theorem closing_put :
    setJob i (fun j => { j with mediaRes := 0, spoilWait := false, holds := Holds.none }) (setJobState i .closing s) =
      notify (.jobSlot i)
        (putJob i { j with state := .closing, mediaRes := 0, spoilWait := false, holds := Holds.none }
          (s.mapFeed (Feed.leaveEngine j.state))) := by
  rw [setJobState_put live rfl, setJob_put (notify_live.trans putJob_live), putJob_notify, putJob_putJob]

end Closing

/-- The rest of a closing, from the state in which the copy has been committed (R20, R21). -/
theorem closeJob_eq {i : JobIx} {k : Job} {s v : State} (piece : Nat)
    (committed : v = commitCopy i (setJob i (fun j => { j with ink := releaseInk j.ink })
      (retryMedia (setJob i (fun j => { j with mediaRes := 0, spoilWait := false, holds := Holds.none })
        (setJobState i .closing s)))))
    (live : v.liveJob i = some k) :
    closeJob i piece s = startEval (departIfReady i (fileRecord i (costRecord v k piece) v)) := by
  unfold closeJob
  dsimp only
  rw [← committed, live]

/-! ### The commit of a finished copy (R31) -/

section Commit
variable {i : JobIx} {j : Job} {s : State} (live : s.liveJob i = some j)
include live

theorem commitCopy_none (h : j.edition = none ∨ j.outcome ≠ some .finished) : commitCopy i s = s := by
  unfold commitCopy
  rw [live]
  dsimp only
  split
  · next edition outcome => exact absurd h (by simp [edition, outcome])
  · rfl

variable {x : JobEdition} (edition : j.edition = some x) (finished : j.outcome = some .finished)
include edition finished

/-- In a READ_ONLY store the number becomes issued-unrecorded. -/
theorem commitCopy_readOnly (h : s.ed.store = .readOnly) :
    commitCopy i s = notify (.jobSlot i)
      (putJob i { j with flags := { j.flags with unrecorded := true } }
        ((s.mapEd (Editions.giveBack x)).mapEd fun d =>
          { d with unrec := modifyAt d.unrec x.slot (insertNum x.copy) })) := by
  rw [← changeJob_put (s := (s.mapEd (Editions.giveBack x)).mapEd _) live fun j =>
    { j with flags := { j.flags with unrecorded := true } }]
  unfold commitCopy
  rw [live]
  dsimp only
  rw [edition, finished]
  exact if_pos h

/-- Else the number is issued by an image change, and the job waits for its generation. -/
theorem commitCopy_issues (h : s.ed.store ≠ .readOnly) :
    commitCopy i s = beginRotation
      (putJob i { j with commitGen := some (s.ed.change[blockOf x.slot] + 1), commitOpen := true }
        ((s.mapEd (Editions.giveBack x)).mapEd fun d =>
          ({ d with image := modifyAt d.image x.slot fun m => { m with issued := insertNum x.copy m.issued } }).imageChange
            (blockOf x.slot))) := by
  have generation : (modifyAt s.ed.change (blockOf x.slot) (· + 1))[blockOf x.slot] = s.ed.change[blockOf x.slot] + 1 := by
    rw [getElem_modifyAt, if_pos rfl]
  rw [← generation, ← setJob_put (s := (s.mapEd (Editions.giveBack x)).mapEd _) live fun j =>
    { j with commitGen := some (modifyAt s.ed.change (blockOf x.slot) (· + 1))[blockOf x.slot], commitOpen := true }]
  unfold commitCopy
  rw [live]
  dsimp only
  rw [edition, finished]
  exact if_neg h

end Commit

theorem mem_insertNum {k m : Nat} : ∀ {xs : List Nat}, m ∈ insertNum k xs ↔ m = k ∨ m ∈ xs
  | [] => by simp [insertNum]
  | x :: xs => by
    unfold insertNum
    split
    · exact List.mem_cons
    · split
      · next e => subst e; simp
      · rw [List.mem_cons, mem_insertNum, List.mem_cons]
        exact or_left_comm

/-! ### An uncut job (R84) -/

/-- The piece of an uncut job ends at the fault's position, or without a fault record at the position (log 39). -/
theorem closeUncut_eq (i : JobIx) (s : State) :
    closeUncut i s = closeJob i ((((s.feed.fault.map (·.pos)).getD s.feed.position) - s.feed.roll.pieceBase.getD 0).toNat)
      (changeJob i (fun j => { j with flags := { j.flags with uncut := true } }) s) := rfl

/-- Settles O18: each operation by its equation, with the changed job put in its slot. -/
theorem outcomesAreDecidedOnceAndClosedJobsDepart : Obligations.OutcomesAreDecidedOnceAndClosedJobsDepart := by
  unfold Obligations.OutcomesAreDecidedOnceAndClosedJobsDepart
  refine ⟨fun i j o c s live => ⟨decideOutcome_decided live, decideOutcome_record live, fun x undecided o edition =>
      decideOutcome_givesBack live undecided o edition⟩,
    fun i j s live => ⟨fun closing cost commit => departIfReady_departs live ⟨closing, cost, commit⟩,
      departIfReady_stays live⟩,
    fun i j f s live => ⟨setJob_put live f, changeJob_put live f⟩, fun i j piece s u v live hu hv k committed => ?_,
    fun i j s live => ⟨commitCopy_none live, fun x b edition finished hb => ?_⟩, fun k m xs => mem_insertNum,
    fun i s t ht => ⟨fun x fault => ?_, fun fault => ?_⟩⟩
  · exact closeJob_eq piece (by rw [closing_put live, hv, hu]; rfl) committed
  · obtain rfl : b = blockOf x.slot := Fin.ext hb
    exact ⟨fun h => commitCopy_readOnly live edition finished h, fun h => commitCopy_issues live edition finished h⟩
  · rw [closeUncut_eq, fault, ht]
    rfl
  · rw [closeUncut_eq, fault, ht]
    rfl

end Sys2Proof.Machine
end

section
/-!
PROOFS. Feed faults and the spoil path by the states of job and axis (R13, R18, R19, R85). With it O55.
-/

-- One theorem after another: waiting proofs would each hold a thread.
set_option Elab.async false

namespace Sys2Proof.Machine

/-! ### Feed faults (R13, R18) -/

section FeedFault
variable {s : State} {i : JobIx} {j : Job}

theorem faultJob_waiting (h : j.spoilWait = true) : faultJob i j s = closeUncut i s := if_pos h

variable (h : j.spoilWait = false)
include h

theorem faultJob_starting (st : j.state = .printing) (pos : j.startPos = none) :
    faultJob i j s = if j.outcome.isSome then closeJob i 0 s else returnPending i s := by
  simp [faultJob, h, st, Job.starting_iff.2 ⟨st, pos⟩]

theorem faultJob_engaged (st : j.state = .suspended ∨ (j.state = .printing ∧ j.startPos.isSome = true)) :
    faultJob i j s = enterAborting i (decideOutcome i .spoiled (some .feedFault) s) := by
  rcases st with st | ⟨st, pos⟩
  · simp [faultJob, h, st]
  · simp [faultJob, h, st, Job.starting_false pos]

theorem faultJob_state :
    (j.state = .aborting → faultJob i j s = decideOutcome i .spoiled (some .feedFault) s) ∧
    (j.state = .checking → faultJob i j s =
      closeUncut i (decideOutcome i .spoiled (some .feedFault) (stopChecker s))) ∧
    (j.state = .cutting → faultJob i j s = closeUncut i (decideOutcome i .spoiled (some .feedFault) s)) ∧
    (j.state = .pending ∨ j.state = .closing → faultJob i j s = s) := by
  refine ⟨fun st => ?_, fun st => ?_, fun st => ?_, fun st => ?_⟩
  · simp [faultJob, h, st]
  · simp [faultJob, h, st]
  · simp [faultJob, h, st]
  · rcases st with st | st <;> simp [faultJob, h, st]

end FeedFault

/-! ### The spoil path (R19, R85) -/

section TakeSpoil
variable {s : State} {i : JobIx}

theorem takeSpoil_moving (h : s.feed.axis = .moving ∨ s.feed.axis = .reversing) :
    takeSpoil i s = setJob i (fun j => { j with spoilWait := true }) s := by
  unfold takeSpoil
  rcases h with h | h <;> rw [h]

theorem takeSpoil_idle (h : s.feed.axis = .idle) : takeSpoil i s = spoilCut i s := by
  unfold takeSpoil
  rw [h]

theorem takeSpoil_stopped
    (h : s.feed.axis = .fault ∨ s.feed.axis = .unreferenced ∨ s.feed.axis = .loading ∨ s.feed.axis = .knife) :
    takeSpoil i s = closeUncut i s := by
  unfold takeSpoil
  rcases h with h | h | h | h <;> rw [h]

end TakeSpoil

/-- The spoil cut becomes the plan of the job in CUTTING; a raised reservation is answered by the hold rule and a lowered
one by the retry (R85). -/
theorem spoilCut_eq {i : JobIx} {j k : Job} {s u : State} (live : s.liveJob i = some j) (plan : k = j.spoilPlan s.feed)
    (cutting : u = notify (.jobSlot i) (putJob i { k with state := .cutting } (s.mapFeed (Feed.leaveEngine j.state)))) :
    spoilCut i s = planCut i
      (if j.mediaRes < k.mediaRes then holdRule u else if k.mediaRes < j.mediaRes then retryMedia u else u) := by
  subst plan
  have planned : setJobState i .cutting (setJob i (fun j => j.spoilPlan s.feed) s) = u := by
    rw [cutting, setJob_put live, setJobState_put putJob_live rfl]
    exact congrArg (notify (.jobSlot i)) (putJob_putJob (s := s.mapFeed (Feed.leaveEngine j.state)) _)
  unfold spoilCut
  rw [live, ← planned]

/-- The spoil plan is one cut 10 mm behind the printed extent, rounded up to the mm, with its reservation (R19, R85). -/
theorem spoilPlan_eq {j : Job} {f : Feed} {start : Int} {off : Nat} (started : j.startPos = some start)
    (offset : off = ((f.position - start).toNat + 99) / 100 + 10) :
    j.spoilPlan f =
      { j with cuts := [off], cutsDone := 0, spoilWait := false, planned := off + f.profile.lead,
               mediaRes := off + f.profile.lead - j.drawn } := by
  subst offset
  unfold Job.spoilPlan
  rw [started]
  rfl

/-- Settles O55: a fault by the job's state, the spoil path by the axis, the spoil cut by `spoilCut_eq` and `spoilPlan_eq`. -/
theorem feedFaultsAndTheSpoilPathByState : Obligations.FeedFaultsAndTheSpoilPathByState := by
  unfold Obligations.FeedFaultsAndTheSpoilPathByState
  refine ⟨fun i j s => ⟨faultJob_waiting, fun h => ?_⟩, fun i s => ⟨takeSpoil_moving, fun st => takeSpoil_stopped (.inl st),
      fun st => takeSpoil_stopped (.inr st), takeSpoil_idle⟩,
    fun i j k s u live hk hu => ?_, fun j f start off started offset => ?_⟩
  · obtain ⟨aborting, checking, cutting, still⟩ := faultJob_state (i := i) (s := s) h
    refine ⟨fun st pos undecided => ?_, fun st pos decided => ?_, faultJob_engaged h, aborting, checking, cutting, still⟩
    · rw [faultJob_starting h st pos, undecided]
      rfl
    · rw [faultJob_starting h st pos, if_pos decided]
  · rw [spoilCut_eq live hk hu]
    refine ⟨fun raised => ?_, fun lowered => ?_, fun same => ?_⟩
    · rw [if_pos raised]
    · rw [if_neg (Nat.lt_asymm lowered), if_pos lowered]
    · rw [if_neg same.not_gt, if_neg same.not_lt]
  · rw [spoilPlan_eq started offset]
    exact ⟨rfl, rfl, rfl, rfl, rfl⟩

end Sys2Proof.Machine
end

section
/-!
PROOFS. The start of a job (R11 to R13, R162): who is tried, the starting phase, and the START step. With it O19.
-/

-- One theorem after another: waiting proofs would each hold a thread.
set_option Elab.async false

namespace Sys2Proof.Machine

/-! ### The START step (R12, R13) -/

theorem returnPending_put {i : JobIx} {j : Job} {s : State} (live : s.liveJob i = some j) :
    returnPending i s = holdRule
      (notify (.jobSlot i) (putJob i { j with state := .pending, mediaRes := j.planned, drawn := 0 } s)) :=
  congrArg holdRule (changeJob_put live _)

theorem startStep_notReady {i : JobIx} {j : Job} {s : State} (live : s.liveJob i = some j) (h : s.eng.state ≠ .ready) :
    startStep i s = returnPending i s := by
  unfold startStep
  rw [live]
  exact if_neg h

theorem startStep_ready {i : JobIx} {j : Job} {s : State} (live : s.liveJob i = some j) (h : s.eng.state = .ready) :
    startStep i s = sendEngine j.startMsg
      (((putJob i (j.started s.feed s.ink) s).mapFeed fun f => { f with swathTarget := some f.position }).mapEng fun e =>
        { e with ctx := some (PrintContext.atStart j.tag) }) := by
  rw [← setJob_put live fun j => j.started s.feed s.ink]
  unfold startStep
  rw [live]
  exact if_pos h

/-- START carries the marks and the strip order of the job's strip, none without one (R144, R194). -/
theorem startMsg_eq {j : Job} {marks : Nat} {strip : List Nat} (bare : j.strip = none → marks = 0 ∧ strip = [])
    (striped : ∀ x, j.strip = some x → marks = x.geo.m ∧ strip = x.geo.order) :
    j.startMsg = .start j.tag j.printLen marks strip := by
  unfold Job.startMsg
  cases h : j.strip with
  | none =>
    obtain ⟨rfl, rfl⟩ := bare h
    rfl
  | some x =>
    obtain ⟨rfl, rfl⟩ := striped x h
    rfl

/-- The START step fixes the start position, the lots, and the strip's marks and order. -/
theorem started_eq {j : Job} {f : Feed} {k : Ink} {marks : Nat} {strip : List Nat}
    (striped : ∀ x, j.strip = some x → marks = x.geo.m ∧ strip = x.geo.order) :
    j.started f k =
      { j with
        startPos := some f.position
        lots := some (j.est.map fun p => (p.1, (k.chans[p.1].cart).map (·.lot)))
        strip := j.strip.map fun x => { x with order := some strip, marks := some marks } } := by
  unfold Job.started
  cases h : j.strip with
  | none => rfl
  | some x =>
    obtain ⟨rfl, rfl⟩ := striped x h
    rfl

/-! ### The starting phase (R12) -/

/-- A refused move leaves the state. -/
theorem requestMove_refusal {target : Int} {r : Requester} {s t : State} (h : requestMove target r s = (t, .refused)) :
    t = s := by
  cases takes : s.feed.takesMove target r with
  | false => exact (congrArg Prod.fst ((requestMove_refused takes).symm.trans h)).symm
  | true =>
    have begun : (s.feed.beginMove target r).2 = .refused :=
      congrArg Prod.snd ((requestMove_taken takes).symm.trans h)
    unfold Feed.beginMove at begun
    split at begun
    · cases begun
    · split at begun <;> cases begun

/-- Without a cut behind it the job starts at once. -/
theorem startJob_uncut {i : JobIx} {j : Job} {s : State} (live : s.liveJob i = some j)
    (h : ∀ p, s.feed.roll.lastEvent ≠ .cut p) :
    startJob i s = startStep i (notify (.jobSlot i) (putJob i { j with state := .printing, drawn := 0 } s)) := by
  rw [← changeJob_put live fun j => { j with state := .printing, drawn := 0 }]
  unfold startJob
  dsimp only
  rw [changeJob_feed]
  split
  · next p cut => exact absurd cut (h p)
  · rfl

/-- After a cut the media is fed back first; the job starts where that move is done at once. -/
theorem startJob_cut {i : JobIx} {j : Job} {s t : State} {p : Int} {m : MoveStart} (live : s.liveJob i = some j)
    (h : s.feed.roll.lastEvent = .cut p)
    (move : requestMove (s.feed.backFeedTarget p) .backFeed
      (notify (.jobSlot i) (putJob i { j with state := .printing, drawn := 0 } s)) = (t, m)) :
    startJob i s = if m = .done then startStep i t else t := by
  rw [← changeJob_put live fun j => { j with state := .printing, drawn := 0 }] at move
  unfold startJob
  dsimp only
  rw [changeJob_feed, h]
  dsimp only
  rw [move]
  cases m <;> rfl

/-! ### Who starts (R11, R162) -/

theorem State.mayStart_iff {s : State} :
    s.mayStart = true ↔
      s.pathFree = true ∧ s.feed.axis = .idle ∧ s.feed.roll.state = .loaded ∧ s.eng.state = .ready := by
  simp only [State.mayStart, Bool.and_eq_true, beq_iff_eq, and_assoc]

theorem State.jobOut_iff {s : State} {j : Job} : s.jobOut j = true ↔ ∃ p ∈ j.est, s.drift.states[p.1] = .out := by
  simp only [State.jobOut, List.any_eq_true, decide_eq_true_eq]

/-- No channel of a CRITICAL job's estimate is OUT. -/
theorem State.jobOut_clear {s : State} {j : Job} (h : j.mode = .critical → ∀ p ∈ j.est, s.drift.states[p.1] ≠ .out) :
    ¬ (j.mode = .critical ∧ s.jobOut j = true) := fun ⟨mode, out⟩ => by
  obtain ⟨p, mem, isOut⟩ := State.jobOut_iff.1 out
  exact h mode p mem isOut

/-- A job that is not PENDING with an empty hold set is passed over, as every job is while the path is taken. -/
theorem tryStart_passes {s : State} {i : JobIx}
    (h : ∀ j, s.liveJob i = some j → ¬ (s.pathFree = true ∧ j.state = .pending ∧ j.holds.isEmpty = true)) :
    tryStart s i = s := by
  unfold tryStart
  split
  · next j live => exact if_neg (h j live)
  · rfl

section TryStart
variable {s : State} {i : JobIx} {j : Job} (live : s.liveJob i = some j) (free : s.pathFree = true)
  (pending : j.state = .pending) (unheld : j.holds.isEmpty = true)
include live free pending unheld

theorem tryStart_starts (h : ¬ (j.mode = .critical ∧ s.jobOut j = true)) : tryStart s i = startJob i s := by
  unfold tryStart
  rw [live]
  exact (if_pos ⟨free, pending, unheld⟩).trans (if_neg h)

theorem tryStart_holds (h : j.mode = .critical ∧ s.jobOut j = true) :
    tryStart s i =
      notify (.jobSlot i) (putJob i { j with holds := { j.holds with colourOut := true } } s) := by
  rw [← changeJob_put live fun j => { j with holds := { j.holds with colourOut := true } }]
  unfold tryStart
  rw [live]
  exact (if_pos ⟨free, pending, unheld⟩).trans (if_pos h)

end TryStart

theorem tryStarts_pass {s : State} : ∀ {xs : List JobIx},
    (∀ i ∈ xs, ∀ j, s.liveJob i = some j → ¬ (s.pathFree = true ∧ j.state = .pending ∧ j.holds.isEmpty = true)) →
      xs.foldl tryStart s = s
  | [], _ => rfl
  | i :: xs, h => by
    rw [List.foldl_cons, tryStart_passes (h i (List.mem_cons_self ..))]
    exact tryStarts_pass fun k hk => h k (List.mem_cons_of_mem i hk)

/-- While the media path is taken nobody else starts. -/
theorem tryStarts_taken {s : State} (xs : List JobIx) (h : s.pathFree = false) : xs.foldl tryStart s = s :=
  tryStarts_pass fun _ _ _ _ ok => absurd ok.1 (by rw [h]; exact Bool.false_ne_true)

/-! ### The chosen job is on the media path (R11) -/

/-- A job of the queue order on the media path takes it. -/
theorem State.pathFree_false {s : State} {i : JobIx} {j : Job} (mem : i ∈ s.jobs.order) (live : s.liveJob i = some j)
    (on : j.state.onPath = true) : s.pathFree = false := by
  have inJobs : (i, j) ∈ s.liveJobs := List.mem_filterMap.2 ⟨i, mem, by rw [live]; rfl⟩
  have found : s.pathJob.isSome = true := List.find?_isSome.2 ⟨(i, j), inJobs, on⟩
  unfold State.pathFree
  rw [Option.isNone_eq_false_iff]
  exact found

/-- The START step of a job in its starting phase leaves it on the media path while the engine is READY. -/
theorem startStep_taken {i : JobIx} {j : Job} {s : State} (mem : i ∈ s.jobs.order) (live : s.liveJob i = some j)
    (st : j.state = .printing) (ready : s.eng.state = .ready) : (startStep i s).pathFree = false := by
  rw [startStep_ready live ready]
  refine State.pathFree_false (i := i) (j := j.started s.feed s.ink) mem putJob_live ?_
  change j.state.onPath = true
  rw [st]
  rfl

/-- A move changes nothing but the feed axis. -/
theorem requestMove_mapFeed {target : Int} {r : Requester} {s t : State} {m : MoveStart}
    (h : requestMove target r s = (t, m)) : ∃ f, t = s.mapFeed f := by
  obtain ⟨f, e, -⟩ := requestMove_only h
  exact ⟨f, e⟩

/-- The chosen job takes the media path. -/
theorem startJob_taken {i : JobIx} {j : Job} {s : State} (mem : i ∈ s.jobs.order) (live : s.liveJob i = some j)
    (ready : s.eng.state = .ready) : (startJob i s).pathFree = false := by
  have printing : ∀ f : Feed → Feed,
      ((notify (.jobSlot i) (putJob i { j with state := .printing, drawn := 0 } s)).mapFeed f).liveJob i =
        some { j with state := .printing, drawn := 0 } := fun _ => putJob_live
  by_cases cut : ∃ p, s.feed.roll.lastEvent = .cut p
  · obtain ⟨p, cut⟩ := cut
    obtain ⟨⟨t, m⟩, move⟩ : ∃ x, requestMove (s.feed.backFeedTarget p) .backFeed
      (notify (.jobSlot i) (putJob i { j with state := .printing, drawn := 0 } s)) = x := ⟨_, rfl⟩
    obtain ⟨f, rfl⟩ := requestMove_mapFeed move
    rw [startJob_cut live cut move]
    split
    · exact startStep_taken mem (printing f) rfl ready
    · exact State.pathFree_false mem (printing f) rfl
  · rw [startJob_uncut live fun p h => cut ⟨p, h⟩]
    exact startStep_taken mem (printing id) rfl ready

/-- The jobs before the first eligible one are passed over, and it is tried (R11). -/
theorem startEval_first {s : State} {before after : List JobIx} {i : JobIx} (may : s.mayStart = true)
    (order : s.jobs.order = before ++ i :: after)
    (passed : ∀ k ∈ before, ∀ x, s.liveJob k = some x → ¬ (x.state = .pending ∧ x.holds.isEmpty = true)) :
    startEval s = after.foldl tryStart (tryStart s i) := by
  unfold startEval
  rw [if_pos may, order, List.foldl_append, List.foldl_cons,
    tryStarts_pass fun k hk x hx ok => passed k hk x hx ok.2]

/-- Settles O19: the jobs before the first eligible one are passed over, and once it has started the media path is taken, so
that those behind it are passed over too (`startJob_taken`). -/
theorem firstEligibleJobStarts : Obligations.FirstEligibleJobStarts := by
  unfold Obligations.FirstEligibleJobStarts
  refine ⟨fun s => ⟨fun h => if_neg (State.mayStart_iff.not.2 h),
      fun before i j after free idle loaded ready order live passed pending unheld => ?_⟩,
    fun i j s live => ⟨fun h => tryStart_passes fun k hk ok => ?_, fun free pending unheld =>
      ⟨fun critical out => tryStart_holds live free pending unheld ⟨critical, State.jobOut_iff.2 out⟩,
        fun clear => tryStart_starts live free pending unheld (State.jobOut_clear clear)⟩⟩,
    fun i j s u live hu => ⟨fun uncut => ?_, fun p target t cut ht => ?_⟩,
    fun i j marks strip s live bare striped => ⟨fun ready => ?_, fun notReady => ?_, returnPending_put live⟩⟩
  · have first := startEval_first (State.mayStart_iff.2 ⟨free, idle, loaded, ready⟩) order passed
    refine ⟨fun clear => ?_, fun critical out => ?_⟩
    · have mem : i ∈ s.jobs.order := by rw [order]; simp
      rw [first, tryStart_starts live free pending unheld (State.jobOut_clear clear)]
      exact tryStarts_taken after (startJob_taken mem live ready)
    · rw [first, tryStart_holds live free pending unheld ⟨critical, State.jobOut_iff.2 out⟩]
      rfl
  · obtain rfl := Option.some.inj (live.symm.trans hk)
    obtain ⟨free, pending, unheld⟩ := ok
    rcases h with h | h | h
    · exact absurd free (by rw [h]; exact Bool.false_ne_true)
    · exact h pending
    · exact absurd unheld (by rw [h]; exact Bool.false_ne_true)
  · rw [hu]
    exact startJob_uncut live uncut
  · subst ht
    subst hu
    refine ⟨fun move => ?_, fun move => ?_, fun move => ?_⟩
    · exact startJob_cut live cut move
    · exact startJob_cut live cut move
    · exact (startJob_cut live cut move).trans (requestMove_refusal move)
  · rw [startStep_ready live ready, startMsg_eq bare striped, started_eq striped]
    rfl
  · rw [startStep_notReady live notReady]
    exact returnPending_put live

end Sys2Proof.Machine
end

section
/-!
PROOFS. The law of the edition store along a step (R39, R40, R46), and the requests that change a slot (R33 to R35): one
equation of the owner for each answer. With it O59, O20 and O21.
-/

-- One theorem after another: waiting proofs would each hold a thread.
set_option Elab.async false

namespace Sys2Proof.Machine

/-- Settles O59: every command keeps the store's law, and so does the passing of a millisecond (`step_lawful`). -/
theorem stepKeepsTheStoreLaw : Obligations.StepKeepsTheStoreLaw := by
  unfold Obligations.StepKeepsTheStoreLaw
  intro s t h
  obtain ⟨-, -, -, store, -⟩ := step_lawful h
  exact store

/-! ### OPEN_EDITION (R33) -/

/-- The first index of a property is found in the list of all indices. -/
theorem find_finRange_lowest {n : Nat} {p : Fin n → Bool} {e : Fin n} (h : p e = true) (low : ∀ x < e, p x = false) :
    (List.finRange n).find? p = some e :=
  List.find?_eq_some_iff_getElem.2 ⟨h, e, by simp, by simp, fun j hj => by simp [low ⟨j, hj.trans e.isLt⟩ hj]⟩

section Open
variable {id : U32} {limit : U16} {s : State}

theorem openOwner_store (h : s.ed.store ≠ .ready) : openOwner id limit s = (s, [0x28]) := if_pos h

variable (ready : s.ed.store = .ready)
include ready

theorem openOwner_range (h : id = 0 ∨ limit.toNat = 0 ∨ 999 < limit.toNat) : openOwner id limit s = (s, [0x21]) := by
  unfold openOwner
  rw [if_neg (not_not.2 ready)]
  exact if_pos (h.imp_right (Or.imp_left fun e => by omega))

variable (named : id ≠ 0) (low : 1 ≤ limit.toNat) (high : limit.toNat ≤ 999)
include named low high

/-- An id of a standing edition, or one whose removal still waits to persist, is taken. -/
theorem openOwner_duplicate (taken : (s.ed.slotOf id.toNat).isSome = true ∨ ∃ r ∈ s.ed.removals, r.id = id.toNat) :
    openOwner id limit s = (s, [0x22]) := by
  unfold openOwner
  rw [if_neg (not_not.2 ready), if_neg fun h => h.elim named (by omega)]
  exact if_pos (taken.imp_right fun h => by simpa using h)

variable (new : s.ed.slotOf id.toNat = none) (gone : ∀ r ∈ s.ed.removals, r.id ≠ id.toNat)
include new gone

theorem openOwner_full (full : ∀ e : EdIx, s.ed.image[e].state ≠ .empty) : openOwner id limit s = (s, [0x23]) := by
  have none_ : (List.finRange 64).find? (fun e => decide (s.ed.image[e].state = .empty)) = none :=
    List.find?_eq_none.2 fun e _ => by simpa using full e
  unfold openOwner
  rw [if_neg (not_not.2 ready), if_neg fun h => h.elim named (by omega), if_neg (by simpa [new] using gone), none_]
  rfl

theorem openOwner_lowest {e : EdIx} (empty : s.ed.image[e].state = .empty)
    (first : ∀ x : EdIx, x < e → s.ed.image[x].state ≠ .empty) {t : State}
    (ht : t = changeSlot e (fun _ => { state := .opened, id := id.toNat, limit := limit.toNat, issued := [] }) s) :
    openOwner id limit s = (t, 0x00 :: editionChanged t.ed e) := by
  have lowest : (List.finRange 64).find? (fun e => decide (s.ed.image[e].state = .empty)) = some e :=
    find_finRange_lowest (decide_eq_true empty) fun x hx => decide_eq_false (first x hx)
  unfold openOwner
  rw [if_neg (not_not.2 ready), if_neg fun h => h.elim named (by omega), if_neg (by simpa [new] using gone), lowest, ht]
  rfl

end Open

/-- Settles O20: the owner's equation for each check, and the first EMPTY slot as the lowest. -/
theorem openEditionTakesTheLowestEmptySlot : Obligations.OpenEditionTakesTheLowestEmptySlot := by
  unfold Obligations.OpenEditionTakesTheLowestEmptySlot
  intro ft id limit s free
  have reply : ∀ {t answer}, openOwner id limit s = (t, answer) →
      exec (.openEdition ft id limit) s = .next (answered 0xA0 ft answer t) := fun owner =>
    exec_reply free rfl owner rfl
  exact ⟨fun h => reply (openOwner_store h), fun ready =>
    ⟨fun h => reply (openOwner_range ready h), fun named low high =>
      ⟨fun taken => reply (openOwner_duplicate ready named low high taken), fun new gone =>
        ⟨fun full => reply (openOwner_full ready named low high new gone full), fun e empty first =>
          ⟨_, rfl, reply (openOwner_lowest ready named low high new gone empty first rfl)⟩⟩⟩⟩⟩

/-! ### CLOSE_EDITION and REMOVE_EDITION (R34, R35) -/

/-- A selector names a slot by its number with id 0, and by its id else. -/
theorem selectSlot_names {d : Editions} {id : U32} {slot : Byte} {e : EdIx}
    (h : (id = 0 ∧ slot.toNat = e.val) ∨ (id ≠ 0 ∧ d.slotOf id.toNat = some e)) : selectSlot d id slot = .ok e := by
  rcases h with ⟨rfl, number⟩ | ⟨named, held⟩
  · obtain rfl : slot = BitVec.ofNat 8 e := by rw [← number, BitVec.ofNat_toNat, BitVec.setWidth_eq]
    exact selectSlot_slot d e
  · exact selectSlot_id slot named held

section CloseRemove
variable {id : U32} {slot : Byte} {s : State}

theorem closeOwner_store (h : s.ed.store ≠ .ready) : closeOwner id slot s = (s, [0x28]) := if_pos h

theorem removeOwner_store (h : s.ed.store ≠ .ready) : removeOwner id slot s = (s, [0x28]) := if_pos h

variable (ready : s.ed.store = .ready)
include ready

theorem closeOwner_refused {b : Byte} (sel : selectSlot s.ed id slot = .error b) : closeOwner id slot s = (s, [b]) := by
  unfold closeOwner
  rw [if_neg (not_not.2 ready), sel]
  rfl

theorem removeOwner_refused {b : Byte} (sel : selectSlot s.ed id slot = .error b) :
    removeOwner id slot s = (s, [b]) := by
  unfold removeOwner
  rw [if_neg (not_not.2 ready), sel]
  rfl

variable {e : EdIx} (sel : selectSlot s.ed id slot = .ok e)
include sel

theorem closeOwner_notOpen (h : s.ed.image[e].state ≠ .opened) : closeOwner id slot s = (s, [0x20]) := by
  unfold closeOwner
  rw [if_neg (not_not.2 ready), sel]
  exact if_neg h

theorem closeOwner_open (h : s.ed.image[e].state = .opened) {t : State}
    (ht : t = changeSlot e (fun m => { m with state := .closed }) s) :
    closeOwner id slot s = (t, 0x00 :: editionChanged t.ed e) := by
  subst ht
  unfold closeOwner
  rw [if_neg (not_not.2 ready), sel]
  exact if_pos h

/-- An OPEN or EMPTY slot, and one whose numbers are reserved, is not removed. -/
theorem removeOwner_kept
    (h : s.ed.image[e].state = .opened ∨ s.ed.image[e].state = .empty ∨ s.ed.resv[e] ≠ []) :
    removeOwner id slot s = (s, [0x20]) := by
  unfold removeOwner
  rw [if_neg (not_not.2 ready), sel]
  refine if_neg ?_
  rintro ⟨state, unreserved⟩
  rcases h with h | h | h
  · exact absurd state (by rw [h]; decide)
  · exact absurd state (by rw [h]; decide)
  · exact h unreserved

theorem removeOwner_removes (h : s.ed.image[e].state = .closed ∨ s.ed.image[e].state = .lost)
    (unreserved : s.ed.resv[e] = []) {t : State} (ht : t = changeSlot e (fun _ => EdImage.emptySlot)
      (s.mapEd fun d => { d with unrec := d.unrec.set e [], removals := d.removals ++ d.removing e })) :
    removeOwner id slot s = (t, 0x00 :: editionChanged t.ed e) := by
  subst ht
  unfold removeOwner
  rw [if_neg (not_not.2 ready), sel]
  exact if_pos ⟨h, unreserved⟩

end CloseRemove

/-- The removal of a CLOSED slot joins the kept ones; a LOST slot adds none (R35). -/
theorem Editions.append_removing (d : Editions) (e : EdIx) :
    d.removals ++ d.removing e =
      if d.image[e].state = .closed then
        d.removals ++ [{ id := d.image[e].id, block := blockOf e, gen := d.change[blockOf e] + 1 }]
      else d.removals := by
  unfold Editions.removing
  split
  · rfl
  · exact List.append_nil _

/-- Settles O21: the selector first (`selectSlot_names`), then the owner's equation for the selected slot's state. -/
theorem closeAndRemoveChangeTheSelectedSlot : Obligations.CloseAndRemoveChangeTheSelectedSlot := by
  unfold Obligations.CloseAndRemoveChangeTheSelectedSlot
  intro ft slot id e s free
  have close : ∀ {t answer}, closeOwner id slot s = (t, answer) →
      exec (.closeEdition ft id slot) s = .next (answered 0xA1 ft answer t) := fun owner =>
    exec_reply free rfl owner rfl
  have remove : ∀ {t answer}, removeOwner id slot s = (t, answer) →
      exec (.removeEdition ft id slot) s = .next (answered 0xA2 ft answer t) := fun owner =>
    exec_reply free rfl owner rfl
  refine ⟨fun h => ⟨close (closeOwner_store h), remove (removeOwner_store h)⟩, fun ready =>
    ⟨fun unnamed out => ?_, fun named unknown => ?_, fun selected => ?_⟩⟩
  · subst unnamed
    have sel := selectSlot_outOfRange s.ed out
    exact ⟨close (closeOwner_refused ready sel), remove (removeOwner_refused ready sel)⟩
  · have sel := selectSlot_unknown slot named unknown
    exact ⟨close (closeOwner_refused ready sel), remove (removeOwner_refused ready sel)⟩
  · have sel := selectSlot_names selected
    refine ⟨fun h => close (closeOwner_notOpen ready sel h), fun h => ⟨_, rfl, close (closeOwner_open ready sel h rfl)⟩,
      fun h => remove (removeOwner_kept ready sel h), fun h unreserved =>
      ⟨_, rfl, remove (removeOwner_removes ready sel h unreserved ?_)⟩⟩
    simp only [Editions.append_removing]
    rfl

end Sys2Proof.Machine
end

section
/-!
PROOFS. Image changes, the beginning of a rotation, and the failure of the store with its open commits (R32, R39 to R44,
R175). With it O22.
-/

-- One theorem after another: waiting proofs would each hold a thread.
set_option Elab.async false

namespace Sys2Proof.Machine

/-! ### The choice of a spare (R41) -/

theorem Role.isSpare_iff {r : Role} : r.isSpare = true ↔ r = .spare := by cases r <;> simp [Role.isSpare]

theorem lowestSpare_mem {d : Editions} : ∀ {ps : List PBlock} {p : PBlock}, lowestSpare d ps = some p → p ∈ ps
  | q :: qs, p, h => by
    unfold lowestSpare at h
    split at h
    · next r hr =>
      split at h
      · exact Option.some.inj h ▸ List.mem_cons_of_mem q (lowestSpare_mem hr)
      · exact Option.some.inj h ▸ List.mem_cons_self
    · exact Option.some.inj h ▸ List.mem_cons_self

/-- A block that no block of an ascending list beats, in its erases and then in its number, is the one chosen of it. -/
theorem lowestSpare_least {d : Editions} : ∀ {ps : List PBlock} {p : PBlock}, ps.Pairwise (· < ·) → p ∈ ps →
    (∀ q ∈ ps, d.table[p].erases ≤ d.table[q].erases ∧ (d.table[q].erases = d.table[p].erases → p ≤ q)) →
    lowestSpare d ps = some p
  | q :: qs, p, ascending, mem, least => by
    obtain ⟨below, rest⟩ := List.pairwise_cons.1 ascending
    rcases List.mem_cons.1 mem with rfl | later
    · unfold lowestSpare
      split
      · next r hr =>
        have := (least r (List.mem_cons_of_mem _ (lowestSpare_mem hr))).1
        exact if_neg (Nat.not_lt.2 this)
      · rfl
    · have ih := lowestSpare_least rest later fun r hr => least r (List.mem_cons_of_mem q hr)
      obtain ⟨le, tie⟩ := least q List.mem_cons_self
      have fewer : d.table[p].erases < d.table[q].erases :=
        lt_of_le_of_ne le fun same => absurd (tie same.symm) (not_le.2 (below p later))
      unfold lowestSpare
      rw [ih]
      exact if_pos fewer

theorem Editions.mem_spares {d : Editions} {p : PBlock} :
    p ∈ d.blocksWhere Role.isSpare ↔ d.table[p].role = .spare := by
  simp [Editions.blocksWhere, Role.isSpare_iff]

theorem Editions.chooseSpare_least {d : Editions} {p : PBlock} (spare : d.table[p].role = .spare)
    (least : ∀ q : PBlock, d.table[q].role = .spare →
      d.table[p].erases ≤ d.table[q].erases ∧ (d.table[q].erases = d.table[p].erases → p ≤ q)) :
    d.chooseSpare = some p :=
  lowestSpare_least ((List.pairwise_lt_finRange 6).filter _) (Editions.mem_spares.2 spare) fun q hq =>
    least q (Editions.mem_spares.1 hq)

/-- A spare is chosen exactly where there is one. -/
theorem Editions.chooseSpare_isSome {d : Editions} :
    d.chooseSpare.isSome = true ↔ ∃ p : PBlock, d.table[p].role = .spare := by
  refine ⟨fun h => ?_, fun ⟨p, spare⟩ => ?_⟩
  · obtain ⟨p, hp⟩ := Option.isSome_iff_exists.1 h
    exact ⟨p, Editions.mem_spares.1 (lowestSpare_mem hp)⟩
  · unfold Editions.chooseSpare
    cases list : d.blocksWhere Role.isSpare with
    | nil => exact absurd (Editions.mem_spares.2 spare) (by simp [list])
    | cons q qs =>
      unfold lowestSpare
      split
      · split <;> rfl
      · rfl

theorem Editions.chooseSpare_none {d : Editions} (h : ∀ p : PBlock, d.table[p].role ≠ .spare) : d.chooseSpare = none :=
  Option.not_isSome_iff_eq_none.1 fun some_ => by
    obtain ⟨p, spare⟩ := Editions.chooseSpare_isSome.1 some_
    exact h p spare

/-! ### The beginning of a rotation (R41, R42) -/

/-- The store may rotate when READY or during a format. -/
theorem Editions.mayRotate_iff {d : Editions} : d.mayRotate = true ↔ d.store = .ready ∨ d.formatting = true := by
  simp [Editions.mayRotate]

theorem beginRotation_idle {s : State}
    (h : s.ed.rot.isSome = true ∨ s.ed.writes = [] ∨ (s.ed.store ≠ .ready ∧ s.ed.formatting = false)) :
    beginRotation s = s := by
  unfold beginRotation
  split
  · next may =>
    obtain ⟨may, free⟩ := may
    rcases h with h | h | ⟨unready, unformatted⟩
    · simp [free] at h
    · rw [h]
    · rcases Editions.mayRotate_iff.1 may with h | h
      · exact absurd h unready
      · simp [unformatted] at h
  · rfl

/-- The oldest pending write is taken with its images and its change generation. -/
theorem beginRotation_takes {s : State} {b : LBlock} {rest : List LBlock}
    (may : s.ed.store = .ready ∨ s.ed.formatting = true) (free : s.ed.rot = none) (waiting : s.ed.writes = b :: rest) :
    beginRotation s =
      beginWrite b (s.ed.blockImages b) s.ed.change[b] (s.mapEd fun d => { d with writes := rest }) := by
  unfold beginRotation
  rw [if_pos ⟨Editions.mayRotate_iff.2 may, free⟩, waiting]

section Write
variable {b : LBlock} {images : Vector EdImage 16} {gen : Nat} {s : State}

theorem beginWrite_noSpare (h : ∀ p : PBlock, s.ed.table[p].role ≠ .spare) :
    beginWrite b images gen s = storeFail s := by
  unfold beginWrite
  rw [Editions.chooseSpare_none h]

theorem beginWrite_spare {p : PBlock} (h : s.ed.chooseSpare = some p) :
    beginWrite b images gen s = s.mapEd fun d =>
      { d with
        table := d.table.set p { d.table[p] with erases := d.table[p].erases + 1, mark := .blank }
        flash := d.flash.set p FlashBlock.erased
        rot := some { block := b, phys := p, images := images, gen := gen, phase := .erasing, left := 20 } } := by
  unfold beginWrite
  rw [h]
  rfl

end Write

/-! ### The failure of a commit (R32, R44, R175) -/

section WaitsCommit
variable {s : State} {i : JobIx} {p : LBlock → Nat → Bool} {j : Job} (live : s.liveJob i = some j)
include live

/-- A CLOSING job with an open commit that is judged so waits for it. -/
theorem State.waitsCommit_waits {e : JobEdition} {g : Nat} (closing : j.state = .closing) (isOpen : j.commitOpen = true)
    (edition : j.edition = some e) (commit : j.commitGen = some g) (judged : p (blockOf e.slot) g = true) :
    s.waitsCommit i p = some j := by
  unfold State.waitsCommit
  rw [live]
  dsimp only [Option.bind_some]
  rw [edition, commit]
  exact if_pos ⟨closing, isOpen, judged⟩

/-- No other job waits. -/
theorem State.waitsCommit_none
    (h : j.state ≠ .closing ∨ j.commitOpen = false ∨ j.edition = none ∨ j.commitGen = none ∨
      ∃ e g, j.edition = some e ∧ j.commitGen = some g ∧ p (blockOf e.slot) g = false) :
    s.waitsCommit i p = none := by
  by_contra some_
  obtain ⟨k, hk⟩ := Option.ne_none_iff_exists'.1 some_
  obtain ⟨hj, closing, isOpen, e, g, edition, commit, judged⟩ := State.waitsCommit_some hk
  obtain rfl := Option.some.inj (live.symm.trans hj)
  rcases h with h | h | h | h | ⟨e', g', edition', commit', unjudged⟩
  · exact h closing
  · simp [h] at isOpen
  · simp [h] at edition
  · simp [h] at commit
  · obtain rfl := Option.some.inj (edition.symm.trans edition')
    obtain rfl := Option.some.inj (commit.symm.trans commit')
    simp [unjudged] at judged

end WaitsCommit

/-- Where the edition still stands, the number of a failed commit moves to its issued-unrecorded set (R32). -/
theorem Editions.unrecord_eq {d u : Editions} {id copy : Nat} (gone : d.slotOf id = none → u = d)
    (stands : ∀ x, d.slotOf id = some x → u =
      { d with
        image := d.image.set x { d.image[x] with issued := d.image[x].issued.erase copy }
        unrec := d.unrec.set x (insertNum copy d.unrec[x]) }) : d.unrecord id copy = u := by
  unfold Editions.unrecord
  cases slot : d.slotOf id with
  | none => exact (gone slot).symm
  | some x => exact (stands x slot).symm

section FailCommit
variable {s : State} {i : JobIx} {j : Job} (live : s.liveJob i = some j)
include live

/-- A job that waits for no commit, or whose generation is persisted, is passed over. -/
theorem failCommit_passes
    (h : j.state ≠ .closing ∨ j.commitOpen = false ∨ j.edition = none ∨ j.commitGen = none ∨
      ∃ e g, j.edition = some e ∧ j.commitGen = some g ∧ g ≤ s.ed.persisted[blockOf e.slot]) :
    failCommit s i = s := by
  unfold failCommit
  rw [State.waitsCommit_none live (h.imp_right <| .imp_right <| .imp_right <| .imp_right
    fun ⟨e, g, edition, commit, le⟩ => ⟨e, g, edition, commit, decide_eq_false (Nat.not_lt.2 le)⟩)]

theorem failCommit_fails {e : JobEdition} {g : Nat} {d : Editions} (closing : j.state = .closing)
    (isOpen : j.commitOpen = true) (edition : j.edition = some e) (commit : j.commitGen = some g)
    (late : s.ed.persisted[blockOf e.slot] < g) (unrecorded : s.ed.unrecord e.id e.copy = d) :
    failCommit s i = departIfReady i (notify (.jobSlot i)
      (putJob i { j with commitOpen := false, flags := { j.flags with unrecorded := true } }
        ((s.mapEd fun _ => d).mapCost (markUnrecorded j)))) := by
  subst unrecorded
  rw [← changeJob_put (s := (s.mapEd fun _ => s.ed.unrecord e.id e.copy).mapCost _) live fun j =>
    { j with commitOpen := false, flags := { j.flags with unrecorded := true } }]
  unfold failCommit
  rw [State.waitsCommit_waits live closing isOpen edition commit (decide_eq_true late)]
  dsimp only
  rw [edition]
  rfl

end FailCommit

/-- The record of a failed commit's job is marked where it is held, in the pending list or in the log (R175). -/
theorem markUnrecorded_pending {j : Job} {k : Cost} (h : j.flags.costPending = true) :
    markUnrecorded j k = { k with waiting := markLast j.tag k.waiting } := if_pos h

theorem markUnrecorded_logged {j : Job} {k : Cost} (h : j.flags.costPending = false) (logged : j.costIn = true) :
    markUnrecorded j k = { k with log := markLast j.tag k.log } := by
  unfold markUnrecorded
  rw [if_neg (by simp [h]), if_pos logged]

theorem markUnrecorded_unbuilt {j : Job} {k : Cost} (h : j.flags.costPending = false) (logged : j.costIn = false) :
    markUnrecorded j k = k := by
  unfold markUnrecorded
  rw [if_neg (by simp [h]), if_neg (by simp [logged])]

/-- A record with UNRECORDED set. -/
def CostRecord.marked (r : CostRecord) : CostRecord := { r with flags := { r.flags with unrecorded := true } }

/-- Where the search from the end has passed `k` records, the record before them is the marked one. -/
theorem markLast_eq {tag k : Nat} {rs : List CostRecord}
    (passed : (rs.reverse.takeWhile fun r => r.tag != tag).length = k) :
    markLast tag rs = rs.zipIdx.map fun p => if p.2 + k + 1 = rs.length then p.1.marked else p.1 := by
  subst passed
  rfl

/-- Records that do not stand at the marked place stay as they are. -/
theorem map_marked_others {k total m : Nat} {rs : List CostRecord} (h : ∀ n < rs.length, m + n + k + 1 ≠ total) :
    (rs.zipIdx m).map (fun p => if p.2 + k + 1 = total then p.1.marked else p.1) = rs := by
  refine List.ext_getElem (by simp) fun n _ hn => ?_
  rw [List.getElem_map, List.getElem_zipIdx]
  exact if_neg (h n hn)

theorem markLast_none {tag : Nat} {after : List CostRecord} (others : ∀ x ∈ after, x.tag ≠ tag) :
    markLast tag after = after := by
  have passed : after.reverse.takeWhile (fun r => r.tag != tag) = after.reverse :=
    List.takeWhile_eq_self_iff.2 (by simpa using others)
  rw [markLast_eq (by rw [passed, List.length_reverse])]
  exact map_marked_others fun n _ => by omega

/-- The search from the end stops at the last record with the tag. -/
theorem markLast_last {tag : Nat} {before after : List CostRecord} {r : CostRecord} (others : ∀ x ∈ after, x.tag ≠ tag)
    (last : r.tag = tag) : markLast tag (before ++ r :: after) = before ++ r.marked :: after := by
  have passed : ((before ++ r :: after).reverse.takeWhile fun r => r.tag != tag) = after.reverse := by
    rw [List.reverse_append, List.reverse_cons, List.append_assoc,
      List.takeWhile_append_of_pos (by simpa using others), List.singleton_append,
      List.takeWhile_cons_of_neg (by simp [last]), List.append_nil]
  have earlier : ∀ n < before.length, 0 + n + after.length + 1 ≠ before.length + (after.length + 1) :=
    fun n _ => by omega
  have later : ∀ n < after.length,
      0 + before.length + 1 + n + after.length + 1 ≠ before.length + (after.length + 1) := fun n _ => by omega
  rw [markLast_eq (by rw [passed, List.length_reverse]), List.zipIdx_append, List.map_append, List.zipIdx_cons,
    List.map_cons, List.length_append, List.length_cons, map_marked_others earlier, map_marked_others later,
    if_pos (by omega)]

/-- Settles O22: the image change and the failure by their definitions, the rotation by the spare that is chosen
(`Editions.chooseSpare_least`), the failed commit by the job that waits for it (`State.waitsCommit_waits`). -/
theorem imageChangesQueueBlocksAndRotationsEraseSpares :
    Obligations.ImageChangesQueueBlocksAndRotationsEraseSpares := by
  unfold Obligations.ImageChangesQueueBlocksAndRotationsEraseSpares
  refine ⟨fun e f s => ⟨rfl, rfl⟩, fun s => ⟨beginRotation_idle, fun b rest may free waiting => ?_⟩, fun s => rfl,
    fun i j s live => ⟨failCommit_passes live, fun e g d closing isOpen edition commit late gone stands =>
      failCommit_fails live closing isOpen edition commit late (Editions.unrecord_eq gone stands)⟩,
    fun j k => ⟨markUnrecorded_pending, markUnrecorded_logged, markUnrecorded_unbuilt⟩,
    fun tag before after r others => ⟨markLast_last others, markLast_none others⟩⟩
  rw [beginRotation_takes may free waiting]
  exact ⟨fun none_ => beginWrite_noSpare none_, fun p spare least =>
    beginWrite_spare (Editions.chooseSpare_least spare least)⟩

end Sys2Proof.Machine
end

section
/-!
PROOFS. The ends of an erase and of a programming, what a completed rotation leaves of each block, and the open commits
that it settles (R32, R35, R37, R42, R43, R46). With it O23.
-/

-- One theorem after another: waiting proofs would each hold a thread.
set_option Elab.async false

namespace Sys2Proof.Machine

/-! ### The ends (R42, R43) -/

theorem eraseEnded_none {v mark : Bool} {s : State} (h : ∀ r, s.ed.rot = some r → r.phase ≠ .erasing) :
    eraseEnded v mark s = s := by
  unfold eraseEnded
  split
  · next r hr => exact if_neg (h r hr)
  · rfl

theorem programEnded_none {v mark : Bool} {s : State} (h : ∀ r, s.ed.rot = some r → r.phase ≠ .programming) :
    programEnded v mark s = s := by
  unfold programEnded
  split
  · next r hr => exact if_neg (h r hr)
  · rfl

section Ends
variable {mark : Bool} {s : State} {r : Rotation} (rot : s.ed.rot = some r)
include rot

theorem eraseEnded_ends {v : Bool} (phase : r.phase = .erasing) :
    eraseEnded v mark s = if v then s.mapEd (beginProgram r) else verifyFail r mark s := by
  unfold eraseEnded
  rw [rot]
  exact if_pos phase

theorem programEnded_ends {v : Bool} (phase : r.phase = .programming) :
    programEnded v mark s = if v then completeRotation r mark s else verifyFail r mark s := by
  unfold programEnded
  rw [rot]
  exact if_pos phase

end Ends

/-! ### The blocks at the completion of a rotation (R37, R42) -/

/-- The row of a block that gives its role up: a spare below 10,000 erases, else RETIRED. -/
def BlockInfo.released (x : BlockInfo) : BlockInfo :=
  if x.erases < Config.eraseLimit then { x with role := .spare } else { x with role := .retired, mark := .retired }

theorem BlockInfo.released_released (x : BlockInfo) : x.released.released = x.released := by
  by_cases h : x.erases < Config.eraseLimit <;> simp [BlockInfo.released, h]

/-- One block gives its role up. -/
def Editions.release (mark : Bool) (d : Editions) (p : PBlock) : Editions :=
  if d.table[p].erases < Config.eraseLimit then
    { d with table := modifyAt d.table p fun r => { r with role := .spare } }
  else d.retire p mark

theorem Editions.release_table (mark : Bool) (d : Editions) (p : PBlock) :
    (d.release mark p).table = modifyAt d.table p BlockInfo.released := by
  unfold Editions.release BlockInfo.released
  by_cases h : d.table[p].erases < Config.eraseLimit
  · rw [if_pos h]
    simp only [modifyAt, if_pos h]
  · rw [if_neg h]
    simp only [modifyAt, if_neg h, Editions.retire]

theorem Editions.releaseAll_table (mark : Bool) (p : PBlock) : ∀ (ps : List PBlock) (d : Editions),
    (ps.foldl (Editions.release mark) d).table[p] = if p ∈ ps then d.table[p].released else d.table[p]
  | [], d => by simp
  | q :: qs, d => by
    rw [List.foldl_cons, Editions.releaseAll_table mark p qs, Editions.release_table, getElem_modifyAt]
    by_cases e : p = q
    · subst e
      simp [BlockInfo.released_released]
    · simp [e]

theorem Editions.releaseFormer_eq (b : LBlock) (mark : Bool) (d : Editions) :
    d.releaseFormer b mark = (d.blocksWhere fun r => r == .holds b).foldl (Editions.release mark) d := rfl

/-- Every block in the former role gives it up, and no other block's row changes. -/
theorem Editions.releaseFormer_table (b : LBlock) (mark : Bool) (d : Editions) (p : PBlock) :
    (d.releaseFormer b mark).table[p] = if d.table[p].role = .holds b then d.table[p].released else d.table[p] := by
  have mem : p ∈ d.blocksWhere (fun r => r == .holds b) ↔ d.table[p].role = .holds b := by simp [Editions.blocksWhere]
  rw [Editions.releaseFormer_eq, Editions.releaseAll_table]
  simp only [mem]

theorem Editions.releaseFormer_removals (b : LBlock) (mark : Bool) (d : Editions) :
    (d.releaseFormer b mark).removals = d.removals :=
  Editions.releaseFormer_holds (P := fun e => e.removals = d.removals) b mark (fun _ _ _ h => h) d rfl

section TakeRole
variable {r : Rotation} {mark : Bool} {d : Editions} {p : PBlock}

theorem Editions.takeRole_persisted : (Editions.takeRole r mark d).persisted[r.block] = r.gen :=
  Vector.getElem_set_self _

/-- The written block holds the role, with its header COMPLETE. -/
theorem Editions.takeRole_written : (Editions.takeRole r mark d).table[r.phys].role = .holds r.block ∧
    (Editions.takeRole r mark d).flash[r.phys].mark = .complete := by
  unfold Editions.takeRole
  dsimp only
  rw [getElem_modifyAt, if_pos rfl, getElem_modifyAt, if_pos rfl]
  exact ⟨rfl, rfl⟩

/-- Every other block is left as the release of the former role leaves it. -/
theorem Editions.takeRole_others (other : p ≠ r.phys) : (Editions.takeRole r mark d).table[p] =
    if d.table[p].role = .holds r.block then d.table[p].released else d.table[p] := by
  unfold Editions.takeRole
  dsimp only
  rw [getElem_modifyAt, if_neg other, Editions.releaseFormer_table]

theorem Editions.takeRole_former (other : p ≠ r.phys) (former : d.table[p].role = .holds r.block) :
    (d.table[p].erases < 10000 → (Editions.takeRole r mark d).table[p].role = .spare) ∧
    (10000 ≤ d.table[p].erases → (Editions.takeRole r mark d).table[p].role = .retired) := by
  rw [Editions.takeRole_others other, if_pos former]
  exact ⟨fun h => congrArg BlockInfo.role (if_pos h), fun h => congrArg BlockInfo.role (if_neg (Nat.not_lt.2 h))⟩

/-- The removals that the written images carry no longer wait (R35). -/
theorem Editions.mem_takeRole_removals {x : Removal} :
    x ∈ (Editions.takeRole r mark d).removals ↔ x ∈ d.removals ∧ ¬ (x.block = r.block ∧ x.gen ≤ r.gen) := by
  have kept : (Editions.takeRole r mark d).removals =
      d.removals.filter fun x => !(x.block == r.block && decide (x.gen ≤ r.gen)) :=
    congrArg (List.filter _) (Editions.releaseFormer_removals r.block mark d)
  rw [kept, List.mem_filter]
  simp [imp_iff_not_or]

end TakeRole

/-! ### The settling of commits (R32) -/

section SettleCommit
variable {b : LBlock} {s : State} {i : JobIx} {j : Job} (live : s.liveJob i = some j)
include live

theorem settleCommit_settles {e : JobEdition} {g : Nat} (closing : j.state = .closing) (isOpen : j.commitOpen = true)
    (edition : j.edition = some e) (commit : j.commitGen = some g) (block : blockOf e.slot = b)
    (reached : g ≤ s.ed.persisted[b]) :
    settleCommit b s i = departIfReady i (putJob i { j with commitOpen := false } s) := by
  unfold settleCommit
  rw [State.waitsCommit_waits live closing isOpen edition commit (by simpa [block] using reached)]
  exact congrArg (departIfReady i) (setJob_put live _)

/-- A job that waits for no commit of the block, or for a later generation, is passed over. -/
theorem settleCommit_passes
    (h : j.state ≠ .closing ∨ j.commitOpen = false ∨ j.edition = none ∨ j.commitGen = none ∨
      ∃ e g, j.edition = some e ∧ j.commitGen = some g ∧ (blockOf e.slot ≠ b ∨ s.ed.persisted[b] < g)) :
    settleCommit b s i = s := by
  unfold settleCommit
  rw [State.waitsCommit_none live (h.imp_right <| .imp_right <| .imp_right <| .imp_right
    fun ⟨e, g, edition, commit, other⟩ => ⟨e, g, edition, commit, by simpa [imp_iff_not_or] using other⟩)]

end SettleCommit

/-! ### The end of a format (R46) -/

theorem Editions.endFormat_goesOn {d : Editions} (h : d.formatting = false ∨ d.writes ≠ []) : d.endFormat = d :=
  if_neg fun ⟨formatting, written⟩ => h.elim (fun h => by simp [formatting] at h) fun h => h written

theorem Editions.endFormat_ends {d : Editions} (formatting : d.formatting = true) (written : d.writes = []) :
    d.endFormat = { d with formatting := false, store := if d.chooseSpare.isSome then .ready else .readOnly } :=
  if_pos ⟨formatting, written⟩

/-- Settles O23: each end by the rotation's phase, the completed rotation block by block (`Editions.takeRole_others`),
and the settling by the job that waits (`State.waitsCommit_waits`). -/
theorem eraseAndProgramEndsAdvanceOrRetire : Obligations.EraseAndProgramEndsAdvanceOrRetire := by
  unfold Obligations.EraseAndProgramEndsAdvanceOrRetire
  have erase : ∀ {v mark s t}, eraseEnded v mark s = t → exec (.eraseDone v mark) s = .next (giveLine t) :=
    fun ended => congrArg (Host.Outcome.next ∘ giveLine) ended
  have program : ∀ {v mark s t}, programEnded v mark s = t → exec (.programDone v mark) s = .next (giveLine t) :=
    fun ended => congrArg (Host.Outcome.next ∘ giveLine) ended
  refine ⟨fun mark s => ⟨fun v idle => erase (eraseEnded_none idle), fun r rot phase =>
      ⟨erase (eraseEnded_ends rot phase), erase (eraseEnded_ends rot phase)⟩⟩,
    fun mark s => ⟨fun v idle => program (programEnded_none idle), fun r rot phase =>
      ⟨program (programEnded_ends rot phase), program (programEnded_ends rot phase)⟩, fun r _ => ?_⟩,
    fun b s => rfl,
    fun b i j s live => ⟨fun e g closing isOpen edition commit block reached =>
      settleCommit_settles live closing isOpen edition commit block reached, settleCommit_passes live⟩,
    fun d => ⟨Editions.endFormat_goesOn, fun formatting written => ?_⟩, fun p d => ⟨rfl, rfl⟩⟩
  · obtain ⟨role, complete⟩ := Editions.takeRole_written (r := r) (mark := mark) (d := s.ed)
    exact ⟨rfl, Editions.takeRole_persisted, role, complete,
      fun p other former => Editions.takeRole_former other former,
      fun p other holds => (Editions.takeRole_others other).trans (if_neg holds),
      fun x => Editions.mem_takeRole_removals⟩
  · rw [Editions.endFormat_ends formatting written]
    refine ⟨fun spare => ?_, fun none_ => ?_⟩
    · rw [if_pos (Editions.chooseSpare_isSome.2 spare)]
    · rw [Editions.chooseSpare_none none_]
      rfl

end Sys2Proof.Machine
end

section
/-!
PROOFS. The mount (R37, R46 to R48): the counts that the headers give, the role of each block, the newest copy of each
logical block, and the store that the mount ends in. With it O24.
-/

-- One theorem after another: waiting proofs would each hold a thread.
set_option Elab.async false

namespace Sys2Proof.Machine

/-! ### The numbers that are read (R46) -/

/-- The highest readable number is one of those read, or 0, and none is above it. -/
theorem highest_spec (xs : List (Option Nat)) :
    (some (highest xs) ∈ xs ∨ highest xs = 0) ∧ ∀ n, some n ∈ xs → n ≤ highest xs := by
  have top : (0 :: xs.filterMap id).max? = some (highest xs) := List.max?_cons'
  obtain ⟨mem, above⟩ := List.max?_eq_some_iff.1 top
  refine ⟨?_, fun n hn => above n (List.mem_cons_of_mem 0 (by simpa using hn))⟩
  rcases List.mem_cons.1 mem with zero | read
  · exact .inr zero
  · exact .inl (by simpa using read)

section Flash
variable {flash : Vector FlashBlock 6} {p : PBlock}

theorem mem_flash {x : FlashBlock} : x ∈ flash.toList ↔ ∃ q : PBlock, flash[q] = x := by
  rw [Vector.mem_toList_iff, Vector.mem_iff_getElem]
  exact ⟨fun ⟨i, hi, e⟩ => ⟨⟨i, hi⟩, e⟩, fun ⟨q, e⟩ => ⟨q, q.isLt, e⟩⟩

/-- A number is read where some block's header holds it. -/
theorem mem_readNumbers {f : FlashBlock → Option Nat} {n : Nat} :
    some n ∈ flash.toList.map f ↔ ∃ q : PBlock, f flash[q] = some n := by
  simp only [List.mem_map, mem_flash, exists_exists_eq_and]

theorem mountErases_read {n : Nat} (h : flash[p].erases = some n) : mountErases flash p = n := by
  unfold mountErases
  rw [h]

theorem mountErases_retired (unread : flash[p].erases = none) (h : flash[p].mark = .retired) :
    mountErases flash p = Config.retiredCount p := by
  unfold mountErases
  rw [unread, h]

theorem mountErases_highest (unread : flash[p].erases = none) (h : flash[p].mark ≠ .retired) :
    mountErases flash p = highest (flash.toList.map (·.erases)) := by
  unfold mountErases
  rw [unread]
  dsimp only
  split
  · next e => exact absurd e h
  · rfl

/-! ### The role of a block (R46, R47) -/

/-- A COMPLETE copy that every other copy is older than wins. -/
theorem winner_newest {b : LBlock} (complete : flash[p].mark = .complete) (role : flash[p].role = some b)
    (newest : ∀ q : PBlock, q ≠ p → flash[q].mark = .complete → flash[q].role = some b →
      flash[q].seq.getD 0 < flash[p].seq.getD 0) : winner flash b = some p := by
  cases h : winner flash b with
  | none => exact absurd role ((winner_none flash b).1 h p complete)
  | some q =>
    obtain ⟨completeQ, roleQ, top⟩ := winner_marks flash b q h
    by_cases same : q = p
    · rw [same]
    · exact absurd (newest q same completeQ roleQ) (Nat.not_lt.2 (top p complete role))

theorem mountRole_retired (h : flash[p].mark = .retired) : mountRole flash p = .retired := if_pos h

theorem mountRole_winner {b : LBlock} (h : winner flash b = some p) : mountRole flash p = .holds b := by
  obtain ⟨complete, role, -⟩ := winner_marks flash b p h
  unfold mountRole
  rw [if_neg (by rw [complete]; decide), role]
  exact if_pos h

/-- A block that is not RETIRED and holds no newest copy is a spare. -/
theorem mountRole_spare (h : flash[p].mark ≠ .retired)
    (beaten : ∀ b : LBlock, flash[p].mark = .complete → flash[p].role = some b →
      ∃ q : PBlock, flash[q].mark = .complete ∧ flash[q].role = some b ∧
        flash[p].seq.getD 0 < flash[q].seq.getD 0) : mountRole flash p = .spare := by
  unfold mountRole
  rw [if_neg h]
  split
  · next b _ =>
    refine if_neg fun won => ?_
    obtain ⟨complete, role, top⟩ := winner_marks flash b p won
    obtain ⟨q, completeQ, roleQ, newer⟩ := beaten b complete role
    exact absurd newer (Nat.not_lt.2 (top q completeQ roleQ))
  · rfl

end Flash

/-! ### The blocks after the reading (R37, R46) -/

/-- The store with its blocks as a mount finds them: the headers read, the worn spares given up. -/
def Editions.surveyed (marks : Vector Bool 6) (d : Editions) : Editions := d.readHeaders.retireWorn marks

/-- Worn spares are given up in the table and in the flash, and nowhere else. -/
theorem retireWorn_eq (marks : Vector Bool 6) (d : Editions) :
    d.retireWorn marks = { d with table := (d.retireWorn marks).table, flash := (d.retireWorn marks).flash } :=
  foldl_holds (P := fun e : Editions => e = { d with table := e.table, flash := e.flash }) _
    (fun e p h => by unfold Editions.retire; rw [h]) _ d rfl

section Surveyed
variable {marks : Vector Bool 6} {d : Editions} {p : PBlock} {b : LBlock}

theorem Editions.surveyed_seqCounter : (d.surveyed marks).seqCounter = highest (d.flash.toList.map (·.seq)) := by
  rw [Editions.surveyed, retireWorn_eq]
  rfl

theorem Editions.surveyed_headersRead : (d.surveyed marks).headersRead = true := retireWorn_headers marks _

theorem Editions.surveyed_writes : (d.surveyed marks).writes = d.writes := retireWorn_writes marks _

theorem Editions.surveyed_change : (d.surveyed marks).change = d.change := by
  rw [Editions.surveyed, retireWorn_eq]
  rfl

theorem Editions.surveyed_persisted : (d.surveyed marks).persisted = d.persisted := by
  rw [Editions.surveyed, retireWorn_eq]
  rfl

theorem Editions.readHeaders_row : d.readHeaders.table[p] =
    { role := mountRole d.flash p, erases := mountErases d.flash p, mark := d.flash[p].mark } :=
  Vector.getElem_ofFn ..

/-- A block that the headers do not make a spare stays as it reads. -/
theorem Editions.surveyed_kept (h : mountRole d.flash p ≠ .spare) :
    (d.surveyed marks).table[p] =
      { role := mountRole d.flash p, erases := mountErases d.flash p, mark := d.flash[p].mark } ∧
    (d.surveyed marks).flash[p] = d.flash[p] := by
  obtain ⟨row, header⟩ := retireWorn_block marks d.readHeaders p
  rw [Editions.readHeaders_row] at row header
  rw [if_neg fun worn => h worn.1] at row
  rw [if_neg fun worn => h worn.1.1] at header
  exact ⟨row, header⟩

/-- A spare is given up from 10,000 erases on, in its header where the mark programs. -/
theorem Editions.surveyed_spare (h : mountRole d.flash p = .spare) :
    (mountErases d.flash p < 10000 →
      (d.surveyed marks).table[p].role = .spare ∧ (d.surveyed marks).flash[p] = d.flash[p]) ∧
    (10000 ≤ mountErases d.flash p →
      (d.surveyed marks).table[p].role = .retired ∧ (d.surveyed marks).table[p].mark = .retired ∧
      (d.surveyed marks).flash[p] =
        if marks[p] = true then { d.flash[p] with mark := .retired } else d.flash[p]) := by
  obtain ⟨row, header⟩ := retireWorn_block marks d.readHeaders p
  rw [Editions.readHeaders_row] at row header
  refine ⟨fun fresh => ?_, fun worn => ?_⟩
  · have fresh : ¬ Config.eraseLimit ≤ mountErases d.flash p := Nat.not_le.2 fresh
    rw [if_neg fun worn => fresh worn.2] at row
    rw [if_neg fun worn => fresh worn.1.2] at header
    exact ⟨(congrArg BlockInfo.role row).trans h, header⟩
  · rw [if_pos ⟨h, worn⟩] at row
    refine ⟨congrArg BlockInfo.role row, congrArg BlockInfo.mark row, header.trans ?_⟩
    simp only [h, worn, Config.eraseLimit, and_self, true_and]
    rfl

theorem Editions.surveyed_erases : (d.surveyed marks).table[p].erases = mountErases d.flash p := by
  have row := (retireWorn_block marks d.readHeaders p).1
  rw [Editions.readHeaders_row] at row
  refine (congrArg BlockInfo.erases row).trans ?_
  split <;> rfl

/-- A block that still reads COMPLETE has not been given up. -/
theorem Editions.surveyed_complete (h : (d.surveyed marks).flash[p].mark = .complete) :
    (d.surveyed marks).flash[p] = d.flash[p] := by
  have header := (retireWorn_block marks d.readHeaders p).2
  split at header
  · exact absurd ((congrArg FlashBlock.mark header).symm.trans h) (by simp)
  · exact header

/-- The winning copy is not a spare, and so is not given up. -/
theorem Editions.surveyed_winner (h : winner d.flash b = some p) :
    (d.surveyed marks).table[p].role = .holds b ∧ (d.surveyed marks).flash[p] = d.flash[p] := by
  have role := mountRole_winner h
  obtain ⟨row, header⟩ := Editions.surveyed_kept (marks := marks) (d := d) (p := p) (by simp [role])
  exact ⟨(congrArg BlockInfo.role row).trans role, header⟩

/-- A copy that every other is older than still wins after the worn spares have been given up. -/
theorem Editions.surveyed_newest (complete : d.flash[p].mark = .complete) (role : d.flash[p].role = some b)
    (newest : ∀ q : PBlock, q ≠ p → d.flash[q].mark = .complete → d.flash[q].role = some b →
      d.flash[q].seq.getD 0 < d.flash[p].seq.getD 0) : winner (d.surveyed marks).flash b = some p := by
  have kept := (Editions.surveyed_winner (marks := marks) (winner_newest complete role newest)).2
  refine winner_newest (by rw [kept]; exact complete) (by rw [kept]; exact role) fun q other completeQ roleQ => ?_
  have same := Editions.surveyed_complete completeQ
  rw [same] at completeQ roleQ ⊢
  rw [kept]
  exact newest q other completeQ roleQ

/-- Giving up worn spares loses no logical block. -/
theorem Editions.surveyed_lost : winner (d.surveyed marks).flash b = none ↔
    ∀ q : PBlock, d.flash[q].mark = .complete → d.flash[q].role ≠ some b := by
  rw [← winner_none]
  refine ⟨fun lost => ?_, fun lost => ?_⟩
  · by_contra some_
    obtain ⟨p, hp⟩ := Option.ne_none_iff_exists'.1 some_
    obtain ⟨complete, role, -⟩ := winner_marks d.flash b p hp
    have kept := (Editions.surveyed_winner (marks := marks) hp).2
    exact (winner_none _ b).1 lost p (by rw [kept]; exact complete) (by rw [kept]; exact role)
  · refine (winner_none _ b).2 fun q complete => ?_
    have same := Editions.surveyed_complete complete
    rw [same] at complete ⊢
    exact (winner_none d.flash b).1 lost q complete

end Surveyed

/-! ### The images read (R47, R48) -/

/-- The images that a logical block takes at mount: those of its winning copy, else 16 LOST slots. -/
def mountImages (flash : Vector FlashBlock 6) (b : LBlock) : Vector EdImage 16 :=
  (winner flash b).elim (Vector.replicate 16 EdImage.lostSlot) fun p => flash[p].images

theorem Editions.image_eq_blockImages (d : Editions) (e : EdIx) :
    d.image[e] = (d.blockImages (blockOf e))[e.val % 16]'(Nat.mod_lt _ (by decide)) := by
  simp [Editions.blockImages, blockOf, Nat.div_add_mod]

/-- A loaded block changes the images alone. -/
theorem Editions.loadBlock_eq (d : Editions) (b : LBlock) (v : Vector EdImage 16) :
    ∃ w, d.loadBlock b v = { d with image := w } := ⟨_, rfl⟩

theorem Editions.loadBlock_block (d : Editions) (b c : LBlock) (v : Vector EdImage 16) :
    (d.loadBlock b v).blockImages c = if c = b then v else d.blockImages c := by
  refine Vector.ext fun k hk => ?_
  have block : (16 * c.val + k) / 16 = c.val := by omega
  by_cases same : c = b
  · subst same
    simp [Editions.blockImages, Editions.loadBlock, block, Nat.mod_eq_of_lt hk]
  · have other : c.val ≠ b.val := fun e => same (Fin.ext e)
    simp [Editions.blockImages, Editions.loadBlock, block, same, other]

section LoadBest
variable {d : Editions} {b : LBlock}

theorem Editions.loadBest_winner {p : PBlock} (h : winner d.flash b = some p) :
    d.loadBest b = d.loadBlock b d.flash[p].images := by
  unfold Editions.loadBest
  rw [h]

theorem Editions.loadBest_lost (h : winner d.flash b = none) :
    d.loadBest b = (d.loadBlock b (Vector.replicate 16 EdImage.lostSlot)).imageChange b := by
  unfold Editions.loadBest
  rw [h]

theorem Editions.imageChange_block (c : LBlock) : (d.imageChange b).blockImages c = d.blockImages c := rfl

theorem Editions.loadBest_block (c : LBlock) :
    (d.loadBest b).blockImages c = if c = b then mountImages d.flash b else d.blockImages c := by
  unfold mountImages
  cases h : winner d.flash b with
  | none => rw [Editions.loadBest_lost h, Editions.imageChange_block, Editions.loadBlock_block]; rfl
  | some p => rw [Editions.loadBest_winner h, Editions.loadBlock_block]; rfl

theorem Editions.loadBest_change (c : LBlock) :
    (d.loadBest b).change[c] = d.change[c] + if c = b ∧ winner d.flash b = none then 1 else 0 := by
  cases h : winner d.flash b with
  | none =>
    obtain ⟨w, hw⟩ := d.loadBlock_eq b (Vector.replicate 16 EdImage.lostSlot)
    rw [Editions.loadBest_lost h, hw]
    refine (getElem_modifyAt d.change b c (· + 1)).trans ?_
    by_cases same : c = b
    · subst same; simp
    · simp [same]
  | some p =>
    obtain ⟨w, hw⟩ := d.loadBlock_eq b d.flash[p].images
    rw [Editions.loadBest_winner h, hw, if_neg (by simp), Nat.add_zero]

/-- Loading a block touches no field but the images, the change generations and the pending writes. -/
theorem Editions.loadBest_eq : d.loadBest b =
    { d with image := (d.loadBest b).image, change := (d.loadBest b).change, writes := (d.loadBest b).writes } := by
  cases h : winner d.flash b with
  | none =>
    obtain ⟨w, hw⟩ := d.loadBlock_eq b (Vector.replicate 16 EdImage.lostSlot)
    rw [Editions.loadBest_lost h, hw]
    rfl
  | some p =>
    obtain ⟨w, hw⟩ := d.loadBlock_eq b d.flash[p].images
    rw [Editions.loadBest_winner h, hw]

end LoadBest

/-- Loading a list of blocks gives each of them its images. -/
theorem Editions.loadAll_block (c : LBlock) : ∀ (bs : List LBlock) (d : Editions),
    (bs.foldl Editions.loadBest d).blockImages c = if c ∈ bs then mountImages d.flash c else d.blockImages c
  | [], d => by simp
  | b :: bs, d => by
    rw [List.foldl_cons, Editions.loadAll_block c bs, (loadBest_writes d b).1, Editions.loadBest_block]
    by_cases same : c = b
    · subst same; simp
    · simp [same]

/-- Loading a list of blocks raises the change generation of each LOST one. -/
theorem Editions.loadAll_change (c : LBlock) : ∀ (bs : List LBlock) (d : Editions), bs.Nodup →
    (bs.foldl Editions.loadBest d).change[c] = d.change[c] + if c ∈ bs ∧ winner d.flash c = none then 1 else 0
  | [], d, _ => by simp
  | b :: bs, d, nodup => by
    obtain ⟨out, nodup⟩ := List.nodup_cons.1 nodup
    rw [List.foldl_cons, Editions.loadAll_change c bs _ nodup, (loadBest_writes d b).1, Editions.loadBest_change]
    by_cases same : c = b
    · subst same; simp [out]
    · simp [same]

section Load
variable (d : Editions) (b : LBlock)

theorem Editions.loadImages_block : d.loadImages.blockImages b = mountImages d.flash b := by
  unfold Editions.loadImages
  rw [Editions.loadAll_block, if_pos (List.mem_finRange b)]

theorem Editions.loadImages_change :
    d.loadImages.change[b] = d.change[b] + if winner d.flash b = none then 1 else 0 := by
  unfold Editions.loadImages
  rw [Editions.loadAll_change b _ d (List.nodup_finRange 4)]
  simp only [List.mem_finRange, true_and]

/-- The images, the change generations and the pending writes are all that loading touches. -/
theorem Editions.loadImages_eq : ∃ v c w, d.loadImages = { d with image := v, change := c, writes := w } :=
  foldl_holds (P := fun e : Editions => ∃ v c w, e = { d with image := v, change := c, writes := w }) _
    (fun e b h => by
      obtain ⟨v, c, w, rfl⟩ := h
      exact ⟨_, _, _, Editions.loadBest_eq⟩) _ d ⟨_, _, _, rfl⟩

end Load

/-! ### The end of the mount (R46 to R48) -/

theorem Editions.endMount_spare {d : Editions} (h : ∃ p : PBlock, d.table[p].role = .spare) :
    d.endMount = { d with store := .ready } := if_pos (Editions.chooseSpare_isSome.2 h)

theorem Editions.endMount_noSpare {d : Editions} (h : ¬ ∃ p : PBlock, d.table[p].role = .spare) :
    d.endMount = { d with store := .readOnly, writes := [] } := if_neg (mt Editions.chooseSpare_isSome.1 h)

/-- The store's state and the pending writes are all that the end of a mount touches. -/
theorem Editions.endMount_eq (d : Editions) : ∃ st w, d.endMount = { d with store := st, writes := w } := by
  unfold Editions.endMount
  split <;> exact ⟨_, _, rfl⟩

theorem Editions.endMount_change (d : Editions) : d.endMount.change = d.change := by
  obtain ⟨st, w, h⟩ := d.endMount_eq
  rw [h]

theorem Editions.endMount_block (d : Editions) (b : LBlock) : d.endMount.blockImages b = d.blockImages b := by
  obtain ⟨st, w, h⟩ := d.endMount_eq
  rw [h]
  rfl

/-- The store as a mount by reading leaves it. -/
def Editions.mounted (marks : Vector Bool 6) (d : Editions) : Editions := (d.surveyed marks).loadImages.endMount

section Mounted
variable {marks : Vector Bool 6} {d : Editions} {b : LBlock}

theorem Editions.mounted_eq : ∃ v c st w,
    d.mounted marks = { d.surveyed marks with image := v, change := c, store := st, writes := w } := by
  unfold Editions.mounted
  obtain ⟨v, c, w, loaded⟩ := (d.surveyed marks).loadImages_eq
  rw [loaded]
  obtain ⟨st, w, ended⟩ := Editions.endMount_eq { d.surveyed marks with image := v, change := c, writes := w }
  exact ⟨v, c, st, w, ended⟩

theorem Editions.mounted_table : (d.mounted marks).table = (d.surveyed marks).table := by
  obtain ⟨v, c, st, w, h⟩ := Editions.mounted_eq (marks := marks) (d := d)
  rw [h]

theorem Editions.mounted_persisted : (d.mounted marks).persisted = d.persisted := by
  obtain ⟨v, c, st, w, h⟩ := Editions.mounted_eq (marks := marks) (d := d)
  rw [h]
  exact Editions.surveyed_persisted

theorem Editions.mounted_block : (d.mounted marks).blockImages b = mountImages (d.surveyed marks).flash b := by
  rw [Editions.mounted, Editions.endMount_block, Editions.loadImages_block]

theorem Editions.mounted_change :
    (d.mounted marks).change[b] = d.change[b] + if winner (d.surveyed marks).flash b = none then 1 else 0 := by
  rw [Editions.mounted, Editions.endMount_change, Editions.loadImages_change, Editions.surveyed_change]

/-- Neither the loading nor the end of the mount changes which blocks are spares. -/
theorem Editions.mounted_spare : (∃ p : PBlock, (d.mounted marks).table[p].role = .spare) ↔
    ∃ p : PBlock, (d.surveyed marks).loadImages.table[p].role = .spare := by
  rw [Editions.mounted_table, (loadImages_table (d.surveyed marks)).1]

/-- The store is READY while a spare remains. -/
theorem Editions.mounted_ready :
    (d.mounted marks).store = .ready ↔ ∃ p : PBlock, (d.mounted marks).table[p].role = .spare := by
  rw [Editions.mounted_spare]
  unfold Editions.mounted
  by_cases spare : ∃ p : PBlock, (d.surveyed marks).loadImages.table[p].role = .spare
  · rw [Editions.endMount_spare spare]
    exact ⟨fun _ => spare, fun _ => rfl⟩
  · rw [Editions.endMount_noSpare spare]
    exact ⟨fun h => (nomatch h), fun h => absurd h spare⟩

theorem Editions.mounted_readOnly (h : (d.mounted marks).store ≠ .ready) :
    (d.mounted marks).store = .readOnly ∧ (d.mounted marks).writes = [] := by
  have none_ := mt Editions.mounted_ready.2 h
  rw [Editions.mounted_spare] at none_
  unfold Editions.mounted
  rw [Editions.endMount_noSpare none_]
  exact ⟨rfl, rfl⟩

/-- A READY store leaves the LOST blocks to be written, in ascending order. -/
theorem Editions.mounted_writes (empty : d.writes = []) (ready : (d.mounted marks).store = .ready) :
    (d.mounted marks).writes = (List.finRange 4).filter fun b =>
      decide (∀ q : PBlock, d.flash[q].mark = .complete → d.flash[q].role ≠ some b) := by
  have spare := Editions.mounted_spare.1 (Editions.mounted_ready.1 ready)
  rw [Editions.mounted, Editions.endMount_spare spare]
  dsimp only
  rw [loadImages_writes _ (Editions.surveyed_writes.trans empty)]
  refine List.filter_congr fun b _ => decide_eq_decide.2 ?_
  rw [← winner_none]
  exact Editions.surveyed_lost

/-- A logical block whose newest copy stands takes that copy's images and keeps its change generation. -/
theorem Editions.mounted_newest {p : PBlock} (complete : d.flash[p].mark = .complete) (role : d.flash[p].role = some b)
    (newest : ∀ q : PBlock, q ≠ p → d.flash[q].mark = .complete → d.flash[q].role = some b →
      d.flash[q].seq.getD 0 < d.flash[p].seq.getD 0) :
    (d.mounted marks).blockImages b = d.flash[p].images ∧ (d.mounted marks).table[p].role = .holds b ∧
      (d.mounted marks).change[b] = d.change[b] := by
  have won := Editions.surveyed_newest (marks := marks) complete role newest
  obtain ⟨holds, kept⟩ := Editions.surveyed_winner (marks := marks) (winner_newest complete role newest)
  rw [Editions.mounted_block, Editions.mounted_table, Editions.mounted_change, mountImages, won]
  exact ⟨congrArg FlashBlock.images kept, holds, rfl⟩

/-- A logical block without a copy is LOST, and its change generation rises. -/
theorem Editions.mounted_lost (lost : ∀ q : PBlock, d.flash[q].mark = .complete → d.flash[q].role ≠ some b) :
    (∀ e : EdIx, blockOf e = b → (d.mounted marks).image[e].state = .lost) ∧
      (d.mounted marks).change[b] = d.change[b] + 1 := by
  have none_ := (Editions.surveyed_lost (marks := marks)).2 lost
  refine ⟨fun e block => ?_, by rw [Editions.mounted_change, none_, if_pos rfl]⟩
  subst block
  rw [Editions.image_eq_blockImages, Editions.mounted_block, mountImages, none_]
  exact congrArg EdImage.state (Vector.getElem_replicate ..)

end Mounted

/-- The blocks, the sequence counter and the reading of the headers are the same. -/
structure Editions.SameBlocks (d e : Editions) : Prop where
  table : e.table = d.table
  flash : e.flash = d.flash
  seqCounter : e.seqCounter = d.seqCounter
  headersRead : e.headersRead = d.headersRead

theorem Editions.mounted_sameBlocks (marks : Vector Bool 6) (d : Editions) :
    (d.surveyed marks).SameBlocks (d.mounted marks) := by
  obtain ⟨v, c, st, w, h⟩ := Editions.mounted_eq (marks := marks) (d := d)
  rw [h]
  exact ⟨rfl, rfl, rfl, rfl⟩

theorem Editions.format_sameBlocks (d : Editions) : d.SameBlocks d.format := ⟨rfl, rfl, rfl, rfl⟩

theorem mapEd_const_ed (d : Editions) (s : State) :
    (s.mapEd fun _ => d).ed = d ∧ (notify .store (s.mapEd fun _ => d)).ed = d := ⟨rfl, rfl⟩

section Headers
variable (marks : Vector Bool 6) {s : State}

theorem any_complete : (s.ed.flash.toList.any fun b => decide (b.mark = .complete)) = true ↔
    ∃ p : PBlock, s.ed.flash[p].mark = .complete := by
  simp only [List.any_eq_true, decide_eq_true_eq, mem_flash, exists_exists_eq_and]

/-- With a COMPLETE block the store is read, and its notice queued. -/
theorem mountHeaders_reads (found : ∃ p : PBlock, s.ed.flash[p].mark = .complete) :
    mountHeaders marks s = beginRotation (notify .store (s.mapEd fun _ => s.ed.mounted marks)) := by
  unfold mountHeaders
  exact if_pos (any_complete.2 found)

/-- Without one the store is formatted. -/
theorem mountHeaders_formats (blank : ∀ p : PBlock, s.ed.flash[p].mark ≠ .complete) :
    ∃ u, mountHeaders marks s = beginRotation u ∧ u.ed = (s.ed.surveyed marks).format := by
  have none_ := mt any_complete.1 (not_exists.2 blank)
  unfold mountHeaders
  dsimp only
  rw [if_neg none_]
  refine ⟨_, rfl, ?_⟩
  split
  · exact (mapEd_const_ed _ s).1
  · exact (mapEd_const_ed _ s).2

end Headers

/-- Either way the blocks are left as surveyed, and the next rotation may begin (R46, R48). -/
theorem mountHeaders_begins (marks : Vector Bool 6) (s : State) :
    ∃ u, mountHeaders marks s = beginRotation u ∧ (s.ed.surveyed marks).SameBlocks u.ed ∧
      ((∀ p : PBlock, s.ed.flash[p].mark ≠ .complete) → u.ed = (s.ed.surveyed marks).format) ∧
      ((∃ p : PBlock, s.ed.flash[p].mark = .complete) →
        Subject.store ∈ u.host.queue ∧ u.ed = s.ed.mounted marks) := by
  by_cases found : ∃ p : PBlock, s.ed.flash[p].mark = .complete
  · have ed := (mapEd_const_ed (s.ed.mounted marks) s).2
    exact ⟨_, mountHeaders_reads marks found, by rw [ed]; exact Editions.mounted_sameBlocks marks s.ed,
      fun blank => absurd found (not_exists.2 blank), fun _ => ⟨notify_queued .., ed⟩⟩
  · obtain ⟨u, begins, ed⟩ := mountHeaders_formats marks (not_exists.1 found)
    exact ⟨u, begins, by rw [ed]; exact Editions.format_sameBlocks _, fun _ => ed, fun h => absurd h found⟩

/-- Settles O24: the blocks by the survey (`Editions.surveyed_spare`, `Editions.surveyed_kept`), a mount by reading by
`Editions.mounted_newest` and `Editions.mounted_lost`, a format by its definition. -/
theorem mountReadsOrFormatsTheStore : Obligations.MountReadsOrFormatsTheStore := by
  unfold Obligations.MountReadsOrFormatsTheStore
  refine fun marks s => ⟨fun later => congrArg Host.Outcome.next (if_neg ?_),
    fun mounting unread => ⟨congrArg Host.Outcome.next (if_pos ⟨mounting, unread⟩), ?_⟩⟩
  · rw [not_and_or, Bool.not_eq_false]
    exact later
  obtain ⟨u, begins, blocks, formats, reads⟩ := mountHeaders_begins marks s
  refine ⟨u, begins, blocks.headersRead.trans Editions.surveyed_headersRead, fun p => ?_, fun p retired => ?_,
    fun p standing beaten => ?_, ?_, ?_, fun blank => ?_, fun found => ?_⟩
  · rw [blocks.table, Editions.surveyed_erases]
    refine ⟨fun n => mountErases_read, mountErases_retired, fun none_ standing => ?_⟩
    rw [mountErases_highest none_ standing]
    obtain ⟨mem, above⟩ := highest_spec (s.ed.flash.toList.map (·.erases))
    exact ⟨fun q n hn => above n (mem_readNumbers.2 ⟨q, hn⟩), mem.imp_left mem_readNumbers.1⟩
  · have role := mountRole_retired retired
    obtain ⟨row, header⟩ := Editions.surveyed_kept (marks := marks) (d := s.ed) (p := p) (by simp [role])
    rw [blocks.table, blocks.flash]
    exact ⟨(congrArg BlockInfo.role row).trans role, header⟩
  · rw [blocks.table, blocks.flash, Editions.surveyed_erases]
    exact Editions.surveyed_spare (mountRole_spare standing beaten)
  · rw [blocks.seqCounter, Editions.surveyed_seqCounter]
    exact fun q n hn => (highest_spec _).2 n (mem_readNumbers.2 ⟨q, hn⟩)
  · rw [blocks.seqCounter, Editions.surveyed_seqCounter]
    exact (highest_spec _).1.imp_left mem_readNumbers.1
  · rw [formats blank]
    exact ⟨fun e => congrArg EdImage.state (Vector.getElem_replicate ..),
      fun b => ⟨Vector.getElem_replicate .., Vector.getElem_replicate ..⟩, rfl, rfl⟩
  · obtain ⟨queued, ed⟩ := reads found
    rw [ed]
    exact ⟨queued, Editions.mounted_writes,
      fun b p complete role newest => Editions.mounted_newest complete role newest,
      fun b lost => Editions.mounted_lost lost,
      fun b => by rw [Editions.mounted_persisted], Editions.mounted_ready, Editions.mounted_readOnly⟩

end Sys2Proof.Machine
end

section
/-!
PROOFS. The feed axis's law along a step (R53, R54, R59, R62, R81), and the running timers along a millisecond (log 1).
With them O57 and O2.
-/

-- One theorem after another: waiting proofs would each hold a thread.
set_option Elab.async false

namespace Sys2Proof.Machine

/-- Settles O57: every command keeps the feed axis's law, and so does the passing of a millisecond (`step_lawful`). -/
theorem stepKeepsTheFeedLaw : Obligations.StepKeepsTheFeedLaw := by
  unfold Obligations.StepKeepsTheFeedLaw
  intro s t h
  obtain ⟨-, feed, -⟩ := step_lawful h
  exact feed

/-! ### A millisecond (log 1) -/

theorem step_idle (s : State) : step (s.setPending []) = .next (tick (s.setPending [])) := rfl

section KnifeTimes
variable {f : Feed} {n : Nat}

theorem Feed.tick_noCycle (h : f.knifeCycle = none) : f.tick.knifeCycle = none := by
  simp only [Feed.tick, h, Option.map_none]

theorem Feed.tick_stroke (h : f.knifeCycle = some (.stroke n)) : f.tick.knifeCycle = some (.stroke (n - 1)) := by
  simp only [Feed.tick, h, Option.map_some]

theorem Feed.tick_return (h : f.knifeCycle = some (.return_ n)) : f.tick.knifeCycle = some (.return_ (n - 1)) := by
  simp only [Feed.tick, h, Option.map_some]

end KnifeTimes

section ReadingTimes
variable {k : Checker} {n : Nat} {d : Bool}

/-- The measure command has no time limit. -/
theorem Checker.tick_command (h : k.reading = some { phase := .command, discard := d }) :
    k.tick.reading = k.reading := by
  simp only [Checker.tick, h, Option.map_some]

theorem Checker.tick_result (h : k.reading = some { phase := .result n, discard := d }) :
    k.tick.reading = some { phase := .result (n - 1), discard := d } := by
  simp only [Checker.tick, h, Option.map_some]

end ReadingTimes

/-- Settles O2: `tick` by its blocks, the knife's times and the reading's time by their phases. -/
theorem idleStepLowersRunningTimers : Obligations.IdleStepLowersRunningTimers := by
  unfold Obligations.IdleStepLowersRunningTimers
  intro s
  exact ⟨tick (s.setPending []), step_idle s, rfl, rfl, rfl, rfl, Feed.tick_noCycle, fun _ => Feed.tick_stroke,
    fun _ => Feed.tick_return, rfl, rfl, rfl, fun _ => Checker.tick_command, fun _ _ => Checker.tick_result⟩

end Sys2Proof.Machine
end

section
/-!
PROOFS. SET_FEED_PROFILE, CLEAR_FEED and UNLOAD_ROLL (R57, R58, R70, R79): one equation of the owner for each answer.
With them O25 and O26.
-/

-- One theorem after another: waiting proofs would each hold a thread.
set_option Elab.async false

namespace Sys2Proof.Machine

/-- Two changes of the feed axis that agree on the axis as it stands are the same change of the state. -/
theorem State.mapFeed_congr {s : State} {f g : Feed → Feed} (h : f s.feed = g s.feed) : s.mapFeed f = s.mapFeed g :=
  congrArg (fun x => { s with feed := x }) h

/-! ### What a feed profile in range is (R57) -/

/-- Only 0 and 1 are yes-or-no bytes (R191). -/
theorem yesNoOf_eq (b : Byte) : yesNoOf b = if b.toNat ≤ 1 then some (decide (b = 1)) else none := by
  unfold yesNoOf
  by_cases zero : b = 0
  · subst zero
    rfl
  · by_cases one : b = 1
    · subst one
      rfl
    · have : b.toNat ≠ 0 := fun h => zero (BitVec.eq_of_toNat_eq h)
      have : b.toNat ≠ 1 := fun h => one (BitVec.eq_of_toNat_eq h)
      rw [if_neg zero, if_neg one, if_neg (by omega)]

/-- Every field is within its range (R57). -/
def FeedProfileArgs.InRange (a : FeedProfileArgs) : Prop :=
  a.reversal.toNat ≤ 1 ∧ a.invert.toNat ≤ 1 ∧ (5 ≤ a.slow.toNat ∧ a.slow.toNat ≤ 200) ∧
    (2 ≤ a.window.toNat ∧ a.window.toNat ≤ 50) ∧ (10 ≤ a.settle.toNat ∧ a.settle.toNat ≤ 200) ∧
    (a.slow.toNat + 5 ≤ a.backoff.toNat ∧ a.backoff.toNat ≤ 300) ∧
    (a.window.toNat ≤ a.slip.toNat ∧ a.slip.toNat ≤ 500) ∧ (5 ≤ a.lead.toNat ∧ a.lead.toNat ≤ 100) ∧
    (5 ≤ a.trim.toNat ∧ a.trim.toNat ≤ 50) ∧ (20 ≤ a.sensor.toNat ∧ a.sensor.toNat ≤ 200) ∧
    (a.sensor.toNat + 420 ≤ a.knife.toNat ∧ a.knife.toNat ≤ 1000)

/-- The profile that the fields spell. -/
def FeedProfileArgs.profile (a : FeedProfileArgs) : FeedProfile where
  slow := a.slow.toNat
  window := a.window.toNat
  settle := a.settle.toNat
  backoff := a.backoff.toNat
  reversal := decide (a.reversal = 1)
  slip := a.slip.toNat
  invert := decide (a.invert = 1)
  lead := a.lead.toNat
  trim := a.trim.toNat
  sensor := a.sensor.toNat
  knife := a.knife.toNat

theorem FeedProfileArgs.read_profile {a : FeedProfileArgs} (h : FeedProfileArgs.InRange a) :
    FeedProfileArgs.read a = some (FeedProfileArgs.profile a) := by
  obtain ⟨reversal, invert, lengths⟩ := h
  unfold FeedProfileArgs.read
  rw [yesNoOf_eq, yesNoOf_eq, if_pos reversal, if_pos invert]
  exact if_pos lengths

theorem FeedProfileArgs.read_none {a : FeedProfileArgs} (h : ¬ FeedProfileArgs.InRange a) :
    FeedProfileArgs.read a = none := by
  unfold FeedProfileArgs.read
  rw [yesNoOf_eq, yesNoOf_eq]
  by_cases reversal : a.reversal.toNat ≤ 1
  · by_cases invert : a.invert.toNat ≤ 1
    · rw [if_pos reversal, if_pos invert]
      exact if_neg fun lengths => h ⟨reversal, invert, lengths⟩
    · rw [if_neg invert, if_pos reversal]
  · rw [if_neg reversal]

/-! ### SET_FEED_PROFILE (R58) -/

section Profile
variable {a : FeedProfileArgs} {s : State}

theorem feedProfileOwner_busy (h : ¬ ((s.feed.axis = .idle ∨ s.feed.axis = .unreferenced) ∧ s.pathFree = true)) :
    feedProfileOwner a s = (s, [0x20]) := if_pos h

variable (axis : s.feed.axis = .idle ∨ s.feed.axis = .unreferenced) (free : s.pathFree = true)
include axis free

theorem feedProfileOwner_outOfRange (range : ¬ FeedProfileArgs.InRange a) : feedProfileOwner a s = (s, [0x21]) := by
  unfold feedProfileOwner
  rw [if_neg (not_not_intro ⟨axis, free⟩), FeedProfileArgs.read_none range]
  rfl

variable (range : FeedProfileArgs.InRange a)
include range

/-- The direction of the encoder does not turn under a referenced axis. -/
theorem feedProfileOwner_turned (turned : decide (a.invert = 1) ≠ s.feed.profile.invert) (idle : s.feed.axis = .idle) :
    feedProfileOwner a s = (s, [0x20]) := by
  unfold feedProfileOwner
  rw [if_neg (not_not_intro ⟨axis, free⟩), FeedProfileArgs.read_profile range]
  refine if_neg (not_or.2 ⟨turned, ?_⟩)
  rw [idle]
  decide

theorem feedProfileOwner_replaced (same : decide (a.invert = 1) = s.feed.profile.invert ∨ s.feed.axis = .unreferenced) :
    feedProfileOwner a s =
      (notify .feedAxis (s.mapFeed fun f => { f with profile := FeedProfileArgs.profile a }), [0x00]) := by
  unfold feedProfileOwner
  rw [if_neg (not_not_intro ⟨axis, free⟩), FeedProfileArgs.read_profile range]
  exact if_pos same

end Profile

/-- Settles O25: the owner's equation for each check, and the ranges by `FeedProfileArgs.InRange`. -/
theorem feedProfileIsReplacedWhole : Obligations.FeedProfileIsReplacedWhole := by
  unfold Obligations.FeedProfileIsReplacedWhole
  intro ft a s taken
  have reply : ∀ {t answer}, feedProfileOwner a s = (t, answer) →
      exec (.setFeedProfile ft a) s = .next (answered 0xB0 ft answer t) := fun owner => exec_reply taken rfl owner rfl
  refine ⟨fun busy => reply (feedProfileOwner_busy busy), fun axis free => ⟨fun out => ?_, ?_⟩⟩
  · refine reply (feedProfileOwner_outOfRange axis free fun range => ?_)
    obtain ⟨reversal, invert, slow, window, settle, backoff, slip, lead, trim, sensor, knife⟩ := range
    omega
  · intro reversal invert slow window settle backoff slip lead trim sensor knife
    have range : FeedProfileArgs.InRange a :=
      ⟨reversal, invert, slow, window, settle, backoff, slip, lead, trim, sensor, knife⟩
    exact ⟨fun turned idle => reply (feedProfileOwner_turned axis free range turned idle),
      fun same => reply (feedProfileOwner_replaced axis free range same)⟩

/-! ### CLEAR_FEED (R70) -/

theorem clearFeedOwner_cleared {s : State} (fault : s.feed.axis = .fault) (free : s.pathFree = true) :
    clearFeedOwner s = (notify .feedAxis (s.mapFeed fun f =>
      { f with axis := .unreferenced, fault := none, drive := .off, knife := false, window := none }), [0x00]) :=
  if_pos ⟨fault, free⟩

theorem clearFeedOwner_refused {s : State} (h : s.feed.axis ≠ .fault ∨ s.pathFree = false) :
    clearFeedOwner s = (s, [0x20]) := by
  refine if_neg fun ⟨fault, free⟩ => ?_
  rcases h with axis | taken
  · exact axis fault
  · rw [taken] at free
    cases free

/-! ### UNLOAD_ROLL (R79) -/

theorem Feed.unload_idle {f : Feed} (h : f.axis = .idle) :
    f.unload = { f with axis := .unreferenced, referenced := false, rest := none, roll := Roll.atReset, drive := .off,
                        knife := false, window := none } := if_pos h

theorem Feed.unload_stopped {f : Feed} (h : f.axis = .unreferenced ∨ f.axis = .fault) :
    f.unload = { f with roll := Roll.atReset } := by
  refine if_neg ?_
  rcases h with h | h <;> rw [h] <;> decide

/-- No live job has a media reservation. -/
theorem State.noMedia_iff {s : State} :
    (s.liveJobs.all fun p => p.2.mediaRes == 0) = true ↔ ∀ p ∈ s.liveJobs, p.2.mediaRes = 0 := by
  simp only [List.all_eq_true, beq_iff_eq]

theorem unloadOwner_refused {s : State} (h : s.pathFree = false ∨ (∃ p ∈ s.liveJobs, p.2.mediaRes ≠ 0) ∨
    (s.feed.axis ≠ .idle ∧ s.feed.axis ≠ .unreferenced ∧ s.feed.axis ≠ .fault)) : unloadOwner s = (s, [0x20]) := by
  refine if_neg fun ⟨free, bare, axis⟩ => ?_
  rcases h with taken | ⟨p, mem, reserves⟩ | ⟨idle, unreferenced, fault⟩
  · rw [taken] at free
    cases free
  · exact reserves (State.noMedia_iff.1 bare p mem)
  · rcases axis with axis | axis | axis
    · exact idle axis
    · exact unreferenced axis
    · exact fault axis

theorem unloadOwner_unloaded {s : State} {g : Feed → Feed} (free : s.pathFree = true)
    (bare : ∀ p ∈ s.liveJobs, p.2.mediaRes = 0)
    (axis : s.feed.axis = .idle ∨ s.feed.axis = .unreferenced ∨ s.feed.axis = .fault)
    (unload : s.feed.unload = g s.feed) :
    unloadOwner s = (notify .feedAxis (s.mapFeed g), [0x00]) := by
  refine (if_pos ⟨free, State.noMedia_iff.2 bare, axis⟩).trans ?_
  rw [State.mapFeed_congr unload]
  rfl

/-- Settles O26: the owners' equations, with `Feed.unload` by the state of the axis. -/
theorem clearFeedAndUnloadRollLeaveTheirStates : Obligations.ClearFeedAndUnloadRollLeaveTheirStates := by
  unfold Obligations.ClearFeedAndUnloadRollLeaveTheirStates
  refine ⟨fun ft s taken => ?_, fun ft s taken => ?_⟩
  · have reply : ∀ {t answer}, clearFeedOwner s = (t, answer) →
        exec (.clearFeed ft) s = .next (answered 0xB1 ft answer t) := fun owner => exec_reply taken rfl owner rfl
    exact ⟨fun h => reply (clearFeedOwner_refused h), fun fault free => reply (clearFeedOwner_cleared fault free)⟩
  · have reply : ∀ {t answer}, unloadOwner s = (t, answer) →
        exec (.unloadRoll ft) s = .next (answered 0xB4 ft answer t) := fun owner => exec_reply taken rfl owner rfl
    exact ⟨fun h => reply (unloadOwner_refused h), fun free bare =>
      ⟨fun idle => reply (unloadOwner_unloaded free bare (.inl idle) (Feed.unload_idle idle)),
        fun stopped => reply (unloadOwner_unloaded free bare (.inr stopped) (Feed.unload_stopped stopped))⟩⟩

end Sys2Proof.Machine
end

section
/-!
PROOFS. The drive's windows, and the beginning of a move by the position against the target's window (R59 to R61, R64,
R66): one equation of `driveTo` for each direction and one of `beginMove` for each place of the position. With them O29.
-/

-- One theorem after another: waiting proofs would each hold a thread.
set_option Elab.async false

namespace Sys2Proof.Machine

/-! ### The drive's windows (R66) -/

section Windows
variable {d : Drive} {f : Feed}

/-- With the outputs off the window is abandoned. -/
theorem Feed.driveTo_off : f.driveTo .off = { f with drive := .off, window := none } := rfl

/-- Forward, fast or slow: a window begins from outputs off and from the other direction. -/
theorem Feed.driveTo_forward (h : d = .fast ∨ d = .slow) :
    f.driveTo d = { f with drive := d, window :=
      if f.drive = .off ∨ f.drive = .rev then some { net := 0, left := 50 } else f.window } := by
  have on : d ≠ .off := by rcases h with rfl | rfl <;> decide
  have turns : (f.drive = .off ∨ f.drive.isRev ≠ d.isRev) ↔ (f.drive = .off ∨ f.drive = .rev) := by
    rcases h with rfl | rfl <;> cases f.drive <;> decide
  unfold Feed.driveTo
  rw [if_neg on]
  by_cases begins : f.drive = .off ∨ f.drive = .rev
  · rw [if_pos (turns.2 begins), if_pos begins]
    rfl
  · rw [if_neg (mt turns.1 begins), if_neg begins]

/-- Backward: a window begins unless the drive runs backward already. -/
theorem Feed.driveTo_rev :
    f.driveTo .rev = { f with drive := .rev, window :=
      if f.drive = .rev then f.window else some { net := 0, left := 50 } } := by
  have turns : (f.drive = .off ∨ f.drive.isRev ≠ Drive.rev.isRev) ↔ f.drive ≠ .rev := by cases f.drive <;> decide
  unfold Feed.driveTo
  rw [if_neg (by decide)]
  by_cases back : f.drive = .rev
  · rw [if_neg fun begins => turns.1 begins back, if_pos back]
  · rw [if_pos (turns.2 back), if_neg back]
    rfl

/-- The two zones drive forward (R61). -/
theorem Feed.zoneDrive_forward (target : Int) : f.zoneDrive target = .fast ∨ f.zoneDrive target = .slow := by
  unfold Feed.zoneDrive
  split
  · exact .inl rfl
  · exact .inr rfl

end Windows

/-! ### The beginning of a move (R59, R60, R64) -/

theorem Feed.takesMove_iff {target : Int} {r : Requester} {f : Feed} :
    f.takesMove target r = true ↔
      (-2147483648 ≤ target ∧ target ≤ 2147483647) ∧ (f.axis = .idle ∨ (f.axis = .loading ∧ r = .load)) := by
  simp only [Feed.takesMove, inCounterRange, Bool.and_eq_true, Bool.or_eq_true, beq_iff_eq, decide_eq_true_eq]

section BeginMove
variable {target : Int} {r : Requester} {f : Feed}

theorem Feed.beginMove_inside (low : target - f.profile.window ≤ f.position)
    (high : f.position ≤ target + f.profile.window) :
    f.beginMove target r = ({ f with drive := .off, window := none, rest := some target }, .done) :=
  if_pos ⟨low, high⟩

theorem Feed.beginMove_below (low : f.position < target - f.profile.window) :
    f.beginMove target r =
      ({ f with
          axis := if f.axis = .loading then .loading else .moving
          drive := if 100 * (f.profile.slow : Int) < target - f.position then .fast else .slow
          window := if f.drive = .off ∨ f.drive = .rev then some { net := 0, left := 50 } else f.window
          move := some { target := target, by_ := r, phase := .approach, reversalUsed := false, endPoint := none } },
        .begun) := by
  unfold Feed.beginMove
  rw [if_neg fun inside => absurd inside.1 (Int.not_le.2 low), Feed.driveTo_forward (Feed.zoneDrive_forward target)]
  exact if_pos low

theorem Feed.beginMove_above (high : target + f.profile.window < f.position) :
    f.beginMove target r =
      ({ f with
          axis := if f.axis = .loading then .loading else .reversing
          drive := .rev
          window := if f.drive = .rev then f.window else some { net := 0, left := 50 }
          move := some { target := target, by_ := r, phase := .reverse, reversalUsed := false,
                         endPoint := some (target - 100 * (f.profile.backoff : Int)) } },
        .begun) := by
  have notBelow : ¬ f.position < f.windowLow target := by
    unfold Feed.windowLow
    omega
  unfold Feed.beginMove
  rw [if_neg fun inside => absurd inside.2 (Int.not_le.2 high), if_neg notBelow, Feed.driveTo_rev]
  rfl

end BeginMove

/-- A taken move with its outcome. -/
theorem requestMove_begins {target : Int} {r : Requester} {s : State} {f : Feed} {m : MoveStart}
    (taken : s.feed.takesMove target r = true) (begins : s.feed.beginMove target r = (f, m)) :
    requestMove target r s = (s.mapFeed fun _ => f, m) := by
  rw [requestMove_taken taken, begins]

/-- Settles O29: `takesMove_iff` for who is taken, and `beginMove` by the place of the position. -/
theorem movesBeginByThePositionAgainstTheWindow : Obligations.MovesBeginByThePositionAgainstTheWindow := by
  unfold Obligations.MovesBeginByThePositionAgainstTheWindow
  intro target r s
  refine ⟨fun refused => requestMove_refused (Bool.eq_false_iff.2 fun taken => ?_), fun least most axis => ?_⟩
  · obtain ⟨range, axis⟩ := Feed.takesMove_iff.1 taken
    rcases refused with out | ⟨notIdle, notLeg⟩
    · exact out range
    · exact axis.elim notIdle notLeg
  · have taken : s.feed.takesMove target r = true := Feed.takesMove_iff.2 ⟨⟨least, most⟩, axis⟩
    exact ⟨fun low high => requestMove_begins taken (Feed.beginMove_inside low high),
      fun low => ⟨_, requestMove_begins taken (Feed.beginMove_below low), rfl, rfl, rfl, rfl, rfl⟩,
      fun high => ⟨_, requestMove_begins taken (Feed.beginMove_above high), rfl, rfl, rfl, rfl, rfl⟩⟩

end Sys2Proof.Machine
end

section
/-!
PROOFS. The encoder's counts (R55), and what a count brings about before it is judged: a forward jog's charge (R80,
R176) and the fall of the remaining length (R85, R86). With them O31.
-/

-- One theorem after another: waiting proofs would each hold a thread.
set_option Elab.async false

namespace Sys2Proof.Machine

/-- An event whose operation is known: the line is given at its end (log 3). -/
theorem exec_given {i : Instr} {s t u : State} (e : t = u) (event : exec i s = .next (giveLine t)) :
    exec i s = .next (giveLine u) := e ▸ event

/-! ### Counts (R55) -/

/-- A change of both inputs or of none counts nothing. -/
theorem encStep_none : ∀ {invert a b a' b' : Bool}, (a' = a ↔ b' = b) → encStep invert a b a' b' = 0 := by decide

/-- A change of one input counts along the cycle or against it, the other way where the profile inverts. -/
theorem encStep_one : ∀ {invert forward a b a' b' : Bool}, ¬ (a' = a ↔ b' = b) →
    (forward = true ↔ (a, b, a', b') ∈
      [(false, false, true, false), (true, false, true, true), (true, true, false, true),
        (false, true, false, false)]) →
    encStep invert a b a' b' = if forward = invert then -1 else 1 := by decide

theorem Drive.isRev_iff {d : Drive} : d.isRev = true ↔ d = .rev := by cases d <;> decide

/-- Where a count goes, the window's own direction written out (R55, R66, R74). -/
theorem Feed.count_eq (d : Int) (f : Feed) :
    f.count d =
      { f with
        pos := f.pos + BitVec.ofInt 32 d
        roll := { f.roll with consumed := f.roll.consumed + d, reach := max f.roll.reach (f.roll.consumed + d) }
        window := f.window.map fun w => { w with net := w.net + (if f.drive = .rev then -d else d) } } := by
  unfold Feed.count
  simp only [Drive.isRev_iff]

section Encoder
variable {a b : Bool} {s : State}

theorem encoderChange_still (h : encStep s.feed.profile.invert s.feed.encA s.feed.encB a b = 0) :
    encoderChange a b s = s.mapFeed fun f => { f with encA := a, encB := b } := if_pos h

/-- A count reaches the axis first; then come the jog's charge and the media, and at last it is judged. -/
theorem encoderChange_counts {d : Int} (h : encStep s.feed.profile.invert s.feed.encA s.feed.encB a b = d) (one : d ≠ 0)
    {t : State} (counted : t = s.mapFeed fun f => Feed.count d { f with encA := a, encB := b }) :
    encoderChange a b s = judgeCount (mediaFell (s.feed.roll.remaining - t.feed.roll.remaining)
      (chargeJog (t.feed.roll.reach - s.feed.roll.reach).toNat t)) := by
  subst counted h
  exact if_neg one

end Encoder

/-! ### A forward jog's charge (R80, R176) -/

section Charge
variable {rise : Nat} {s : State}

theorem chargeJog_charges {m : Move} (move : s.feed.move = some m) (jog : m.by_ = .jog true) (rises : 0 < rise) :
    chargeJog rise s =
      { s with
        feed := { s.feed with
                  roll := { s.feed.roll with pieceBase := s.feed.roll.pieceBase.map (· + (rise : Int)) } }
        cost := { s.cost with
                  overhead :=
                    { s.cost.overhead with
                      jog := s.cost.overhead.jog.set s.feed.roll.mediaType
                        (min (s.cost.overhead.jog[s.feed.roll.mediaType] + rise) 4294967295) } } } := by
  unfold chargeJog
  rw [move]
  exact if_pos ⟨jog, rises⟩

/-- Nothing else is charged. -/
theorem chargeJog_leaves (h : ∀ m, s.feed.move = some m → m.by_ = .jog true → rise = 0) : chargeJog rise s = s := by
  unfold chargeJog
  split
  · next m move => exact if_neg fun ⟨jog, rises⟩ => Nat.ne_of_gt rises (h m move jog)
  · rfl

end Charge

/-! ### A fall of the remaining length (R85, R86) -/

section Fell
variable {mm : Nat} {s : State}

theorem mediaFell_zero : mediaFell 0 s = s := rfl

theorem mediaFell_free (falls : 0 < mm) (free : s.pathJob = none) : mediaFell mm s = holdRule s := by
  unfold mediaFell
  rw [if_neg (Nat.ne_of_gt falls), free]

/-- The job on the media path draws what has fallen. -/
theorem mediaFell_drawn {i : JobIx} {j : Job} (falls : 0 < mm) (path : s.pathJob = some (i, j)) :
    mediaFell mm s =
      holdRule (putJob i { j with drawn := j.drawn + mm, mediaRes := j.planned - (j.drawn + mm) } s) := by
  rw [← setJob_put (State.pathJob_some path).1 fun j =>
    { j with drawn := j.drawn + mm, mediaRes := j.planned - (j.drawn + mm) }]
  unfold mediaFell
  rw [if_neg (Nat.ne_of_gt falls), path]

end Fell

/-- Settles O31: the count by the change of the inputs, then the charge and the fall of the remaining length. -/
theorem encoderCountsReachPositionAndRoll : Obligations.EncoderCountsReachPositionAndRoll := by
  unfold Obligations.EncoderCountsReachPositionAndRoll
  refine ⟨fun a b s => ⟨fun still => ?_, fun forward d t moved cycle hd ht => ?_⟩,
    fun rise s => ⟨fun m => chargeJog_charges, fun h => chargeJog_leaves fun m move jog => ?_⟩,
    fun mm s => ⟨fun zero => zero ▸ mediaFell_zero, mediaFell_free, fun i j => mediaFell_drawn⟩⟩
  · exact exec_given (encoderChange_still (encStep_none still)) rfl
  · have step : encStep s.feed.profile.invert s.feed.encA s.feed.encB a b = d := (encStep_one moved cycle).trans hd.symm
    have one : d ≠ 0 := by
      rw [hd]
      split <;> decide
    have counted : t = s.mapFeed fun f => Feed.count d { f with encA := a, encB := b } :=
      ht.trans (State.mapFeed_congr (Feed.count_eq d { s.feed with encA := a, encB := b }).symm)
    exact exec_given (encoderChange_counts step one counted) rfl
  · rcases h with none_ | ⟨n, other, notJog⟩ | zero
    · rw [none_] at move
      cases move
    · rw [other] at move
      cases move
      exact absurd jog notJog
    · exact zero

end Sys2Proof.Machine
end

section
/-!
PROOFS. A count judged by the move under way (R61 to R63, R66), and the completion of a move with what its requester
does (R12, R13, R19, R62). With them O32.
-/

-- One theorem after another: waiting proofs would each hold a thread.
set_option Elab.async false

namespace Sys2Proof.Machine

/-! ### The legs of a move (R61 to R63) -/

section Legs
variable {m : Move} {d : Drive} {f : Feed}

/-- The forward approach, its window written out. -/
theorem Feed.approach_eq (h : d = .fast ∨ d = .slow) :
    f.approach m d =
      { f with
        window := if f.drive = .off ∨ f.drive = .rev then some { net := 0, left := 50 } else f.window
        drive := d
        axis := if f.axis = .loading then .loading else .moving
        settleLeft := none
        move := some { m with phase := .approach, endPoint := none } } := by
  unfold Feed.approach
  rw [Feed.driveTo_forward h]
  rfl

/-- The one recovery leg of a move, where the profile allows it (R63). -/
theorem Feed.overrun_recovers (reversal : f.profile.reversal = true) (unused : m.reversalUsed = false) :
    f.overrun m =
      ({ f with
          window := if f.drive = .rev then f.window else some { net := 0, left := 50 }
          drive := .rev
          axis := if f.axis = .loading then .loading else .reversing
          settleLeft := none
          move := some { m with phase := .reverse, reversalUsed := true,
                                endPoint := some (m.target - 100 * (f.profile.backoff : Int)) } }, .none) := by
  unfold Feed.overrun
  rw [if_pos ⟨reversal, unused⟩, Feed.driveTo_rev]
  rfl

theorem Feed.overrun_faults (h : f.profile.reversal = false ∨ m.reversalUsed = true) : f.overrun m = (f, .overrun) := by
  refine if_neg fun ⟨reversal, unused⟩ => ?_
  rcases h with h | h
  · rw [h] at reversal
    cases reversal
  · rw [h] at unused
    cases unused

end Legs

/-! ### A count by the phase of the move (R61 to R63) -/

section MoveCount
variable {m : Move} {f : Feed}

/-- A position that is not above the window has not overrun. -/
theorem Feed.notAbove (h : f.position ≤ m.target + f.profile.window) : ¬ f.windowHigh m.target < f.position :=
  Int.not_lt.2 h

theorem Feed.notAbove_of_below (h : f.position < m.target - f.profile.window) :
    ¬ f.windowHigh m.target < f.position := by
  unfold Feed.windowHigh
  omega

theorem Feed.moveCount_above (phase : m.phase ≠ .reverse) (above : m.target + f.profile.window < f.position) :
    f.moveCount m = f.overrun m := by
  unfold Feed.moveCount
  split
  · next reverse => exact absurd reverse phase
  · exact if_pos above
  · exact if_pos above

section Approach
variable (phase : m.phase = .approach)
include phase

theorem Feed.moveCount_zones (below : f.position < m.target - f.profile.window) :
    f.moveCount m = (f.driveTo (f.zoneDrive m.target), .none) := by
  unfold Feed.moveCount
  rw [phase]
  exact (if_neg (Feed.notAbove_of_below below)).trans (if_neg (Int.not_le.2 below))

theorem Feed.moveCount_enters (low : m.target - f.profile.window ≤ f.position)
    (high : f.position ≤ m.target + f.profile.window) : f.moveCount m = (f.enterWindow m, .none) := by
  unfold Feed.moveCount
  rw [phase]
  exact (if_neg (Feed.notAbove high)).trans (if_pos low)

end Approach

section Settle
variable (phase : m.phase = .settle)
include phase

theorem Feed.moveCount_fallsBack (below : f.position < m.target - f.profile.window) :
    f.moveCount m = (f.approach m .slow, .none) := by
  unfold Feed.moveCount
  rw [phase]
  exact (if_neg (Feed.notAbove_of_below below)).trans (if_pos below)

theorem Feed.moveCount_stays (low : m.target - f.profile.window ≤ f.position)
    (high : f.position ≤ m.target + f.profile.window) : f.moveCount m = (f, .none) := by
  unfold Feed.moveCount
  rw [phase]
  exact (if_neg (Feed.notAbove high)).trans (if_neg (Int.not_lt.2 low))

end Settle

section Reverse
variable {e : Int} (phase : m.phase = .reverse) (endPoint : m.endPoint = some e)
include phase endPoint

theorem Feed.moveCount_returning (h : e < f.position) : f.moveCount m = (f, .none) := by
  unfold Feed.moveCount
  rw [phase, endPoint]
  exact if_neg (Int.not_le.2 h)

theorem Feed.moveCount_returned (h : f.position ≤ e) : f.moveCount m = (f.approach m .fast, .none) := by
  unfold Feed.moveCount
  rw [phase, endPoint]
  exact if_pos h

end Reverse

end MoveCount

/-! ### The count judged -/

section Judged
variable {m : Move} {s : State} (move : s.feed.move = some m)
include move

theorem judgeCount_moves {g : Feed → Feed} (judged : s.feed.moveCount m = (g s.feed, .none)) :
    judgeCount s = s.mapFeed g := by
  unfold judgeCount
  rw [move]
  dsimp only
  rw [judged]
  rfl

theorem judgeCount_overruns {f : Feed} (judged : s.feed.moveCount m = (f, .overrun)) :
    judgeCount s = feedFault .overrun s := by
  unfold judgeCount
  rw [move]
  dsimp only
  rw [judged]

/-- In the approach the zones drive, until the position is in the window and the settle time begins (R61, R62). -/
theorem judgeCount_approach (phase : m.phase = .approach) :
    (s.feed.position < m.target - s.feed.profile.window → judgeCount s = s.mapFeed fun f =>
      { f with window := if f.drive = .off ∨ f.drive = .rev then some { net := 0, left := 50 } else f.window
               drive := if 100 * (f.profile.slow : Int) < m.target - f.position then .fast else .slow }) ∧
    (m.target - s.feed.profile.window ≤ s.feed.position → s.feed.position ≤ m.target + s.feed.profile.window →
      judgeCount s = s.mapFeed fun f =>
        { f with drive := .off, window := none, move := some { m with phase := .settle },
                 settleLeft := some f.profile.settle }) := by
  refine ⟨fun below => judgeCount_moves move ?_, fun low high => judgeCount_moves move ?_⟩
  · rw [Feed.moveCount_zones phase below, Feed.driveTo_forward (Feed.zoneDrive_forward m.target)]
    rfl
  · exact Feed.moveCount_enters phase low high

/-- In the settle phase a fall below the window begins the approach again (R62). -/
theorem judgeCount_settle (phase : m.phase = .settle) :
    (s.feed.position < m.target - s.feed.profile.window → judgeCount s = s.mapFeed fun f =>
      { f with window := if f.drive = .off ∨ f.drive = .rev then some { net := 0, left := 50 } else f.window,
               drive := .slow, axis := if f.axis = .loading then .loading else .moving,
               settleLeft := none, move := some { m with phase := .approach, endPoint := none } }) ∧
    (m.target - s.feed.profile.window ≤ s.feed.position → s.feed.position ≤ m.target + s.feed.profile.window →
      judgeCount s = s) := by
  refine ⟨fun below => judgeCount_moves move ?_, fun low high => judgeCount_moves (g := id) move ?_⟩
  · rw [Feed.moveCount_fallsBack phase below, Feed.approach_eq (.inr rfl)]
  · exact Feed.moveCount_stays phase low high

/-- Above the window the move takes its one recovery leg, or faults (R63). -/
theorem judgeCount_above (phase : m.phase ≠ .reverse) (above : m.target + s.feed.profile.window < s.feed.position) :
    (s.feed.profile.reversal = true → m.reversalUsed = false → judgeCount s = s.mapFeed fun f =>
      { f with window := if f.drive = .rev then f.window else some { net := 0, left := 50 },
               drive := .rev, axis := if f.axis = .loading then .loading else .reversing, settleLeft := none,
               move := some { m with phase := .reverse, reversalUsed := true,
                                     endPoint := some (m.target - 100 * (f.profile.backoff : Int)) } }) ∧
    (s.feed.profile.reversal = false ∨ m.reversalUsed = true → judgeCount s = feedFault .overrun s) := by
  have judged := Feed.moveCount_above phase above
  exact ⟨fun reversal unused => judgeCount_moves move (judged.trans (Feed.overrun_recovers reversal unused)),
    fun h => judgeCount_overruns move (judged.trans (Feed.overrun_faults h))⟩

/-- A reverse leg ends at its end point, where the forward approach begins (R63, R64). -/
theorem judgeCount_reverse {e : Int} (phase : m.phase = .reverse) (endPoint : m.endPoint = some e) :
    (e < s.feed.position → judgeCount s = s) ∧
    (s.feed.position ≤ e → judgeCount s = s.mapFeed fun f =>
      { f with window := if f.drive = .off ∨ f.drive = .rev then some { net := 0, left := 50 } else f.window,
               drive := .fast, axis := if f.axis = .loading then .loading else .moving,
               settleLeft := none, move := some { m with phase := .approach, endPoint := none } }) := by
  refine ⟨fun before => judgeCount_moves (g := id) move ?_, fun reached => judgeCount_moves move ?_⟩
  · exact Feed.moveCount_returning phase endPoint before
  · rw [Feed.moveCount_returned phase endPoint reached, Feed.approach_eq (.inl rfl)]

end Judged

/-! ### The completion of a move (R62) -/

section Completion
variable {s : State} {i : JobIx} {j : Job}

theorem settleEnded_still (h : s.feed.move = none ∨ s.feed.settleLeft = none) : settleEnded s = s := by
  unfold settleEnded
  split
  · next m n move left =>
    rcases h with none_ | none_
    · rw [none_] at move
      cases move
    · rw [none_] at left
      cases left
  · rfl

theorem settleEnded_completes {m : Move} {n : Nat} (move : s.feed.move = some m) (left : s.feed.settleLeft = some n) :
    settleEnded s = startEval (spoilAfterMove (moveDone m.by_ (s.mapFeed (Feed.completeMove m)))) := by
  unfold settleEnded
  rw [move, left]

/-- The strip's reading begins unless the strip has ended since (R147, log 31). -/
theorem moveDone_strip :
    (s.chk.state = .idle → moveDone .strip s = s) ∧
    (s.chk.state ≠ .idle →
      moveDone .strip s = s.mapChk fun k => { k with reading := some { phase := .command, discard := false } }) :=
  ⟨fun idle => if_pos idle, fun running => if_neg running⟩

theorem moveDone_backFeed_free (free : s.pathJob = none) : moveDone .backFeed s = s := by
  change backFeedDone s = s
  unfold backFeedDone
  rw [free]

/-- The back-feed of a starting phase: the job starts, or closes where it was cancelled meanwhile (R12, R13). -/
theorem moveDone_backFeed (path : s.pathJob = some (i, j)) :
    (j.outcome = none → moveDone .backFeed s = startStep i s) ∧
    (j.outcome.isSome = true → moveDone .backFeed s = closeJob i 0 s) := by
  have fed : moveDone .backFeed s = if j.outcome.isSome then closeJob i 0 s else startStep i s := by
    change backFeedDone s = _
    unfold backFeedDone
    rw [path]
  rw [fed]
  exact ⟨fun undecided => if_neg (by rw [undecided]; exact Bool.false_ne_true), fun decided => if_pos decided⟩

/-- A load's legs: the trim leg is followed by the trim cut, the back-feed by the load's end (R77). -/
theorem moveDone_load :
    (s.feed.load = some .trimLeg →
      moveDone .load s = beginKnife (s.mapFeed fun f => { f with load := some .trimCut })) ∧
    (s.feed.load = some .backFeed → moveDone .load s = loadEnd s) ∧
    (s.feed.load ≠ some .trimLeg → s.feed.load ≠ some .backFeed → moveDone .load s = s) := by
  unfold moveDone
  dsimp only
  refine ⟨fun leg => by rw [leg]; rfl, fun back => by rw [back], fun notLeg notBack => ?_⟩
  split
  · next leg => exact absurd leg notLeg
  · next back => exact absurd back notBack
  · rfl

theorem spoilAfterMove_goesOn (path : s.pathJob = some (i, j)) (waits : j.spoilWait = true)
    (idle : s.feed.axis = .idle) :
    spoilAfterMove s = spoilCut i s := by
  unfold spoilAfterMove
  rw [path]
  exact if_pos ⟨waits, idle⟩

theorem spoilAfterMove_leaves (h : ∀ i j, s.pathJob = some (i, j) → s.feed.axis = .idle → j.spoilWait = false) :
    spoilAfterMove s = s := by
  unfold spoilAfterMove
  split
  · next i j path =>
    refine if_neg fun ⟨waits, idle⟩ => ?_
    rw [h i j path idle] at waits
    cases waits
  · rfl

end Completion

/-- Settles O32: the count by the phase of the move, the settle time, and the requesters one by one. -/
theorem countsAndTheSettleTimeCarryTheMove : Obligations.CountsAndTheSettleTimeCarryTheMove := by
  unfold Obligations.CountsAndTheSettleTimeCarryTheMove
  refine ⟨fun m s move => ?_, fun s => ⟨fun still => ?_, fun m n move left => ?_⟩, fun s => ?_, fun s => ?_⟩
  · exact ⟨fun phase => (judgeCount_approach move phase).1, fun phase => (judgeCount_approach move phase).2,
      fun phase => (judgeCount_settle move phase).1, fun phase => (judgeCount_settle move phase).2,
      fun phase above => judgeCount_above move phase above,
      fun e phase endPoint => judgeCount_reverse move phase endPoint⟩
  · exact exec_given (settleEnded_still still) rfl
  · exact exec_given (settleEnded_completes move left) rfl
  · obtain ⟨stopped, reads⟩ := moveDone_strip (s := s)
    obtain ⟨leg, back, other⟩ := moveDone_load (s := s)
    exact ⟨rfl, stopped, reads, rfl, moveDone_backFeed_free,
      fun i j => moveDone_backFeed, leg, back, other, fun forward => rfl⟩
  · refine ⟨fun i j => spoilAfterMove_goesOn, fun h => spoilAfterMove_leaves fun i j path idle => ?_⟩
    rcases h with free | notIdle | ⟨k, l, path', unwaiting⟩
    · rw [free] at path
      cases path
    · exact absurd idle notIdle
    · rw [path'] at path
      cases path
      exact unwaiting

end Sys2Proof.Machine
end

section
/-!
PROOFS. The detectors and the effect of a fault (R66, R67, R69, R76, R81, R88), and the changes of EDGE (R68, R76, R77):
one equation of the operation for each case. With them O33 and O34.
-/

-- One theorem after another: waiting proofs would each hold a thread.
set_option Elab.async false

namespace Sys2Proof.Machine

/-! ### The stall window (R66) -/

section Window
variable {s : State} {w : DriveWindow}

theorem windowEnded_none (h : s.feed.window = none) : windowEnded s = s := by
  unfold windowEnded
  rw [h]

variable (h : s.feed.window = some w)
include h

theorem windowEnded_stalled (few : w.net < 4) : windowEnded s = feedFault .stall s := by
  unfold windowEnded
  rw [h]
  exact if_pos few

theorem windowEnded_runs (enough : 4 ≤ w.net) :
    windowEnded s = s.mapFeed fun f => { f with window := some { net := 0, left := 50 } } := by
  unfold windowEnded
  rw [h]
  exact if_neg (Int.not_lt.2 enough)

end Window

/-! ### The edge search's limit (R76) -/

theorem searchLimit_reached {s : State} {p : BitVec 32} (search : s.feed.load = some (.search p))
    (far : 100000 ≤ (s.feed.pos - p).toInt) : searchLimit s = feedFault .edgeNotFound s := by
  unfold searchLimit
  rw [search]
  exact if_pos far

theorem searchLimit_within {s : State} (h : ∀ p, s.feed.load = some (.search p) → (s.feed.pos - p).toInt < 100000) :
    searchLimit s = s := by
  unfold searchLimit
  split
  · next p search => exact if_neg (Int.not_le.2 (h p search))
  · rfl

/-! ### The knife's two times (R81) -/

section KnifeLimits
variable {s : State} {n : Nat}

theorem strokeExpired_faults (h : s.feed.knifeCycle = some (.stroke n)) : strokeExpired s = feedFault .knife s := by
  unfold strokeExpired
  rw [h]

theorem strokeExpired_leaves (h : ∀ n, s.feed.knifeCycle ≠ some (.stroke n)) : strokeExpired s = s := by
  unfold strokeExpired
  split
  · next n stroke => exact absurd stroke (h n)
  · rfl

theorem returnExpired_faults (h : s.feed.knifeCycle = some (.return_ n)) : returnExpired s = feedFault .knife s := by
  unfold returnExpired
  rw [h]

theorem returnExpired_leaves (h : ∀ n, s.feed.knifeCycle ≠ some (.return_ n)) : returnExpired s = s := by
  unfold returnExpired
  split
  · next n back => exact absurd back (h n)
  · rfl

end KnifeLimits

/-! ### The slip rule (R67) -/

section Slip
variable {s : State}

/-- Without a move the slip rule alone judges a count. -/
theorem judgeCount_still (still : s.feed.move = none) :
    judgeCount s = if s.feed.slipped then feedFault .slip s else s := by
  unfold judgeCount
  rw [still]

theorem Feed.slipped_idle {f : Feed} {r : Int} (idle : f.axis = .idle) (rest : f.rest = some r) :
    f.slipped = true ↔ f.position < r - f.profile.slip ∨ r + f.profile.slip < f.position := by
  unfold Feed.slipped
  rw [idle, rest, Bool.and_eq_true, decide_eq_true_eq]
  exact and_iff_right rfl

theorem Feed.slipped_active {f : Feed} (h : f.axis ≠ .idle) : f.slipped = false := by
  unfold Feed.slipped
  rw [beq_eq_false_iff_ne.2 h, Bool.false_and]

theorem judgeCount_idle {r : Int} (idle : s.feed.axis = .idle) (still : s.feed.move = none)
    (rest : s.feed.rest = some r) :
    (s.feed.position < r - s.feed.profile.slip ∨ r + s.feed.profile.slip < s.feed.position →
      judgeCount s = feedFault .slip s) ∧
    (r - s.feed.profile.slip ≤ s.feed.position → s.feed.position ≤ r + s.feed.profile.slip → judgeCount s = s) := by
  rw [judgeCount_still still]
  refine ⟨fun out => if_pos ((Feed.slipped_idle idle rest).2 out), fun low high => if_neg fun slipped => ?_⟩
  rcases (Feed.slipped_idle idle rest).1 slipped with below | above
  · exact Int.not_lt.2 low below
  · exact Int.not_lt.2 high above

theorem judgeCount_active (active : s.feed.axis ≠ .idle) (still : s.feed.move = none) : judgeCount s = s := by
  rw [judgeCount_still still, Feed.slipped_active active]
  rfl

end Slip

/-! ### The effect of a fault (R69, R88) -/

/-- The state as a fault leaves it before the job's part: the axis stopped, and at media out the roll besides. -/
def faultStopped (k : FaultKind) (s : State) : State :=
  if k = .mediaOut then mediaOut (s.mapFeed (Feed.enterFault k)) else s.mapFeed (Feed.enterFault k)

section Fault
variable {k : FaultKind} {s v : State}

theorem faultStopped_eq (out : k = .mediaOut → v = mediaOut (s.mapFeed (Feed.enterFault k)))
    (other : k ≠ .mediaOut → v = s.mapFeed (Feed.enterFault k)) : v = faultStopped k s := by
  unfold faultStopped
  split
  · next h => exact out h
  · next h => exact other h

variable (stopped : v = faultStopped k s)
include stopped

theorem feedFault_free (free : v.pathJob = none) : feedFault k s = notify .feedAxis v := by
  subst stopped
  unfold faultStopped at free ⊢
  unfold feedFault
  dsimp only
  rw [free]

theorem feedFault_path {i : JobIx} {j : Job} (path : v.pathJob = some (i, j)) :
    feedFault k s = notify .feedAxis (faultJob i j v) := by
  subst stopped
  unfold faultStopped at path ⊢
  unfold feedFault
  dsimp only
  rw [path]

end Fault

section MediaOut
variable {s u : State} (exhausted : u = s.mapFeed fun f => { f with roll := { f.roll with state := .exhausted } })
include exhausted

theorem mediaOut_free (free : s.pathJob = none) : mediaOut s = holdRule u := by
  have still : u.pathJob = none := exhausted ▸ free
  unfold mediaOut
  dsimp only
  rw [← exhausted, still]

/-- The job on the media path loses its reservation. -/
theorem mediaOut_path {i : JobIx} {j : Job} (path : s.pathJob = some (i, j)) :
    mediaOut s = holdRule (putJob i { j with mediaRes := 0 } u) := by
  have on : u.pathJob = some (i, j) := exhausted ▸ path
  rw [← setJob_put (State.pathJob_some on).1 fun j => { j with mediaRes := 0 }]
  unfold mediaOut
  dsimp only
  rw [← exhausted, on]

end MediaOut

/-- Settles O33: each detector by what it watches, then the fault's effect on the axis, the roll and the job. -/
theorem detectorsTakeFaultsThatStopTheAxis : Obligations.DetectorsTakeFaultsThatStopTheAxis := by
  unfold Obligations.DetectorsTakeFaultsThatStopTheAxis
  refine ⟨fun s => ⟨fun none_ => exec_given (windowEnded_none none_) rfl,
    fun w window few => exec_given (windowEnded_stalled window few) rfl,
    fun w window enough => exec_given (windowEnded_runs window enough) rfl,
    fun p search far => exec_given (searchLimit_reached search far) rfl,
    fun within => exec_given (searchLimit_within within) rfl, fun n stroke => ?_, fun n back => ?_, fun none_ => ?_,
    fun r idle still rest => judgeCount_idle idle still rest, judgeCount_active⟩,
    fun k s u v hu out other => ?_,
    fun s u exhausted => ⟨mediaOut_free exhausted, fun i j => mediaOut_path exhausted⟩⟩
  · exact ⟨exec_given (strokeExpired_faults stroke) rfl,
      exec_given (returnExpired_leaves (by rw [stroke]; simp)) rfl⟩
  · exact ⟨exec_given (returnExpired_faults back) rfl,
      exec_given (strokeExpired_leaves (by rw [back]; simp)) rfl⟩
  · exact ⟨exec_given (returnExpired_leaves (by rw [none_]; simp)) rfl,
      exec_given (strokeExpired_leaves (by rw [none_]; simp)) rfl⟩
  · have entered : u = s.mapFeed (Feed.enterFault k) := hu
    rw [entered] at out other
    have stopped := faultStopped_eq out other
    exact ⟨feedFault_free stopped, fun i j => feedFault_path stopped⟩

/-! ### Changes of EDGE (R68, R76) -/

section Edge
variable {present : Bool} {s u : State} (level : u = s.mapFeed fun f => { f with edge := present })
include level

/-- Outside an edge search the loss of the media in a forward approach is media out (R68). -/
theorem edgeChanged_outsideSearch (h : ∀ p, s.feed.load ≠ some (.search p)) :
    edgeChanged present s =
      if s.feed.edge = true ∧ present = false ∧ s.feed.forwardApproach = true then feedFault .mediaOut u else u := by
  subst level
  unfold edgeChanged
  dsimp only
  split
  · next p search => exact absurd search (h p)
  · rfl

/-- In an edge search the coming of the media is the edge reference (R76). -/
theorem edgeChanged_search {p : BitVec 32} (search : s.feed.load = some (.search p)) :
    edgeChanged present s = if s.feed.edge = false ∧ present = true then edgeReference u else u := by
  subst level
  unfold edgeChanged
  dsimp only [State.mapFeed_feed]
  rw [search]

end Edge

/-! ### The edge reference (R76, R77) -/

section Reference
variable {s v : State} (reference : v = s.mapFeed Feed.reference)
include reference

/-- The trim leg done at once is followed by the trim cut; one under way, or refused, leaves the load to it (log 18). -/
theorem edgeReference_leg {t : State} {m : MoveStart}
    (leg : requestMove (100 * (s.feed.profile.trim : Int)) .load v = (t, m)) :
    edgeReference s = if m = .done then trimCut t else t := by
  subst reference
  unfold edgeReference
  dsimp only
  rw [show requestMove (100 * ((s.mapFeed Feed.reference).feed.profile.trim : Int)) .load (s.mapFeed Feed.reference)
    = (t, m) from leg]
  cases m <;> rfl

end Reference

/-- A forward approach is the approach or settle phase of a move in MOVING or LOADING (R68, log 19). -/
theorem Feed.forwardApproach_iff {f : Feed} :
    f.forwardApproach = true ↔ ∃ m, f.move = some m ∧ (f.axis = .moving ∨ f.axis = .loading) ∧
      (m.phase = .approach ∨ m.phase = .settle) := by
  unfold Feed.forwardApproach
  cases h : f.move with
  | none => simp
  | some m => simp only [Bool.and_eq_true, Bool.or_eq_true, beq_iff_eq, Option.some.injEq, exists_eq_left']

/-- Settles O34: the change of EDGE outside and in an edge search, and the trim leg by its outcome. -/
theorem edgeChangeIsMediaOutOrTheReference : Obligations.EdgeChangeIsMediaOutOrTheReference := by
  unfold Obligations.EdgeChangeIsMediaOutOrTheReference
  intro present s u level
  refine ⟨fun outside was gone forward => ?_, fun outside h => ?_, fun p search => ⟨fun was come => ?_, fun h => ?_⟩,
    fun v reference => ?_, rfl, Feed.forwardApproach_iff⟩
  · exact exec_given ((edgeChanged_outsideSearch level outside).trans (if_pos ⟨was, gone, forward⟩)) rfl
  · refine exec_given ((edgeChanged_outsideSearch level outside).trans (if_neg fun ⟨was, gone, forward⟩ => ?_)) rfl
    rcases h with absent | come | standing
    · rw [absent] at was
      cases was
    · rw [come] at gone
      cases gone
    · rw [standing] at forward
      cases forward
  · exact exec_given ((edgeChanged_search level search).trans (if_pos ⟨was, come⟩)) rfl
  · refine exec_given ((edgeChanged_search level search).trans (if_neg fun ⟨was, come⟩ => ?_)) rfl
    rcases h with there | gone
    · rw [there] at was
      cases was
    · rw [gone] at come
      cases come
  · exact ⟨fun t done => edgeReference_leg reference done, fun t begun => edgeReference_leg reference begun,
      fun t refused => (edgeReference_leg reference refused).trans (requestMove_refusal refused)⟩

end Sys2Proof.Machine
end

section
/-!
PROOFS. LOAD_ROLL (R75, R76) and the hold rule (R86): one equation of the owner for each answer, and of the rule's two
steps for each case. With them O27.
-/

-- One theorem after another: waiting proofs would each hold a thread.
set_option Elab.async false

namespace Sys2Proof.Machine

/-! ### LOAD_ROLL (R75, R76) -/

/-- The load as it stands when the edge is looked for: the roll record new, the jobs' media given up, the axis in
LOADING (R75). -/
def rollTaken (id declared : Nat) (m : Fin 8) (s : State) : State :=
  notify .feedAxis ((holdRule (s.mapFeed fun f => { f with roll := Roll.loading id declared m })).mapFeed fun f =>
    { f with axis := .loading, load := some (.search f.pos) })

/-- With media present the edge is referenced at once, else searched (R76). -/
theorem loadRoll_eq (id declared : Nat) (m : Fin 8) (s : State) :
    loadRoll id declared m s =
      if s.feed.edge then edgeReference (rollTaken id declared m s)
      else (rollTaken id declared m s).mapFeed (Feed.driveTo .slow) := by
  have feed := holdRule_feed (s.mapFeed fun f => { f with roll := Roll.loading id declared m })
  have level : s.feed.edge = (rollTaken id declared m s).feed.edge := (congrArg Feed.edge feed).symm
  rw [level]
  rfl

section LoadRoll
variable {id declared : U32} {mt : Byte} {s : State}

theorem loadRollOwner_state (h : s.feed.axis ≠ .unreferenced) : loadRollOwner id mt declared s = (s, [0x20]) := if_pos h

variable (axis : s.feed.axis = .unreferenced)
include axis

theorem loadRollOwner_outOfRange (range : 7 < mt.toNat ∨ declared.toNat < 1000 ∨ 200000 < declared.toNat) :
    loadRollOwner id mt declared s = (s, [0x21]) := by
  unfold loadRollOwner
  rw [if_neg (not_not_intro axis)]
  split
  · next type => exact if_neg (by omega)
  · rfl

theorem loadRollOwner_taken {m : Fin 8} (type : m.val = mt.toNat) (least : 1000 ≤ declared.toNat)
    (most : declared.toNat ≤ 200000) :
    loadRollOwner id mt declared s = (loadRoll id.toNat declared.toNat m s, [0x00]) := by
  have known : mt.toNat < 8 := type ▸ m.isLt
  obtain rfl : m = ⟨mt.toNat, known⟩ := Fin.ext type
  unfold loadRollOwner
  rw [if_neg (not_not_intro axis), dif_pos known, if_pos ⟨least, most⟩]
  rfl

end LoadRoll

/-! ### The remaining length (R74) -/

section Remaining
variable {r : Roll}

theorem Roll.remaining_loaded (h : r.state = .loaded) :
    r.remaining = ((r.declared : Int) - r.reach / 100).toNat := by
  unfold Roll.remaining
  rw [h]

theorem Roll.remaining_unloaded (h : r.state ≠ .loaded) : r.remaining = 0 := by
  unfold Roll.remaining
  split
  · next loaded => exact absurd loaded h
  · rfl

end Remaining

/-! ### The hold rule (R86) -/

theorem Job.reserves_iff {j : Job} : j.reserves = true ↔ j.state = .pending ∧ 0 < j.mediaRes := by
  simp only [Job.reserves, Bool.and_eq_true, decide_eq_true_eq]

section HoldStep
variable {i : JobIx} {j : Job} {s : State} (live : s.liveJob i = some j)
include live

/-- While too much is reserved, a PENDING job with a reservation loses it and is held. -/
theorem holdStep_holds (short : s.feed.roll.remaining < s.reserved) (pending : j.state = .pending)
    (reserves : 0 < j.mediaRes) :
    holdStep s i =
      notify (.jobSlot i) (putJob i { j with mediaRes := 0, holds := { j.holds with noMedia := true } } s) := by
  unfold holdStep
  rw [live]
  refine (if_pos ⟨short, Job.reserves_iff.2 ⟨pending, reserves⟩⟩).trans ?_
  exact changeJob_put live fun j => { j with mediaRes := 0, holds := { j.holds with noMedia := true } }

theorem holdStep_leaves (h : s.reserved ≤ s.feed.roll.remaining ∨ j.state ≠ .pending ∨ j.mediaRes = 0) :
    holdStep s i = s := by
  unfold holdStep
  rw [live]
  refine if_neg fun ⟨short, reserves⟩ => ?_
  obtain ⟨pending, some_⟩ := Job.reserves_iff.1 reserves
  rcases h with enough | other | none_
  · exact Nat.not_lt.2 enough short
  · exact other pending
  · exact Nat.ne_of_gt some_ none_

end HoldStep

section LowerPath
variable {s : State}

theorem lowerPath_leaves (h : s.reserved ≤ s.feed.roll.remaining ∨ s.pathJob = none) : lowerPath s = s := by
  unfold lowerPath
  split
  · next path =>
    rcases h with enough | free
    · exact if_neg (Nat.not_lt.2 enough)
    · rw [free] at path
      cases path
  · rfl

/-- The job on the media path keeps what remains. -/
theorem lowerPath_lowers {i : JobIx} {j : Job} (short : s.feed.roll.remaining < s.reserved)
    (path : s.pathJob = some (i, j)) :
    lowerPath s =
      putJob i { j with mediaRes := s.feed.roll.remaining, planned := s.feed.roll.remaining + j.drawn } s := by
  unfold lowerPath
  rw [path]
  refine (if_pos short).trans ?_
  exact setJob_put (State.pathJob_some path).1 fun j =>
    { j with mediaRes := s.feed.roll.remaining, planned := s.feed.roll.remaining + j.drawn }

end LowerPath

/-- Settles O27: the owner's equation for each check, the load by the level of EDGE, and the two steps of the hold
rule. -/
theorem loadRollBeginsTheEdgeSearch : Obligations.LoadRollBeginsTheEdgeSearch := by
  unfold Obligations.LoadRollBeginsTheEdgeSearch
  refine ⟨fun ft mt id declared s taken => ?_,
    fun s => ⟨rfl, rfl, Roll.remaining_loaded, Roll.remaining_unloaded⟩,
    fun i j s live => ⟨holdStep_holds live, holdStep_leaves live⟩,
    fun s => ⟨lowerPath_leaves, fun i j => lowerPath_lowers⟩⟩
  have reply : ∀ {t answer}, loadRollOwner id mt declared s = (t, answer) →
      exec (.loadRoll ft id mt declared) s = .next (answered 0xB3 ft answer t) :=
    fun owner => exec_reply taken rfl owner rfl
  refine ⟨fun other => reply (loadRollOwner_state other),
    fun axis => ⟨fun out => reply (loadRollOwner_outOfRange axis out), fun m type least most => ?_⟩⟩
  have load := loadRollOwner_taken (id := id) axis type least most
  rw [loadRoll_eq] at load
  refine ⟨rollTaken id.toNat declared.toNat m s, rfl, fun present => ?_, fun absent => ?_⟩
  · rw [if_pos present] at load
    exact reply load
  · rw [if_neg (Bool.eq_false_iff.1 absent)] at load
    exact reply load

end Sys2Proof.Machine
end

section
/-!
PROOFS. JOG (R80) and SET_TRIM (R82), and the cut that is planned with the effective trim (R83): one equation for each
answer and for each outcome of the cut's move. With them O28 and O30.
-/

-- One theorem after another: waiting proofs would each hold a thread.
set_option Elab.async false

namespace Sys2Proof.Machine

/-! ### JOG (R80) -/

/-- What JOG answers by the outcome of its move, one refused by the state of the axis (log 18). -/
def jogAnswer (s t : State) : MoveStart → Answer
  | .begun => (t, [0x00])
  | .done => (notify .feedAxis t, [0x00])
  | .refused => (s, [0x20])

section Jog
variable {mm : U16} {s : State}

theorem jogOwner_outOfRange (range : mm.toInt < -100 ∨ 1000 < mm.toInt) : jogOwner mm s = (s, [0x21]) := if_pos range

variable (least : -100 ≤ mm.toInt) (most : mm.toInt ≤ 1000)
include least most

theorem jogOwner_state (h : s.feed.axis ≠ .idle ∨ s.pathFree = false) : jogOwner mm s = (s, [0x20]) := by
  unfold jogOwner
  rw [if_neg (by omega)]
  refine if_pos fun ⟨idle, free⟩ => ?_
  rcases h with other | taken
  · exact other idle
  · rw [taken] at free
    cases free

/-- The answer follows the outcome of the move from the rest target. -/
theorem jogOwner_move (idle : s.feed.axis = .idle) (free : s.pathFree = true) {rest : Int} (at_ : s.feed.rest = some rest)
    {t : State} {m : MoveStart}
    (move : requestMove (rest + 100 * mm.toInt) (.jog (decide (0 ≤ mm.toInt))) s = (t, m)) :
    jogOwner mm s = jogAnswer s t m := by
  unfold jogOwner
  rw [if_neg (by omega), if_neg (not_not_intro ⟨idle, free⟩), at_, Option.getD_some, move]
  cases m <;> rfl

end Jog

/-- Settles O28: the owner's equation for the range, for the state, and for each outcome of the move. -/
theorem jogAsksForAMoveFromTheRestTarget : Obligations.JogAsksForAMoveFromTheRestTarget := by
  unfold Obligations.JogAsksForAMoveFromTheRestTarget
  intro ft mm s taken
  have reply : ∀ {t answer}, jogOwner mm s = (t, answer) →
      exec (.jog ft mm) s = .next (answered 0xB5 ft answer t) := fun owner => exec_reply taken rfl owner rfl
  exact ⟨fun out => reply (jogOwner_outOfRange out), fun least most =>
    ⟨fun busy => reply (jogOwner_state least most busy), fun rest t idle free at_ =>
      ⟨fun begun => reply (jogOwner_move least most idle free at_ begun),
        fun done => reply (jogOwner_move least most idle free at_ done),
        fun refused => reply (jogOwner_move least most idle free at_ refused)⟩⟩⟩

/-! ### SET_TRIM (R82) -/

section Trim
variable {mode : Byte} {v : U16} {s : State}

theorem trimOwner_outOfRange (range : 1 < mode.toNat ∨ v.toInt < -500 ∨ 500 < v.toInt) :
    trimOwner mode v s = (s, [0x21]) := by
  refine if_neg fun ⟨known, least, most⟩ => ?_
  have small : mode.toNat ≤ 1 := by rcases known with rfl | rfl <;> decide
  omega

/-- A trim within its limits is left as it is. -/
theorem clampTrim_clampTrim (x : Int) : clampTrim (clampTrim x) = clampTrim x := by
  unfold clampTrim
  omega

variable (least : -500 ≤ v.toInt) (most : v.toInt ≤ 500)
include least most

/-- Fine: the base stays, and the effective trim is that of the two together. -/
theorem trimOwner_fine :
    trimOwner 0 v s =
      (notify .feedAxis (s.mapFeed fun f => { f with trimFine := v.toInt }),
        0x00 :: (s16 s.feed.trimBase ++ s16 v.toInt ++ s16 (clampTrim (s.feed.trimBase + v.toInt)))) :=
  if_pos ⟨.inl rfl, least, most⟩

/-- Add: the base takes all three, limited, and stands alone. -/
theorem trimOwner_add {b : Int} (base : b = clampTrim (s.feed.trimBase + s.feed.trimFine + v.toInt)) :
    trimOwner 1 v s =
      (notify .feedAxis (s.mapFeed fun f => { f with trimBase := b, trimFine := 0 }),
        0x00 :: (s16 b ++ s16 0 ++ s16 b)) := by
  have alone : clampTrim (b + 0) = b := by
    rw [Int.add_zero, base, clampTrim_clampTrim]
  have added : s.feed.setTrim 1 v.toInt = { s.feed with trimBase := b, trimFine := 0 } := by
    rw [base]
    rfl
  refine (if_pos ⟨.inr rfl, least, most⟩).trans ?_
  rw [State.mapFeed_congr (g := fun f => { f with trimBase := b, trimFine := 0 }) added]
  change (_, 0x00 :: (s16 b ++ s16 0 ++ s16 (clampTrim (b + 0)))) = _
  rw [alone]

end Trim

/-! ### A cut planned (R83) -/

/-- A move that is done at once is followed by the knife; one under way, or refused, leaves the cut to it (log 18). -/
theorem planCut_move {i : JobIx} {j : Job} {start target : Int} {offset : Nat} {s t : State} {m : MoveStart}
    (live : s.liveJob i = some j) (started : j.startPos = some start) (next : j.cuts[j.cutsDone]? = some offset)
    (aim : target = cutTarget s.feed start offset) (move : requestMove target .cut s = (t, m)) :
    planCut i s = if m = .done then beginKnife t else t := by
  subst aim
  unfold planCut
  rw [live]
  dsimp only
  rw [started, next]
  dsimp only
  rw [move]
  cases m <;> rfl

/-! ### The trims after a reset (R72) -/

theorem State.restartDue_iff {s : State} :
    s.restartDue = true ↔ s.host.restart = .replyGone ∧ (s.ed.store ≠ .mounting ∧ s.ed.rot = none ∧ s.ed.writes = []) ∧
      s.host.tx = none := by
  simp [State.restartDue, Editions.drained, and_assoc]

/-- Settles O30: the owner's equation for each mode, the planned cut by the outcome of its move, and the feed axis at the
reset effect. -/
theorem trimIsSetAndReadWhenACutIsPlanned : Obligations.TrimIsSetAndReadWhenACutIsPlanned := by
  unfold Obligations.TrimIsSetAndReadWhenACutIsPlanned
  refine ⟨fun ft mode v s taken => ?_, fun i j start target offset s t live started next aim => ?_,
    fun rate1 rate0 flight s => ⟨⟨_, rfl, rfl, rfl⟩, fun gone mounted idle written sent =>
      ⟨resetAll rate1 rate0 s.ed.flash s, ?_, rfl, rfl⟩⟩⟩
  · have reply : ∀ {m t answer}, trimOwner m v s = (t, answer) →
        exec (.setTrim ft m v) s = .next (answered 0xB6 ft answer t) := fun owner => exec_reply taken rfl owner rfl
    exact ⟨fun out => reply (trimOwner_outOfRange out), fun least most =>
      ⟨reply (trimOwner_fine least most), fun b base => reply (trimOwner_add least most base)⟩⟩
  · exact ⟨planCut_move live started next aim, planCut_move live started next aim,
      fun refused => (planCut_move live started next aim refused).trans (requestMove_refusal refused)⟩
  · exact congrArg Host.Outcome.next (if_pos (State.restartDue_iff.2 ⟨gone, ⟨mounted, idle, written⟩, sent⟩))

end Sys2Proof.Machine
end

section
/-!
PROOFS. The knife cycle and the cuts it makes, the trim cut of a load and the load's end, and the retry (R77, R81, R83,
R84, R87, R176): one equation of the operation for each case. With them O35.
-/

-- One theorem after another: waiting proofs would each hold a thread.
set_option Elab.async false

namespace Sys2Proof.Machine

/-! ### The knife cycle (R81) -/

section BeginKnife
variable {s : State} {f : Feed} (at_ : f = { s.feed with axis := if s.feed.axis = .loading then .loading else .knife })
include at_

theorem beginKnife_strokes (home : s.feed.knifeHome = true) :
    beginKnife s = s.mapFeed fun _ => { f with knife := true, knifeCycle := some (.stroke 50) } := by
  subst at_
  exact if_pos home

/-- Away from rest the knife does not begin. -/
theorem beginKnife_faults (away : s.feed.knifeHome = false) :
    beginKnife s = feedFault .knife (s.mapFeed fun _ => f) := by
  subst at_
  exact if_neg (Bool.eq_false_iff.1 away)

end BeginKnife

section HomeChange
variable {active : Bool} {n : Nat} {s u : State} (level : u = s.mapFeed fun f => { f with knifeHome := active })
include level

theorem knifeHomeChanged_still (h : s.feed.knifeCycle = none) : knifeHomeChanged active s = u := by
  subst level
  unfold knifeHomeChanged
  dsimp only [State.mapFeed_feed]
  rw [h]

/-- The stroke ends when home is left. -/
theorem knifeHomeChanged_stroke (h : s.feed.knifeCycle = some (.stroke n)) :
    knifeHomeChanged active s =
      if active then u else u.mapFeed fun f => { f with knifeCycle := some (.return_ 500) } := by
  subst level
  unfold knifeHomeChanged
  dsimp only [State.mapFeed_feed]
  rw [h]
  rfl

/-- The return ends when home is reached. -/
theorem knifeHomeChanged_return (h : s.feed.knifeCycle = some (.return_ n)) :
    knifeHomeChanged active s = if active then knifeDone u else u := by
  subst level
  unfold knifeHomeChanged
  dsimp only [State.mapFeed_feed]
  rw [h]

end HomeChange

section KnifeDone
variable {s : State}

theorem knifeDone_load (h : s.feed.load.isSome = true) : knifeDone s = trimCutDone s := by
  obtain ⟨l, load⟩ := Option.isSome_iff_exists.1 h
  unfold knifeDone
  rw [load]

theorem knifeDone_plan {i : JobIx} {j : Job} (h : s.feed.load = none) (path : s.pathJob = some (i, j)) :
    knifeDone s = planCutDone i j s := by
  unfold knifeDone
  rw [h, path]

end KnifeDone

/-! ### A plan cut made (R83, R84) -/

/-- The state in which a plan cut has been counted: the cycle over, the axis IDLE, the cut the last media event. -/
def cutCounted (i : JobIx) (s : State) : State :=
  changeJob i (fun j => { j with cutsDone := j.cutsDone + 1 }) (s.mapFeed fun f => { f.cutMade with axis := .idle })

section PlanCutDone
variable {i : JobIx} {j : Job} {s t : State} (counted : t = cutCounted i s)
include counted

theorem planCutDone_goesOn (more : j.cutsDone + 1 < j.cuts.length) : planCutDone i j s = planCut i t := by
  subst counted
  exact if_pos more

/-- The last cut ends the job; its piece is measured from the piece base, which the cut then sets. -/
theorem planCutDone_closes (last : j.cuts.length ≤ j.cutsDone + 1) :
    planCutDone i j s =
      closeJob i (s.feed.position - s.feed.roll.pieceBase.getD 0).toNat
        (decideOutcome i .finished none
          (t.mapFeed fun f => { f with roll := { f.roll with pieceBase := some s.feed.position } })) := by
  have base : t.feed.pieceTo s.feed.position = (s.feed.position - s.feed.roll.pieceBase.getD 0).toNat := by
    rw [counted, cutCounted, changeJob_feed]
    rfl
  rw [← base]
  subst counted
  exact if_neg (Nat.not_lt.2 last)

end PlanCutDone

/-! ### The trim cut and the load's end (R77, R176) -/

/-- The state in which the trim cut has been made and charged, and the back-feed is due. -/
def trimCutCharged (s : State) : State :=
  let t := s.mapFeed Feed.trimCutMade
  t.mapCost fun k =>
    { k with overhead :=
        { k.overhead with
          trim := modifyAt k.overhead.trim t.feed.roll.mediaType fun n => sat32 (n + s.feed.position.toNat)
          knife := sat32 (k.overhead.knife + 1) } }

/-- A back-feed that is done at once ends the load; one under way, or refused, leaves the load to it (log 18). -/
theorem trimCutDone_backFeed {s u t : State} {m : MoveStart} (charged : u = trimCutCharged s)
    (move : requestMove (s.feed.backFeedTarget s.feed.position) .load u = (t, m)) :
    trimCutDone s = if m = .done then loadEnd t else t := by
  subst charged
  have leg : requestMove ((trimCutCharged s).feed.backFeedTarget s.feed.position) .load (trimCutCharged s) = (t, m) :=
    move
  unfold trimCutCharged at leg
  unfold trimCutDone
  dsimp only at leg ⊢
  rw [leg]
  cases m <;> rfl

/-! ### The retry (R87) -/

section Retry
variable {s : State}

theorem retryMedia_loaded (h : s.feed.roll.state = .loaded) : retryMedia s = s.jobs.order.foldl retryStep s := if_pos h

theorem retryMedia_unloaded (h : s.feed.roll.state ≠ .loaded) : retryMedia s = s := if_neg h

variable {i : JobIx} {j : Job} {planned : Nat} (live : s.liveJob i = some j)
  (plan : planned = plannedFor s.feed j.cuts ((j.strip.map (·.length)).getD 0))
include live plan

/-- A held job whose plan fits beside what is reserved has its reservation again. -/
theorem retryStep_retries (pending : j.state = .pending) (held : j.holds.noMedia = true)
    (fits : planned + s.reserved ≤ s.feed.roll.remaining) :
    retryStep s i = notify (.jobSlot i) (putJob i
      { j with mediaRes := planned, planned := planned, drawn := 0, holds := { j.holds with noMedia := false } } s) := by
  subst plan
  unfold retryStep
  rw [live]
  refine (if_pos ⟨pending, held, fits⟩).trans ?_
  exact changeJob_put live _

theorem retryStep_leaves
    (h : j.state ≠ .pending ∨ j.holds.noMedia = false ∨ s.feed.roll.remaining < planned + s.reserved) :
    retryStep s i = s := by
  subst plan
  unfold retryStep
  rw [live]
  refine if_neg fun ⟨pending, held, fits⟩ => ?_
  rcases h with other | free | short
  · exact other pending
  · rw [free] at held
    cases held
  · exact Nat.not_lt.2 fits short

end Retry

/-- Settles O35: the knife cycle by its phase and the level of KNIFE_HOME, the cut by what it ends, the back-feed by the
outcome of its move, and the retry's step. -/
theorem knifeCycleStrokesAndReturns : Obligations.KnifeCycleStrokesAndReturns := by
  unfold Obligations.KnifeCycleStrokesAndReturns
  refine ⟨fun s => ⟨fun f at_ => ⟨beginKnife_strokes at_, beginKnife_faults at_⟩, fun n stroke => ⟨?_, ?_⟩,
      fun n back => ⟨?_, fun load => ?_, fun i j load path => ?_⟩, fun active still => ?_,
      fun i j t counted => ⟨planCutDone_goesOn counted, planCutDone_closes counted⟩⟩,
    fun cut target s u t cutAt charged aim => ?_, fun s => ⟨rfl, retryMedia_loaded, retryMedia_unloaded⟩,
    fun i j planned s live plan => ⟨retryStep_retries live plan, retryStep_leaves live plan⟩⟩
  · exact exec_given (knifeHomeChanged_stroke rfl stroke) rfl
  · exact exec_given (knifeHomeChanged_stroke rfl stroke) rfl
  · exact exec_given (knifeHomeChanged_return rfl back) rfl
  · exact exec_given ((knifeHomeChanged_return rfl back).trans ((if_pos rfl).trans (knifeDone_load load))) rfl
  · exact exec_given ((knifeHomeChanged_return rfl back).trans ((if_pos rfl).trans (knifeDone_plan load path))) rfl
  · exact exec_given (knifeHomeChanged_still rfl still) rfl
  · subst cutAt aim
    exact ⟨trimCutDone_backFeed charged, trimCutDone_backFeed charged,
      fun refused => (trimCutDone_backFeed charged refused).trans (requestMove_refusal refused)⟩

end Sys2Proof.Machine
end

section
/-!
PROOFS. The ink controller's law along a step (R103, R104), and the requests on channels (R98, R101, R102): one equation
of the owner for each answer. With them O58, O36, O37 and O38.
-/

-- One theorem after another: waiting proofs would each hold a thread.
set_option Elab.async false

namespace Sys2Proof.Machine

/-- Settles O58: every command keeps the ink controller's law, and so does the passing of a millisecond
(`step_lawful`). -/
theorem stepKeepsTheInkLaw : Obligations.StepKeepsTheInkLaw := by
  unfold Obligations.StepKeepsTheInkLaw
  intro s t h
  obtain ⟨-, -, ink, -⟩ := step_lawful h
  exact ink

/-! ### One channel record -/

theorem State.mapInk_congr {s : State} {f g : Ink → Ink} (h : f s.ink = g s.ink) : s.mapInk f = s.mapInk g :=
  congrArg (fun x => { s with ink := x }) h

theorem setChan_congr {c : Chan} {f g : Channel → Channel} {s : State} (h : f s.ink.chans[c] = g s.ink.chans[c]) :
    setChan c f s = setChan c g s :=
  State.mapInk_congr (congrArg (fun x => { s.ink with chans := s.ink.chans.set c x }) h)

theorem setChan_to {c : Chan} {f : Channel → Channel} {s : State} {x : Channel} (h : f s.ink.chans[c] = x) :
    setChan c f s = s.mapInk fun k => { k with chans := k.chans.set c x } :=
  setChan_congr (g := fun _ => x) h

theorem setChan_same (c : Chan) (f : Channel → Channel) (s : State) :
    (setChan c f s).ink.chans[c] = f s.ink.chans[c] :=
  (getElem_modifyAt ..).trans (if_pos rfl)

theorem setChan_other {c d : Chan} (h : d ≠ c) (f : Channel → Channel) (s : State) :
    (setChan c f s).ink.chans[d] = s.ink.chans[d] :=
  (getElem_modifyAt ..).trans (if_neg h)

/-- A channel byte above 9 names no channel. -/
theorem chanOf_none {b : Byte} (h : 9 < b.toNat) : chanOf b = none := dif_neg (by omega)

/-- A sticky event that a condition sets (R100). -/
theorem Sticky.cartLow_or (x : Sticky) (p : Prop) [Decidable p] :
    (if decide p then { x with cartLow := true } else x) = { x with cartLow := x.cartLow || decide p } := by
  by_cases h : p <;> simp [h]

/-! ### FIT_CARTRIDGE (R98) -/

section Fit
variable {ch : Byte} {cap rem lot : U32} {s : State}

theorem fitOwner_range (h : 9 < ch.toNat ∨ cap.toNat < 1000 ∨ 2000000 < cap.toNat ∨ cap.toNat < rem.toNat) :
    fitOwner ch cap rem lot s = (s, [0x21]) := by
  unfold fitOwner
  split
  · rfl
  · next c named =>
    have := chanOf_eq_some.1 named
    exact if_pos fun ⟨⟨low, high⟩, full⟩ => by omega

variable {c : Chan} (named : c.val = ch.toNat) (low : 1000 ≤ cap.toNat) (high : cap.toNat ≤ 2000000)
  (full : rem.toNat ≤ cap.toNat)
include named low high full

theorem fitOwner_refused (h : s.ink.chans[c].supply ≠ .undeclared) : fitOwner ch cap rem lot s = (s, [0x20]) := by
  unfold fitOwner
  rw [chanOf_eq_some.2 named]
  exact (if_neg (not_not_intro ⟨⟨low, high⟩, full⟩)).trans (if_neg h)

theorem fitOwner_fitted (h : s.ink.chans[c].supply = .undeclared) :
    fitOwner ch cap rem lot s =
      (fitCartridge c { capacity := cap.toNat, remaining := rem.toNat, lot := lot.toNat } s, [0x00]) := by
  unfold fitOwner
  rw [chanOf_eq_some.2 named]
  exact (if_neg (not_not_intro ⟨⟨low, high⟩, full⟩)).trans (if_pos h)

end Fit

/-- The channel record of a declared cartridge (R98). -/
def Channel.fitted (k : Cartridge) (x : Channel) : Channel :=
  { x with
    cart := some k
    supply := if 0 < k.remaining then .ready else .empty
    levelEnd := x.level
    sticky := { x.sticky with cartLow := x.sticky.cartLow || k.isLow } }

/-- The seven steps of a taken FIT_CARTRIDGE (R98, R161). -/
theorem fitCartridge_eq (c : Chan) (k : Cartridge) (s : State) :
    fitCartridge c k s = settleDrift s.drift (noticeChannels s.ink.chans (arbiter (refillTest (notify (.channel c)
      (((setChan c (Channel.fitted k) s).mapAcct fun a => { a with use := a.use.set c 0 }).mapDrift
        (Drift.fit c k.lot))) c))) := by
  unfold fitCartridge Channel.fitted Cartridge.isLow
  simp only [Sticky.cartLow_or]

section Lots
variable {c : Chan} {lot : Nat} {d : Drift}

theorem Drift.fit_same (h : d.lots[c] = none ∨ d.lots[c] = some lot) :
    Drift.fit c lot d = { d with lots := d.lots.set c (some lot) } := by
  unfold Drift.fit
  rcases h with h | h <;> simp [h]

/-- Another lot clears the channel's ring (R160). -/
theorem Drift.fit_other {l : Nat} (h : d.lots[c] = some l) (new : l ≠ lot) :
    Drift.fit c lot d = { d with lots := d.lots.set c (some lot), rings := d.rings.set c [],
                                 states := d.states.set c .unverified } := by
  unfold Drift.fit
  rw [h]
  simp only [if_neg new]
  rfl

end Lots

/-- Settles O36: the owner's equation for each check, and the steps of `fitCartridge_eq`. -/
theorem fitCartridgeDeclaresTheContents : Obligations.FitCartridgeDeclaresTheContents := by
  unfold Obligations.FitCartridgeDeclaresTheContents
  intro ft ch cap rem lot s taken
  have reply : ∀ {t answer}, fitOwner ch cap rem lot s = (t, answer) →
      exec (.fitCartridge ft ch cap rem lot) s = .next (answered 0xC0 ft answer t) :=
    fun owner => exec_reply taken rfl owner rfl
  refine ⟨fun out => reply (fitOwner_range out), fun c named low high full =>
    ⟨fun other => reply (fitOwner_refused named low high full other), fun u undeclared hu => ?_⟩,
    fun c d => ⟨Drift.fit_same, fun l h new => Drift.fit_other h new⟩⟩
  rw [reply (fitOwner_fitted named low high full undeclared), fitCartridge_eq, hu]
  rfl

/-! ### INK_STATUS (R100, R101) -/

theorem chanOf_ofNat (c : Chan) : chanOf (BitVec.ofNat 8 c) = some c := chanOf_eq_some.2 (by simp; omega)

theorem selectChans_all : selectChans 0xFF = some (List.finRange 10) := rfl

theorem selectChans_one (c : Chan) : selectChans (BitVec.ofNat 8 c) = some [c] := by
  unfold selectChans
  rw [chanOf_ofNat, if_neg]
  · rfl
  · intro h
    have := congrArg BitVec.toNat h
    simp at this
    omega

section Status
variable {sel clear : Byte} {s : State} {cs : List Chan}

theorem inkStatusOwner_range (h : (9 < sel.toNat ∧ sel ≠ 0xFF) ∨ 1 < clear.toNat) :
    inkStatusOwner sel clear s = (s, [0x21]) := by
  unfold inkStatusOwner
  rcases h with ⟨above, one⟩ | h
  · have unnamed : selectChans sel = none := by
      unfold selectChans
      rw [if_neg one, chanOf_none above]
      rfl
    rw [unnamed]
    rfl
  · rw [yesNoOf_eq clear, if_neg (by omega)]
    cases selectChans sel <;> rfl

theorem inkStatusOwner_reported (h : selectChans sel = some cs) :
    inkStatusOwner sel 0 s = (s, 0x00 :: (cs.flatMap (channelReport s) ++ inkShared s.ink)) := by
  unfold inkStatusOwner
  rw [h]
  rfl

theorem inkStatusOwner_cleared (h : selectChans sel = some cs) :
    inkStatusOwner sel 1 s = (cs.foldl clearSticky s, 0x00 :: (cs.flatMap (channelReport s) ++ inkShared s.ink)) := by
  unfold inkStatusOwner
  rw [h]
  rfl

end Status

/-- The events of a failed refill and of a suspected leak have no holding condition (R100). -/
theorem Channel.afterClear_eq (x : Channel) : x.afterClear =
    { cartLow := x.sticky.cartLow && (x.cart.map (·.isLow)).getD false
      refillFail := false
      leakSuspect := false
      sensorFault := x.sticky.sensorFault && x.fault
      dry := x.sticky.dry && decide (x.cond = .dry) } := by
  unfold Channel.afterClear Channel.holding
  simp only [Bool.and_false]

section Clear
variable {s : State} {c : Chan} {k : Sticky} (h : k = s.ink.chans[c].afterClear)
include h

theorem clearSticky_holding (same : k = s.ink.chans[c].sticky) : clearSticky s c = s := if_pos (h ▸ same)

theorem clearSticky_ended (ended : k ≠ s.ink.chans[c].sticky) :
    clearSticky s c = notify (.channel c) (setChan c (fun x => { x with sticky := k }) s) := by
  subst h
  exact (if_neg ended).trans (congrArg (notify _) (setChan_congr rfl))

end Clear

/-- Settles O37: the owner's equation for each selector and option, and the holding conditions of `afterClear_eq`. -/
theorem inkStatusReportsAndClears : Obligations.InkStatusReportsAndClears := by
  unfold Obligations.InkStatusReportsAndClears
  intro ft sel clear s taken
  have reply : ∀ {sel clear t answer}, inkStatusOwner sel clear s = (t, answer) →
      exec (.inkStatus ft sel clear) s = .next (answered 0xC1 ft answer t) :=
    fun owner => exec_reply taken rfl owner rfl
  have one : ∀ c : Chan, [c].flatMap (channelReport s) = channelReport s c := fun c => List.flatMap_singleton ..
  refine ⟨fun out => reply (inkStatusOwner_range out), reply (inkStatusOwner_reported selectChans_all),
    reply (inkStatusOwner_cleared selectChans_all), fun c => ⟨?_, ?_, fun k hk => ?_⟩⟩
  · rw [reply (inkStatusOwner_reported (selectChans_one c)), one]
  · rw [reply (inkStatusOwner_cleared (selectChans_one c)), one]
    rfl
  · have after : k = s.ink.chans[c].afterClear := hk.trans (Channel.afterClear_eq _).symm
    exact ⟨clearSticky_holding after, clearSticky_ended after⟩

end Sys2Proof.Machine
end

section
/-!
PROOFS. The refill start test and the pump arbiter (R103, R104), and SET_INK_PROFILE, which calls on them (R96, R102).
With them O38.
-/

-- One theorem after another: waiting proofs would each hold a thread.
set_option Elab.async false

namespace Sys2Proof.Machine

/-! ### The refill start test (R103) -/

theorem Channel.needsRefill_iff {x : Channel} : x.needsRefill = true ↔
    x.supply = .ready ∧ x.fault = false ∧ x.level < x.profile.start ∧ ∃ k, x.cart = some k ∧ 0 < k.remaining := by
  have left : 0 < (x.cart.map (·.remaining)).getD 0 ↔ ∃ k, x.cart = some k ∧ 0 < k.remaining := by
    cases x.cart <;> simp
  unfold Channel.needsRefill
  simp only [Bool.and_eq_true, decide_eq_true_eq, Bool.not_eq_true', left, and_assoc]

section Start
variable {s : State} {c : Chan}

theorem refillTest_starts (h : s.ink.chans[c].needsRefill = true) : refillTest s c = s.mapInk fun i =>
    { i with chans := i.chans.set c { i.chans[c] with supply := .waiting }, wait := i.wait ++ [c] } := if_pos h

theorem refillTest_stays (h : s.ink.chans[c].needsRefill = false) : refillTest s c = s :=
  if_neg (Bool.eq_false_iff.1 h)

end Start

/-! ### The pump arbiter (R104) -/

/-- The better of the best waiting channel so far and a later one: the first keeps its place among equals. -/
def Ink.lower (k : Ink) (best : Option Chan) (d : Chan) : Option Chan :=
  match best with
  | none => some d
  | some b => if k.chans[d].level < k.chans[b].level then some d else some b

theorem Ink.lowestWaiting_eq (k : Ink) :
    k.lowestWaiting = ((List.finRange 10).filter fun c => k.wait.contains c).foldl k.lower none := rfl

section Lower
variable {k : Ink} {c : Chan}

/-- A channel is chosen over one with a higher level, and over none. -/
theorem Ink.lower_takes {best : Option Chan} (h : ∀ b, best = some b → k.chans[c].level < k.chans[b].level) :
    k.lower best c = some c := by
  cases best with
  | none => rfl
  | some b => exact if_pos (h b rfl)

theorem Ink.lower_mem {best : Option Chan} {b d : Chan} (h : k.lower best d = some b) : b = d ∨ best = some b := by
  unfold Ink.lower at h
  split at h
  · exact .inl (Option.some.inj h).symm
  · split at h
    · exact .inl (Option.some.inj h).symm
    · exact .inr h

theorem Ink.foldl_lower_keeps {ds : List Chan} (h : ∀ d ∈ ds, k.chans[c].level ≤ k.chans[d].level) :
    ds.foldl k.lower (some c) = some c := by
  induction ds with
  | nil => rfl
  | cons d ds ih =>
    obtain ⟨first, rest⟩ := List.forall_mem_cons.1 h
    have kept : k.lower (some c) d = some c := if_neg (Nat.not_lt.2 first)
    rw [List.foldl_cons, kept, ih rest]

/-- In channel order, what stands before the lowest channel has a higher level, and what stands after it does not take
its place. -/
theorem Ink.foldl_lower_lowest {ds : List Chan} (sorted : ds.Pairwise (· < ·)) (mem : c ∈ ds)
    (least : ∀ d ∈ ds, k.chans[c].level < k.chans[d].level ∨ (k.chans[c].level = k.chans[d].level ∧ c ≤ d)) :
    ∀ best : Option Chan, (∀ b, best = some b → k.chans[c].level < k.chans[b].level) →
      ds.foldl k.lower best = some c := by
  induction ds with
  | nil => exact absurd mem (List.not_mem_nil)
  | cons d ds ih =>
    intro best above
    obtain ⟨before, later⟩ := List.pairwise_cons.1 sorted
    obtain ⟨first, rest⟩ := List.forall_mem_cons.1 least
    rw [List.foldl_cons]
    by_cases here : c = d
    · subst here
      rw [Ink.lower_takes above]
      exact Ink.foldl_lower_keeps fun d h => (rest d h).elim Nat.le_of_lt fun h => Nat.le_of_eq h.1
    · have after : c ∈ ds := (List.mem_cons.1 mem).resolve_left here
      have higher : k.chans[c].level < k.chans[d].level :=
        first.resolve_right fun h => absurd (before c after) (not_lt.2 h.2)
      exact ih later after rest _ fun b hb => (Ink.lower_mem hb).elim (fun h => h ▸ higher) (above b)

/-- The lowest waiting channel, the lowest number among equals. -/
theorem Ink.lowestWaiting_lowest (mem : c ∈ k.wait)
    (least : ∀ d ∈ k.wait, k.chans[c].level < k.chans[d].level ∨ (k.chans[c].level = k.chans[d].level ∧ c ≤ d)) :
    k.lowestWaiting = some c := by
  have waits : ∀ d, d ∈ (List.finRange 10).filter (fun c => k.wait.contains c) ↔ d ∈ k.wait := by simp
  rw [Ink.lowestWaiting_eq]
  exact Ink.foldl_lower_lowest ((List.pairwise_lt_finRange 10).filter _) ((waits c).2 mem)
    (fun d h => least d ((waits d).1 h)) none nofun

theorem Ink.lowestWaiting_none (h : k.wait = []) : k.lowestWaiting = none := by
  rw [Ink.lowestWaiting_eq, h]
  rfl

end Lower

section Grants
variable {k : Ink}

theorem Ink.freeGrant_lowest {g : Fin 3} (free : k.grants[g] = none)
    (held : ∀ h : Fin 3, h < g → k.grants[h].isSome = true) :
    k.freeGrant = some g :=
  find_finRange_lowest (Option.isNone_iff_eq_none.2 free) fun h low => by simpa using held h low

theorem Ink.freeGrant_none (held : ∀ g : Fin 3, k.grants[g].isSome = true) : k.freeGrant = none :=
  List.find?_eq_none.2 fun g _ => by simpa [Option.isSome_iff_ne_none] using held g

end Grants

section GrantOne
variable {s : State}

theorem grantOne_none (h : s.ink.freeGrant = none ∨ s.ink.lowestWaiting = none) : grantOne s = s := by
  unfold grantOne
  rcases h with h | h
  · rw [h]
  · rw [h]
    cases s.ink.freeGrant <;> rfl

theorem grantOne_grants {g : Fin 3} {c : Chan} (free : s.ink.freeGrant = some g)
    (lowest : s.ink.lowestWaiting = some c) :
    grantOne s = grantPump g c s := by
  unfold grantOne
  rw [free, lowest]

end GrantOne

/-! ### SET_INK_PROFILE (R96, R102) -/

/-- Every field is within its range (R102). -/
def InkProfileArgs.InRange (a : InkProfileArgs) : Prop :=
  (1 ≤ a.drop.toNat ∧ a.drop.toNat ≤ 20) ∧ a.emptyAt.toNat ≤ 1023 ∧ a.fullAt.toNat ≤ 1023 ∧
    (a.emptyAt.toNat + 100 ≤ a.fullAt.toNat ∨ a.fullAt.toNat + 100 ≤ a.emptyAt.toNat) ∧
    a.floor.toNat < a.start.toNat ∧ a.start.toNat < a.stop.toNat ∧ a.stop.toNat ≤ 29000 ∧
    (1000 ≤ a.floor.toNat ∧ a.floor.toNat ≤ 10000)

/-- The profile that the fields spell. -/
def InkProfileArgs.profile (a : InkProfileArgs) : InkProfile where
  drop := a.drop.toNat
  emptyAt := a.emptyAt.toNat
  fullAt := a.fullAt.toNat
  start := a.start.toNat
  stop := a.stop.toNat
  floor := a.floor.toNat

theorem InkProfileArgs.read_profile {a : InkProfileArgs} (h : InkProfileArgs.InRange a) :
    InkProfileArgs.read a = some (InkProfileArgs.profile a) := if_pos h

theorem InkProfileArgs.read_none {a : InkProfileArgs} (h : ¬ InkProfileArgs.InRange a) :
    InkProfileArgs.read a = none := if_neg h

section Profile
variable {ch : Byte} {a : InkProfileArgs} {s : State} {c : Chan}

theorem inkProfileOwner_range (h : 9 < ch.toNat ∨ ¬ InkProfileArgs.InRange a) :
    inkProfileOwner ch a s = (s, [0x21]) := by
  unfold inkProfileOwner
  rcases h with h | h
  · rw [chanOf_none h]
    rfl
  · rw [InkProfileArgs.read_none h]
    cases chanOf ch <;> rfl

variable (named : c.val = ch.toNat) (range : InkProfileArgs.InRange a)
include named range

theorem inkProfileOwner_busy (h : (s.liveJobs.any fun x => x.2.state.keepsSwathTarget) = true) :
    inkProfileOwner ch a s = (s, [0x20]) := by
  unfold inkProfileOwner
  rw [chanOf_eq_some.2 named, InkProfileArgs.read_profile range]
  exact if_pos h

theorem inkProfileOwner_replaced (h : (s.liveJobs.any fun x => x.2.state.keepsSwathTarget) = false) :
    inkProfileOwner ch a s = (setProfile c (InkProfileArgs.profile a) s, [0x00]) := by
  unfold inkProfileOwner
  rw [chanOf_eq_some.2 named, InkProfileArgs.read_profile range]
  exact if_neg (Bool.eq_false_iff.1 h)

end Profile

theorem State.anyEngaged_iff {s : State} : (s.liveJobs.any fun x => x.2.state.keepsSwathTarget) = true ↔
    ∃ x ∈ s.liveJobs, x.2.state = .printing ∨ x.2.state = .suspended ∨ x.2.state = .aborting := by
  simp only [List.any_eq_true, JobState.keepsSwathTarget_iff]

theorem State.anyEngaged_false {s : State}
    (idle : ∀ x ∈ s.liveJobs, x.2.state ≠ .printing ∧ x.2.state ≠ .suspended ∧ x.2.state ≠ .aborting) :
    (s.liveJobs.any fun x => x.2.state.keepsSwathTarget) = false := by
  refine Bool.eq_false_iff.2 fun engaged => ?_
  obtain ⟨x, mem, h⟩ := State.anyEngaged_iff.1 engaged
  obtain ⟨printing, suspended, aborting⟩ := idle x mem
  rcases h with h | h | h
  · exact printing h
  · exact suspended h
  · exact aborting h

/-- A new profile, and what follows of it but the resume test (R102). -/
def profileSet (c : Chan) (p : InkProfile) (s : State) : State :=
  noticeChannels s.ink.chans (arbiter (refillTest (notify (.channel c) (setChan c (Channel.withProfile p) s)) c))

section SetProfile
variable {s : State} {c : Chan} {p : InkProfile}

theorem setProfile_eq : setProfile c p s =
    if (s.ink.chans[c].withProfile p).above && !s.ink.chans[c].above then resumeTest (profileSet c p s)
    else profileSet c p s := by
  unfold setProfile
  simp only [setChan_same]
  rfl

theorem setProfile_returned (now : (s.ink.chans[c].withProfile p).above = true) (was : s.ink.chans[c].above = false) :
    setProfile c p s = resumeTest (profileSet c p s) := by
  rw [setProfile_eq, now, was]
  rfl

theorem setProfile_plain (h : (s.ink.chans[c].withProfile p).above = false ∨ s.ink.chans[c].above = true) :
    setProfile c p s = profileSet c p s := by
  rw [setProfile_eq]
  refine if_neg ?_
  rcases h with h | h <;> rw [h] <;> simp

end SetProfile

/-- Settles O38: the owner's equation for each check, `setProfile` with and without a return, the start test by
`needsRefill_iff`, and the arbiter's choice by `lowestWaiting_lowest`. -/
theorem inkProfileIsReplacedWhole : Obligations.InkProfileIsReplacedWhole := by
  unfold Obligations.InkProfileIsReplacedWhole
  refine ⟨fun ft ch a s taken => ?_, fun c s starts hs => ?_,
    fun s => ⟨rfl, fun h => ?_, fun g c free held mem least => ?_⟩⟩
  · have reply : ∀ {t answer}, inkProfileOwner ch a s = (t, answer) →
        exec (.setInkProfile ft ch a) s = .next (answered 0xC2 ft answer t) :=
      fun owner => exec_reply taken rfl owner rfl
    refine ⟨fun out => reply (inkProfileOwner_range (out.imp_right ?_)),
      fun c p named drop emptyAt fullAt span order floor hp => ?_⟩
    · rintro out ⟨drop, emptyAt, fullAt, span, order, floor⟩
      omega
    · have range : InkProfileArgs.InRange a := ⟨drop, emptyAt, fullAt, span, order.1, order.2.1, order.2.2, floor⟩
      obtain rfl : p = InkProfileArgs.profile a := hp
      refine ⟨fun busy => reply (inkProfileOwner_busy named range (State.anyEngaged_iff.2 busy)), fun idle => ?_⟩
      have owner := inkProfileOwner_replaced named range (State.anyEngaged_false idle)
      refine ⟨s.ink.chans[c].withProfile (InkProfileArgs.profile a), profileSet c (InkProfileArgs.profile a) s,
        rfl, rfl, rfl, rfl, rfl, rfl, rfl, fun now was => ?_, fun h => ?_⟩
      · rw [reply owner, setProfile_returned now was]
      · rw [reply owner, setProfile_plain h]
  · have needs : s.ink.chans[c].needsRefill = true ↔ starts := Channel.needsRefill_iff.trans hs.symm
    exact ⟨fun h => refillTest_starts (needs.2 h), fun h => refillTest_stays (Bool.eq_false_iff.2 (mt needs.1 h))⟩
  · exact grantOne_none (h.imp Ink.freeGrant_none Ink.lowestWaiting_none)
  · exact grantOne_grants (Ink.freeGrant_lowest free held) (Ink.lowestWaiting_lowest mem least)

end Sys2Proof.Machine
end

section
/-!
PROOFS. The pump stroke and the end of a refill (R105 to R107): one equation of the operation for each way a stroke
ends. With them O40.
-/

-- One theorem after another: waiting proofs would each hold a thread.
set_option Elab.async false

namespace Sys2Proof.Machine

/-! ### What a stroke does to the channel (R105) -/

/-- 50 µL leave the cartridge, the level joins the progress ring, and the pump's time begins again. -/
theorem Channel.stroke_eq {x : Channel} {k : Cartridge} {p : Progress} (cart : x.cart = some k)
    (progress : x.progress = some p) : x.stroke =
      { x with
        cart := some { k with remaining := k.remaining - 50 }
        progress := some { strokes := p.strokes + 1,
                           ring := (if p.ring.length < 41 then p.ring else p.ring.drop 1) ++ [x.level] }
        strokeLeft := some 250
        sticky := { x.sticky with cartLow := x.sticky.cartLow || decide (k.remaining - 50 < k.capacity / 10) } } := by
  unfold Channel.stroke
  rw [cart, progress, ← Sticky.cartLow_or]
  rfl

section Progress
variable {x : Channel} {q : Progress} (progress : x.progress = some q)
include progress

theorem Channel.progressFails_true (many : 40 ≤ q.strokes) (low : x.level < q.ring.headD 0 + 500) :
    x.progressFails = true := by
  unfold Channel.progressFails
  rw [progress]
  exact decide_eq_true ⟨many, low⟩

theorem Channel.progressFails_false (h : q.strokes < 40 ∨ q.ring.headD 0 + 500 ≤ x.level) :
    x.progressFails = false := by
  unfold Channel.progressFails
  rw [progress]
  exact decide_eq_false (by omega)

end Progress

/-! ### The stroke (R105, R106) -/

section Stroke
variable {c : Chan} {s t : State}

theorem strokePump_stopped (h : s.ink.chans[c].supply ≠ .refilling) : strokePump c s = s := if_neg h

/-- A stroke of a refilling channel, with the three ways on from the stroke's own effect. -/
theorem strokePump_eq (h : s.ink.chans[c].supply = .refilling) (ht : t = setChan c Channel.stroke s) :
    strokePump c s = noticeChannels s.ink.chans
      (if t.ink.chans[c].progressFails then arbiter (endRefill c .empty (setChan c Channel.failed t))
       else if (t.ink.chans[c].cart.map (·.remaining)).getD 0 = 0 then arbiter (endRefill c .empty t)
       else t) := by
  subst ht
  exact if_pos h

variable (refilling : s.ink.chans[c].supply = .refilling) (ht : t = setChan c Channel.stroke s)
include refilling ht

theorem strokePump_fails (fails : t.ink.chans[c].progressFails = true) :
    strokePump c s = noticeChannels s.ink.chans (arbiter (endRefill c .empty (setChan c Channel.failed t))) := by
  rw [strokePump_eq refilling ht, if_pos fails]

variable (rises : t.ink.chans[c].progressFails = false) {k : Cartridge} (cart : t.ink.chans[c].cart = some k)
include rises cart

theorem strokePump_empties (nothing : k.remaining = 0) :
    strokePump c s = noticeChannels s.ink.chans (arbiter (endRefill c .empty t)) := by
  rw [strokePump_eq refilling ht, if_neg (Bool.eq_false_iff.1 rises), cart]
  exact congrArg _ (if_pos nothing)

theorem strokePump_goesOn (left : k.remaining ≠ 0) : strokePump c s = noticeChannels s.ink.chans t := by
  rw [strokePump_eq refilling ht, if_neg (Bool.eq_false_iff.1 rises), cart]
  exact congrArg _ (if_neg left)

end Stroke

/-- The channel of a failed refill, whose cartridge is known (R106). -/
theorem Channel.failed_eq {x : Channel} {k : Cartridge} (cart : x.cart = some k) : x.failed =
    { x with cart := some { k with remaining := 0 },
             sticky := { x.sticky with refillFail := true, cartLow := true } } := by
  unfold Channel.failed
  rw [cart]
  rfl

/-- Settles O40: the stroke by `Channel.stroke_eq`, and the equation of `strokePump` for each way it ends. -/
theorem pumpStrokeMovesInkAndJudgesTheRefill : Obligations.PumpStrokeMovesInkAndJudgesTheRefill := by
  unfold Obligations.PumpStrokeMovesInkAndJudgesTheRefill
  refine ⟨fun c s => ⟨fun still => exec_given (strokePump_stopped still) rfl,
    fun k p q x u refilling cart progress hq hx hu => ?_⟩, fun c supply s => ⟨rfl, rfl⟩⟩
  have stroke : x = s.ink.chans[c].stroke := by rw [hx, hq, Channel.stroke_eq cart progress]
  have now : u = setChan c Channel.stroke s := hu.trans (setChan_to stroke.symm).symm
  have chan : u.ink.chans[c] = x := by rw [now, setChan_same, stroke]
  have ring : u.ink.chans[c].progress = some q := by rw [chan, hx]
  have ink : u.ink.chans[c].cart = some { k with remaining := k.remaining - 50 } := by rw [chan, hx]
  have failed := Channel.failed_eq ink
  rw [← chan]
  refine ⟨fun many low => ?_, fun rises empty => ?_, fun rises left => ?_⟩
  · refine exec_given ((strokePump_fails refilling now (Channel.progressFails_true ring many low)).trans ?_) rfl
    refine congrArg (fun t => noticeChannels _ (arbiter (endRefill c .empty t))) ?_
    exact setChan_to failed
  · exact exec_given (strokePump_empties refilling now (Channel.progressFails_false ring rises) ink
      (Nat.sub_eq_zero_of_le empty)) rfl
  · exact exec_given (strokePump_goesOn refilling now (Channel.progressFails_false ring rises) ink
      (Nat.sub_ne_zero_of_lt left)) rfl

end Sys2Proof.Machine
end

section
/-!
PROOFS. What the passes of a scan leave of the channels and of the other blocks (R92 to R97, R103, R106), pass by pass.
-/

-- One theorem after another: waiting proofs would each hold a thread.
set_option Elab.async false

namespace Sys2Proof.Machine

/-! ### The other blocks -/

/-- What an event of the ink controller leaves alone, the resume test (R132) and the line included. -/
structure InkEvent (s t : State) : Prop where
  pending : t.pending = s.pending
  ed : t.ed = s.ed
  feed : t.feed = s.feed
  chk : t.chk = s.chk
  drift : t.drift = s.drift
  cost : t.cost = { s.cost with overhead := t.cost.overhead }
  order : t.jobs.order = s.jobs.order
  host : t.host = { s.host with queue := t.host.queue, marked := t.host.marked, seq := t.host.seq, tx := t.host.tx }

theorem InkEvent.refl (s : State) : InkEvent s s := ⟨rfl, rfl, rfl, rfl, rfl, rfl, rfl, rfl⟩

theorem InkEvent.trans {s t u : State} (a : InkEvent s t) (b : InkEvent t u) : InkEvent s u where
  pending := b.pending.trans a.pending
  ed := b.ed.trans a.ed
  feed := b.feed.trans a.feed
  chk := b.chk.trans a.chk
  drift := b.drift.trans a.drift
  cost := by rw [b.cost, a.cost]
  order := b.order.trans a.order
  host := by rw [b.host, a.host]

theorem InkEvent.mapInk (f : Ink → Ink) (s : State) : InkEvent s (s.mapInk f) :=
  ⟨rfl, rfl, rfl, rfl, rfl, rfl, rfl, rfl⟩

/-- Queuing a subject (R185) changes the queue and the mark alone. -/
theorem HostLink.queueNotice_frame (h : HostLink) (x : Subject) :
    h.queueNotice x = { h with queue := (h.queueNotice x).queue, marked := (h.queueNotice x).marked } := by
  unfold HostLink.queueNotice
  split <;> [split; skip] <;> rfl

theorem InkEvent.notify (x : Subject) (s : State) : InkEvent s (notify x s) := by
  refine ⟨rfl, rfl, rfl, rfl, rfl, rfl, rfl, ?_⟩
  change s.host.queueNotice x = { s.host with
    queue := (s.host.queueNotice x).queue, marked := (s.host.queueNotice x).marked,
    seq := (s.host.queueNotice x).seq, tx := (s.host.queueNotice x).tx }
  rw [HostLink.queueNotice_frame s.host x]

theorem setJob_inkEvent (i : JobIx) (f : Job → Job) (s : State) : InkEvent s (setJob i f s) := by
  unfold setJob
  split
  · exact ⟨rfl, rfl, rfl, rfl, rfl, rfl, rfl, rfl⟩
  · exact InkEvent.refl s

theorem setJob_ink (i : JobIx) (f : Job → Job) (s : State) : (setJob i f s).ink = s.ink := by
  unfold setJob
  split <;> rfl

/-- A job that becomes PRINTING keeps the swath target (R65). -/
theorem setJobState_printing (i : JobIx) (s : State) :
    setJobState i .printing s = changeJob i (fun j => { j with state := .printing }) s :=
  congrArg (changeJob i _) (if_neg Bool.false_ne_true)

section Resume
variable (s : State)

theorem resumeTest_inkEvent : InkEvent s (resumeTest s) := by
  unfold resumeTest
  split
  · split
    · rw [setJobState_printing]
      exact InkEvent.trans (t := mapContext _ (sendEngine _ s)) ⟨rfl, rfl, rfl, rfl, rfl, rfl, rfl, rfl⟩
        ((setJob_inkEvent ..).trans (InkEvent.notify ..))
    · exact InkEvent.refl s
  · exact InkEvent.refl s

theorem resumeTest_ink : (resumeTest s).ink = s.ink := by
  unfold resumeTest
  split
  · split
    · rw [setJobState_printing]
      exact setJob_ink ..
    · rfl
  · rfl

theorem giveLine_inkEvent : InkEvent s (giveLine s) := by
  unfold giveLine
  split
  · exact InkEvent.refl s
  · split
    · exact ⟨rfl, rfl, rfl, rfl, rfl, rfl, rfl, rfl⟩
    · exact ⟨rfl, rfl, rfl, rfl, rfl, rfl, rfl, rfl⟩
    · exact InkEvent.refl s

theorem giveLine_ink : (giveLine s).ink = s.ink := by
  unfold giveLine
  split
  · rfl
  · split <;> rfl

variable (before : Vector Channel 10)

theorem noticeChannels_inkEvent : InkEvent s (noticeChannels before s) := by
  refine foldl_holds _ (fun t c h => h.trans ?_) _ _ (InkEvent.refl s)
  dsimp only
  split
  · exact InkEvent.refl t
  · exact InkEvent.notify _ t

theorem noticeChannels_ink : (noticeChannels before s).ink = s.ink := by
  refine foldl_holds (P := fun t : State => t.ink = s.ink) _ (fun t c h => ?_) _ _ rfl
  dsimp only
  split
  · exact h
  · exact h

end Resume

/-! ### The readings and levels of a channel -/

/-- The sensor's part of a channel is kept (R92 to R96). -/
structure Channel.SameSensor (x y : Channel) : Prop where
  ring : y.ring = x.ring
  level : y.level = x.level
  fault : y.fault = x.fault
  cond : y.cond = x.cond
  profile : y.profile = x.profile
  event : x.sticky.sensorFault = true → y.sticky.sensorFault = true

theorem Channel.SameSensor.refl (x : Channel) : x.SameSensor x := ⟨rfl, rfl, rfl, rfl, rfl, id⟩

theorem Channel.SameSensor.trans {x y z : Channel} (a : x.SameSensor y) (b : y.SameSensor z) : x.SameSensor z :=
  ⟨b.ring.trans a.ring, b.level.trans a.level, b.fault.trans a.fault, b.cond.trans a.cond,
    b.profile.trans a.profile, b.event ∘ a.event⟩

/-- The cartridge is kept, and so is whether one is fitted and declared (R97, R98). -/
structure Channel.SameFit (x y : Channel) : Prop where
  cart : y.cart = x.cart
  unfitted : y.supply = .unfitted ↔ x.supply = .unfitted
  undeclared : y.supply = .undeclared ↔ x.supply = .undeclared

theorem Channel.SameFit.refl (x : Channel) : x.SameFit x := ⟨rfl, Iff.rfl, Iff.rfl⟩

theorem Channel.SameFit.trans {x y z : Channel} (a : x.SameFit y) (b : y.SameFit z) : x.SameFit z :=
  ⟨b.cart.trans a.cart, b.unfitted.trans a.unfitted, b.undeclared.trans a.undeclared⟩

/-- A cartridge is fitted and declared (R97, R98). -/
def Supply.declared (x : Supply) : Prop := x ≠ .unfitted ∧ x ≠ .undeclared

/-- A channel may pass from one state of a declared cartridge to another. -/
theorem Channel.SameFit.of_declared {x y : Channel} (cart : y.cart = x.cart) (was : x.supply.declared)
    (now : y.supply.declared) : x.SameFit y :=
  ⟨cart, iff_of_false now.1 was.1, iff_of_false now.2 was.2⟩

/-- What holds between a channel and its changed record holds for every channel when one is changed. -/
theorem forall_modify {R : Channel → Channel → Prop} (refl : ∀ x, R x x) {k : Ink} {c : Chan} {f : Channel → Channel}
    (h : R k.chans[c] (f k.chans[c])) (d : Chan) : R k.chans[d] (modifyAt k.chans c f)[d] := by
  rw [chans_modify]
  split
  · next e => exact e ▸ h
  · exact refl _

/-! ### A pass over the channels -/

/-- The scan's own time and the humidity's fault are kept (R92, R95). -/
structure Ink.SameScan (k m : Ink) : Prop where
  scanned : m.scanned = k.scanned
  scanLeft : m.scanLeft = k.scanLeft
  humFault : m.humFault = k.humFault

theorem Ink.SameScan.refl (k : Ink) : k.SameScan k := ⟨rfl, rfl, rfl⟩

theorem Ink.SameScan.trans {k m n : Ink} (a : k.SameScan m) (b : m.SameScan n) : k.SameScan n :=
  ⟨b.scanned.trans a.scanned, b.scanLeft.trans a.scanLeft, b.humFault.trans a.humFault⟩

/-- A pass after the readings and the levels: it keeps the sensors' part of every channel. -/
structure ScanPass (s t : State) : Prop extends InkEvent s t where
  scan : s.ink.SameScan t.ink
  law : s.ink.Law → t.ink.Law
  sensor : ∀ d : Chan, s.ink.chans[d].SameSensor t.ink.chans[d]

/-- A pass that has to do with refills alone: it keeps what is fitted. -/
structure RefillPass (s t : State) : Prop extends ScanPass s t where
  fit : s.ink.Law → ∀ d : Chan, s.ink.chans[d].SameFit t.ink.chans[d]

theorem ScanPass.refl (s : State) : ScanPass s s := ⟨InkEvent.refl s, .refl _, id, fun _ => .refl _⟩

theorem ScanPass.trans {s t u : State} (a : ScanPass s t) (b : ScanPass t u) : ScanPass s u :=
  ⟨a.toInkEvent.trans b.toInkEvent, a.scan.trans b.scan, b.law ∘ a.law, fun d => (a.sensor d).trans (b.sensor d)⟩

theorem RefillPass.refl (s : State) : RefillPass s s := ⟨ScanPass.refl s, fun _ _ => .refl _⟩

theorem RefillPass.trans {s t u : State} (a : RefillPass s t) (b : RefillPass t u) : RefillPass s u :=
  ⟨a.toScanPass.trans b.toScanPass, fun l d => (a.fit l d).trans (b.fit (a.law l) d)⟩

theorem ScanPass.eachChan {f : State → Chan → State} (h : ∀ s c, ScanPass s (f s c)) (s : State) :
    ScanPass s (eachChan f s) :=
  foldl_holds f (fun t c p => p.trans (h t c)) _ s (ScanPass.refl s)

theorem RefillPass.eachChan {f : State → Chan → State} (h : ∀ s c, RefillPass s (f s c)) (s : State) :
    RefillPass s (eachChan f s) :=
  foldl_holds f (fun t c p => p.trans (h t c)) _ s (RefillPass.refl s)

section OneChannel
variable {s : State} {c : Chan} {f : Channel → Channel} {wait : List Chan} {grants : Vector (Option Chan) 3}
  {acct : Account} {overhead : Overhead}

/-- The state after a change of one channel, of the wait list and the grants, and of the accounts. -/
def State.changedAt (s : State) (c : Chan) (f : Channel → Channel) (wait : List Chan) (grants : Vector (Option Chan) 3)
    (acct : Account) (overhead : Overhead) : State :=
  { s with ink := { s.ink with chans := modifyAt s.ink.chans c f, wait := wait, grants := grants }
           acct := acct
           cost := { s.cost with overhead := overhead } }

theorem ScanPass.changedAt (law : s.ink.Law → (s.changedAt c f wait grants acct overhead).ink.Law)
    (sensor : s.ink.chans[c].SameSensor (f s.ink.chans[c])) : ScanPass s (s.changedAt c f wait grants acct overhead) :=
  ⟨⟨rfl, rfl, rfl, rfl, rfl, rfl, rfl, rfl⟩, ⟨rfl, rfl, rfl⟩, law, forall_modify .refl sensor⟩

theorem RefillPass.changedAt (law : s.ink.Law → (s.changedAt c f wait grants acct overhead).ink.Law)
    (sensor : s.ink.chans[c].SameSensor (f s.ink.chans[c]))
    (fit : s.ink.Law → s.ink.chans[c].SameFit (f s.ink.chans[c])) :
    RefillPass s (s.changedAt c f wait grants acct overhead) :=
  ⟨ScanPass.changedAt law sensor, fun l => forall_modify .refl (fit l)⟩

end OneChannel

/-! ### The passes -/

section Passes
variable {s : State} {c : Chan}

theorem stopPump_scanPass {x : Supply} (was : s.ink.chans[c].supply = .refilling) (now : x.atRest) :
    ScanPass s (stopPump c x s) :=
  ScanPass.changedAt (overhead := s.cost.overhead)
    (f := fun y => { y with supply := x, pump := false, strokeLeft := none, progress := none })
    (stopPump_keeps was now).ink ⟨rfl, rfl, rfl, rfl, rfl, id⟩

theorem stopPump_refillPass (was : s.ink.chans[c].supply = .refilling) : RefillPass s (stopPump c .ready s) := by
  have rest : Supply.ready.atRest := ⟨nofun, nofun⟩
  have declared : s.ink.chans[c].supply.declared := by rw [was]; exact ⟨nofun, nofun⟩
  exact ⟨stopPump_scanPass was rest, fun _ => forall_modify .refl (.of_declared rfl declared ⟨nofun, nofun⟩)⟩

theorem leakCheck_refillPass (c : Chan) (s : State) : RefillPass s (leakCheck c s) := by
  have law := (leakCheck_keeps c s).ink
  revert law
  unfold leakCheck
  dsimp only
  split
  · exact fun law => RefillPass.changedAt (f := fun x => { x with sticky := { x.sticky with leakSuspect := true } })
      law ⟨rfl, rfl, rfl, rfl, rfl, id⟩ fun _ => ⟨rfl, Iff.rfl, Iff.rfl⟩
  · exact fun law => ⟨⟨⟨rfl, rfl, rfl, rfl, rfl, rfl, rfl, rfl⟩, .refl _, law, fun _ => .refl _⟩, fun _ _ => .refl _⟩

theorem endRefill_refillPass (was : s.ink.chans[c].supply = .refilling) : RefillPass s (endRefill c .ready s) := by
  refine ((stopPump_refillPass was).trans (leakCheck_refillPass c _)).trans ?_
  exact RefillPass.changedAt (overhead := (leakCheck c (stopPump c .ready s)).cost.overhead)
    (f := fun x => { x with levelEnd := x.level }) (setChan_keeps _).ink
    ⟨rfl, rfl, rfl, rfl, rfl, id⟩ fun _ => ⟨rfl, Iff.rfl, Iff.rfl⟩

theorem scanEnding_refillPass (s : State) (c : Chan) : RefillPass s (scanEnding s c) := by
  unfold scanEnding
  dsimp only
  split
  · next h => exact endRefill_refillPass h.1
  · exact RefillPass.refl s

theorem refillTest_refillPass (s : State) (c : Chan) : RefillPass s (refillTest s c) := by
  have law := (refillTest_keeps s c).ink
  cases starts : s.ink.chans[c].needsRefill with
  | false =>
    rw [refillTest_stays starts]
    exact RefillPass.refl s
  | true =>
    obtain ⟨ready, -⟩ := Channel.needsRefill_iff.1 starts
    have declared : s.ink.chans[c].supply.declared := by rw [ready]; exact ⟨nofun, nofun⟩
    rw [refillTest_starts starts] at law ⊢
    exact RefillPass.changedAt (overhead := s.cost.overhead) (f := fun x => { x with supply := .waiting }) law
      ⟨rfl, rfl, rfl, rfl, rfl, id⟩ fun _ => .of_declared rfl declared ⟨nofun, nofun⟩

theorem grantOne_refillPass (s : State) : RefillPass s (grantOne s) := by
  have law := (grantOne_keeps s).ink
  cases free : s.ink.freeGrant with
  | none =>
    rw [grantOne_none (.inl free)]
    exact RefillPass.refl s
  | some g =>
    cases lowest : s.ink.lowestWaiting with
    | none =>
      rw [grantOne_none (.inr lowest)]
      exact RefillPass.refl s
    | some c =>
      rw [grantOne_grants free lowest] at law ⊢
      refine RefillPass.changedAt (overhead := s.cost.overhead) (f := fun x =>
        { x with supply := .refilling, levelBegin := x.level, progress := some { strokes := 0, ring := [x.level] },
                 pump := true, strokeLeft := some Config.pumpMs }) law ⟨rfl, rfl, rfl, rfl, rfl, id⟩ fun l => ?_
      have waiting := (l.waiting c).2 (Ink.lowestWaiting_mem lowest)
      exact .of_declared rfl (by rw [waiting]; exact ⟨nofun, nofun⟩) ⟨nofun, nofun⟩

theorem arbiter_refillPass (s : State) : RefillPass s (arbiter s) :=
  ((grantOne_refillPass s).trans (grantOne_refillPass _)).trans (grantOne_refillPass _)

theorem faultRefill_refillPass (s : State) (c : Chan) : RefillPass s (faultRefill s c) := by
  have law := (faultRefill_keeps s c).ink
  revert law
  unfold faultRefill
  dsimp only
  split
  · split
    · next waiting =>
      have declared : s.ink.chans[c].supply.declared := by rw [waiting]; exact ⟨nofun, nofun⟩
      exact fun law => RefillPass.changedAt (overhead := s.cost.overhead) (f := fun x => { x with supply := .ready })
        law ⟨rfl, rfl, rfl, rfl, rfl, id⟩ fun _ => .of_declared rfl declared ⟨nofun, nofun⟩
    · next refilling => exact fun _ => stopPump_refillPass refilling
    · exact fun _ => RefillPass.refl s
  · exact fun _ => RefillPass.refl s

end Passes

/-! ### The cartridge inputs (R97) -/

section Inputs
variable {cart : Vector Bool 10} {s : State} {c : Chan} {x : Channel} (hx : x = s.ink.chans[c])
include hx

theorem cartInput_declares (on : cart[c] = true) (supply : x.supply = .unfitted) :
    cartInput cart s c = s.mapInk fun i => { i with chans := i.chans.set c { x with supply := .undeclared } } := by
  subst hx
  exact (if_pos on).trans (if_pos supply)

theorem cartInput_stays (on : cart[c] = true) (supply : x.supply ≠ .unfitted) : cartInput cart s c = s := by
  subst hx
  exact (if_pos on).trans (if_neg supply)

variable (off : cart[c] = false)
include off

theorem cartInput_empty (supply : x.supply = .unfitted) : cartInput cart s c = s := by
  subst hx
  unfold cartInput
  simp only [off, supply]
  rfl

theorem cartInput_refilling (supply : x.supply = .refilling) :
    cartInput cart s c = (stopPump c .unfitted s).mapInk fun i =>
      { i with chans := i.chans.set c { i.chans[c] with cart := none } } := by
  subst hx
  unfold cartInput
  simp only [off, supply]
  rfl

theorem cartInput_waiting (supply : x.supply = .waiting) :
    cartInput cart s c = s.mapInk fun i =>
      { i with chans := i.chans.set c { x with supply := .unfitted, cart := none }, wait := i.wait.erase c } := by
  subst hx
  unfold cartInput
  simp only [off, supply]
  rfl

theorem cartInput_resting (supply : x.supply = .undeclared ∨ x.supply = .ready ∨ x.supply = .empty) :
    cartInput cart s c = s.mapInk fun i =>
      { i with chans := i.chans.set c { x with supply := .unfitted, cart := none } } := by
  subst hx
  unfold cartInput
  rcases supply with supply | supply | supply <;> simp only [off, supply] <;> rfl

end Inputs

/-- What a cartridge input makes of a channel. -/
structure Channel.CartTaken (on : Bool) (x y : Channel) : Prop where
  off : on = false → y.supply = .unfitted ∧ (x.supply ≠ .unfitted → y.cart = none)
  on : on = true → x.supply = .unfitted → y.supply = .undeclared

/-- A channel set to what it is changes nothing. -/
theorem State.changedAt_same (s : State) (c : Chan) :
    s.changedAt c (fun _ => s.ink.chans[c]) s.ink.wait s.ink.grants s.acct s.cost.overhead = s := by
  unfold State.changedAt modifyAt
  simp only [Fin.getElem_fin, Vector.set_getElem_self]

/-- A refill that ends with its cartridge taken away changes its channel and its grant. -/
theorem stopPump_removed (s : State) (c : Chan) :
    ((stopPump c .unfitted s).mapInk fun i => { i with chans := i.chans.set c { i.chans[c] with cart := none } }) =
      s.changedAt c
        (fun _ => { s.ink.chans[c] with supply := .unfitted, cart := none, pump := false, strokeLeft := none,
                                        progress := none })
        s.ink.wait (s.ink.grants.map fun g => if g = some c then none else g) s.acct s.cost.overhead := by
  unfold stopPump setChan modifyAt State.mapInk
  simp only [Fin.getElem_fin, Vector.getElem_set_self, Vector.set_set]
  rfl

/-- A cartridge input changes one channel, the wait list and the grants. -/
theorem cartInput_changes (cart : Vector Bool 10) (s : State) (c : Chan) :
    ∃ y wait grants, cartInput cart s c = s.changedAt c (fun _ => y) wait grants s.acct s.cost.overhead ∧
      s.ink.chans[c].SameSensor y ∧ s.ink.chans[c].CartTaken cart[c] y := by
  have same : ∀ x : Channel, x.SameSensor x := .refl
  cases on : cart[c] with
  | true =>
    by_cases supply : s.ink.chans[c].supply = .unfitted
    · exact ⟨_, _, _, cartInput_declares rfl on supply, ⟨rfl, rfl, rfl, rfl, rfl, id⟩, nofun, fun _ _ => rfl⟩
    · exact ⟨_, _, _, (cartInput_stays rfl on supply).trans (s.changedAt_same c).symm, same _, nofun,
        fun _ h => absurd h supply⟩
  | false =>
    have resting (h : s.ink.chans[c].supply = .undeclared ∨ s.ink.chans[c].supply = .ready ∨
        s.ink.chans[c].supply = .empty) : ∃ y wait grants,
          cartInput cart s c = s.changedAt c (fun _ => y) wait grants s.acct s.cost.overhead ∧
            s.ink.chans[c].SameSensor y ∧ s.ink.chans[c].CartTaken false y :=
      ⟨_, _, _, cartInput_resting rfl on h, ⟨rfl, rfl, rfl, rfl, rfl, id⟩, fun _ => ⟨rfl, fun _ => rfl⟩, nofun⟩
    cases supply : s.ink.chans[c].supply with
    | unfitted =>
      exact ⟨_, _, _, (cartInput_empty rfl on supply).trans (s.changedAt_same c).symm, same _,
        fun _ => ⟨supply, fun h => absurd supply h⟩, nofun⟩
    | refilling =>
      exact ⟨_, _, _, (cartInput_refilling rfl on supply).trans (stopPump_removed s c), ⟨rfl, rfl, rfl, rfl, rfl, id⟩,
        fun _ => ⟨rfl, fun _ => rfl⟩, nofun⟩
    | waiting =>
      exact ⟨_, _, _, cartInput_waiting rfl on supply, ⟨rfl, rfl, rfl, rfl, rfl, id⟩, fun _ => ⟨rfl, fun _ => rfl⟩,
        nofun⟩
    | undeclared => exact resting (.inl supply)
    | ready => exact resting (.inr (.inl supply))
    | empty => exact resting (.inr (.inr supply))

theorem cartInput_scanPass (cart : Vector Bool 10) (s : State) (c : Chan) : ScanPass s (cartInput cart s c) := by
  have law := (cartInput_keeps cart s c).ink
  obtain ⟨y, wait, grants, eq, sensor, -⟩ := cartInput_changes cart s c
  rw [eq] at law ⊢
  exact ScanPass.changedAt law sensor

/-- Where an operation on a channel changes that channel alone, a pass over the channels changes each as the operation
does. -/
theorem eachChan_at {f : State → Chan → State} {R : Chan → Channel → Channel → Prop}
    (other : ∀ s c d, d ≠ c → (f s c).ink.chans[d] = s.ink.chans[d])
    (own : ∀ s c, R c s.ink.chans[c] (f s c).ink.chans[c]) (s : State) (c : Chan) :
    R c s.ink.chans[c] (eachChan f s).ink.chans[c] := by
  have kept : ∀ (xs : List Chan) (t : State), c ∉ xs → (xs.foldl f t).ink.chans[c] = t.ink.chans[c] := by
    intro xs
    induction xs with
    | nil => exact fun _ _ => rfl
    | cons d xs ih =>
      intro t out
      obtain ⟨first, rest⟩ := not_or.1 (mt List.mem_cons.2 out)
      exact (ih (f t d) rest).trans (other t d c first)
  obtain ⟨xs, ys, split⟩ := List.append_of_mem (List.mem_finRange c)
  have once : (xs ++ c :: ys).Nodup := split ▸ List.nodup_finRange 10
  obtain ⟨out, -⟩ := List.nodup_cons.1 (List.nodup_middle.1 once)
  obtain ⟨before, after⟩ := not_or.1 (mt List.mem_append.2 out)
  unfold eachChan
  rw [split, List.foldl_append, List.foldl_cons, kept ys _ after, ← kept xs s before]
  exact own _ c

theorem cartInputs_taken (cart : Vector Bool 10) (s : State) (c : Chan) :
    s.ink.chans[c].CartTaken cart[c] (eachChan (cartInput cart) s).ink.chans[c] := by
  refine eachChan_at (R := fun c x y => x.CartTaken cart[c] y) (fun s c d away => ?_) (fun s c => ?_) s c
  · obtain ⟨y, wait, grants, eq, -⟩ := cartInput_changes cart s c
    rw [eq]
    exact (chans_modify ..).trans (if_neg away)
  · obtain ⟨y, wait, grants, eq, -, taken⟩ := cartInput_changes cart s c
    rw [eq]
    exact ((chans_modify s.ink c c fun _ => y).trans (if_pos rfl)).symm ▸ taken

end Sys2Proof.Machine
end

section
/-!
PROOFS. A scan: what its order makes of a channel, the level of a mean reading, and the operations of its passes, one
equation for each case (R92 to R97, R103, R106). With them O39.
-/

-- One theorem after another: waiting proofs would each hold a thread.
set_option Elab.async false

namespace Sys2Proof.Machine

/-! ### The level of a mean reading (R93) -/

section Level
variable {p : InkProfile} {mean : Nat}

section Rising
variable (rising : p.emptyAt < p.fullAt)
include rising

theorem levelOf_rising (high : mean ≤ p.fullAt) :
    levelOf p mean = (mean - p.emptyAt) * 30000 / (p.fullAt - p.emptyAt) := by
  unfold levelOf
  rw [if_pos rising, Nat.min_eq_left high]

theorem levelOf_rising_empty (low : mean ≤ p.emptyAt) : levelOf p mean = 0 := by
  rw [levelOf_rising rising (low.trans rising.le), Nat.sub_eq_zero_of_le low, Nat.zero_mul, Nat.zero_div]

theorem levelOf_rising_full (high : p.fullAt ≤ mean) : levelOf p mean = 30000 := by
  unfold levelOf
  rw [if_pos rising, Nat.min_eq_right high, Nat.mul_div_cancel_left _ (Nat.sub_pos_of_lt rising)]

end Rising

section Falling
variable (falling : p.fullAt < p.emptyAt)
include falling

theorem levelOf_falling (low : p.fullAt ≤ mean) :
    levelOf p mean = (p.emptyAt - mean) * 30000 / (p.emptyAt - p.fullAt) := by
  unfold levelOf
  rw [if_neg falling.asymm, Nat.max_eq_left low]

theorem levelOf_falling_empty (high : p.emptyAt ≤ mean) : levelOf p mean = 0 := by
  rw [levelOf_falling falling (falling.le.trans high), Nat.sub_eq_zero_of_le high, Nat.zero_mul, Nat.zero_div]

theorem levelOf_falling_full (low : mean ≤ p.fullAt) : levelOf p mean = 30000 := by
  unfold levelOf
  rw [if_neg falling.asymm, Nat.max_eq_right low, Nat.mul_div_cancel_left _ (Nat.sub_pos_of_lt falling)]

end Falling

end Level

/-! ### One channel through a scan (R92 to R96) -/

theorem goodRead_false {r : BitVec 10} (h : r.toNat < 8 ∨ 1015 < r.toNat) : goodRead r = false :=
  decide_eq_false (by omega)

/-- A scan has made `y` of the channel `x` by the reading `r`. -/
structure Channel.Scanned (first : Bool) (r : BitVec 10) (x y : Channel) : Prop where
  ring : y.ring = sample (first || x.fault) x.ring r
  fault : y.fault = !goodRead r
  level : y.level = if y.fault then 0 else levelOf y.profile (meanOf y.ring)
  profile : y.profile = x.profile
  cond : y.cond = levelCond y.profile y.level
  event : goodRead r = false → y.sticky.sensorFault = true

section Scanned
variable {first : Bool} {r : BitVec 10} {x y z : Channel}

theorem Channel.Scanned.sameSensor (h : x.Scanned first r y) (k : y.SameSensor z) : x.Scanned first r z where
  ring := k.ring.trans h.ring
  fault := k.fault.trans h.fault
  level := by rw [k.level, k.fault, k.profile, k.ring, h.level]
  profile := k.profile.trans h.profile
  cond := by rw [k.cond, k.profile, k.level, h.cond]
  event := k.event ∘ h.event

theorem Channel.read_event (bad : goodRead r = false) : (x.read first r).sticky.sensorFault = true := by
  unfold Channel.read
  simp only [bad, Bool.false_eq_true, if_false]

/-- The entry into DRY is another sticky event (R100). -/
theorem Channel.measure_event : (x.measure first).sticky.sensorFault = x.sticky.sensorFault := by
  unfold Channel.measure
  dsimp only
  rw [apply_ite Sticky.sensorFault, ite_self]

/-- The reading, then the level by the ring as it stands. -/
theorem Channel.scanned_measure (h : (x.read first r).SameSensor y) : x.Scanned first r (y.measure first) where
  ring := h.ring
  fault := h.fault
  level := rfl
  profile := h.profile
  cond := rfl
  event bad := Channel.measure_event.trans (h.event (Channel.read_event bad))

theorem Channel.Scanned.bad (h : x.Scanned first r y) (bad : goodRead r = false) :
    y.fault = true ∧ y.ring = x.ring ∧ y.level = 0 ∧ y.sticky.sensorFault = true := by
  have fault : y.fault = true := by rw [h.fault, bad]; rfl
  refine ⟨fault, ?_, h.level.trans (if_pos fault), h.event bad⟩
  rw [h.ring, sample, if_neg (Bool.eq_false_iff.1 bad)]

variable (h : x.Scanned first r y) (good : goodRead r = true)
include h good

theorem Channel.Scanned.good_fault : y.fault = false := by rw [h.fault, good]; rfl

theorem Channel.Scanned.good_level : y.level = levelOf x.profile (y.ring.sum / y.ring.length) := by
  rw [h.level, h.good_fault good, h.profile]
  rfl

/-- The first good reading fills the ring. -/
theorem Channel.Scanned.filled (fill : first = true ∨ x.fault = true) : y.ring = List.replicate 8 r.toNat := by
  rw [h.ring, sample, if_pos good]
  exact if_pos (Bool.or_eq_true_iff.2 fill)

/-- A full ring drops its oldest reading. -/
theorem Channel.Scanned.pushed (later : first = false) (sound : x.fault = false) (full : x.ring.length = 8) :
    y.ring = x.ring.drop 1 ++ [r.toNat] := by
  rw [h.ring, sample, if_pos good, later, sound, ringPush, full]
  rfl

end Scanned

/-! ### The order of a scan (R92) -/

section Order
variable (ain : Vector (BitVec 10) 11) (cart : Vector Bool 10) (s : State)

/-- The state after the readings and the endings that a sensor fault brings. -/
def scanRead : State := eachChan faultRefill (s.mapInk (Ink.readAll (!s.ink.scanned) ain))

/-- The state after the levels and the cartridge inputs. -/
def scanFitted : State := eachChan (cartInput cart) ((scanRead ain s).mapInk (Ink.measureAll (!s.ink.scanned)))

/-- The state after the refill endings, the start tests and the arbiter. -/
def scanServed : State := arbiter (eachChan refillTest (eachChan scanEnding (scanFitted ain cart s)))

/-- The state after the notices. -/
def scanNoticed : State := noticeChannels s.ink.chans ((scanServed ain cart s).mapInk Ink.markAbove)

theorem scanAll_eq : scanAll ain cart s =
    if (scanServed ain cart s).ink.anyReturned then resumeTest (scanNoticed ain cart s)
    else scanNoticed ain cart s := rfl

variable {ain cart s} in
theorem exec_scan {t : State} (h : scanAll ain cart s = t) : exec (.scan ain cart) s = .next (giveLine t) :=
  exec_given h rfl

theorem scanAll_ink : (scanAll ain cart s).ink = (scanServed ain cart s).ink.markAbove := by
  have noticed : (scanNoticed ain cart s).ink = (scanServed ain cart s).ink.markAbove := noticeChannels_ink ..
  rw [scanAll_eq]
  split
  · exact (resumeTest_ink _).trans noticed
  · exact noticed

theorem scanRead_pass : RefillPass (s.mapInk (Ink.readAll (!s.ink.scanned) ain)) (scanRead ain s) :=
  RefillPass.eachChan faultRefill_refillPass _

theorem scanFitted_pass :
    ScanPass ((scanRead ain s).mapInk (Ink.measureAll (!s.ink.scanned))) (scanFitted ain cart s) :=
  ScanPass.eachChan (cartInput_scanPass cart) _

theorem scanServed_pass : RefillPass (scanFitted ain cart s) (scanServed ain cart s) :=
  ((RefillPass.eachChan scanEnding_refillPass _).trans (RefillPass.eachChan refillTest_refillPass _)).trans
    (arbiter_refillPass _)

theorem scanAll_inkEvent : InkEvent s (scanAll ain cart s) := by
  have read := (InkEvent.mapInk _ s).trans (scanRead_pass ain s).toInkEvent
  have fitted := (read.trans (InkEvent.mapInk _ _)).trans (scanFitted_pass ain cart s).toInkEvent
  have served := fitted.trans (scanServed_pass ain cart s).toInkEvent
  have noticed : InkEvent s (scanNoticed ain cart s) :=
    (served.trans (InkEvent.mapInk _ _)).trans (noticeChannels_inkEvent ..)
  rw [scanAll_eq]
  split
  · exact noticed.trans (resumeTest_inkEvent _)
  · exact noticed

theorem Ink.readAll_scan (first : Bool) (k : Ink) : (k.readAll first ain).scanned = true ∧
    (k.readAll first ain).scanLeft = 100 ∧ (k.readAll first ain).humFault = !goodRead ain[10] := ⟨rfl, rfl, rfl⟩

theorem Ink.measureAll_sameScan (first : Bool) (k : Ink) : k.SameScan (k.measureAll first) := ⟨rfl, rfl, rfl⟩

theorem Ink.markAbove_sameScan (k : Ink) : k.SameScan k.markAbove := ⟨rfl, rfl, rfl⟩

/-- No pass after the readings touches the humidity and the scan's own time. -/
theorem scanAll_sameScan : (s.ink.readAll (!s.ink.scanned) ain).SameScan (scanAll ain cart s).ink := by
  have read := (scanRead_pass ain s).scan
  have fitted := (scanFitted_pass ain cart s).scan
  have served := (scanServed_pass ain cart s).scan
  rw [State.mapInk_ink] at read fitted
  rw [scanAll_ink]
  exact ((read.trans (Ink.measureAll_sameScan _ _)).trans fitted).trans (served.trans (Ink.markAbove_sameScan _))

variable (c : Chan)

theorem Ink.readAll_chan (first : Bool) (k : Ink) :
    (k.readAll first ain).chans[c] = k.chans[c].read first (ain[c.val]'(by omega)) := by
  simp [Ink.readAll, Ink.readHumidity]

theorem Ink.measureAll_chan (first : Bool) (k : Ink) : (k.measureAll first).chans[c] = k.chans[c].measure first := by
  simp [Ink.measureAll]

theorem Ink.markAbove_chan (k : Ink) : k.markAbove.chans[c] = { k.chans[c] with above := k.chans[c].returned } := by
  simp [Ink.markAbove]

theorem Channel.sameSensor_above (x : Channel) (b : Bool) : x.SameSensor { x with above := b } :=
  ⟨rfl, rfl, rfl, rfl, rfl, id⟩

theorem Channel.sameFit_above (x : Channel) (b : Bool) : x.SameFit { x with above := b } := ⟨rfl, Iff.rfl, Iff.rfl⟩

theorem Channel.sameFit_read (first : Bool) (r : BitVec 10) (x : Channel) : x.SameFit (x.read first r) :=
  ⟨rfl, Iff.rfl, Iff.rfl⟩

theorem Channel.sameFit_measure (first : Bool) (x : Channel) : x.SameFit (x.measure first) := ⟨rfl, Iff.rfl, Iff.rfl⟩

/-- The cartridge input stands between operations that keep what is fitted. -/
theorem Channel.CartTaken.between {on : Bool} {w x y z : Channel} (before : w.SameFit x) (taken : x.CartTaken on y)
    (after : y.SameFit z) : w.CartTaken on z := by
  refine ⟨fun off => ?_, fun on was => after.undeclared.2 (taken.on on (before.unfitted.2 was))⟩
  obtain ⟨unfitted, gone⟩ := taken.off off
  exact ⟨after.unfitted.2 unfitted, fun was => after.cart.trans (gone (mt before.unfitted.1 was))⟩

/-- A scan reads and measures every channel. -/
theorem scanAll_scanned : s.ink.chans[c].Scanned (!s.ink.scanned) (ain[c.val]'(by omega))
    (scanAll ain cart s).ink.chans[c] := by
  have read := (scanRead_pass ain s).sensor c
  have fitted := (scanFitted_pass ain cart s).sensor c
  have served := (scanServed_pass ain cart s).sensor c
  rw [State.mapInk_ink, Ink.readAll_chan] at read
  rw [State.mapInk_ink, Ink.measureAll_chan] at fitted
  rw [scanAll_ink, Ink.markAbove_chan]
  exact (((Channel.scanned_measure read).sameSensor fitted).sameSensor served).sameSensor
    (Channel.sameSensor_above _ _)

/-- A scan takes the cartridge input of every channel: no other pass fits or takes away a cartridge. -/
theorem scanAll_taken (l : s.ink.Law) : s.ink.chans[c].CartTaken cart[c] (scanAll ain cart s).ink.chans[c] := by
  have readLaw : (s.mapInk (Ink.readAll (!s.ink.scanned) ain)).ink.Law := l.readAll _ ain
  have fittedLaw : (scanFitted ain cart s).ink.Law :=
    (scanFitted_pass ain cart s).law (((scanRead_pass ain s).law readLaw).measureAll _)
  have read := (scanRead_pass ain s).fit readLaw c
  have taken := cartInputs_taken cart ((scanRead ain s).mapInk (Ink.measureAll (!s.ink.scanned))) c
  have served := (scanServed_pass ain cart s).fit fittedLaw c
  rw [State.mapInk_ink, Ink.readAll_chan] at read
  rw [State.mapInk_ink, Ink.measureAll_chan] at taken
  rw [scanAll_ink, Ink.markAbove_chan]
  have before := ((Channel.sameFit_read ..).trans read).trans (Channel.sameFit_measure (!s.ink.scanned) _)
  exact .between before taken (served.trans (Channel.sameFit_above _ _))

end Order

theorem Ink.anyReturned_iff {k : Ink} : k.anyReturned = true ↔
    ∃ c : Chan, k.chans[c].fault = false ∧ k.chans[c].profile.floor + 1000 ≤ k.chans[c].level ∧
      k.chans[c].above = false := by
  have places : ∀ {P : Channel → Prop}, (∃ x ∈ k.chans.toList, P x) ↔ ∃ c : Chan, P k.chans[c] := by
    simp [Vector.mem_iff_getElem, Fin.exists_iff]
  unfold Ink.anyReturned Channel.returned
  rw [List.any_eq_true, places]
  simp only [Bool.and_eq_true, Bool.not_eq_true', decide_eq_true_eq, and_assoc]
  rfl

/-! ### The passes on one channel (R94, R106) -/

section Passes
variable {s : State} {c : Chan} {x : Channel} (hx : x = s.ink.chans[c])
include hx

theorem faultRefill_sound (sound : x.fault = false) : faultRefill s c = s := by
  subst hx
  exact if_neg (Bool.eq_false_iff.1 sound)

theorem scanEnding_stops (supply : x.supply = .refilling) (full : x.profile.stop ≤ x.level) :
    scanEnding s c = endRefill c .ready s := by
  subst hx
  exact if_pos ⟨supply, full⟩

theorem scanEnding_goesOn (h : x.supply ≠ .refilling ∨ x.level < x.profile.stop) : scanEnding s c = s := by
  subst hx
  exact if_neg fun ⟨supply, full⟩ => h.elim (fun other => other supply) (Nat.not_lt.2 full)

variable (fault : x.fault = true)
include fault

theorem faultRefill_waiting (supply : x.supply = .waiting) : faultRefill s c = s.mapInk fun i =>
    { i with chans := i.chans.set c { x with supply := .ready }, wait := i.wait.erase c } := by
  subst hx
  refine (if_pos fault).trans ?_
  split
  · rfl
  · next refilling => exact absurd (supply.symm.trans refilling) nofun
  · next other _ => exact absurd supply other

theorem faultRefill_refilling (supply : x.supply = .refilling) : faultRefill s c = stopPump c .ready s := by
  subst hx
  refine (if_pos fault).trans ?_
  split
  · next waiting => exact absurd (supply.symm.trans waiting) nofun
  · rfl
  · next _ other => exact absurd supply other

theorem faultRefill_resting (waiting : x.supply ≠ .waiting) (refilling : x.supply ≠ .refilling) :
    faultRefill s c = s := by
  subst hx
  refine (if_pos fault).trans ?_
  split
  · exact absurd ‹_› waiting
  · exact absurd ‹_› refilling
  · rfl

end Passes

/-- Settles O39: the channels by `scanAll_scanned` and `scanAll_taken`, the order by `scanAll_eq`, and the equation of
each pass for each state of its channel. -/
theorem scanTakesRingsLevelsAndCartridges : Obligations.ScanTakesRingsLevelsAndCartridges := by
  unfold Obligations.ScanTakesRingsLevelsAndCartridges
  refine ⟨fun ain cart s law => ⟨giveLine (scanAll ain cart s), rfl, ?_⟩, fun ain cart s a b d e ha hb hd he => ?_,
    fun c x s hx => ⟨fun fault => ⟨faultRefill_waiting hx fault, faultRefill_refilling hx fault,
      faultRefill_resting hx fault⟩, faultRefill_sound hx, scanEnding_stops hx, scanEnding_goesOn hx,
      fun cart => ⟨fun on => ⟨cartInput_declares hx on, cartInput_stays hx on⟩, fun off =>
        ⟨cartInput_empty hx off, cartInput_refilling hx off, cartInput_waiting hx off, cartInput_resting hx off⟩⟩⟩⟩
  · have scan := scanAll_sameScan ain cart s
    have frame := (scanAll_inkEvent ain cart s).trans (giveLine_inkEvent _)
    have all := scanAll_scanned ain cart s
    have inputs := fun c => scanAll_taken ain cart s c law
    rw [giveLine_ink]
    generalize scanAll ain cart s = t at scan frame all inputs ⊢
    obtain ⟨scanned, left, humidity⟩ := Ink.readAll_scan ain (!s.ink.scanned) s.ink
    refine ⟨scan.scanned.trans scanned, scan.scanLeft.trans left, scan.humFault.trans humidity, fun c r hr => ?_,
      ⟨frame.pending, frame.ed, frame.feed, frame.chk, frame.drift, frame.cost, frame.order, frame.host⟩,
      fun p mean => ⟨fun rising _ high => levelOf_rising rising high, levelOf_rising_empty, levelOf_rising_full,
        fun falling low _ => levelOf_falling falling low, levelOf_falling_empty, levelOf_falling_full⟩⟩
    subst hr
    have chan := all c
    have taken := inputs c
    refine ⟨fun bad => chan.bad (goodRead_false bad), fun low high => ?_, chan.profile, ?_, taken.off, taken.on⟩
    · have good : goodRead (ain[c.val]'(by omega)) = true := decide_eq_true ⟨low, high⟩
      refine ⟨chan.good_fault good, fun fill => chan.filled good (fill.imp_left ?_),
        fun later => chan.pushed good ?_, chan.good_level good⟩
      · exact fun first => by rw [first]; rfl
      · rw [later]
        rfl
    · rw [chan.cond, chan.profile]
      rfl
  · have served : scanServed ain cart s = d := by
      simp only [hd, hb, ha, scanServed, scanFitted, scanRead, eachChan]
    have noticed : scanNoticed ain cart s = e := by
      rw [he, ← served]
      rfl
    have all := scanAll_eq ain cart s
    rw [served, noticed] at all
    refine ⟨fun returned => ?_, fun none_ => ?_⟩
    · exact exec_scan (all.trans (if_pos (Ink.anyReturned_iff.2 returned)))
    · refine exec_scan (all.trans (if_neg fun returned => ?_))
      obtain ⟨c, sound, high, below⟩ := Ink.anyReturned_iff.1 returned
      rcases none_ c with fault | low | above
      · exact absurd (fault.symm.trans sound) Bool.noConfusion
      · omega
      · exact absurd (above.symm.trans below) Bool.noConfusion

end Sys2Proof.Machine
end

section
/-!
PROOFS. The ink account: the debit of an entry, the pair and the sum of a job report, the overhead report and the leak
check (R113 to R118). With them O41.
-/

-- One theorem after another: waiting proofs would each hold a thread.
set_option Elab.async false

namespace Sys2Proof.Machine

/-! ### The debit of an entry (R114) -/

section Debit
variable {e : InkEntry} {count volume drops used rise : Nat} (hd : drops = min (e.drops + count) 4294967295)
  (hu : used = drops * volume / 1000) (hr : rise = used - e.used)
include hd hu hr

theorem InkEntry.debit_eq : e.debit count volume =
    { e with drops := drops, used := used, remaining := e.remaining - min rise e.remaining,
             drawn := e.drawn + min rise e.remaining,
             overdraw := min (e.overdraw + (rise - min rise e.remaining)) 4294967295 } := by
  subst hr hu hd
  rfl

/-- A rise the reservation covers is drawn whole, and no overdraw is added. -/
theorem InkEntry.debit_covered (covered : rise ≤ e.remaining) : e.debit count volume =
    { e with drops := drops, used := used, remaining := e.remaining - rise, drawn := e.drawn + rise,
             overdraw := min e.overdraw 4294967295 } := by
  rw [InkEntry.debit_eq hd hu hr, Nat.min_eq_left covered, Nat.sub_self, Nat.add_zero]

/-- A rise beyond the reservation draws all that remains, and the rest of it is overdrawn. -/
theorem InkEntry.debit_beyond (beyond : e.remaining < rise) : e.debit count volume =
    { e with drops := drops, used := used, remaining := 0, drawn := e.drawn + e.remaining,
             overdraw := min (e.overdraw + (rise - e.remaining)) 4294967295 } := by
  rw [InkEntry.debit_eq hd hu hr, Nat.min_eq_right beyond.le, Nat.sub_self]

end Debit

/-! ### An overhead report's pair (R117) -/

theorem overheadPair_eq {s : State} {c : Chan} {count pl : Nat}
    (h : pl = count * s.ink.chans[c].profile.drop + s.acct.carry[c]) : overheadPair s (c, count) =
      { s with
        acct := { s.acct with carry := s.acct.carry.set c (pl % 1000),
                              use := s.acct.use.set c (min (s.acct.use[c] + pl / 1000) 4294967295) }
        cost :=
          { s.cost with
            overhead :=
              { s.cost.overhead with
                maint := s.cost.overhead.maint.set c (min (s.cost.overhead.maint[c] + pl / 1000) 4294967295) } } } := by
  subst h
  rfl

/-! ### The leak check (R118) -/

section Leak
variable {s : State} {c : Chan} {excess : Int}
  (he : excess = (s.ink.chans[c].levelEnd : Int) - s.ink.chans[c].levelBegin - (s.acct.useBegin[c] / 1000 : Nat))
include he

theorem leakCheck_eq : leakCheck c s =
    (if 2000 < excess then
      (setChan c (fun x => { x with sticky := { x.sticky with leakSuspect := true } }) s).mapCost fun k =>
        { k with
          overhead :=
            { k.overhead with
              unaccounted := modifyAt k.overhead.unaccounted c fun m => sat32 (m + excess.toNat * 1000) } }
    else s).mapAcct fun a => { a with use := a.use.set c 0 } := by
  rw [Int.natCast_ediv, Nat.cast_ofNat] at he
  subst he
  rfl

theorem leakCheck_within (within : excess ≤ 2000) :
    leakCheck c s = s.mapAcct fun a => { a with use := a.use.set c 0 } := by
  rw [leakCheck_eq he, if_neg within.not_gt]

theorem leakCheck_suspect (leak : 2000 < excess) : leakCheck c s =
    { s with
      ink :=
        { s.ink with
          chans := s.ink.chans.set c
            { s.ink.chans[c] with sticky := { s.ink.chans[c].sticky with leakSuspect := true } } }
      acct := { s.acct with use := s.acct.use.set c 0 }
      cost :=
        { s.cost with
          overhead :=
            { s.cost.overhead with
              unaccounted := s.cost.overhead.unaccounted.set c
                (min (s.cost.overhead.unaccounted[c] + excess.toNat * 1000) 4294967295) } } } := by
  rw [leakCheck_eq he, if_pos leak]
  rfl

end Leak

/-! ### A job report's pair (R113 to R116) -/

theorem withEntry_there {c : Chan} {es : List InkEntry} (h : ∃ e ∈ es, e.chan = c) : withEntry c es = es := by
  obtain ⟨e, mem, chan⟩ := h
  exact if_pos (List.any_eq_true.2 ⟨e, mem, beq_iff_eq (a := e.chan).2 chan⟩)

theorem withEntry_new {c : Chan} {es : List InkEntry} (h : ∀ e ∈ es, e.chan ≠ c) :
    withEntry c es = es ++ [InkEntry.fresh c false 0] := by
  refine if_neg fun there => ?_
  obtain ⟨e, mem, chan⟩ := List.any_eq_true.1 there
  exact h e mem (beq_iff_eq.1 chan)

/-- A pair on a live job changes its entries, and the use since refill by the rise of the used figure. -/
theorem debitPair_put {i : JobIx} {j : Job} {s : State} (live : s.liveJob i = some j) {c : Chan} {count : Nat}
    {fs : List InkEntry} (hf : fs = debitEntries j.ink c count s.ink.chans[c].profile.drop) :
    debitPair i s (c, count) =
      (putJob i { j with ink := fs } s).mapAcct (Account.addUse c (usedOn c fs - usedOn c j.ink)) := by
  subst hf
  unfold debitPair
  rw [live]
  dsimp only
  rw [setJob_put live]

/-! ### The whole of a job report (R113 to R115) -/

theorem Job.printsOutside_iff {j : Job} {drops : List (Chan × Nat)} :
    j.printsOutside drops = true ↔ ∃ p ∈ drops, 0 < p.2 ∧ ∀ q ∈ j.est, q.1 ≠ p.1 := by
  simp [Job.printsOutside]

section Report
variable {i : JobIx} {j k : Job} {drops : List (Chan × Nat)} {s t : State} (before : s.liveJob i = some j)
  (ht : t = drops.foldl (debitPair i) s) (now : t.liveJob i = some k)
include before ht now

theorem jobReport_eq : jobReport i drops s =
    if (overdrawOf j.ink < overdrawOf k.ink ∨ j.printsOutside drops = true) ∧ k.flags.overdraw = false then
      changeJob i (fun j => { j with flags := { j.flags with overdraw := true } }) t
    else t := by
  subst ht
  unfold jobReport
  dsimp only
  rw [before, now]

theorem jobReport_marks (exceeds : overdrawOf j.ink < overdrawOf k.ink ∨ j.printsOutside drops = true)
    (unmarked : k.flags.overdraw = false) :
    jobReport i drops s = changeJob i (fun j => { j with flags := { j.flags with overdraw := true } }) t :=
  (jobReport_eq before ht now).trans (if_pos ⟨exceeds, unmarked⟩)

theorem jobReport_within (within : overdrawOf k.ink ≤ overdrawOf j.ink) (inside : j.printsOutside drops = false) :
    jobReport i drops s = t := by
  refine (jobReport_eq before ht now).trans (if_neg fun ⟨exceeds, _⟩ => ?_)
  rcases exceeds with rises | outside
  · exact absurd rises within.not_gt
  · exact Bool.false_ne_true (inside.symm.trans outside)

theorem jobReport_marked (marked : k.flags.overdraw = true) : jobReport i drops s = t :=
  (jobReport_eq before ht now).trans (if_neg fun ⟨_, unmarked⟩ => Bool.false_ne_true (unmarked.symm.trans marked))

end Report

/-! ### MAINT (R128) -/

section Maint
variable {drops : List (Byte × U32)} {s : State}

theorem exec_maint_read {xs : List (Chan × Nat)} (read : readMaint drops = some xs) :
    exec (.maint drops) s = .next (giveLine (xs.foldl overheadPair s)) := by
  refine exec_given (t := serveEngine (some (.maint drops)) s) ?_ rfl
  unfold serveEngine
  dsimp only
  rw [read]
  rfl

theorem exec_maint_unread (unread : readMaint drops = none) :
    exec (.maint drops) s = .next (giveLine (protocolError s)) := by
  refine exec_given (t := serveEngine (some (.maint drops)) s) ?_ rfl
  unfold serveEngine
  dsimp only
  rw [unread]

end Maint

/-- Settles O41: the debit by whether the reservation covers the rise, the leak check by its bound, a pair of a job report
by whether its channel has an entry, and the report by what has come of the job's overdraws and estimate. -/
theorem dropsAreDebitedAsInkOrOverhead : Obligations.DropsAreDebitedAsInkOrOverhead := by
  unfold Obligations.DropsAreDebitedAsInkOrOverhead
  refine ⟨⟨fun e count volume drops used rise hd hu hr =>
        ⟨InkEntry.debit_covered hd hu hr, InkEntry.debit_beyond hd hu hr⟩,
      fun s c count pl => overheadPair_eq, fun s c excess he => ⟨leakCheck_within he, leakCheck_suspect he⟩⟩,
    fun i j c count before after es fs s live there new hf hb ha => ?_,
    fun i j k drops s t live ht now => ⟨fun exceeds unmarked => ?_, fun within => ?_⟩,
    fun drops xs s => exec_maint_read, fun drops s => exec_maint_unread, fun s => rfl⟩
  · have entries : es = withEntry c j.ink := by
      by_cases h : ∃ e ∈ j.ink, e.chan = c
      · exact (there h).trans (withEntry_there h).symm
      · have none_ : ∀ e ∈ j.ink, e.chan ≠ c := fun e mem chan => h ⟨e, mem, chan⟩
        exact (new none_).trans (withEntry_new none_).symm
    subst entries ha hb
    exact debitPair_put live hf
  · exact jobReport_marks live ht now (exceeds.imp_right Job.printsOutside_iff.2) unmarked
  · rcases within with ⟨within, inside⟩ | marked
    · refine jobReport_within live ht now within (Bool.eq_false_iff.2 fun outside => ?_)
      obtain ⟨p, mem, printed, other⟩ := Job.printsOutside_iff.1 outside
      obtain ⟨q, est, same⟩ := inside p mem printed
      exact other q est same
    · exact jobReport_marked live ht now marked

end Sys2Proof.Machine
end

section
/-!
PROOFS. The messages of the engine: each by the command it comes as, by the frame that carries it, and by what is left
where it breaks the engine's part (R126, R128, R194). With it O42 and O43.
-/

-- One theorem after another: waiting proofs would each hold a thread.
set_option Elab.async false

namespace Sys2Proof.Machine

/-! ### A message by its own command (R126) -/

/-- A message's own command judges it as the frame that carries it does (log 6), with the line given at the end. -/
theorem exec_message {i : Instr} {x : Byte × Bytes} (h : engineBody i = some x) (s : State) :
    exec i s = .next (giveLine (serveEngine (some i) s)) := by
  cases i <;> cases h <;> rfl

section Messages
variable {s : State}

theorem exec_served {i : Instr} {x : Byte × Bytes} {t : State} (h : engineBody i = some x)
    (served : serveEngine (some i) s = t) : exec i s = .next (giveLine t) := exec_given served (exec_message h s)

theorem exec_engineState_read {st code c : Byte} {x : EngineState} (read : readEngineState st code = some (x, c)) :
    exec (.engineState st code) s = .next (giveLine (stateMessage x c s)) :=
  exec_served rfl (by simp only [serveEngine, read])

theorem exec_engineState_unread {st code : Byte} (unread : readEngineState st code = none) :
    exec (.engineState st code) s = .next (giveLine (protocolError s)) :=
  exec_served rfl (by simp only [serveEngine, unread])

variable {tag index : U16} {feed : U32} {drops : List (Byte × U32)} {status : Byte}

theorem exec_swath_read {n : Nat} {xs : List (Chan × Nat)} (read : readSwath feed drops = some (n, xs)) :
    exec (.swath tag index feed drops) s = .next (giveLine (swathMessage tag index n xs s)) :=
  exec_served rfl (by simp only [serveEngine, read])

theorem exec_swath_unread (unread : readSwath feed drops = none) :
    exec (.swath tag index feed drops) s = .next (giveLine (protocolError s)) :=
  exec_served rfl (by simp only [serveEngine, unread])

theorem exec_endPrint_read {complete : Bool} (read : readEnd status = some complete) :
    exec (.endPrint tag status) s = .next (giveLine (endMessage tag complete s)) :=
  exec_served rfl (by simp only [serveEngine, read])

theorem exec_endPrint_unread (unread : readEnd status = none) :
    exec (.endPrint tag status) s = .next (giveLine (protocolError s)) :=
  exec_served rfl (by simp only [serveEngine, unread])

end Messages

/-- No status but 0 and 1 is one of END (section 12.5). -/
theorem readEnd_none {status : Byte} (h : 1 < status.toNat) : readEnd status = none := by
  have complete : status ≠ 0 := fun e => by simp [e] at h
  have aborted : status ≠ 1 := fun e => by simp [e] at h
  unfold readEnd
  rw [if_neg complete, if_neg aborted]

/-! ### The frame that carries a message (R124, R126) -/

/-- Settles O42: the frame's body spells the message that wrote it, which its own command judges. -/
theorem engineFrameIsTheMessageItCarries : Obligations.EngineFrameIsTheMessageItCarries := by
  unfold Obligations.EngineFrameIsTheMessageItCarries
  intro i k tag b s formed body hunting
  obtain ⟨spells, short⟩ := parseEngine_engineBody formed body
  have frame : exec (.engineFrame (frameBytes k tag b)) s = .next (giveLine (serveEngine (parseEngine k b) s)) :=
    congrArg Host.Outcome.next (engineFrame_whole k tag s short hunting)
  rw [frame, spells, exec_message body]

/-- A kind that is none of the four engine messages spells none (R126). -/
theorem parseEngine_unknown {k : Byte} (h : k ∉ ([0x81, 0x82, 0x83, 0x84] : List Byte)) (b : Bytes) :
    parseEngine k b = none := by
  simp only [List.mem_cons, List.not_mem_nil, or_false, not_or] at h
  obtain ⟨state, swath, endPrint, maint⟩ := h
  unfold parseEngine
  rw [if_neg fun e => state e.1, if_neg fun e => swath e.1, if_neg fun e => endPrint e.1, if_neg fun e => maint e.1]

theorem rxJudge_short {bs : Bytes} (h : bs.length < 4) : rxJudge bs = (some bs, .more) := if_pos h

/-- The fourth byte of a header ends the frame where the body's length is above the limit (R180). -/
theorem rxJudge_overlong {k tag lo hi : Byte} (long : 512 < (word16 lo hi).toNat) :
    rxJudge [k, tag, lo, hi] = (none, .overlong) :=
  (if_neg (by simp)).trans (if_pos long)

section Line
variable {s : State} (hunting : s.eng.rx = none)
include hunting

/-- A frame whose CRC fails leaves the assembler hunting and its drop counted (R126). -/
theorem engineFrame_damaged {k tag x y : Byte} {b : Bytes} (short : b.length ≤ 512)
    (damaged : word16 x y ≠ crc16 (frameCore k tag b)) :
    (startByte :: frameTail k tag b x y).foldl engineByte s =
      s.mapEng fun e => { e with crcDrops := sat16 (e.crcDrops + 1) } :=
  (engineFrame_run k tag x y s short hunting).trans (if_neg damaged.symm)

/-- A header that declares too long a body leaves the assembler hunting and its drop counted (R126). -/
theorem engineFrame_overlong {k tag lo hi : Byte} (long : 512 < (word16 lo hi).toNat) :
    [startByte, k, tag, lo, hi].foldl engineByte s =
      s.mapEng fun e => { e with overDrops := sat16 (e.overDrops + 1) } := by
  have start : engineByte s startByte = s.mapEng fun e => { e with rx := some [] } := by
    simp [engineByte, hunting, rxByte_start]
  have header := engineBytes_more (bs := [k, tag, lo]) 3 (s.mapEng fun e => { e with rx := some [] }) (by simp) rfl
    fun n hn => rxJudge_short (by rw [List.length_take]; omega)
  have last : rxByte (some [k, tag, lo]) hi = (none, .overlong) := rxJudge_overlong long
  have ends : engineByte (s.mapEng fun e => { e with rx := some [k, tag, lo] }) hi =
      s.mapEng fun e => { e with rx := none, overDrops := sat16 (e.overDrops + 1) } := by
    simp only [engineByte, State.mapEng_eng, last]
    rfl
  calc [startByte, k, tag, lo, hi].foldl engineByte s
      = engineByte ([k, tag, lo].foldl engineByte (engineByte s startByte)) hi := rfl
    _ = engineByte (s.mapEng fun e => { e with rx := some [k, tag, lo] }) hi :=
        congrArg (engineByte · hi) ((congrArg (fun u => [k, tag, lo].foldl engineByte u) start).trans header)
    _ = s.mapEng fun e => { e with rx := none, overDrops := sat16 (e.overDrops + 1) } := ends
    _ = s.mapEng fun e => { e with overDrops := sat16 (e.overDrops + 1) } := by
        unfold State.mapEng
        rw [← hunting]

end Line

/-! ### The job of the print context (R127) -/

section Context
variable {s : State} {x : PrintContext} {i : JobIx} {j : Job} {c : SpoilCause}

theorem State.contextJob_eq (ctx : s.eng.ctx = some x) : s.contextJob = s.jobByTag x.tag := by
  unfold State.contextJob
  rw [ctx]
  rfl

theorem State.contextJob_none (ctx : s.eng.ctx = none) : s.contextJob = none := by
  unfold State.contextJob
  rw [ctx]
  rfl

theorem State.contextJob_tag (ctx : s.eng.ctx = some x) (job : s.contextJob = some (i, j)) : j.tag = x.tag :=
  (State.jobByTag_some ((State.contextJob_eq ctx).symm.trans job)).2

theorem State.ctx_of_contextJob (job : s.contextJob = some (i, j)) : s.eng.ctx.isSome = true := by
  cases ctx : s.eng.ctx with
  | none => cases (State.contextJob_none ctx).symm.trans job
  | some x => rfl

theorem mapContext_eq (ctx : s.eng.ctx = some x) (f : PrintContext → PrintContext) :
    mapContext f s = s.mapEng fun e => { e with ctx := some (f x) } :=
  congrArg (fun c : Option PrintContext => s.mapEng fun e => { e with ctx := c.map f }) ctx

theorem abortContext_job (job : s.contextJob = some (i, j)) :
    abortContext c s = enterAborting i (decideOutcome i .spoiled (some c) s) := by
  unfold abortContext
  rw [job]

theorem endToSpoil_cause (job : s.contextJob = some (i, j)) :
    endToSpoil (some c) s = takeSpoil i (decideOutcome i .spoiled (some c) (dropContext s)) := by
  unfold endToSpoil
  rw [job]
  rfl

/-- In ENDING the outcome is decided already (R134). -/
theorem endToSpoil_decided (job : s.contextJob = some (i, j)) : endToSpoil none s = takeSpoil i (dropContext s) := by
  unfold endToSpoil
  rw [job]
  rfl

end Context

/-! ### A protocol error (R128) -/

section Error
variable {s u : State} (hu : u = (s.mapEng fun e => { e with protoErrors := min (e.protoErrors + 1) 65535 }))
include hu

theorem protocolError_eq : protocolError s =
    match s.eng.ctx with
    | some x => if x.phase = .await ∨ x.phase = .feed then abortContext .engineProtocol u else u
    | none => u := by
  subst hu
  rfl

/-- Without a context, and in HELD and ENDING, the error is counted and acts on no job. -/
theorem protocolError_counts (h : ∀ x, s.eng.ctx = some x → x.phase ≠ .await ∧ x.phase ≠ .feed) :
    protocolError s = u := by
  rw [protocolError_eq hu]
  cases ctx : s.eng.ctx with
  | none => rfl
  | some x =>
    obtain ⟨await, feed⟩ := h x ctx
    exact if_neg (not_or.2 ⟨await, feed⟩)

/-- In AWAIT and FEED the error aborts the print. -/
theorem protocolError_aborts {x : PrintContext} {i : JobIx} {j : Job} (ctx : s.eng.ctx = some x)
    (phase : x.phase = .await ∨ x.phase = .feed) (job : s.contextJob = some (i, j)) :
    protocolError s = enterAborting i (decideOutcome i .spoiled (some .engineProtocol) u) := by
  have same : u.contextJob = some (i, j) := by rw [hu]; exact job
  rw [protocolError_eq hu, ctx]
  exact (if_pos phase).trans (abortContext_job same)

end Error

/-- Settles O43: the frames by what the assembler and the parser make of them, the messages by their readers, and the
protocol error by the phase of the context. -/
theorem badEngineFramesAreCounted : Obligations.BadEngineFramesAreCounted := by
  unfold Obligations.BadEngineFramesAreCounted
  intro s
  refine ⟨fun k tag x y b hunting short damaged => congrArg Host.Outcome.next (engineFrame_damaged hunting short damaged),
    fun k tag lo hi hunting long => congrArg Host.Outcome.next (engineFrame_overlong hunting long),
    fun k tag b hunting short unknown => ?_, fun tag index feed drops => exec_swath_unread,
    fun tag status bad => exec_endPrint_unread (readEnd_none bad), fun u hu =>
      ⟨fun none_ => ?_, fun x ctx phase => ?_, fun x i j ctx phase job => protocolError_aborts hu ctx phase job⟩⟩
  · have whole := engineFrame_whole k tag s short hunting
    rw [parseEngine_unknown unknown b] at whole
    exact congrArg Host.Outcome.next whole
  · exact protocolError_counts hu fun x ctx => nomatch none_.symm.trans ctx
  · refine protocolError_counts hu fun y same => ?_
    obtain rfl := Option.some.inj (ctx.symm.trans same)
    rcases phase with phase | phase <;> rw [phase] <;> decide

end Sys2Proof.Machine
end

section
/-!
PROOFS. ENGINE_STATE by the state it carries (R123, R126, R136). With it O44.
-/

-- One theorem after another: waiting proofs would each hold a thread.
set_option Elab.async false

namespace Sys2Proof.Machine

/-! ### The state and code of a message (R126) -/

theorem readEngineState_fault {code : Byte} (h : code ≠ 0) : readEngineState 3 code = some (.fault, code) :=
  (if_neg (by simp)).trans ((if_neg (by simp)).trans (if_pos ⟨rfl, h⟩))

/-- READY and BUSY carry no code, FAULT carries one, and there is no other state. -/
theorem readEngineState_none {st code : Byte}
    (h : st = 0 ∨ 3 < st.toNat ∨ (st.toNat < 3 ∧ code ≠ 0) ∨ (st = 3 ∧ code = 0)) : readEngineState st code = none := by
  have ready : ¬ (st = 1 ∧ code = 0) := by
    rintro ⟨rfl, rfl⟩
    simp at h
  have busy : ¬ (st = 2 ∧ code = 0) := by
    rintro ⟨rfl, rfl⟩
    simp at h
  have fault : ¬ (st = 3 ∧ code ≠ 0) := by
    rintro ⟨rfl, coded⟩
    exact coded (by simpa using h)
  unfold readEngineState
  rw [if_neg ready, if_neg busy, if_neg fault]

/-! ### The engine state (R123, R136) -/

/-- The engine state that a message carries, with its code (R123). -/
def setEngine (x : EngineState) (code : Byte) (s : State) : State := s.mapEng fun e => { e with state := x, code := code }

section Engine
variable {s : State} {x : EngineState} {code : Byte}

theorem setEngine_same (state : s.eng.state = x) (same : s.eng.code = code) : setEngine x code s = s := by
  subst state same
  rfl

theorem stateMessage_same (state : s.eng.state = x) (same : s.eng.code = code) : stateMessage x code s = s :=
  if_pos ⟨state, same⟩

/-- A message that changes the state or the code: FAULT acts on a print, an entry into READY on the queue. -/
theorem stateMessage_new (h : ¬ (s.eng.state = x ∧ s.eng.code = code)) : stateMessage x code s =
    if x = .fault then
      (if s.eng.ctx.isSome then endToSpoil (some .engineFault) (setEngine x code s) else setEngine x code s)
    else if decide (x = .ready ∧ s.eng.state ≠ .ready) then startEval (setEngine x code s) else setEngine x code s :=
  if_neg h

theorem stateMessage_ready (h : s.eng.state ≠ .ready) :
    stateMessage .ready code s = startEval (setEngine .ready code s) :=
  (stateMessage_new fun e => h e.1).trans ((if_neg (by decide)).trans (if_pos (decide_eq_true ⟨rfl, h⟩)))

theorem stateMessage_busy : stateMessage .busy code s = setEngine .busy code s := by
  by_cases h : s.eng.state = .busy ∧ s.eng.code = code
  · exact (stateMessage_same h.1 h.2).trans (setEngine_same h.1 h.2).symm
  · exact (stateMessage_new h).trans ((if_neg (by decide)).trans (if_neg (by simp)))

section Fault
variable (h : ¬ (s.eng.state = .fault ∧ s.eng.code = code))
include h

theorem stateMessage_fault_idle (ctx : s.eng.ctx = none) :
    stateMessage .fault code s = setEngine .fault code s :=
  (stateMessage_new h).trans ((if_pos rfl).trans (if_neg (by simp [ctx])))

theorem stateMessage_fault_job {i : JobIx} {j : Job} (job : s.contextJob = some (i, j)) :
    stateMessage .fault code s =
      takeSpoil i (decideOutcome i .spoiled (some .engineFault) (dropContext (setEngine .fault code s))) := by
  have same : (setEngine .fault code s).contextJob = some (i, j) := job
  exact (stateMessage_new h).trans
    ((if_pos rfl).trans ((if_pos (State.ctx_of_contextJob job)).trans (endToSpoil_cause same)))

end Fault

end Engine

/-- Settles O44: the state and code read by the message's bytes, and the message by the state it carries. -/
theorem engineStateSetsTheState : Obligations.EngineStateSetsTheState := by
  unfold Obligations.EngineStateSetsTheState
  rintro s t rfl
  have ready : exec (.engineState 1 0) s = .next (giveLine (stateMessage .ready 0 s)) := exec_engineState_read rfl
  have busy : exec (.engineState 2 0) s = .next (giveLine (stateMessage .busy 0 s)) := exec_engineState_read rfl
  refine ⟨fun state code => exec_given (stateMessage_same state code) ready,
    fun h => exec_given (stateMessage_ready h) ready, exec_given stateMessage_busy busy, fun code coded => ?_,
    fun st code bad => exec_engineState_unread (readEngineState_none bad)⟩
  have fault : exec (.engineState 3 code) s = .next (giveLine (stateMessage .fault code s)) :=
    exec_engineState_read (readEngineState_fault coded)
  exact ⟨fun state same => exec_given (stateMessage_same state same) fault, fun new =>
    ⟨fun ctx => exec_given (stateMessage_fault_idle new ctx) fault,
      fun i j job => exec_given (stateMessage_fault_job new job) fault⟩⟩

end Sys2Proof.Machine
end

section
/-!
PROOFS. The swath cycle (R128, R129, R134): whose a SWATH's drops are, what of the state a report leaves, and the SWATH by
the phase of the context. With it O45.
-/

-- One theorem after another: waiting proofs would each hold a thread.
set_option Elab.async false

namespace Sys2Proof.Machine

/-! ### What a report of drops leaves (R113 to R117) -/

theorem debitPair_feed_eng (i : JobIx) (s : State) (p : Chan × Nat) :
    (debitPair i s p).feed = s.feed ∧ (debitPair i s p).eng = s.eng := by
  unfold debitPair
  split
  · next j live =>
    dsimp only
    rw [setJob_put live]
    exact ⟨rfl, rfl⟩
  · exact ⟨rfl, rfl⟩

/-- A job report leaves the feed axis and the engine link. -/
theorem jobReport_feed_eng (i : JobIx) (drops : List (Chan × Nat)) (s : State) :
    (jobReport i drops s).feed = s.feed ∧ (jobReport i drops s).eng = s.eng := by
  have pairs : (drops.foldl (debitPair i) s).feed = s.feed ∧ (drops.foldl (debitPair i) s).eng = s.eng :=
    List.foldlRecOn (motive := fun t : State => t.feed = s.feed ∧ t.eng = s.eng) drops (debitPair i) ⟨rfl, rfl⟩
      fun t ⟨feed, eng⟩ p _ => (debitPair_feed_eng i t p).imp (·.trans feed) (·.trans eng)
  unfold jobReport
  dsimp only
  split
  · split
    · rw [changeJob_feed, changeJob_eng]
      exact pairs
    · exact pairs
  · exact pairs

/-- An overhead report leaves the engine link. -/
theorem overheadDrops_eng (drops : List (Chan × Nat)) (s : State) : (overheadDrops drops s).eng = s.eng :=
  List.foldlRecOn (motive := fun t : State => t.eng = s.eng) drops overheadPair rfl fun _ kept _ _ => kept

/-! ### Whose the drops of a SWATH are (R128) -/

section Drops
variable {s : State} {tag : U16} {xs : List (Chan × Nat)}

theorem swathDrops_job {x : PrintContext} {i : JobIx} {j : Job} (ctx : s.eng.ctx = some x) (own : x.tag = tag.toNat)
    (job : s.contextJob = some (i, j)) : swathDrops tag xs s = jobReport i xs s := by
  unfold swathDrops
  rw [job]
  exact if_pos ((State.contextJob_tag ctx job).trans own)

theorem swathDrops_overhead (other : ∀ x, s.eng.ctx = some x → x.tag ≠ tag.toNat) :
    swathDrops tag xs s = overheadDrops xs s := by
  unfold swathDrops
  split
  · next i j job =>
    obtain ⟨x, ctx⟩ := Option.isSome_iff_exists.1 (State.ctx_of_contextJob job)
    exact if_neg fun own => other x ctx ((State.contextJob_tag ctx job).symm.trans own)
  · rfl

end Drops

/-! ### A SWATH by the phase of the context (R128, R129, R134) -/

section Swath
variable {tag index : U16} {n : Nat} {xs : List (Chan × Nat)} {s u : State} {x : PrintContext}
  (hu : swathDrops tag xs s = u)
include hu

theorem swathMessage_takes (ctx : u.eng.ctx = some x) (own : x.tag = tag.toNat) (next : x.next = index)
    (phase : x.phase = .await) : swathMessage tag index n xs s = takeSwath index n u := by
  unfold swathMessage
  dsimp only
  rw [hu, ctx]
  exact if_pos ⟨own, next, phase⟩

/-- The one SWATH of phase ENDING (R134). -/
theorem swathMessage_last (ctx : u.eng.ctx = some x) (own : x.tag = tag.toNat) (next : x.next = index)
    (phase : x.phase = .ending) (first : x.endingSwath = false) :
    swathMessage tag index n xs s = mapContext (fun y => { y with endingSwath := true }) u := by
  unfold swathMessage
  dsimp only
  rw [hu, ctx]
  exact (if_neg (by simp [phase])).trans (if_pos ⟨own, next, phase, first⟩)

/-- A SWATH that neither AWAIT nor ENDING takes breaks the course. -/
theorem swathMessage_breaks (h : ∀ y, u.eng.ctx = some y → y.tag = tag.toNat → y.next = index →
    y.phase ≠ .await ∧ (y.phase = .ending → y.endingSwath = true)) :
    swathMessage tag index n xs s = protocolError u := by
  unfold swathMessage
  dsimp only
  rw [hu]
  cases ctx : u.eng.ctx with
  | none => rfl
  | some y =>
    have taken : ¬ (y.tag = tag.toNat ∧ y.next = index ∧ y.phase = .await) := fun ⟨own, next, phase⟩ =>
      (h y ctx own next).1 phase
    have last : ¬ (y.tag = tag.toNat ∧ y.next = index ∧ y.phase = .ending ∧ y.endingSwath = false) :=
      fun ⟨own, next, phase, first⟩ => Bool.false_ne_true (first.symm.trans ((h y ctx own next).2 phase))
    exact (if_neg taken).trans (if_neg last)

end Swath

/-! ### The move of a SWATH taken (R129) -/

section Take
variable {index : U16} {n : Nat} {target : Int} {u v w : State} (target_ : u.feed.swathTarget = some target)
  (hv : v = mapContext (fun y => { y with phase := .feed, inFeed := some index, swathTimer := none }) u)
include target_ hv

theorem takeSwath_begun (move : requestMove (target + n) .swath v = (w, .begun)) :
    takeSwath index n u = w.mapFeed fun f => { f with swathTarget := some (target + n) } := by
  have at_ : v.feed.swathTarget = some target := by rw [hv]; exact target_
  unfold takeSwath
  simp only [← hv, at_, move]

theorem takeSwath_done (move : requestMove (target + n) .swath v = (w, .done)) :
    takeSwath index n u = swathDone (w.mapFeed fun f => { f with swathTarget := some (target + n) }) := by
  have at_ : v.feed.swathTarget = some target := by rw [hv]; exact target_
  unfold takeSwath
  simp only [← hv, at_, move]

/-- A refused move leaves phase FEED with the timer stopped (log 18). -/
theorem takeSwath_refused (move : requestMove (target + n) .swath v = (w, .refused)) : takeSwath index n u = v := by
  have at_ : v.feed.swathTarget = some target := by rw [hv]; exact target_
  unfold takeSwath
  simp only [← hv, at_, move]
  exact requestMove_refusal move

end Take

/-- Settles O45: the drops first, by the context's tag; then the SWATH by the phase and the index, and a SWATH taken by
what comes of its move. -/
theorem swathIsDebitedAndFed : Obligations.SwathIsDebitedAndFed := by
  unfold Obligations.SwathIsDebitedAndFed
  intro tag index feed drops n xs s read
  have event : exec (.swath tag index feed drops) s = .next (giveLine (swathMessage tag index n xs s)) :=
    exec_swath_read read
  refine ⟨fun x i j target u ctx own job hu => ?_, fun none_ => ?_, fun x ctx other => ?_⟩
  · have debited : swathDrops tag xs s = u := (swathDrops_job ctx own job).trans hu.symm
    obtain ⟨kept, link⟩ : u.feed = s.feed ∧ u.eng = s.eng := hu ▸ jobReport_feed_eng i xs s
    have ctx' : u.eng.ctx = some x := link ▸ ctx
    refine ⟨fun phase next at_ v w hv => ?_, fun phase next first =>
      exec_given (swathMessage_last debited ctx' own next phase first) event, fun broken =>
      exec_given (swathMessage_breaks debited fun y same _ next => ?_) event⟩
    · have target_ : u.feed.swathTarget = some target := kept ▸ at_
      have taken := swathMessage_takes (n := n) debited ctx' own next phase
      exact ⟨fun move => exec_given (taken.trans (takeSwath_begun target_ hv move)) event,
        fun move => exec_given (taken.trans (takeSwath_done target_ hv move)) event,
        fun move => exec_given (taken.trans (takeSwath_refused target_ hv move)) event⟩
    · obtain rfl := Option.some.inj (ctx'.symm.trans same)
      rcases broken with phase | phase | late | ⟨phase, taken⟩
      · simp [phase]
      · simp [phase]
      · exact absurd next late
      · simp [phase, taken]
  · have link := overheadDrops_eng xs s
    refine exec_given (swathMessage_breaks (swathDrops_overhead fun x ctx => nomatch none_.symm.trans ctx)
      fun y ctx => ?_) event
    exact nomatch none_.symm.trans ((congrArg EngineLink.ctx link).symm.trans ctx)
  · have foreign : ∀ y, s.eng.ctx = some y → y.tag ≠ tag.toNat := fun y same =>
      Option.some.inj (ctx.symm.trans same) ▸ other
    refine exec_given (swathMessage_breaks (swathDrops_overhead foreign) fun y same own => ?_) event
    exact absurd own (foreign y ((congrArg EngineLink.ctx (overheadDrops_eng xs s)).symm.trans same))

end Sys2Proof.Machine
end

section
/-!
PROOFS. The completion of a swath move, the dry test and the resume test (R129, R131, R132). With them O46.
-/

-- One theorem after another: waiting proofs would each hold a thread.
set_option Elab.async false

namespace Sys2Proof.Machine

/-! ### The channels of a job (R112, R131, R132) -/

theorem State.jobDry_iff {s : State} {j : Job} :
    s.jobDry j = true ↔ ∃ c ∈ j.inkChannels, s.ink.chans[c].cond = .dry := by
  simp [State.jobDry]

theorem Job.mem_inkChannels {j : Job} {c : Chan} :
    c ∈ j.inkChannels ↔ (∃ p ∈ j.est, p.1 = c) ∨ (∃ e ∈ j.ink, e.chan = c ∧ 0 < e.drops) := by
  simp [Job.inkChannels, and_assoc, and_comm]

theorem Channel.returned_iff {x : Channel} :
    x.returned = true ↔ x.fault = false ∧ x.profile.floor + 1000 ≤ x.level := by
  unfold Channel.returned
  rw [Bool.and_eq_true, Bool.not_eq_true', decide_eq_true_iff]
  rfl

section Context
variable {s : State} {x : PrintContext} {i : JobIx} {j : Job} (ctx : s.eng.ctx = some x)
  (job : s.contextJob = some (i, j))

/-! ### The dry test (R131) -/

include job in
theorem dryTest_sound (sound : s.jobDry j = false) : dryTest s = s := by
  unfold dryTest
  rw [job]
  exact if_neg (by simp [sound])

include ctx job in
theorem dryTest_dry (dry : s.jobDry j = true) : dryTest s =
    changeJob i (fun j => { j with state := .suspended, flags := { j.flags with suspendedOnce := true } })
      (s.mapEng fun e =>
        { e with txList := e.txList ++ [.hold j.tag],
                 ctx := some { x with phase := .held, swathTimer := none, dryTimer := some 600000 } }) := by
  have sent : (sendEngine (.hold j.tag) s).eng.ctx = some x := ctx
  unfold dryTest
  rw [job]
  dsimp only
  rw [if_pos dry, mapContext_eq sent]
  rfl

/-! ### The completion of a swath move (R129) -/

include ctx in
theorem swathDone_elsewhere (phase : x.phase ≠ .feed) : swathDone s = s := by
  unfold swathDone
  rw [ctx]
  dsimp only
  split
  · next feed _ => exact absurd feed phase
  · rfl

include ctx in
theorem swathDone_feed {k : U16} (phase : x.phase = .feed) (fed : x.inFeed = some k) : swathDone s =
    dryTest (s.mapEng fun e =>
      { e with txList := e.txList ++ [.feedDone x.tag k],
               ctx := some { x with phase := .await, next := k + 1, inFeed := none, swathTimer := some 5000 } }) := by
  have sent : (sendEngine (.feedDone x.tag k) s).eng.ctx = some x := ctx
  unfold swathDone
  rw [ctx]
  dsimp only
  rw [phase, fed]
  dsimp only
  rw [mapContext_eq sent]
  rfl

/-! ### The resume test (R132) -/

include ctx job in
theorem resumeTest_eq : resumeTest s =
    if x.phase = .held ∧ (j.inkChannels.all fun c => s.ink.chans[c].returned) = true then
      changeJob i (fun j => { j with state := .printing }) (s.mapEng fun e =>
        { e with txList := e.txList ++ [.resume j.tag],
                 ctx := some { x with phase := .await, dryTimer := none, swathTimer := some 5000 } })
    else s := by
  have sent : (sendEngine (.resume j.tag) s).eng.ctx = some x := ctx
  unfold resumeTest
  rw [ctx, job]
  dsimp only
  rw [setJobState_printing, mapContext_eq sent]
  rfl

end Context

/-- Settles O46: the completion is the dry test of the state with FEED_DONE made, and both tests are read channel by
channel. -/
theorem feedDoneHoldAndResume : Obligations.FeedDoneHoldAndResume := by
  unfold Obligations.FeedDoneHoldAndResume
  intro s x i j ctx job
  refine ⟨fun k u phase fed hu => ?_, swathDone_elsewhere ctx, State.jobDry_iff, fun c => Job.mem_inkChannels,
    fun held back => (resumeTest_eq ctx job).trans (if_pos ⟨held, ?_⟩),
    fun stays => (resumeTest_eq ctx job).trans (if_neg fun ⟨held, back⟩ => ?_)⟩
  · have completes : swathDone s = dryTest u := hu ▸ swathDone_feed ctx phase fed
    have ctx' : u.eng.ctx = some { x with phase := .await, next := k + 1, inFeed := none, swathTimer := some 5000 } :=
      hu ▸ rfl
    have job' : u.contextJob = some (i, j) :=
      (State.contextJob_eq ctx').trans (hu ▸ (State.contextJob_eq ctx).symm.trans job)
    have same : u.jobDry j = s.jobDry j := hu ▸ rfl
    exact ⟨fun sound => completes.trans (dryTest_sound job' (same.trans sound)),
      fun dry => completes.trans (dryTest_dry ctx' job' (same.trans dry))⟩
  · exact List.all_eq_true.2 fun c mem => Channel.returned_iff.2 (back c mem)
  · rcases stays with phase | ⟨c, mem, low⟩
    · exact phase held
    · obtain ⟨sound, high⟩ := Channel.returned_iff.1 (List.all_eq_true.1 back c mem)
      rcases low with fault | low
      · exact Bool.false_ne_true (sound.symm.trans fault)
      · exact absurd high low.not_ge

end Sys2Proof.Machine
end

section
/-!
PROOFS. The end of the engine's part: END and the two timers of a print by the phase of the context (R128, R130, R133 to
R135), the change of job state (R65), and the entry into CHECKING (R142, R145). With them O47.
-/

-- One theorem after another: waiting proofs would each hold a thread.
set_option Elab.async false

namespace Sys2Proof.Machine

section Context
variable {s : State} {x : PrintContext} {i : JobIx} {j : Job}

/-! ### END (R128, R134, R135) -/

section End
variable {tag : U16} {complete : Bool}

theorem printDone_plain (job : s.contextJob = some (i, j)) (plain : j.strip = none) :
    printDone s = enterCutting i (dropContext s) := by
  unfold printDone
  rw [job]
  dsimp only
  rw [plain]

theorem printDone_strip {p : Strip} (job : s.contextJob = some (i, j)) (strip : j.strip = some p) :
    printDone s = enterChecking i j p (dropContext s) := by
  unfold printDone
  rw [job]
  dsimp only
  rw [strip]

theorem endMessage_await (ctx : s.eng.ctx = some x) (own : x.tag = tag.toNat) (phase : x.phase = .await) :
    endMessage tag complete s = if complete then printDone s else endToSpoil (some .engineFault) s := by
  unfold endMessage
  rw [ctx]
  exact if_pos ⟨own, phase⟩

theorem endMessage_ending (ctx : s.eng.ctx = some x) (own : x.tag = tag.toNat) (phase : x.phase = .ending) :
    endMessage tag complete s = endToSpoil none s := by
  unfold endMessage
  rw [ctx]
  exact (if_neg (by simp [phase])).trans (if_pos ⟨own, phase⟩)

/-- An END that neither AWAIT nor ENDING takes breaks the course. -/
theorem endMessage_breaks
    (h : ∀ x, s.eng.ctx = some x → x.tag = tag.toNat → x.phase = .feed ∨ x.phase = .held) :
    endMessage tag complete s = protocolError s := by
  unfold endMessage
  split
  · next x ctx =>
    have await : ¬ (x.tag = tag.toNat ∧ x.phase = .await) := fun ⟨own, phase⟩ => by
      rcases h x ctx own with other | other <;> cases phase.symm.trans other
    have ending : ¬ (x.tag = tag.toNat ∧ x.phase = .ending) := fun ⟨own, phase⟩ => by
      rcases h x ctx own with other | other <;> cases phase.symm.trans other
    exact (if_neg await).trans (if_neg ending)
  · rfl

/-- So does its event, whatever the status says. -/
theorem exec_endPrint_breaks {status : Byte}
    (h : ∀ x, s.eng.ctx = some x → x.tag = tag.toNat → x.phase = .feed ∨ x.phase = .held) :
    exec (.endPrint tag status) s = .next (giveLine (protocolError s)) := by
  cases read : readEnd status with
  | none => exact exec_endPrint_unread read
  | some complete => exact exec_given (endMessage_breaks h) (exec_endPrint_read read)

end End

/-! ### The swath timer (R130) -/

theorem swathExpired_await (ctx : s.eng.ctx = some x) (runs : x.swathTimer.isSome = true) (phase : x.phase = .await) :
    swathExpired s = abortContext .engineStall s := by
  unfold swathExpired
  rw [ctx]
  dsimp only
  rw [phase]
  exact if_neg (by simp [Option.isSome_iff_ne_none.1 runs])

theorem swathExpired_ending (ctx : s.eng.ctx = some x) (runs : x.swathTimer.isSome = true) (phase : x.phase = .ending) :
    swathExpired s = endToSpoil none s := by
  unfold swathExpired
  rw [ctx]
  dsimp only
  rw [phase]
  exact if_neg (by simp [Option.isSome_iff_ne_none.1 runs])

theorem swathExpired_stopped
    (h : ∀ x, s.eng.ctx = some x → x.swathTimer = none ∨ x.phase = .feed ∨ x.phase = .held) : swathExpired s = s := by
  unfold swathExpired
  split
  · next x ctx =>
    rcases h x ctx with stopped | phase | phase
    · exact if_pos (by simp [stopped])
    · rw [phase]
      exact ite_self s
    · rw [phase]
      exact ite_self s
  · rfl

/-! ### The dry-out timer (R133) -/

theorem dryOutExpired_held (ctx : s.eng.ctx = some x) (runs : x.dryTimer.isSome = true) (phase : x.phase = .held) :
    dryOutExpired s = abortContext .dryout s := by
  unfold dryOutExpired
  rw [ctx]
  exact if_pos ⟨phase, runs⟩

theorem dryOutExpired_stopped (h : ∀ x, s.eng.ctx = some x → x.dryTimer = none ∨ x.phase ≠ .held) :
    dryOutExpired s = s := by
  unfold dryOutExpired
  split
  · next x ctx =>
    refine if_neg fun ⟨phase, runs⟩ => ?_
    rcases h x ctx with stopped | other
    · exact Option.isSome_iff_ne_none.1 runs stopped
    · exact other phase
  · rfl

/-! ### The entry into ABORTING (R134) -/

theorem enterAborting_eq (ctx : s.eng.ctx = some x) : enterAborting i s =
    setJobState i .aborting (s.mapEng fun e =>
      { e with txList := e.txList ++ [.abort x.tag],
               ctx := some { x with phase := .ending, inFeed := none, dryTimer := none, swathTimer := some 5000,
                                    endingSwath := false } }) := by
  have sent : (sendEngine (.abort x.tag) s).eng.ctx = some x := ctx
  unfold enterAborting
  rw [ctx]
  dsimp only
  rw [mapContext_eq sent]
  rfl

end Context

/-! ### A change of job state (R65) -/

section Change
variable {i : JobIx} {j : Job} {st : JobState} {s : State} (live : s.liveJob i = some j)
include live

theorem setJobState_leaves (was : j.state.keepsSwathTarget = true) (out : st.keepsSwathTarget = false) :
    setJobState i st s = notify (.jobSlot i)
      (putJob i { j with state := st } (s.mapFeed fun f => { f with swathTarget := none })) := by
  have target : s.mapFeed (Feed.leaveEngine j.state) = s.mapFeed fun f => { f with swathTarget := none } :=
    State.mapFeed_congr
      (congrArg (fun t => { s.feed with swathTarget := t }) (if_pos (JobState.keepsSwathTarget_iff.1 was)))
  rw [setJobState_put live out, target]

theorem setJobState_stays (h : j.state.keepsSwathTarget = false ∨ st.keepsSwathTarget = true) :
    setJobState i st s = notify (.jobSlot i) (putJob i { j with state := st } s) := by
  have stays : s.leavesEngine i st = false := by
    unfold State.leavesEngine
    rw [live]
    rcases h with out | on
    · simp [out]
    · simp [on]
  unfold setJobState
  rw [stays]
  exact changeJob_put live fun j => { j with state := st }

end Change

/-! ### The entry into CHECKING (R142, R145) -/

section Dwell
variable {p : StripProfile} {k : Ink}

theorem StripProfile.dwellMs_high (h : k.humFault = true ∨ 60 < k.humidity) : p.dwellMs k = 1000 * p.dwellHigh := by
  unfold StripProfile.dwellMs
  rcases h with fault | wet
  · rw [if_pos fault]
  · rw [if_neg (by omega : ¬ k.humidity < 40), if_neg (by omega : ¬ k.humidity ≤ 60), ite_self]

theorem StripProfile.dwellMs_low (sound : k.humFault = false) (dry : k.humidity < 40) :
    p.dwellMs k = 1000 * p.dwellLow := by
  unfold StripProfile.dwellMs
  rw [sound, if_neg Bool.false_ne_true, if_pos dry]

theorem StripProfile.dwellMs_mid (sound : k.humFault = false) (low : 40 ≤ k.humidity) (high : k.humidity ≤ 60) :
    p.dwellMs k = 1000 * p.dwellMid := by
  unfold StripProfile.dwellMs
  rw [sound, if_neg Bool.false_ne_true, if_neg (by omega), if_pos high]

end Dwell

/-- The humidity of a ring (R95); an empty one gives 0 (log 11). -/
theorem Ink.humidity_sound {k : Ink} (sound : k.humFault = false) :
    k.humidity = min 100 ((k.humRing.sum / k.humRing.length - 8) * 100 / 1007) :=
  if_neg (by simp [sound])

theorem enterChecking_eq {i : JobIx} {j : Job} {x : Strip} {dwell : Nat} {s u : State}
    (hd : s.chk.profile.dwellMs s.ink = dwell)
    (hu : u = notify .checker ((setJobState i .checking s).mapChk fun k =>
      { k with state := .dwell, ctx := some (StripContext.atDwell i j x dwell),
               counters := { k.counters with started := min (k.counters.started + 1) 65535 } })) :
    enterChecking i j x s = if dwell = 0 then dwellExpired u else u := by
  subst hd hu
  rfl

/-- Settles O47: END and the timers by the phase, the change of state by what keeps the swath target, and the entry into
CHECKING by the band of its humidity. -/
theorem endAndTimersEndTheEnginesPart : Obligations.EndAndTimersEndTheEnginesPart := by
  unfold Obligations.EndAndTimersEndTheEnginesPart
  refine ⟨fun s none_ => ?_, fun s x i j ctx job => ?_, fun i j st s engine live hengine => ?_,
    fun i j x band dwell s u high low mid hdwell hu => ?_, fun k => Ink.humidity_sound⟩
  · have absent : ∀ {P : PrintContext → Prop}, ∀ x, s.eng.ctx = some x → P x := fun x ctx => nomatch none_.symm.trans ctx
    exact ⟨fun tag status => exec_endPrint_breaks absent, exec_given (swathExpired_stopped absent) rfl,
      exec_given (dryOutExpired_stopped absent) rfl⟩
  · have only : ∀ {P : PrintContext → Prop}, P x → ∀ y, s.eng.ctx = some y → P y := fun h y same =>
      Option.some.inj (ctx.symm.trans same) ▸ h
    refine ⟨fun tag own => ⟨fun phase => ?_, fun phase => ?_, fun phase => ?_⟩, fun tag status other => ?_,
      fun runs phase => exec_given ((swathExpired_await ctx runs phase).trans (abortContext_job job)) rfl,
      fun runs phase => exec_given ((swathExpired_ending ctx runs phase).trans (endToSpoil_decided job)) rfl,
      fun stopped => exec_given (swathExpired_stopped (only stopped)) rfl,
      fun runs phase => exec_given ((dryOutExpired_held ctx runs phase).trans (abortContext_job job)) rfl,
      fun stopped => exec_given (dryOutExpired_stopped (only stopped)) rfl, enterAborting_eq ctx⟩
    · have complete := endMessage_await (complete := true) ctx own phase
      have aborted := endMessage_await (complete := false) ctx own phase
      exact ⟨fun plain => exec_given (complete.trans (printDone_plain job plain)) (exec_endPrint_read rfl),
        fun p strip => exec_given (complete.trans (printDone_strip job strip)) (exec_endPrint_read rfl),
        exec_given (aborted.trans (endToSpoil_cause job)) (exec_endPrint_read rfl)⟩
    · have ends : ∀ complete, endMessage tag complete s = takeSpoil i (dropContext s) := fun _ =>
        (endMessage_ending ctx own phase).trans (endToSpoil_decided job)
      exact ⟨exec_given (ends true) (exec_endPrint_read rfl), exec_given (ends false) (exec_endPrint_read rfl)⟩
    · exact ⟨exec_endPrint_breaks (only fun _ => phase), exec_endPrint_breaks (only fun _ => phase)⟩
    · exact exec_endPrint_breaks (only fun own => absurd own other)
  · have keeps : ∀ y, engine y ↔ y.keepsSwathTarget = true := fun y =>
      (hengine y).trans JobState.keepsSwathTarget_iff.symm
    simp only [keeps, Bool.not_eq_true]
    exact ⟨setJobState_leaves live, setJobState_stays live⟩
  · have hd : s.chk.profile.dwellMs s.ink = dwell := by
      rw [hdwell]
      by_cases wet : s.ink.humFault = true ∨ 60 < s.ink.humidity
      · rw [high wet, StripProfile.dwellMs_high wet]
      · obtain ⟨sound, notHigh⟩ : s.ink.humFault = false ∧ s.ink.humidity ≤ 60 := by simpa using wet
        by_cases dry : s.ink.humidity < 40
        · rw [low sound dry, StripProfile.dwellMs_low sound dry]
        · rw [mid sound (not_lt.1 dry) notHigh, StripProfile.dwellMs_mid sound (not_lt.1 dry) notHigh]
    have enters := enterChecking_eq hd hu
    exact ⟨fun zero => enters.trans (if_pos zero), fun long => enters.trans (if_neg long.ne')⟩

end Sys2Proof.Machine
end

section
/-!
PROOFS. SET_PATCHES by its updates, and SET_STRIP_PROFILE replaced whole (R140, R142, R143): one equation of the owner for
each answer, and one of `applyPatch` for each update. With them O48.
-/

-- One theorem after another: waiting proofs would each hold a thread.
set_option Elab.async false

namespace Sys2Proof.Machine

/-! ### The strip on the path (R140) -/

theorem JobState.beforeCutting_iff {x : JobState} :
    (x.onPath && !decide (x = .cutting)) = true ↔ x = .printing ∨ x = .suspended ∨ x = .aborting ∨ x = .checking := by
  cases x <;> decide

theorem State.stripOnPath_iff {s : State} :
    s.stripOnPath = true ↔ ∃ p ∈ s.liveJobs, p.2.strip.isSome = true ∧ (p.2.state = .printing ∨ p.2.state = .suspended ∨
      p.2.state = .aborting ∨ p.2.state = .checking) := by
  simp only [State.stripOnPath, List.any_eq_true, Bool.and_assoc, Bool.and_eq_true (Option.isSome _),
    JobState.beforeCutting_iff]

/-! ### What an update asks for (R139, R140, R191) -/

theorem Colour.inRange_iff {c : Colour} : c.inRange = true ↔
    (0 ≤ c.l ∧ c.l ≤ 10000) ∧ (-12800 ≤ c.a ∧ c.a ≤ 12700) ∧ (-12800 ≤ c.b ∧ c.b ≤ 12700) := decide_eq_true_iff

theorem dominantOf_none {b : Byte} (h : 9 < b.toNat) (named : b ≠ 0xFF) : dominantOf b = none := by
  unfold dominantOf
  rw [if_neg named, chanOf_none h]
  rfl

theorem dominantOf_some {b : Byte} {d : Option Chan}
    (h : (b = 0xFF ∧ d = none) ∨ ∃ c : Chan, c.val = b.toNat ∧ d = some c) : dominantOf b = some d := by
  unfold dominantOf
  rcases h with ⟨rfl, rfl⟩ | ⟨c, named, rfl⟩
  · rfl
  · have notAbsent : b ≠ 0xFF := fun absent => by
      have := c.isLt
      rw [named, absent] at this
      exact absurd this (by decide)
    rw [if_neg notAbsent, chanOf_eq_some.2 named]
    rfl

/-- The colour that an update carries. -/
def PatchUpdate.target (u : PatchUpdate) : Colour where
  l := u.l.toNat
  a := u.a.toInt
  b := u.b.toInt

section Read
variable {u : PatchUpdate}

theorem PatchUpdate.read_beyond (h : 47 < u.index.toNat) : PatchUpdate.read u = none := dif_neg (by omega)

variable {k : Fin 48} (index : k.val = u.index.toNat)
include index

theorem PatchUpdate.read_undefines (define : u.define = 0) : PatchUpdate.read u = some (k, none) := by
  have below : u.index.toNat < 48 := index ▸ k.isLt
  obtain rfl : k = ⟨u.index.toNat, below⟩ := Fin.ext index
  unfold PatchUpdate.read
  rw [dif_pos below, define]
  rfl

variable (define : u.define = 1)
include define

theorem PatchUpdate.read_defines {d : Option Chan} (dominant : dominantOf u.dominant = some d)
    (range : (PatchUpdate.target u).inRange = true) :
    PatchUpdate.read u = some (k, some { target := PatchUpdate.target u, dominant := d }) := by
  have below : u.index.toNat < 48 := index ▸ k.isLt
  obtain rfl : k = ⟨u.index.toNat, below⟩ := Fin.ext index
  unfold PatchUpdate.read
  rw [dif_pos below, define, dominant]
  exact if_pos range

theorem PatchUpdate.read_outOfRange (h : dominantOf u.dominant = none ∨ (PatchUpdate.target u).inRange = false) :
    PatchUpdate.read u = none := by
  unfold PatchUpdate.read
  rw [dif_pos (index ▸ k.isLt), define]
  cases dominant : dominantOf u.dominant with
  | none => rfl
  | some d =>
    rcases h with absent | out
    · exact absurd (absent.symm.trans dominant) nofun
    · exact if_neg (Bool.eq_false_iff.1 out)

end Read

/-! ### One update (R140) -/

theorem State.entryInUse_iff {s : State} {k : Fin 48} :
    s.entryInUse k = true ↔ (∃ g, s.chk.profile.set = some g ∧ k.val < g.t) ∨
      ∃ p ∈ s.liveJobs, ∃ x, p.2.strip = some x ∧ k.val < x.geo.t := by
  unfold State.entryInUse
  rw [Bool.or_eq_true, List.any_eq_true]
  refine or_congr ?_ (exists_congr fun p => and_congr_right fun _ => ?_)
  · cases s.chk.profile.set <;> simp
  · cases p.2.strip <;> simp

section Update
variable {u : PatchUpdate} {s : State} {bs : Bytes} {k : Fin 48}

theorem applyPatch_range (h : PatchUpdate.read u = none) : applyPatch (s, bs) u = (s, bs ++ [0x01]) := by
  unfold applyPatch
  rw [h]
  rfl

theorem applyPatch_inUse (h : PatchUpdate.read u = some (k, none)) (used : s.entryInUse k = true) :
    applyPatch (s, bs) u = (s, bs ++ [0x02]) := by
  unfold applyPatch
  rw [h]
  exact if_pos used

theorem applyPatch_undefines (h : PatchUpdate.read u = some (k, none)) (unused : s.entryInUse k = false) :
    applyPatch (s, bs) u = (s.mapChk fun c => { c with patches := c.patches.set k none }, bs ++ [0x00]) := by
  unfold applyPatch
  rw [h]
  exact if_neg (Bool.eq_false_iff.1 unused)

theorem applyPatch_defines {p : Patch} (h : PatchUpdate.read u = some (k, some p)) :
    applyPatch (s, bs) u = (s.mapChk fun c => { c with patches := c.patches.set k (some p) }, bs ++ [0x00]) := by
  unfold applyPatch
  rw [h]
  rfl

end Update

/-- Each update appends its one result (R140). -/
theorem applyPatch_length (x : State × Bytes) (u : PatchUpdate) : (applyPatch x u).2.length = x.2.length + 1 := by
  unfold applyPatch
  split
  · exact List.length_append
  · split
    · exact List.length_append
    · exact List.length_append
  · exact List.length_append

theorem applyPatches_length : ∀ (us : List PatchUpdate) (x : State × Bytes),
    (us.foldl applyPatch x).2.length = x.2.length + us.length
  | [], _ => rfl
  | u :: us, x => by
    rw [List.foldl_cons, applyPatches_length us, applyPatch_length, List.length_cons]
    omega

/-! ### SET_PATCHES (R140) -/

section Patches
variable {us : List PatchUpdate} {s : State}

theorem patchesOwner_miscounted (h : us.length < 1 ∨ 4 < us.length) : patchesOwner us s = (s, [0x10]) := if_pos h

variable (nonempty : 1 ≤ us.length) (few : us.length ≤ 4)
include nonempty few

theorem patchesOwner_onPath (onPath : s.stripOnPath = true) : patchesOwner us s = (s, [0x20]) :=
  (if_neg (by omega)).trans (if_pos onPath)

theorem patchesOwner_updates (offPath : s.stripOnPath = false) {t : State} {results : Bytes}
    (updates : us.foldl applyPatch (s, []) = (t, results)) :
    patchesOwner us s = (if (0x00 : Byte) ∈ results then notify .checker t else t,
      0x00 :: BitVec.ofNat 8 us.length :: results) := by
  unfold patchesOwner
  rw [if_neg (by omega), if_neg (Bool.eq_false_iff.1 offPath), updates]
  rfl

end Patches

/-! ### What a strip profile in range is (R142) -/

/-- Every field is within its range (R142). -/
def StripProfileArgs.InRange (a : StripProfileArgs) : Prop :=
  (8 ≤ a.t.toNat ∧ a.t.toNat ≤ 48) ∧ (1 ≤ a.stride.toNat ∧ a.stride.toNat < a.t.toNat) ∧
    Nat.gcd a.stride.toNat a.t.toNat = 1 ∧ a.seed.toNat < a.t.toNat ∧ (2 ≤ a.m.toNat ∧ a.m.toNat ≤ 4) ∧
    (1 ≤ a.runMin.toNat ∧ a.runMin.toNat ≤ a.m.toNat) ∧ (a.m.toNat ≤ a.runMax.toNat ∧ a.runMax.toNat ≤ a.m.toNat + 1) ∧
    (4 ≤ a.pitch.toNat ∧ a.pitch.toNat ≤ 8) ∧ (100 ≤ a.markThreshold.toNat ∧ a.markThreshold.toNat ≤ 9000) ∧
    (10 ≤ a.tolerance.toNat ∧ a.tolerance.toNat ≤ 5000) ∧ a.allowed.toNat ≤ a.t.toNat ∧
    (10 ≤ a.meanTolerance.toNat ∧ a.meanTolerance.toNat ≤ 5000) ∧
    (a.tolerance.toNat < a.gross.toNat ∧ a.gross.toNat ≤ 20000) ∧ a.learn.toNat ≤ 1 ∧
    a.dwellLow.toNat ≤ 900 ∧ a.dwellMid.toNat ≤ 900 ∧ a.dwellHigh.toNat ≤ 900

/-- The profile that the fields spell. -/
def StripProfileArgs.profile (a : StripProfileArgs) : StripProfile where
  set := some { t := a.t.toNat, stride := a.stride.toNat, seed := a.seed.toNat }
  m := a.m.toNat
  runMin := a.runMin.toNat
  runMax := a.runMax.toNat
  pitch := a.pitch.toNat
  markThreshold := a.markThreshold.toNat
  tolerance := a.tolerance.toNat
  allowed := a.allowed.toNat
  meanTolerance := a.meanTolerance.toNat
  gross := a.gross.toNat
  learn := decide (a.learn = 1)
  dwellLow := a.dwellLow.toNat
  dwellMid := a.dwellMid.toNat
  dwellHigh := a.dwellHigh.toNat

theorem StripProfileArgs.read_profile {a : StripProfileArgs} (h : StripProfileArgs.InRange a) :
    StripProfileArgs.read a = some (StripProfileArgs.profile a) := by
  obtain ⟨t, stride, gcd, seed, m, runMin, runMax, pitch, mark, tolerance, allowed, mean, gross, learn, dwell⟩ := h
  unfold StripProfileArgs.read
  rw [yesNoOf_eq, if_pos learn]
  exact if_pos ⟨t, stride, gcd, seed, m, runMin, runMax, pitch, mark, tolerance, allowed, mean, gross, dwell⟩

theorem StripProfileArgs.read_none {a : StripProfileArgs} (h : ¬ StripProfileArgs.InRange a) :
    StripProfileArgs.read a = none := by
  unfold StripProfileArgs.read
  rw [yesNoOf_eq]
  by_cases learn : a.learn.toNat ≤ 1
  · rw [if_pos learn]
    exact if_neg fun ⟨t, stride, gcd, seed, m, runMin, runMax, pitch, mark, tolerance, allowed, mean, gross, dwell⟩ =>
      h ⟨t, stride, gcd, seed, m, runMin, runMax, pitch, mark, tolerance, allowed, mean, gross, learn, dwell⟩
  · rw [if_neg learn]

/-! ### SET_STRIP_PROFILE (R143) -/

/-- The entries that the new strip compares with are all defined. -/
theorem allDefined_iff {s : State} {t : Nat} :
    (((List.finRange 48).filter fun k => decide (k.val < t)).all fun k => s.chk.patches[k].isSome) = true ↔
      ∀ k : Fin 48, k.val < t → s.chk.patches[k].isSome = true := by
  simp only [List.all_eq_true, List.mem_filter, List.mem_finRange, true_and, decide_eq_true_eq]

section Profile
variable {a : StripProfileArgs} {s : State}

theorem stripProfileOwner_onPath (onPath : s.stripOnPath = true) : stripProfileOwner a s = (s, [0x20]) := if_pos onPath

variable (offPath : s.stripOnPath = false)
include offPath

theorem stripProfileOwner_outOfRange (out : ¬ StripProfileArgs.InRange a) : stripProfileOwner a s = (s, [0x21]) := by
  unfold stripProfileOwner
  rw [if_neg (Bool.eq_false_iff.1 offPath), StripProfileArgs.read_none out]
  rfl

variable (range : StripProfileArgs.InRange a)
include range

theorem stripProfileOwner_undefined {k : Fin 48} (low : k.val < a.t.toNat) (undefined : s.chk.patches[k] = none) :
    stripProfileOwner a s = (s, [0x20]) := by
  unfold stripProfileOwner
  rw [if_neg (Bool.eq_false_iff.1 offPath), StripProfileArgs.read_profile range]
  refine if_neg fun all => ?_
  have defined := allDefined_iff.1 all k low
  rw [undefined] at defined
  exact Bool.false_ne_true defined

theorem stripProfileOwner_replaced (defined : ∀ k : Fin 48, k.val < a.t.toNat → s.chk.patches[k].isSome = true) :
    stripProfileOwner a s =
      (notify .checker (s.mapChk fun c => { c with profile := StripProfileArgs.profile a }), [0x00]) := by
  unfold stripProfileOwner
  rw [if_neg (Bool.eq_false_iff.1 offPath), StripProfileArgs.read_profile range]
  exact if_pos (allDefined_iff.2 defined)

end Profile

/-- Settles O48: the owners' equations for each check, and `applyPatch` by what the update asks for. -/
theorem patchAndStripProfileRequests : Obligations.PatchAndStripProfileRequests := by
  unfold Obligations.PatchAndStripProfileRequests
  refine ⟨⟨fun ft us s taken => ?_, fun u s bs => ?_⟩, fun ft a s inRange taken hrange => ?_⟩
  · have reply : ∀ {t answer}, patchesOwner us s = (t, answer) →
        exec (.setPatches ft us) s = .next (answered 0xD0 ft answer t) := fun owner => exec_reply taken rfl owner rfl
    refine ⟨fun count => reply (patchesOwner_miscounted count), fun nonempty few =>
      ⟨fun onPath => reply (patchesOwner_onPath nonempty few (State.stripOnPath_iff.2 onPath)),
        fun offPath t results updates => ⟨?_, reply (patchesOwner_updates nonempty few ?_ updates)⟩⟩⟩
    · simpa [updates] using applyPatches_length us (s, [])
    · refine Bool.eq_false_iff.2 fun onPath => ?_
      obtain ⟨p, mem, engaged⟩ := State.stripOnPath_iff.1 onPath
      exact offPath p mem engaged
  · refine ⟨fun beyond => applyPatch_range (PatchUpdate.read_beyond beyond), fun k index =>
      ⟨fun define => ?_, fun define => ⟨fun out => ?_, fun d l a b dominant => ?_⟩⟩⟩
    · have undefines := PatchUpdate.read_undefines index define
      refine ⟨fun used => applyPatch_inUse undefines (State.entryInUse_iff.2 used), fun profile jobs =>
        applyPatch_undefines undefines (Bool.eq_false_iff.2 fun used => ?_)⟩
      rcases State.entryInUse_iff.1 used with ⟨g, set, low⟩ | ⟨p, mem, x, strip, low⟩
      · exact absurd low (profile g set).not_gt
      · exact absurd low (jobs p mem x strip).not_gt
    · refine applyPatch_range (PatchUpdate.read_outOfRange index define ?_)
      by_cases dominant : 9 < u.dominant.toNat ∧ u.dominant ≠ 0xFF
      · obtain ⟨high, named⟩ := dominant
        exact .inl (dominantOf_none high named)
      · refine .inr (Bool.eq_false_iff.2 fun range => ?_)
        obtain ⟨⟨-, l⟩, a, b⟩ := Colour.inRange_iff.1 range
        simp only [PatchUpdate.target] at l a b
        simp only [dominant, or_false] at out
        omega
    · refine applyPatch_defines (PatchUpdate.read_defines index define (dominantOf_some dominant)
        (Colour.inRange_iff.2 ⟨⟨Int.natCast_nonneg _, ?_⟩, a, b⟩))
      exact Int.ofNat_le.2 l
  · have reply : ∀ {t answer}, stripProfileOwner a s = (t, answer) →
        exec (.setStripProfile ft a) s = .next (answered 0xD2 ft answer t) := fun owner => exec_reply taken rfl owner rfl
    have range : inRange ↔ StripProfileArgs.InRange a := hrange
    rw [range]
    exact ⟨fun onPath => reply (stripProfileOwner_onPath onPath), fun offPath =>
      ⟨fun out => reply (stripProfileOwner_outOfRange offPath out), fun range =>
        ⟨fun ⟨k, low, undefined⟩ => reply (stripProfileOwner_undefined offPath range low undefined),
          fun defined => reply (stripProfileOwner_replaced offPath range defined)⟩⟩⟩

end Sys2Proof.Machine
end

section
/-!
PROOFS. The dwell's end, the strip's moves, and the readings on the sensor link, ended good or void (R144, R146 to R148,
R196): one equation of the operation for each way an event finds the checker. With them O50.
-/

-- One theorem after another: waiting proofs would each hold a thread.
set_option Elab.async false

namespace Sys2Proof.Machine

/-- Two changes of the checker that agree on the checker as it stands are the same change of the state. -/
theorem State.mapChk_congr {s : State} {f g : Checker → Checker} (h : f s.chk = g s.chk) : s.mapChk f = s.mapChk g :=
  congrArg (fun k => { s with chk := k }) h

/-- A change of the strip context, where it stands. -/
theorem mapStrip_eq {s : State} {x : StripContext} (ctx : s.chk.ctx = some x) (f : StripContext → StripContext) :
    mapStrip f s = s.mapChk fun k => { k with ctx := some (f x) } :=
  congrArg (fun c : Option StripContext => s.mapChk fun k => { k with ctx := c.map f }) ctx

/-! ### Strip moves (R144) -/

theorem StripContext.readPosition_eq {x : StripContext} {start : Int} (h : x.stripStart = some start) :
    x.readPosition = start - 200 * x.geo.pitch + 100 * (x.n * x.geo.pitch) := by
  simp [StripContext.readPosition, h]

section StripMove
variable {s t : State} {x : StripContext} (ctx : s.chk.ctx = some x)
include ctx

theorem stripMove_begun (move : requestMove x.readPosition .strip s = (t, .begun)) : stripMove s = t := by
  unfold stripMove
  rw [ctx]
  dsimp only
  rw [move]

theorem stripMove_done (move : requestMove x.readPosition .strip s = (t, .done)) : stripMove s = beginReading t := by
  unfold stripMove
  rw [ctx]
  dsimp only
  rw [move]

/-- A refused strip move leaves the strip where it stands (log 18). -/
theorem stripMove_refused (move : requestMove x.readPosition .strip s = (t, .refused)) : stripMove s = s := by
  unfold stripMove
  rw [ctx]
  dsimp only
  rw [move]
  exact requestMove_refusal move

end StripMove

/-! ### The dwell's end (R146) -/

section Dwell
variable {s : State}

theorem dwellExpired_eq {x : StripContext} {j : Job} {start : Int} (ctx : s.chk.ctx = some x)
    (live : s.liveJob x.slot = some j)
    (hstart : start = j.startPos.getD 0 + 100 * (j.printLen : Int) + 100 * (s.feed.profile.sensor : Int)) :
    dwellExpired s = stripMove (notify .checker (s.mapChk fun k =>
      { k with state := .search,
               ctx := some { x with dwell := none, stripStart := some start, n := 0, inSearch := 0, run := 0,
                                    voids := 0 } })) := by
  subst hstart
  unfold dwellExpired
  rw [ctx]
  dsimp only
  rw [live]
  dsimp only
  rw [mapStrip_eq ctx]
  rfl

/-- A dwell that runs ends, whatever time is left (log 2). -/
theorem dwellEnded_runs {x : StripContext} {n : Nat} (ctx : s.chk.ctx = some x) (runs : x.dwell = some n) :
    dwellEnded s = dwellExpired s := by
  unfold dwellEnded
  rw [ctx]
  dsimp only
  rw [runs]
  rfl

theorem dwellEnded_stopped (h : ∀ x, s.chk.ctx = some x → x.dwell = none) : dwellEnded s = s := by
  unfold dwellEnded
  split
  · next x ctx => exact if_neg (by simp [h x ctx])
  · rfl

end Dwell

/-! ### What a result read shows (R196) -/

/-- The colour that the result bytes carry. -/
def resultColour (b : Vector Byte 8) : Colour where
  l := (word16 b[1] b[2]).toNat
  a := (word16 b[3] b[4]).toInt
  b := (word16 b[5] b[6]).toInt

section Result
variable {b : Vector Byte 8}

theorem readResult_notReady (h : b[0] = 0) : readResult b = .notReady := if_pos h

theorem readResult_good (ready : b[0] = 1) (check : (b.toList.map (·.toNat)).sum % 256 = 0)
    (range : (resultColour b).inRange = true) : readResult b = .good (resultColour b) := by
  unfold readResult
  rw [if_neg (by rw [ready]; decide), if_pos ⟨ready, check⟩]
  exact if_pos range

theorem readResult_bad (shown : b[0] ≠ 0) (h : b[0] = 1 → (b.toList.map (·.toNat)).sum % 256 = 0 →
    (resultColour b).inRange = false) : readResult b = .bad := by
  unfold readResult
  rw [if_neg shown]
  by_cases sound : b[0] = 1 ∧ (b.toList.map (·.toNat)).sum % 256 = 0
  · rw [if_pos sound]
    exact if_neg (Bool.eq_false_iff.1 (h sound.1 sound.2))
  · exact if_neg sound

end Result

/-! ### The sensor link (R147, R153) -/

section Unread
variable {s : State} (h : s.chk.reading = none)
include h

theorem measured_unread (ack : Bool) : measured ack s = s := by
  unfold measured
  rw [h]

theorem resultRead_unread (ack : Bool) (b : Vector Byte 8) : resultRead ack b s = s := by
  unfold resultRead
  rw [h]

theorem readingExpired_unread : readingExpired s = s := by
  unfold readingExpired
  rw [h]

end Unread

section Command
variable {s : State} {d : Bool} (h : s.chk.reading = some { phase := .command, discard := d })
include h

theorem measured_acknowledged : measured true s =
    s.mapChk fun k => { k with reading := some { phase := .result 20, discard := d } } := by
  unfold measured
  rw [h]
  rfl

theorem measured_failed : measured false s = endReading { phase := .command, discard := d } voidReading s := by
  unfold measured
  rw [h]
  rfl

theorem resultRead_early (ack : Bool) (b : Vector Byte 8) : resultRead ack b s = s := by
  unfold resultRead
  rw [h]

theorem readingExpired_early : readingExpired s = s := by
  unfold readingExpired
  rw [h]

end Command

section Result
variable {s : State} {r : Reading} {n : Nat} (h : s.chk.reading = some r) (phase : r.phase = .result n)
include h phase

theorem measured_late (ack : Bool) : measured ack s = s := by
  unfold measured
  rw [h]
  dsimp only
  rw [phase]
  rfl

theorem readingExpired_ends : readingExpired s = endReading r voidReading s := by
  unfold readingExpired
  rw [h]
  dsimp only
  rw [phase]

variable {b : Vector Byte 8}

theorem resultRead_failed : resultRead false b s = endReading r voidReading s := by
  unfold resultRead
  rw [h]
  dsimp only
  rw [phase]
  rfl

theorem resultRead_notReady (shows : readResult b = .notReady) : resultRead true b s = s := by
  unfold resultRead
  rw [h]
  dsimp only
  rw [phase, shows]
  rfl

theorem resultRead_bad (shows : readResult b = .bad) : resultRead true b s = endReading r voidReading s := by
  unfold resultRead
  rw [h]
  dsimp only
  rw [phase, shows]
  rfl

theorem resultRead_good {c : Colour} (shows : readResult b = .good c) :
    resultRead true b s = endReading r (goodReading c) s := by
  unfold resultRead
  rw [h]
  dsimp only
  rw [phase, shows]
  rfl

end Result

/-! ### Good and void readings (R148) -/

section Good
variable {s u : State} (hu : u = mapStrip (fun x => { x with voids := 0 }) s) (c : Colour)
include hu

theorem goodReading_search (h : s.chk.state = .search) : goodReading c s = searchReading c u := by
  have same : u.chk.state = .search := hu ▸ h
  unfold goodReading
  rw [← hu]
  dsimp only
  rw [same]

theorem goodReading_locked (h : s.chk.state = .locked) : goodReading c s = comparePatch c u := by
  have same : u.chk.state = .locked := hu ▸ h
  unfold goodReading
  rw [← hu]
  dsimp only
  rw [same]

theorem goodReading_elsewhere (h : s.chk.state = .idle ∨ s.chk.state = .dwell) : goodReading c s = u := by
  have same : u.chk.state = s.chk.state := hu ▸ rfl
  unfold goodReading
  rw [← hu]
  dsimp only
  rw [same]
  rcases h with h | h
  · rw [h]
  · rw [h]

end Good

theorem voidReading_eq {s u : State} {x : StripContext} (ctx : s.chk.ctx = some x)
    (hu : u = s.mapChk fun k =>
      { k with counters := { k.counters with timeouts := min (k.counters.timeouts + 1) 65535 },
               ctx := some { x with voids := x.voids + 1 } }) :
    voidReading s = if 3 ≤ x.voids + 1 then endStrip (.void .sensor) u else beginReading u := by
  have counted : mapStrip (fun x => { x with voids := x.voids + 1 })
      (mapCounters (fun n => { n with timeouts := sat16 (n.timeouts + 1) }) s) = u := by
    rw [hu]
    exact mapStrip_eq (s := mapCounters _ s) ctx _
  have ctx' : u.chk.ctx = some { x with voids := x.voids + 1 } := hu ▸ rfl
  unfold voidReading
  dsimp only
  rw [counted, ctx']

/-- Settles O50: the moves by their outcome, the sensor link's events by the reading they find, and the readings by their
end. -/
theorem dwellAndReadingsOnTheSensorLink : Obligations.DwellAndReadingsOnTheSensorLink := by
  unfold Obligations.DwellAndReadingsOnTheSensorLink
  refine ⟨fun s => ⟨fun stopped => exec_given (dwellEnded_stopped stopped) rfl,
      fun x j n start ctx runs live hstart =>
        exec_given ((dwellEnded_runs ctx runs).trans (dwellExpired_eq ctx live hstart)) rfl,
      fun x start ctx hstart => ?_, fun x j start => dwellExpired_eq, rfl⟩,
    fun c s u hu => ⟨goodReading_search hu c, goodReading_locked hu c, goodReading_elsewhere hu c⟩,
    fun s u hu => ⟨fun ack b unread => ?_, fun ack b d command => ?_, fun ack d n b l a c result hl ha hc => ?_⟩,
    fun s u x ctx hu => ⟨fun third => ?_, fun early => ?_⟩⟩
  · rw [← StripContext.readPosition_eq hstart]
    exact ⟨fun t => stripMove_begun ctx, fun t => stripMove_done ctx, fun t => stripMove_refused ctx⟩
  · exact ⟨exec_given (measured_unread unread ack) rfl, exec_given (resultRead_unread unread ack b) rfl,
      exec_given (readingExpired_unread unread) rfl⟩
  · subst hu
    exact ⟨exec_given (measured_acknowledged command) rfl, exec_given (measured_failed command) rfl,
      exec_given (resultRead_early command ack b) rfl, exec_given (readingExpired_early command) rfl⟩
  · subst hu
    have colour : (⟨l, a, c⟩ : Colour) = resultColour b := by
      rw [hl, ha, hc]
      rfl
    refine ⟨exec_given (measured_late result rfl ack) rfl, exec_given (readingExpired_ends result rfl) rfl,
      exec_given (resultRead_failed result rfl) rfl,
      fun notReady => exec_given (resultRead_notReady result rfl (readResult_notReady notReady)) rfl,
      fun ready check lRange aRange cRange => ?_,
      fun shown unknown => exec_given
        (resultRead_bad result rfl (readResult_bad shown fun ready => absurd ready unknown)) rfl,
      fun ready broken => exec_given
        (resultRead_bad result rfl (readResult_bad (by rw [ready]; decide) fun _ check => ?_)) rfl⟩
    · have range : (resultColour b).inRange = true :=
        colour ▸ Colour.inRange_iff.2 ⟨⟨hl ▸ Int.natCast_nonneg _, lRange⟩, aRange, cRange⟩
      rw [colour]
      exact exec_given (resultRead_good result rfl (readResult_good ready check range)) rfl
    · refine Bool.eq_false_iff.2 fun range => ?_
      obtain ⟨lRange, aRange, cRange⟩ := Colour.inRange_iff.1 (colour ▸ range)
      dsimp only at lRange aRange cRange
      omega
  · exact (voidReading_eq ctx hu).trans (if_pos (by omega))
  · exact (voidReading_eq ctx hu).trans (if_neg (by omega))

end Sys2Proof.Machine
end

section
/-!
PROOFS. The mark search, the comparison of a patch, and the strip stopped by its job's end (R149 to R151, R153): one
equation of the operation for each outcome.
-/

-- One theorem after another: waiting proofs would each hold a thread.
set_option Elab.async false

namespace Sys2Proof.Machine

/-! ### The mark search (R149) -/

section Search
variable {s u : State} {x : StripContext} {c : Colour} (ctx : s.chk.ctx = some x)
include ctx

/-- A reading on which the strip does not lock goes on, until the search is over. -/
theorem searchReading_unlocked {run : Nat}
    (unlocked : c.l < s.chk.profile.markThreshold ∨ x.run < s.chk.profile.runMin ∨ s.chk.profile.runMax < x.run)
    (hrun : run = if c.l < s.chk.profile.markThreshold then x.run + 1 else 0)
    (hu : u = s.mapChk fun k => { k with ctx := some { x with inSearch := x.inSearch + 1, run := run } }) :
    searchReading c s = if x.geo.m + 6 ≤ x.inSearch + 1 then endStrip (.void .noMarks) u else nextRead u := by
  have searches : ¬ (decide (c.l < s.chk.profile.markThreshold) = false ∧ s.chk.profile.runMin ≤ x.run ∧
      x.run ≤ s.chk.profile.runMax) := by
    rw [decide_eq_false_iff_not]
    omega
  subst hrun hu
  unfold searchReading
  rw [ctx]
  dsimp only
  rw [if_neg searches, mapStrip_eq ctx]
  simp only [decide_eq_true_eq]
  rfl

theorem searchReading_locks (paper : s.chk.profile.markThreshold ≤ c.l) (low : s.chk.profile.runMin ≤ x.run)
    (high : x.run ≤ s.chk.profile.runMax) :
    searchReading c s = comparePatch c (notify .checker (s.mapChk fun k =>
      { k with
        state := .locked,
        ctx := some { x with inSearch := x.inSearch + 1, patch := 0, lastGross := false, failing := 0, sum := 0 } })) := by
  unfold searchReading lockStrip
  rw [ctx]
  dsimp only
  rw [if_pos ⟨decide_eq_false (Int.not_lt.2 paper), low, high⟩, mapStrip_eq ctx]
  rfl

end Search

/-! ### The comparison of a patch (R150, R151) -/

theorem Checker.compare_eq {k : Checker} {e : Nat} {p : Patch} (c : Colour) (entry : k.patches[e]? = some (some p)) :
    k.compare e c = { index := e, dominant := p.dominant, colour := c, deltaE := deltaE c p.target,
                      failing := decide (k.profile.tolerance < deltaE c p.target) } := by
  have same : k.entry e = p := by
    unfold Checker.entry
    rw [entry]
    rfl
  unfold Checker.compare
  rw [same]

section Judge
variable {p : StripProfile} {failing sum t : Nat}

theorem StripProfile.judge_pass (few : failing ≤ p.allowed) (close : sum / t ≤ p.meanTolerance) :
    p.judge failing sum t = .pass := if_pos ⟨few, close⟩

theorem StripProfile.judge_fail (h : p.allowed < failing ∨ p.meanTolerance < sum / t) :
    p.judge failing sum t = .fail := if_neg (by omega)

end Judge

/-- The counters and the strip context with one result more (R150, R154). -/
def countResult (x : StripContext) (r : PatchResult) (s : State) : State :=
  s.mapChk fun k =>
    { k with
      counters :=
        { k.counters with
          evaluated := min (k.counters.evaluated + 1) 65535
          patchesFailed := if r.failing then min (k.counters.patchesFailed + 1) 65535 else k.counters.patchesFailed }
      ctx := some { x with results := x.results ++ [r],
                           failing := if r.failing then x.failing + 1 else x.failing,
                           sum := x.sum + r.deltaE,
                           lastGross := decide (s.chk.profile.gross < r.deltaE) } }

theorem add_toNat_eq_ite (n : Nat) (b : Bool) : n + b.toNat = if b then n + 1 else n := by cases b <;> rfl

theorem comparePatch_eq {s : State} {x : StripContext} {c : Colour} {r : PatchResult} (ctx : s.chk.ctx = some x)
    (result : s.chk.compare (x.order.getD x.patch 0) c = r) :
    comparePatch c s =
      if s.chk.profile.gross < r.deltaE ∧ x.lastGross = true then endStrip (.void .lostLock) (countResult x r s)
      else if x.geo.t ≤ x.patch + 1 then
        endStrip (s.chk.profile.judge (if r.failing then x.failing + 1 else x.failing) (x.sum + r.deltaE) x.geo.t)
          (countResult x r s)
      else nextRead (mapStrip (fun y => { y with patch := y.patch + 1 }) (countResult x r s)) := by
  have counted : ∀ f, mapStrip f (mapCounters (fun n => { n with
      evaluated := sat16 (n.evaluated + 1)
      patchesFailed := if r.failing then sat16 (n.patchesFailed + 1) else n.patchesFailed }) s) = _ :=
    fun f => mapStrip_eq (s := mapCounters _ s) ctx f
  unfold comparePatch
  rw [ctx]
  dsimp only
  rw [result, counted, add_toNat_eq_ite]
  simp only [decide_eq_true_eq]
  by_cases lost : s.chk.profile.gross < r.deltaE ∧ x.lastGross = true
  · have gross : x.lastGross = decide (s.chk.profile.gross < r.deltaE) := by simp [lost]
    rw [if_pos lost, if_pos lost]
    unfold countResult
    rw [← gross]
    rfl
  · rw [if_neg lost, if_neg lost]
    rfl

/-! ### A strip stopped (R153) -/

theorem stopChecker_idle {s : State} (h : s.chk.ctx = none) : stopChecker s = s := by
  unfold stopChecker
  rw [h]

theorem stopChecker_stops {s : State} {x : StripContext} (ctx : s.chk.ctx = some x) :
    stopChecker s = notify .checker (s.mapChk fun k =>
      { k with
        state := .idle, ctx := none
        last := some { tag := x.tag, verdict := none, stopped := true, evaluated := x.results.length,
                       failing := x.failing, mean := x.sum / x.results.length, results := x.results }
        reading := k.reading.map fun r => { r with discard := true } }) := by
  unfold stopChecker
  rw [ctx]

end Sys2Proof.Machine
end

section
/-!
PROOFS. The verdict filed with the drift monitor, channel by channel, and the job's course by it (R151, R152, R157, R159,
R161). With them O51.
-/

-- One theorem after another: waiting proofs would each hold a thread.
set_option Elab.async false

namespace Sys2Proof.Machine

/-! ### The lot gate (R159) -/

/-- The lot of the channel at START is the lot fitted now (R159). -/
def Job.sameLot (j : Job) (k : Ink) (c : Chan) : Bool :=
  match j.lotAtStart c, k.chans[c].cart with
  | some l, some cart => l == cart.lot
  | _, _ => false

theorem Job.lotAtStart_iff {j : Job} {c : Chan} {lot : Nat} : j.lotAtStart c = some lot ↔
    ∃ ls p, j.lots = some ls ∧ (ls.find? fun q => q.1 == c) = some p ∧ p.2 = some lot := by
  simp only [Job.lotAtStart, Option.bind_eq_some_iff]
  constructor
  · rintro ⟨p, ⟨ls, lots, found⟩, named⟩
    exact ⟨ls, p, lots, found, named⟩
  · rintro ⟨ls, p, lots, found, named⟩
    exact ⟨p, ⟨ls, lots, found⟩, named⟩

theorem Job.sameLot_iff {j : Job} {k : Ink} {c : Chan} : j.sameLot k c = true ↔
    ∃ ls p lot cart, j.lots = some ls ∧ (ls.find? fun q => q.1 == c) = some p ∧ p.2 = some lot ∧
      k.chans[c].cart = some cart ∧ cart.lot = lot := by
  constructor
  · intro same
    unfold Job.sameLot at same
    split at same
    · next lot cart start fitted =>
      obtain ⟨ls, p, lots, found, named⟩ := Job.lotAtStart_iff.1 start
      exact ⟨ls, p, lot, cart, lots, found, named, fitted, (beq_iff_eq.1 same).symm⟩
    · cases same
  · rintro ⟨ls, p, lot, cart, lots, found, named, fitted, same⟩
    unfold Job.sameLot
    rw [Job.lotAtStart_iff.2 ⟨ls, p, lots, found, named⟩, fitted]
    exact beq_iff_eq.2 same.symm

/-! ### The rings after a strip (R159) -/

section Filing
variable (j : Job) (k : Ink)

/-- The values that a strip gives to a channel. -/
def filedValues (rs : List PatchResult) (c : Chan) : List Nat :=
  if j.sameLot k c then (rs.filter fun r => r.dominant == some c).map (·.deltaE) else []

/-- A result without a dominant channel is not filed; another one goes into its channel's ring by the lot gate. -/
theorem Drift.file_none (d : Drift) {r : PatchResult} (h : r.dominant = none) : Drift.file j k d r = d := by
  unfold Drift.file
  rw [h]

theorem Drift.file_dominant (d : Drift) {r : PatchResult} {c : Chan} (h : r.dominant = some c) :
    Drift.file j k d r =
      if j.sameLot k c then { d with rings := modifyAt d.rings c fun ring => ringPush 8 ring r.deltaE } else d := by
  unfold Drift.file Job.sameLot
  rw [h]
  dsimp only
  cases j.lotAtStart c with
  | none => rfl
  | some lot =>
    cases k.chans[c].cart with
    | none => rfl
    | some cart => simp only [beq_iff_eq]

/-- Filing changes the rings alone. -/
theorem Drift.file_rings (d : Drift) (r : PatchResult) : ∃ rings, Drift.file j k d r = { d with rings := rings } := by
  cases h : r.dominant with
  | none => exact ⟨d.rings, Drift.file_none j k d h⟩
  | some c =>
    rw [Drift.file_dominant j k d h]
    split
    · exact ⟨_, rfl⟩
    · exact ⟨d.rings, rfl⟩

theorem Drift.fileAll_rings (d : Drift) (rs : List PatchResult) :
    ∃ rings, rs.foldl (Drift.file j k) d = { d with rings := rings } := by
  refine foldl_holds (P := fun e => ∃ rings, e = { d with rings := rings }) _ (fun e r h => ?_) rs d ⟨d.rings, rfl⟩
  obtain ⟨rings, rfl⟩ := h
  exact Drift.file_rings j k _ r

theorem filedValues_own {r : PatchResult} {c : Chan} (h : r.dominant = some c) :
    filedValues j k [r] c = if j.sameLot k c then [r.deltaE] else [] := by
  simp [filedValues, h]

theorem filedValues_other {r : PatchResult} {c : Chan} (h : r.dominant ≠ some c) : filedValues j k [r] c = [] := by
  simp [filedValues, h]

theorem Drift.file_ring (d : Drift) (r : PatchResult) (c : Chan) :
    (Drift.file j k d r).rings[c] = (filedValues j k [r] c).foldl (ringPush 8) d.rings[c] := by
  by_cases own : r.dominant = some c
  · rw [Drift.file_dominant j k d own, filedValues_own j k own]
    split
    · exact (getElem_modifyAt ..).trans (if_pos rfl)
    · rfl
  · rw [filedValues_other j k own]
    cases h : r.dominant with
    | none => rw [Drift.file_none j k d h, List.foldl_nil]
    | some e =>
      rw [Drift.file_dominant j k d h]
      split
      · exact (getElem_modifyAt ..).trans (if_neg fun (same : c = e) => own (same ▸ h))
      · rfl

theorem filedValues_cons (r : PatchResult) (rs : List PatchResult) (c : Chan) :
    filedValues j k (r :: rs) c = filedValues j k [r] c ++ filedValues j k rs c := by
  unfold filedValues
  rw [← List.singleton_append, List.filter_append, List.map_append]
  split <;> rfl

theorem Drift.fileAll_ring (c : Chan) : ∀ (rs : List PatchResult) (d : Drift),
    (rs.foldl (Drift.file j k) d).rings[c] = (filedValues j k rs c).foldl (ringPush 8) d.rings[c]
  | [], d => by simp [filedValues]
  | r :: rs, d => by
    rw [List.foldl_cons, Drift.fileAll_ring c rs, Drift.file_ring, filedValues_cons j k r rs, List.foldl_append]

theorem received_iff {rs : List PatchResult} {c : Chan} : received j k rs c = true ↔ filedValues j k rs c ≠ [] := by
  have gated : received j k rs c = rs.any fun r => r.dominant == some c && j.sameLot k c := by
    unfold received Job.sameLot
    cases j.lotAtStart c with
    | none => simp only [Bool.and_false]
    | some lot =>
      cases k.chans[c].cart with
      | none => simp only [Bool.and_false]
      | some cart => rfl
  unfold filedValues
  rw [gated]
  cases j.sameLot k c with
  | false => simp
  | true => simp

end Filing

/-! ### The states after a strip (R157, R159) -/

theorem Drift.judge_state (p : Chan → Bool) (d : Drift) (c : Chan) :
    (Drift.judge p d).states[c] = if p c then driftOf d.warn d.out d.rings[c] else d.states[c] := by
  simp [Drift.judge]

theorem ringPush_ne_nil {α : Type} (cap : Nat) (ring : List α) (x : α) : ringPush cap ring x ≠ [] := by
  simp [ringPush]

/-- A ring that has received a value is not empty. -/
theorem ringPushes_ne_nil {α : Type} (cap : Nat) {values ring : List α} (h : values ≠ []) :
    values.foldl (ringPush cap) ring ≠ [] := by
  obtain ⟨init, last, rfl⟩ := List.eq_nil_or_concat values |>.resolve_left h
  rw [List.concat_eq_append, List.foldl_append]
  exact ringPush_ne_nil cap _ last

theorem driftOf_mean {warn out : Nat} {ring : List Nat} (h : ring ≠ []) :
    driftOf warn out ring =
      if ring.sum / ring.length < warn then .verified else if ring.sum / ring.length < out then .warn else .out :=
  if_neg (by simpa using h)

/-- The drift monitor after the filing of a verdict (R157, R159). -/
def Drift.filed (j : Job) (k : Ink) (rs : List PatchResult) (d : Drift) : Drift :=
  (rs.foldl (Drift.file j k) d).judge (received j k rs)

theorem fileVerdict_void (j : Job) (cause : VoidCause) (rs : List PatchResult) (s : State) :
    fileVerdict j (.void cause) rs s = s := rfl

theorem fileVerdict_judged {j : Job} {v : Verdict} {rs : List PatchResult} {s : State} (h : v = .pass ∨ v = .fail) :
    fileVerdict j v rs s = s.mapDrift fun _ => Drift.filed j s.ink rs s.drift := by
  rcases h with rfl | rfl
  · rfl
  · rfl

section Filed
variable {j : Job} {k : Ink} {rs : List PatchResult} {d : Drift}

/-- Filing leaves the limits and the lots alone. -/
theorem Drift.filed_frame : (Drift.filed j k rs d).warn = d.warn ∧ (Drift.filed j k rs d).out = d.out ∧
    (Drift.filed j k rs d).lots = d.lots := by
  obtain ⟨rings, filed⟩ := Drift.fileAll_rings j k d rs
  unfold Drift.filed Drift.judge
  rw [filed]
  exact ⟨rfl, rfl, rfl⟩

variable {c : Chan}

theorem Drift.filed_ring : (Drift.filed j k rs d).rings[c] = (filedValues j k rs c).foldl (ringPush 8) d.rings[c] :=
  Drift.fileAll_ring j k c rs d

theorem Drift.filed_state_kept (h : filedValues j k rs c = []) : (Drift.filed j k rs d).states[c] = d.states[c] := by
  have unreceived : ¬ received j k rs c = true := fun got => (received_iff j k).1 got h
  obtain ⟨rings, filed⟩ := Drift.fileAll_rings j k d rs
  unfold Drift.filed
  rw [Drift.judge_state, if_neg unreceived, filed]

theorem Drift.filed_state {mean : Nat} (h : filedValues j k rs c ≠ [])
    (hmean : mean = (Drift.filed j k rs d).rings[c].sum / (Drift.filed j k rs d).rings[c].length) :
    (Drift.filed j k rs d).states[c] = if mean < d.warn then .verified else if mean < d.out then .warn else .out := by
  have full : (rs.foldl (Drift.file j k) d).rings[c] ≠ [] := by
    rw [Drift.fileAll_ring]
    exact ringPushes_ne_nil 8 h
  have mean_eq : (rs.foldl (Drift.file j k) d).rings[c].sum / (rs.foldl (Drift.file j k) d).rings[c].length = mean :=
    hmean.symm
  obtain ⟨rings, filed⟩ := Drift.fileAll_rings j k d rs
  unfold Drift.filed
  rw [Drift.judge_state, if_pos ((received_iff j k).2 h), driftOf_mean full, mean_eq, filed]

end Filed

/-! ### The job's course (R14, R152) -/

section Course
variable {i : JobIx} {j : Job} {s : State}

theorem verdictCourse_cuts {v : Verdict} (h : j.mode ≠ .critical ∨ v = .pass) :
    verdictCourse i j v s = enterCutting i s := by
  unfold verdictCourse
  split
  · next critical => exact absurd critical (h.resolve_right nofun)
  · next critical => exact absurd critical (h.resolve_right nofun)
  · rfl

theorem verdictCourse_fails (critical : j.mode = .critical) :
    verdictCourse i j .fail s = takeSpoil i (decideOutcome i .spoiled (some .colourFail) s) := by
  unfold verdictCourse
  rw [critical]

theorem verdictCourse_voids (critical : j.mode = .critical) (cause : VoidCause) :
    verdictCourse i j (.void cause) s = takeSpoil i (decideOutcome i .spoiled (some .colourVoid) s) := by
  unfold verdictCourse
  rw [critical]

end Course

/-! ### The end of a strip (R151, R152, R154) -/

theorem CheckCounters.judged_eq (v : Verdict) (n : CheckCounters) :
    n.judged v =
      { n with
        passed := if v = .pass then min (n.passed + 1) 65535 else n.passed
        failed := if v = .fail then min (n.failed + 1) 65535 else n.failed
        voided := if v = .pass ∨ v = .fail then n.voided else min (n.voided + 1) 65535 } := by
  cases v with
  | pass => rfl
  | fail => rfl
  | void cause => simp [CheckCounters.judged, sat16, Config.max16]

/-- The checker after a verdict: its counters, the last strip record, and IDLE. -/
def Checker.ended (x : StripContext) (v : Verdict) (k : Checker) : Checker :=
  { k with
    state := .idle, ctx := none
    last := some { tag := x.tag, verdict := some v, stopped := false, evaluated := x.results.length,
                   failing := x.failing, mean := x.sum / x.results.length, results := x.results }
    counters := k.counters.judged v }

/-- The job with the verdict on its strip. -/
def Job.judged (v : Verdict) (j : Job) : Job :=
  { j with strip := j.strip.map fun y => { y with verdict := some v } }

section End
variable {s t : State} {x : StripContext} {j : Job} {v : Verdict} (live : s.liveJob x.slot = some j)
  (ht : t = notify .checker (changeJob x.slot (Job.judged v) (s.mapChk (Checker.ended x v))))
include live ht

/-- The event goes on with the record set, the checker IDLE and the job's strip judged. -/
theorem judged_live : t.liveJob x.slot = some (j.judged v) ∧ t.drift = s.drift := by
  subst ht
  rw [changeJob_put (s := s.mapChk (Checker.ended x v)) live]
  exact ⟨putJob_live, rfl⟩

theorem endStrip_eq (ctx : s.chk.ctx = some x) :
    endStrip v s = settleDrift s.drift (verdictCourse x.slot (j.judged v) v (fileVerdict (j.judged v) v x.results t)) := by
  obtain ⟨live', drift⟩ := judged_live live ht
  have course : endStrip v s = (match t.liveJob x.slot with
      | some k => settleDrift t.drift (verdictCourse x.slot k v (fileVerdict k v x.results t))
      | none => t) := by
    subst ht
    unfold endStrip
    rw [ctx]
    rfl
  rw [course, live', drift]

end End

/-- Settles O51: the search and the comparison by their outcome, the filing channel by channel, and the end of a strip by
`endStrip_eq`. -/
theorem readingsAreJudgedAndVerdictsActedOn : Obligations.ReadingsAreJudgedAndVerdictsActedOn := by
  unfold Obligations.ReadingsAreJudgedAndVerdictsActedOn
  refine ⟨⟨fun s x c ctx => ⟨fun u hu mark => ?_, fun u hu paper out => ?_, searchReading_locks ctx⟩,
      fun s u x c e p d r ctx he entry hd hr hu => ?_⟩,
    fun s => rfl, fun s => ⟨stopChecker_idle, fun x => stopChecker_stops⟩,
    fun j rs s => ⟨fun cause => fileVerdict_void j cause rs s, fun v judged => ?_⟩,
    fun s t x j v ctx live ht => ?_, fun i j v s => ⟨verdictCourse_cuts, ?_, ?_⟩⟩
  · have reading := searchReading_unlocked ctx (.inl mark) (if_pos mark).symm hu
    exact ⟨fun more => reading.trans (if_neg (by omega)), fun spent => reading.trans (if_pos spent)⟩
  · have reading := searchReading_unlocked ctx (.inr out) (if_neg (Int.not_lt.2 paper)).symm hu
    exact ⟨fun more => reading.trans (if_neg (by omega)), fun spent => reading.trans (if_pos spent)⟩
  · have result : s.chk.compare (x.order.getD x.patch 0) c = r := by
      rw [← he, Checker.compare_eq c entry, hr, hd]
    have counted : countResult x r s = u := by
      unfold countResult
      rw [hu, hr]
      simp only [decide_eq_true_eq]
    have compared := comparePatch_eq ctx result
    rw [counted, hr] at compared
    simp only [decide_eq_true_eq] at compared
    refine ⟨fun gross twice => compared.trans (if_pos ⟨gross, twice⟩), fun locked => ?_⟩
    rw [if_neg locked] at compared
    refine ⟨fun more => compared.trans (if_neg (by omega)), fun last => ?_⟩
    rw [if_pos last] at compared
    refine ⟨fun few close => ?_, fun failing => ?_⟩
    · rw [compared, StripProfile.judge_pass few close]
    · rw [compared, StripProfile.judge_fail failing]
  · obtain ⟨warn, out, lots⟩ := Drift.filed_frame (j := j) (k := s.ink) (rs := rs) (d := s.drift)
    refine ⟨_, fileVerdict_judged judged, warn, out, lots, fun c values sameLot gate same other => ?_⟩
    have values_eq : values = filedValues j s.ink rs c := by
      have gate : sameLot ↔ j.sameLot s.ink c = true := gate.trans Job.sameLot_iff.symm
      unfold filedValues
      split
      · next fits => exact same (gate.2 fits)
      · next differs => exact other (mt gate.1 differs)
    subst values_eq
    exact ⟨Drift.filed_ring, Drift.filed_state_kept, fun mean => Drift.filed_state⟩
  · have judged : t = notify .checker (changeJob x.slot (Job.judged v) (s.mapChk (Checker.ended x v))) := by
      unfold Checker.ended
      simp only [CheckCounters.judged_eq]
      exact ht
    obtain ⟨live', -⟩ := judged_live live judged
    exact ⟨j.judged v, live', rfl, endStrip_eq live judged ctx⟩
  · rintro critical rfl
    exact verdictCourse_fails critical
  · rintro cause critical rfl
    exact verdictCourse_voids critical cause

end Sys2Proof.Machine
end

section
/-!
PROOFS. SET_DRIFT_LIMITS and RECALIBRATED by their owners' checks (R158, R160), and the settling of the COLOUR_OUT holds:
when an event settles them, and what becomes of each job (R161). With them O49.
-/

-- One theorem after another: waiting proofs would each hold a thread.
set_option Elab.async false

namespace Sys2Proof.Machine

/-! ### The states worked out again (R157) -/

theorem driftOf_eq (warn out : Nat) (ring : List Nat) :
    driftOf warn out ring =
      if ring = [] then .unverified
      else if ring.sum / ring.length < warn then .verified
      else if ring.sum / ring.length < out then .warn else .out := by
  by_cases h : ring = []
  · rw [if_pos h, h]
    rfl
  · rw [if_neg h, driftOf_mean h]

/-- Every channel judged: each state is that of its ring under the limits. -/
theorem Drift.judge_all (d : Drift) :
    (d.judge fun _ => true) =
      { d with states := Vector.ofFn fun c : Chan =>
          if d.rings[c] = [] then .unverified
          else if d.rings[c].sum / d.rings[c].length < d.warn then .verified
          else if d.rings[c].sum / d.rings[c].length < d.out then .warn else .out } := by
  simp only [Drift.judge, if_true, driftOf_eq]

/-! ### SET_DRIFT_LIMITS (R158) -/

section Limits
variable {warn out : U16} {s : State}

theorem driftLimitsOwner_range
    (h : warn.toNat < 10 ∨ 5000 < warn.toNat ∨ out.toNat ≤ warn.toNat ∨ 10000 < out.toNat) :
    driftLimitsOwner warn out s = (s, [0x21]) :=
  if_neg fun ⟨⟨_, _⟩, _, _⟩ => by omega

theorem driftLimitsOwner_replaced (low : 10 ≤ warn.toNat) (high : warn.toNat ≤ 5000) (above : warn.toNat < out.toNat)
    (most : out.toNat ≤ 10000) :
    driftLimitsOwner warn out s =
      (changeDrift (fun d => ({ d with warn := warn.toNat, out := out.toNat } : Drift).judge fun _ => true) s, [0x00]) :=
  if_pos ⟨⟨low, high⟩, above, most⟩

end Limits

/-! ### RECALIBRATED (R160) -/

section Recalibrated
variable {ch : Byte} {c : Chan} {s : State}

theorem recalibratedOwner_range (h : 9 < ch.toNat) : recalibratedOwner ch s = (s, [0x21]) := by
  unfold recalibratedOwner
  rw [chanOf_none h]
  rfl

variable (named : c.val = ch.toNat)
include named

theorem recalibratedOwner_onPath (onPath : s.stripOnPath = true) : recalibratedOwner ch s = (s, [0x20]) := by
  unfold recalibratedOwner
  rw [chanOf_eq_some.2 named]
  exact if_pos onPath

theorem recalibratedOwner_cleared (offPath : s.stripOnPath = false) :
    recalibratedOwner ch s = (changeDrift (Drift.clear c) s, [0x00, BitVec.ofNat 8 s.drift.states[c].code]) := by
  unfold recalibratedOwner
  rw [chanOf_eq_some.2 named]
  exact if_neg (Bool.eq_false_iff.1 offPath)

end Recalibrated

/-! ### When an event settles the holds (R161) -/

/-- The same set in OUT: no channel has entered or left OUT between the two. -/
theorem Drift.outSet_eq_iff {d e : Drift} :
    d.outSet = e.outSet ↔ ∀ c : Chan, d.states[c] = .out ↔ e.states[c] = .out := by
  simp only [Drift.outSet, ← Vector.toList_map, Vector.toList_inj, Vector.ext_iff, Vector.getElem_map, decide_eq_decide]
  exact ⟨fun same c => same c c.isLt, fun same i low => same ⟨i, low⟩⟩

section Settling
variable {before : Drift} {s : State}

theorem settleDrift_same (h : ∀ c : Chan, s.drift.states[c] = .out ↔ before.states[c] = .out) :
    settleDrift before s = s :=
  if_pos (Drift.outSet_eq_iff.2 h)

theorem settleDrift_settles (h : ∃ c : Chan, ¬ (s.drift.states[c] = .out ↔ before.states[c] = .out)) :
    settleDrift before s = startEval (s.jobs.order.foldl settleHold s) :=
  if_neg fun same => let ⟨c, moved⟩ := h; moved (Drift.outSet_eq_iff.1 same c)

end Settling

/-! ### One job of the settling (R161) -/

section Hold
variable {i : JobIx} {j : Job} {s : State} (live : s.liveJob i = some j)
include live

/-- Two changes of a job that agree on the job in the slot are the same change of the state. -/
theorem changeJob_congr {f g : Job → Job} (h : f j = g j) : changeJob i f s = changeJob i g s := by
  rw [changeJob_put live, changeJob_put live, h]

theorem settleHold_unheld (h : j.state ≠ .pending ∨ j.mode ≠ .critical) : settleHold s i = s := by
  unfold settleHold
  rw [live]
  refine if_neg fun ⟨pending, critical, _⟩ => ?_
  rcases h with h | h
  · exact h pending
  · exact h critical

/-- A hold that already says whether a channel of the job is OUT stays. -/
theorem settleHold_settled (h : j.holds.colourOut = s.jobOut j) : settleHold s i = s := by
  unfold settleHold
  rw [live]
  exact if_neg fun ⟨_, _, differs⟩ => differs h

/-- For a PENDING CRITICAL job a hold that does not say whether a channel of the job is OUT is made to say it. -/
theorem settleHold_changes {out : Bool} (pending : j.state = .pending) (critical : j.mode = .critical)
    (isOut : s.jobOut j = out) (held : j.holds.colourOut = !out) :
    settleHold s i = changeJob i (fun j => { j with holds := { j.holds with colourOut := out } }) s := by
  have differs : j.holds.colourOut ≠ s.jobOut j := by
    rw [held, isOut]
    exact Bool.not_ne_self out
  have toggled : settleHold s i =
      changeJob i (fun j => { j with holds := { j.holds with colourOut := !j.holds.colourOut } }) s := by
    unfold settleHold
    rw [live]
    exact if_pos ⟨pending, critical, differs⟩
  rw [toggled]
  refine changeJob_congr live ?_
  rw [held, Bool.not_not]

end Hold

/-- Settles O49: the two owners by their checks, `settleDrift` by the channels that enter or leave OUT, and `settleHold` by
whether the job holds COLOUR_OUT while a channel of its estimate is OUT. -/
theorem driftLimitsAndClearingsSettleTheHolds : Obligations.DriftLimitsAndClearingsSettleTheHolds := by
  unfold Obligations.DriftLimitsAndClearingsSettleTheHolds
  refine ⟨fun ft ch warn out s taken => ⟨fun range => ?_, fun low high above most => ?_, fun above => ?_,
      fun c named => ⟨fun onPath => ?_, fun offPath => ?_⟩⟩,
    fun f s => ⟨settleDrift_same (s := s.mapDrift f), settleDrift_settles (s := s.mapDrift f)⟩,
    fun before s => ⟨settleDrift_same, settleDrift_settles⟩,
    fun i j s live => ⟨settleHold_unheld live, fun pending critical => ⟨fun out => ?_, fun clear => ?_⟩⟩⟩
  · exact exec_reply taken rfl (driftLimitsOwner_range range) rfl
  · have owner := driftLimitsOwner_replaced (s := s) low high above most
    simp only [Drift.judge_all] at owner
    exact exec_reply taken rfl owner rfl
  · exact exec_reply taken rfl (recalibratedOwner_range above) rfl
  · exact exec_reply taken rfl (recalibratedOwner_onPath named onPath) rfl
  · exact exec_reply taken rfl (recalibratedOwner_cleared named offPath) rfl
  · have isOut : s.jobOut j = true := State.jobOut_iff.2 out
    exact ⟨fun held => settleHold_settled live (held.trans isOut.symm), settleHold_changes live pending critical isOut⟩
  · have notOut : s.jobOut j = false := Bool.eq_false_iff.2 fun isOut =>
      let ⟨p, mem, out⟩ := State.jobOut_iff.1 isOut
      clear p mem out
    exact ⟨fun unheld => settleHold_settled live (unheld.trans notOut.symm),
      settleHold_changes live pending critical notOut⟩

end Sys2Proof.Machine
end

section
/-!
PROOFS. LOAD_PRICES by its owner's checks: what a list in range is (R166), the slot that it takes, and the cost unit with
the list current (R168). With it O52.
-/

-- One theorem after another: waiting proofs would each hold a thread.
set_option Elab.async false

namespace Sys2Proof.Machine

/-! ### What a price list in range is (R166) -/

/-- Every price is within its range (R166). -/
def PriceArgs.InRange (a : PriceArgs) : Prop :=
  (∀ c : Fin 10, a.ink[c].toNat ≤ 1000000) ∧ (∀ m : Fin 8, a.media[m].toNat ≤ 10000000) ∧ a.cut.toNat ≤ 1000000

/-- The list that a request carries. -/
def PriceArgs.prices (a : PriceArgs) : Prices :=
  { ink := a.ink.map (·.toNat), media := a.media.map (·.toNat), cut := a.cut.toNat }

/-- The words of a vector are within a bound exactly where each place is. -/
theorem words_le_iff {n : Nat} (v : Vector U32 n) (bound : Nat) :
    (∀ x ∈ (v.map (·.toNat)).toList, x ≤ bound) ↔ ∀ i : Fin n, v[i].toNat ≤ bound := by
  simp only [Vector.mem_toList_iff, Vector.forall_mem_map]
  exact ⟨fun all i => all _ (Vector.getElem_mem _), fun all x mem =>
    let ⟨i, low, eq⟩ := Vector.getElem_of_mem mem; eq ▸ all ⟨i, low⟩⟩

theorem PriceArgs.read_prices {a : PriceArgs} (h : PriceArgs.InRange a) :
    PriceArgs.read a = some (PriceArgs.prices a) :=
  let ⟨ink, media, cut⟩ := h
  if_pos ⟨(words_le_iff _ _).2 ink, (words_le_iff _ _).2 media, cut⟩

theorem PriceArgs.read_none {a : PriceArgs} (h : ¬ PriceArgs.InRange a) : PriceArgs.read a = none :=
  if_neg fun ⟨ink, media, cut⟩ => h ⟨(words_le_iff _ _).1 ink, (words_le_iff _ _).1 media, cut⟩

/-- A list with a price above its range is not in range. -/
theorem PriceArgs.not_inRange {a : PriceArgs}
    (h : (∃ c : Fin 10, 1000000 < a.ink[c].toNat) ∨ (∃ m : Fin 8, 10000000 < a.media[m].toNat) ∨ 1000000 < a.cut.toNat) :
    ¬ PriceArgs.InRange a := by
  rintro ⟨ink, media, cut⟩
  rcases h with ⟨c, above⟩ | ⟨m, above⟩ | above
  · exact absurd (ink c) (Nat.not_le.2 above)
  · exact absurd (media m) (Nat.not_le.2 above)
  · exact absurd cut (Nat.not_le.2 above)

/-! ### The slot that a list takes (R168) -/

section Slot
variable {k : Cost} {p : PriceIx}

theorem Cost.openSlot_none (h : ∀ p : PriceIx, k.current = some p ∨ k.slots[p].refs ≠ 0) : k.openSlot = none :=
  List.find?_eq_none.2 fun p _ => by simpa [imp_iff_not_or] using h p

theorem Cost.openSlot_lowest (other : k.current ≠ some p) (unnamed : k.slots[p].refs = 0)
    (low : ∀ q : PriceIx, q < p → k.current = some q ∨ k.slots[q].refs ≠ 0) : k.openSlot = some p :=
  find_finRange_lowest (by simpa using ⟨other, unnamed⟩) fun q lt => by simpa [imp_iff_not_or] using low q lt

/-- The list becomes current in its slot with one reference; `slots` are the slots without the reference of the former
current slot, if there is one. -/
theorem Cost.load_eq {l : Prices} {slots : Vector PriceSlot 4} (first : k.current = none → slots = k.slots)
    (former : ∀ q, k.current = some q →
      slots = k.slots.set q { k.slots[q] with refs := k.slots[q].refs - 1 }) :
    Cost.load p l k =
      { k with
        slots := slots.set p { loaded := some (nextGeneration k.genCounter, l), refs := 1 }
        current := some p
        genCounter := nextGeneration k.genCounter } := by
  unfold Cost.load
  cases h : k.current with
  | none => rw [first h]
  | some q =>
    rw [former q h]
    rfl

end Slot

/-! ### LOAD_PRICES (R168) -/

/-- Changes that agree on the cost unit as it stands are the same change of the state. -/
theorem State.mapCost_congr {s : State} {f g : Cost → Cost} (h : f s.cost = g s.cost) : s.mapCost f = s.mapCost g :=
  congrArg (fun k => { s with cost := k }) h

section Load
variable {a : PriceArgs} {s : State}

theorem loadPricesOwner_range (h : ¬ PriceArgs.InRange a) : loadPricesOwner a s = (s, [0x21]) := by
  unfold loadPricesOwner
  rw [PriceArgs.read_none h]
  rfl

variable (range : PriceArgs.InRange a)
include range

theorem loadPricesOwner_full (h : s.cost.openSlot = none) : loadPricesOwner a s = (s, [0x23]) := by
  unfold loadPricesOwner
  rw [PriceArgs.read_prices range]
  dsimp only
  rw [h]
  rfl

theorem loadPricesOwner_loaded {p : PriceIx} {f : Cost → Cost} (h : s.cost.openSlot = some p)
    (load : Cost.load p (PriceArgs.prices a) s.cost = f s.cost) :
    loadPricesOwner a s = (s.mapCost f, 0x00 :: (u8 p ++ u32 (nextGeneration s.cost.genCounter))) := by
  unfold loadPricesOwner
  rw [PriceArgs.read_prices range]
  dsimp only
  rw [h, ← State.mapCost_congr load]
  rfl

end Load

/-- Settles O52: the range, then the open slot, the lowest of which takes the list (`Cost.load_eq`). -/
theorem loadPricesFillsTheLowestOpenSlot : Obligations.LoadPricesFillsTheLowestOpenSlot := by
  unfold Obligations.LoadPricesFillsTheLowestOpenSlot
  intro ft a s taken
  refine ⟨fun above => ?_, fun ink media cut =>
    ⟨fun full => ?_, fun p gen slots other unnamed low gen_eq first former => ?_⟩⟩
  · exact exec_reply taken rfl (loadPricesOwner_range (PriceArgs.not_inRange above)) rfl
  · exact exec_reply taken rfl (loadPricesOwner_full ⟨ink, media, cut⟩ (Cost.openSlot_none full)) rfl
  · obtain rfl : gen = nextGeneration s.cost.genCounter := gen_eq
    have lowest := Cost.openSlot_lowest other unnamed low
    exact exec_reply taken rfl (loadPricesOwner_loaded ⟨ink, media, cut⟩ lowest (Cost.load_eq first former)) rfl

end Sys2Proof.Machine
end

section
/-!
PROOFS. The cost log's operations, once: a record that enters (R174), a built record (R172), the first pending record
(R172); with them COST_TAKE (R173). With it O53.
-/

-- One theorem after another: waiting proofs would each hold a thread.
set_option Elab.async false

namespace Sys2Proof.Machine

/-! ### A record enters the log (R174) -/

section LogRecord
variable (r : CostRecord) (s : State)

theorem logRecord_eq :
    logRecord r s =
      if s.cost.critical ≤ s.cost.log.length + 1 then notify .costLog (s.mapCost fun k => { k with log := k.log ++ [r] })
      else s.mapCost fun k => { k with log := k.log ++ [r] } := by
  unfold logRecord
  simp only [State.mapCost_cost, List.length_append, List.length_singleton]

@[simp] theorem logRecord_cost : (logRecord r s).cost = { s.cost with log := s.cost.log ++ [r] } := by
  rw [logRecord_eq]
  split <;> rfl

@[simp] theorem logRecord_jobs : (logRecord r s).jobs = s.jobs := by
  rw [logRecord_eq]
  split <;> rfl

end LogRecord

/-! ### The live job with a tag is read from the job table alone -/

@[simp] theorem jobByTag_mapCost (f : Cost → Cost) (s : State) (tag : Nat) :
    (s.mapCost f).jobByTag tag = s.jobByTag tag := rfl

@[simp] theorem jobByTag_logRecord (r : CostRecord) (s : State) (tag : Nat) :
    (logRecord r s).jobByTag tag = s.jobByTag tag := by
  unfold State.jobByTag State.liveJobs State.liveJob
  rw [logRecord_jobs]

/-! ### The cost unit when a job changes or departs -/

@[simp] theorem setJob_cost (i : JobIx) (f : Job → Job) (s : State) : (setJob i f s).cost = s.cost := by
  unfold setJob
  split <;> rfl

@[simp] theorem changeJob_cost (i : JobIx) (f : Job → Job) (s : State) : (changeJob i f s).cost = s.cost :=
  setJob_cost i f s

/-- A departure drops the job's price reference and leaves the records. -/
theorem departIfReady_records (i : JobIx) (s : State) :
    (departIfReady i s).cost.log = s.cost.log ∧ (departIfReady i s).cost.waiting = s.cost.waiting := by
  unfold departIfReady
  split
  · split <;> exact ⟨rfl, rfl⟩
  · exact ⟨rfl, rfl⟩

/-! ### The first pending record moves in (R172) -/

theorem enterWaiting_none {s : State} (h : s.cost.waiting = []) : enterWaiting s = s := by
  unfold enterWaiting
  rw [h]

section EnterWaiting
variable {s : State} {w : CostRecord} {ws : List CostRecord} (waiting : s.cost.waiting = w :: ws)
include waiting

theorem enterWaiting_unnamed (gone : s.jobByTag w.tag = none) :
    enterWaiting s = logRecord w (s.mapCost fun k => { k with waiting := ws }) := by
  unfold enterWaiting
  rw [waiting]
  dsimp only
  rw [jobByTag_logRecord, jobByTag_mapCost, gone]

theorem enterWaiting_named {i : JobIx} {j : Job} (named : s.jobByTag w.tag = some (i, j)) :
    enterWaiting s =
      departIfReady i (changeJob i (fun j => { j with costIn := true, flags := { j.flags with costPending := false } })
        (logRecord w (s.mapCost fun k => { k with waiting := ws }))) := by
  unfold enterWaiting
  rw [waiting]
  dsimp only
  rw [jobByTag_logRecord, jobByTag_mapCost, named]

/-- Whatever becomes of the job, the record is the last of the log, and the others wait on. -/
theorem enterWaiting_records :
    (enterWaiting s).cost.log = s.cost.log ++ [w] ∧ (enterWaiting s).cost.waiting = ws := by
  cases named : s.jobByTag w.tag with
  | none =>
    rw [enterWaiting_unnamed waiting named, logRecord_cost]
    exact ⟨rfl, rfl⟩
  | some p =>
    rw [enterWaiting_named waiting named]
    obtain ⟨log, others⟩ := departIfReady_records p.1
      (changeJob p.1 (fun j => { j with costIn := true, flags := { j.flags with costPending := false } })
        (logRecord w (s.mapCost fun k => { k with waiting := ws })))
    rw [log, others, changeJob_cost, logRecord_cost]
    exact ⟨rfl, rfl⟩

end EnterWaiting

/-! ### COST_TAKE (R173) -/

section CostTake
variable {s : State}

theorem costTakeOwner_empty (h : s.cost.log = []) : costTakeOwner s = (s, [0x01]) := by
  unfold costTakeOwner
  rw [h]
  rfl

variable {r : CostRecord} {rest : List CostRecord} (log : s.cost.log = r :: rest)
include log

theorem costTakeOwner_alone (waiting : s.cost.waiting = []) :
    costTakeOwner s =
      (s.mapCost fun k => { k with log := rest }, 0x00 :: (u8 rest.length ++ u8 0 ++ costRecordBytes r)) := by
  unfold costTakeOwner
  rw [log]
  dsimp only
  rw [enterWaiting_none (s := s.mapCost fun k => { k with log := rest }) waiting]
  simp only [State.mapCost_cost, waiting]
  rfl

/-- The counts of the reply are those after the first pending record has moved in. -/
theorem costTakeOwner_refilled {w : CostRecord} {ws : List CostRecord} (waiting : s.cost.waiting = w :: ws) :
    costTakeOwner s =
      (enterWaiting (s.mapCost fun k => { k with log := rest }),
        0x00 :: (u8 (rest.length + 1) ++ u8 ws.length ++ costRecordBytes r)) := by
  obtain ⟨entered, others⟩ := enterWaiting_records (s := s.mapCost fun k => { k with log := rest }) waiting
  unfold costTakeOwner
  rw [log]
  dsimp only
  rw [entered, others, List.length_append]
  rfl

end CostTake

/-- Settles O53: the front record leaves, and what `enterWaiting` does with the first pending record by whether a live job
has its tag; `logRecord_eq` tells when the notice is queued. -/
theorem costTakeReturnsTheFrontRecord : Obligations.CostTakeReturnsTheFrontRecord := by
  unfold Obligations.CostTakeReturnsTheFrontRecord
  intro ft s taken
  refine ⟨fun empty => exec_reply taken rfl (costTakeOwner_empty empty) rfl, fun r rest log =>
    ⟨fun alone => exec_reply taken rfl (costTakeOwner_alone log alone) rfl, fun w ws t waiting ht => ?_⟩⟩
  have entered := logRecord_eq w ((s.mapCost fun k => { k with log := rest }).mapCost fun k => { k with waiting := ws })
  have owner := costTakeOwner_refilled log waiting
  subst ht
  refine ⟨_, rfl, fun gone => ?_, fun i j named => ?_⟩
  · rw [enterWaiting_unnamed (s := s.mapCost fun k => { k with log := rest }) waiting gone, entered] at owner
    exact exec_reply taken rfl owner rfl
  · rw [enterWaiting_named (s := s.mapCost fun k => { k with log := rest }) waiting named, entered] at owner
    exact exec_reply taken rfl owner rfl

end Sys2Proof.Machine
end

section
/-!
PROOFS. The cost record of a job at the prices of its slot (R170, R171), where a built record goes (R172), and the owners
of SET_COST_LEVEL (R174) and OVERHEAD_READ (R177). With it O54.
-/

-- One theorem after another: waiting proofs would each hold a thread.
set_option Elab.async false

namespace Sys2Proof.Machine

/-! ### The cost record (R170, R171) -/

section Record
variable {s : State} {j : Job} {piece gen : Nat} {l : Prices}

theorem costRecord_unnumbered (unnumbered : j.edition = none) :
    (costRecord s j piece).edition = 0 ∧ (costRecord s j piece).copy = 0 := by
  unfold costRecord
  rw [unnumbered]
  exact ⟨rfl, rfl⟩

theorem costRecord_numbered {x : JobEdition} (numbered : j.edition = some x) :
    (costRecord s j piece).edition = x.id ∧ (costRecord s j piece).copy = x.copy := by
  unfold costRecord
  rw [numbered]
  exact ⟨rfl, rfl⟩

variable (loaded : s.cost.slots[j.priceSlot].loaded = some (gen, l))
include loaded

theorem pricesOf_loaded : s.cost.pricesOf j.priceSlot = l := by
  unfold Cost.pricesOf
  rw [loaded]
  rfl

theorem costRecord_priceGen : (costRecord s j piece).priceGen = gen := by
  change s.cost.generation j.priceSlot = gen
  unfold Cost.generation
  rw [loaded]
  rfl

theorem costRecord_inkCost :
    (costRecord s j piece).inkCost = min ((j.inkList.map fun p => p.2 * l.ink[p.1] / 10000000).sum) 4294967295 := by
  unfold costRecord
  rw [pricesOf_loaded loaded]
  rfl

theorem costRecord_mediaCost :
    (costRecord s j piece).mediaCost = min (piece * l.media[s.feed.roll.mediaType] / 100000) 4294967295 := by
  unfold costRecord
  rw [pricesOf_loaded loaded]
  rfl

theorem costRecord_cutCost : (costRecord s j piece).cutCost = min (j.cutsDone * l.cut) 4294967295 := by
  unfold costRecord
  rw [pricesOf_loaded loaded]
  rfl

end Record

/-! ### Where a built record goes (R172) -/

section FileRecord
variable {i : JobIx} {r : CostRecord} {s : State}

theorem fileRecord_logged (room : s.cost.log.length < 32) (alone : s.cost.waiting = []) :
    fileRecord i r s = setJob i (fun j => { j with costIn := true }) (logRecord r s) := if_pos ⟨room, alone⟩

theorem fileRecord_waits (h : 32 ≤ s.cost.log.length ∨ s.cost.waiting ≠ []) :
    fileRecord i r s = changeJob i (fun j => { j with flags := { j.flags with costPending := true } })
      (s.mapCost fun k => { k with waiting := k.waiting ++ [r] }) :=
  if_neg fun ⟨room, alone⟩ => h.elim (Nat.not_le.2 room) (absurd alone)

end FileRecord

/-! ### SET_COST_LEVEL (R174) -/

section Level
variable {level : Byte} {s : State}

theorem costLevelOwner_range (h : level.toNat < 1 ∨ 32 < level.toNat) : costLevelOwner level s = (s, [0x21]) :=
  if_neg fun ⟨low, high⟩ => by omega

variable (low : 1 ≤ level.toNat) (high : level.toNat ≤ 32)
include low high

theorem costLevelOwner_above (below : s.cost.log.length < level.toNat) :
    costLevelOwner level s =
      (s.mapCost fun k => { k with critical := level.toNat },
        0x00 :: (u8 s.cost.log.length ++ u8 s.cost.waiting.length)) := by
  unfold costLevelOwner
  rw [if_pos ⟨low, high⟩]
  dsimp only
  split
  · next reached => exact absurd below (Nat.not_lt.2 reached)
  · rfl

/-- The notice of the log is queued where the log has reached the new level. -/
theorem costLevelOwner_reached (reached : level.toNat ≤ s.cost.log.length) :
    costLevelOwner level s =
      (notify .costLog (s.mapCost fun k => { k with critical := level.toNat }),
        0x00 :: (u8 s.cost.log.length ++ u8 s.cost.waiting.length)) := by
  unfold costLevelOwner
  rw [if_pos ⟨low, high⟩]
  dsimp only
  split
  · rfl
  · next below => exact absurd reached below

end Level

/-! ### OVERHEAD_READ (R177) -/

section OverheadRead
variable {s : State}

theorem overheadOwner_range {clear : Byte} (h : 1 < clear.toNat) : overheadOwner clear s = (s, [0x21]) := by
  unfold overheadOwner
  rw [yesNoOf_eq, if_neg (Nat.not_le.2 h)]
  rfl

theorem overheadOwner_read : overheadOwner 0 s = (s, 0x00 :: overheadReport s.cost) := rfl

theorem overheadOwner_cleared :
    overheadOwner 1 s = (s.mapCost fun k => { k with overhead := Overhead.zero }, 0x00 :: overheadReport s.cost) := rfl

end OverheadRead

/-- Settles O54: the record's quantities and costs, where the record goes by the room in the log and the pending list, and
the two owners by their checks. -/
theorem costRecordsLevelsAndOverhead : Obligations.CostRecordsLevelsAndOverhead := by
  unfold Obligations.CostRecordsLevelsAndOverhead
  refine ⟨⟨fun s j piece gen l r loaded hr => ?_, fun i r s => ⟨fun room alone t ht => ?_, fileRecord_waits⟩⟩,
    fun ft b s taken => ⟨fun range => ?_, fun low high t ht => ?_, fun range => ?_, ?_, ?_⟩⟩
  · subst hr
    exact ⟨⟨rfl, rfl, rfl, rfl, costRecord_priceGen loaded, rfl, rfl, rfl, rfl, rfl, rfl⟩, rfl, costRecord_unnumbered,
      fun _ => costRecord_numbered, costRecord_inkCost loaded, costRecord_mediaCost loaded, costRecord_cutCost loaded, rfl⟩
  · rw [fileRecord_logged room alone, logRecord_eq, ← ht]
    exact ⟨fun below => by rw [if_neg (Nat.not_le.2 below)], fun reached => by rw [if_pos reached]⟩
  · exact exec_reply taken rfl (costLevelOwner_range range) rfl
  · subst ht
    exact ⟨fun below => exec_reply taken rfl (costLevelOwner_above low high below) rfl,
      fun reached => exec_reply taken rfl (costLevelOwner_reached low high reached) rfl⟩
  · exact exec_reply taken rfl (overheadOwner_range range) rfl
  · exact exec_reply taken rfl overheadOwner_read rfl
  · exact exec_reply taken rfl overheadOwner_cleared rfl

end Sys2Proof.Machine
end

section
/-!
PROOFS. The host link's law along a step, and what the link makes of a request: executed, refused during a RESTART,
answered LINK_BUSY or discarded (R182, R189). With them O56 and O6.
-/

-- One theorem after another: waiting proofs would each hold a thread.
set_option Elab.async false

namespace Sys2Proof.Machine

/-- Settles O56: every command keeps the law of the host link and the counters of the other two, and so does the passing
of a millisecond (`step_lawful`). -/
theorem stepKeepsTheHostLinkLaw : Obligations.StepKeepsTheHostLinkLaw := by
  unfold Obligations.StepKeepsTheHostLinkLaw
  intro s t h
  obtain ⟨host, -, -, -, -, -, eng, chk, -⟩ := step_lawful h
  exact ⟨host, eng, chk⟩

/-! ### The host link's fields -/

section Fields
variable {s : State}

/-- Two changes of the host link that agree on the link as it stands are the same change of the state. -/
theorem State.mapHost_congr {f g : HostLink → HostLink} (h : f s.host = g s.host) : s.mapHost f = s.mapHost g :=
  congrArg (fun x => { s with host := x }) h

/-- A change of the host link that leaves the link as it stands changes nothing. -/
theorem State.mapHost_unchanged {f : HostLink → HostLink} (h : f s.host = s.host) : s.mapHost f = s :=
  State.mapHost_congr (g := id) h

end Fields

/-! ### The kind of a reply (R181) -/

/-- Only kinds below 0x80 have a reply kind of their own. -/
theorem replyKind_eq (kind : Byte) : replyKind kind = if kind.toNat < 128 then kind + 0x80 else 0xFF := by
  have half : kind.msb = decide (128 ≤ kind.toNat) := BitVec.msb_eq_decide kind
  unfold replyKind
  by_cases low : kind.toNat < 128
  · rw [half, if_pos low, if_neg (by simpa using low)]
  · rw [half, if_neg low, if_pos (by simpa using low)]

theorem replyKind_request {i : Instr} {kind ft : Byte} {body : Bytes} (h : requestBody i = some (kind, ft, body)) :
    replyKind kind = kind + 0x80 := by
  cases i <;> cases h <;> rfl

/-! ### The one-request discipline (R182, R189) -/

section Discipline
variable {kind ft : Byte} {owner : State → Answer} {s : State}

/-- During a RESTART a request is refused, whatever its owner would do (R189). -/
theorem requestEvent_restarting (free : s.host.reply = none) (restart : s.host.restart ≠ .none) :
    requestEvent kind ft owner s = answered (replyKind kind) ft [0x20] s := by
  unfold requestEvent serve answered
  rw [free]
  exact congrArg giveLine (if_neg restart)

/-- Behind a waiting reply a request is answered LINK_BUSY and counted (R182). -/
theorem requestEvent_busy (waits : s.host.reply.isSome = true) (free : s.host.busy = none) :
    requestEvent kind ft owner s = giveLine (s.mapHost fun h =>
      { h with busy := some { kind := replyKind kind, tag := ft, body := [0x11] },
               busyCount := min (h.busyCount + 1) 65535 }) := by
  obtain ⟨r, reply⟩ := Option.isSome_iff_exists.1 waits
  unfold requestEvent serve
  rw [reply, free]
  rfl

/-- Behind a waiting reply and a waiting busy answer a request is discarded and counted (R182). -/
theorem requestEvent_discarded (waits : s.host.reply.isSome = true) (taken : s.host.busy.isSome = true) :
    requestEvent kind ft owner s =
      giveLine (s.mapHost fun h => { h with busyCount := min (h.busyCount + 1) 65535 }) := by
  obtain ⟨r, reply⟩ := Option.isSome_iff_exists.1 waits
  obtain ⟨q, busy⟩ := Option.isSome_iff_exists.1 taken
  unfold requestEvent serve
  rw [reply, busy]
  rfl

end Discipline

/-- Settles O6: a request command is the event of its owner, by what the two outbound slots hold. -/
theorem requestsMeetTheOneRequestDiscipline : Obligations.RequestsMeetTheOneRequestDiscipline := by
  unfold Obligations.RequestsMeetTheOneRequestDiscipline
  intro i k ft b s body
  rw [exec_request body, ← replyKind_request body]
  exact ⟨fun taken => congrArg Host.Outcome.next (requestEvent_taken taken),
    fun free restart => congrArg Host.Outcome.next (requestEvent_restarting free restart),
    fun waits free => congrArg Host.Outcome.next (requestEvent_busy waits free),
    fun waits taken => congrArg Host.Outcome.next (requestEvent_discarded waits taken)⟩

end Sys2Proof.Machine
end

section
/-!
PROOFS. The reports of the host link and of the owners, and COUNTERS (R187, R188). With them O11 and O12.
-/

-- One theorem after another: waiting proofs would each hold a thread.
set_option Elab.async false

namespace Sys2Proof.Machine

/-! ### Reports (R183, R188) -/

/-- A request whose owner only reports is answered OK with the report, and leaves the state. -/
theorem exec_report {i : Instr} {kind ft reply : Byte} {body content : Bytes} {s : State} (h : s.takesRequest)
    (b : requestBody i = some (kind, ft, body)) (owner : ownerOf i s = report content s) (r : replyKind kind = reply) :
    exec i s = .next (answered reply ft (0x00 :: content) s) := exec_reply h b owner r

/-- IDENTIFY's content: the three codes, and the rate of the straps as four bytes (R179, R188, R191). -/
theorem identifyReport_eq (h : HostLink) :
    identifyReport h = [0x5D, 0x0E, 0x47, 0x70, 0x01] ++
      (if h.rate1 = false ∧ h.rate0 = false then [0x00, 0xC2, 0x01, 0x00]
       else if h.rate1 = false then [0x00, 0x84, 0x03, 0x00]
       else if h.rate0 = false then [0x00, 0x08, 0x07, 0x00] else [0x00, 0x10, 0x0E, 0x00]) := by
  unfold identifyReport
  cases h.rate1 <;> cases h.rate0 <;> rfl

/-- Settles O11: each owner is a report of its own content; IDENTIFY's bytes by the straps. -/
theorem reportsAnswerTheirSnapshotAndChangeNothing : Obligations.ReportsAnswerTheirSnapshotAndChangeNothing := by
  unfold Obligations.ReportsAnswerTheirSnapshotAndChangeNothing
  refine ⟨fun ft s taken => ?_, fun ft s taken => ?_⟩
  · exact ⟨exec_report taken rfl rfl rfl, exec_report taken rfl rfl rfl, exec_report taken rfl rfl rfl,
      exec_report taken rfl rfl rfl, exec_report taken rfl rfl rfl, exec_report taken rfl rfl rfl,
      exec_report taken rfl rfl rfl, exec_report taken rfl rfl rfl, exec_report taken rfl rfl rfl,
      exec_report taken rfl rfl rfl⟩
  · have identified : exec (.identify ft) s = .next (answered 0x81 ft (0x00 :: identifyReport s.host) s) :=
      exec_report taken rfl rfl rfl
    rw [identifyReport_eq] at identified
    exact identified

/-! ### COUNTERS (R187) -/

/-- Other groups than 0 to 2 and clear bytes other than 0 and 1 are out of range (R187, R193). -/
theorem countersOwner_range {group clear : Byte} {s : State} (h : 2 < group.toNat ∨ 1 < clear.toNat) :
    countersOwner group clear s = (s, [0x21]) := by
  unfold countersOwner
  rw [yesNoOf_eq]
  by_cases flag : clear.toNat ≤ 1
  · have beyond : 2 < group.toNat := by omega
    have other : ∀ g : Byte, g.toNat ≤ 2 → group ≠ g := fun g small e => by subst e; omega
    rw [if_pos flag]
    dsimp only
    rw [if_neg (other 0 (by decide)), if_neg (other 1 (by decide)), if_neg (other 2 (by decide))]
    rfl
  · rw [if_neg flag]
    rfl

/-- Settles O12: the owner's answer for each group, kept or cleared, and the range refusal. -/
theorem countersReadAndClearTheirGroup : Obligations.CountersReadAndClearTheirGroup := by
  unfold Obligations.CountersReadAndClearTheirGroup
  intro ft group clear s taken
  have reply : ∀ {g c : Byte} {t : State} {answer : Bytes}, countersOwner g c s = (t, answer) →
      exec (.counters ft g c) s = .next (answered 0x83 ft answer t) := fun owner => exec_reply taken rfl owner rfl
  exact ⟨reply rfl, reply rfl, reply rfl, reply rfl, reply rfl, reply rfl, fun out => reply (countersOwner_range out)⟩

end Sys2Proof.Machine
end

section
/-!
PROOFS. The host line byte by byte: a whole frame is its request, an unknown kind or a body of another size is answered
BAD_REQUEST, and what is damaged, too long or broken by a gap is dropped and counted (R180, R181, R126). With them O7
and O8.
-/

-- One theorem after another: waiting proofs would each hold a thread.
set_option Elab.async false

namespace Sys2Proof.Machine

/-! ### A whole frame (R180, R181) -/

section Whole
variable {kind ft : Byte} {b : Bytes} {s : State}

/-- A whole frame, taken while hunting, is served (R181). -/
theorem exec_hostFrame_whole (short : b.length ≤ 512) (hunting : s.host.rx = none) :
    exec (.hostFrame (frameBytes kind ft b)) s = .next (serveFrame kind ft b s) :=
  congrArg Host.Outcome.next (hostFrame_whole kind ft s short hunting)

theorem serveFrame_parsed {i : Instr} (spells : parseRequest kind ft b = some i) :
    serveFrame kind ft b s = requestEvent kind ft (ownerOf i) s := by
  unfold serveFrame
  rw [spells]

/-- A frame that spells no request is answered BAD_REQUEST where the link takes a request (R181). -/
theorem serveFrame_bad (taken : s.takesRequest) (spells : parseRequest kind ft b = none) :
    serveFrame kind ft b s = answered (replyKind kind) ft [0x10] s := by
  unfold serveFrame
  rw [spells]
  exact requestEvent_taken taken

end Whole

/-- Settles O7: the frame's body spells the request that wrote it, which its own command serves. -/
theorem hostFrameIsTheRequestItCarries : Obligations.HostFrameIsTheRequestItCarries := by
  unfold Obligations.HostFrameIsTheRequestItCarries
  intro i k ft b s formed body hunting
  rw [exec_hostFrame_whole (requestBody_length formed body) hunting,
    serveFrame_parsed (parseRequest_requestBody formed body), exec_request body]

/-! ### Kinds and body sizes (R181, R192) -/

/-- Each request kind with the least and the greatest body size that it allows (section 12.2). -/
def bodySizes : List (Byte × Nat × Nat) :=
  [(0x01, 0, 0), (0x02, 0, 0), (0x03, 2, 2), (0x04, 0, 0), (0x10, 21, 70), (0x11, 2, 2), (0x12, 2, 2), (0x13, 0, 0),
    (0x20, 6, 6), (0x21, 5, 5), (0x22, 5, 5), (0x23, 5, 5), (0x24, 0, 0), (0x30, 15, 15), (0x31, 0, 0), (0x32, 0, 0),
    (0x33, 9, 9), (0x34, 0, 0), (0x35, 2, 2), (0x36, 3, 3), (0x40, 13, 13), (0x41, 2, 2), (0x42, 12, 12), (0x48, 0, 0),
    (0x50, 1, 37), (0x51, 0, 0), (0x52, 23, 23), (0x53, 0, 0), (0x58, 4, 4), (0x59, 1, 1), (0x5A, 0, 0), (0x60, 76, 76),
    (0x61, 0, 0), (0x62, 0, 0), (0x63, 1, 1), (0x64, 1, 1)]

/-- The kind is a request kind that allows a body of `n` bytes. -/
def BodyFits (kind : Byte) (n : Nat) : Prop := ∃ least most, (kind, least, most) ∈ bodySizes ∧ least ≤ n ∧ n ≤ most

theorem bodyFits_of_row {kind : Byte} {n c least most : Nat} (h : kind.toNat = c)
    (row : (BitVec.ofNat 8 c, least, most) ∈ bodySizes) (low : least ≤ n) (high : n ≤ most) : BodyFits kind n := by
  subst h
  rw [BitVec.ofNat_toNat, BitVec.setWidth_eq] at row
  exact ⟨least, most, row, low, high⟩

/-- A frame that spells a request has a request's kind and a body of a size that the kind allows. -/
theorem parseRequest_fits {kind ft : Byte} {b : Bytes} {i : Instr} (h : parseRequest kind ft b = some i) :
    BodyFits kind b.length := by
  have fixed : ∀ {c n : Nat}, kind.toNat = c → b.length = n → (BitVec.ofNat 8 c, n, n) ∈ bodySizes →
      BodyFits kind b.length := fun known size row => bodyFits_of_row known row size.ge size.le
  unfold parseRequest at h
  split at h
  case h_5 known => -- SUBMIT_JOB
    split at h
    · next size => exact bodyFits_of_row known (least := 21) (most := 70) (by decide) size.1 size.2
    · cases h
  case h_25 known => -- SET_PATCHES
    split at h
    · next size => exact bodyFits_of_row known (least := 1) (most := 37) (by decide) size.1 size.2
    · cases h
  case h_37 => cases h
  all_goals
    rename_i known size
    exact fixed known size (by decide)

theorem parseRequest_unfit {kind ft : Byte} {b : Bytes} (h : ¬ BodyFits kind b.length) :
    parseRequest kind ft b = none :=
  Option.eq_none_iff_forall_ne_some.2 fun _ spells => h (parseRequest_fits spells)

/-- The table has one row for each kind. -/
theorem bodySizes_nodup : (bodySizes.map Prod.fst).Nodup := by decide

theorem bodyFits_row {kind : Byte} {n least most : Nat} (row : (kind, least, most) ∈ bodySizes)
    (fits : BodyFits kind n) : least ≤ n ∧ n ≤ most := by
  obtain ⟨low, high, other, size⟩ := fits
  cases List.inj_on_of_nodup_map bodySizes_nodup row other rfl
  exact size

theorem bodyFits_kind {kind : Byte} {n : Nat} (fits : BodyFits kind n) : kind ∈ bodySizes.map Prod.fst := by
  obtain ⟨low, high, row, -⟩ := fits
  exact List.mem_map_of_mem row

theorem replyKind_row {kind : Byte} {least most : Nat} (row : (kind, least, most) ∈ bodySizes) :
    replyKind kind = kind + 0x80 := by
  have low : ∀ x ∈ bodySizes, x.1.toNat < 128 := by decide
  rw [replyKind_eq, if_pos (low _ row)]

/-! ### One byte while hunting (R180) -/

theorem rxByte_none (c : Byte) : rxByte none c = (if c = 0xA5 then some [] else none, .more) := rfl

theorem hostByte_hunting {s : State} (hunting : s.host.rx = none) (c : Byte) :
    hostByte s c = s.mapHost fun h => { h with rx := if c = 0xA5 then some [] else none } := by
  unfold hostByte
  rw [hunting, rxByte_none]

theorem engineByte_hunting {s : State} (hunting : s.eng.rx = none) (c : Byte) :
    engineByte s c = s.mapEng fun e => { e with rx := if c = 0xA5 then some [] else none } := by
  unfold engineByte
  rw [hunting, rxByte_none]

/-! ### Frames dropped (R180) -/

section Line
variable {s : State} (hunting : s.host.rx = none)
include hunting

/-- A byte that is no start byte is discarded while hunting. -/
theorem hostByte_discarded {c : Byte} (h : c ≠ 0xA5) : hostByte s c = s := by
  rw [hostByte_hunting hunting]
  refine State.mapHost_unchanged ?_
  rw [if_neg h, ← hunting]

/-- A frame whose CRC fails leaves the assembler hunting and its drop counted. -/
theorem hostFrame_damaged {k tag x y : Byte} {b : Bytes} (short : b.length ≤ 512)
    (damaged : word16 x y ≠ crc16 (frameCore k tag b)) :
    (startByte :: frameTail k tag b x y).foldl hostByte s =
      s.mapHost fun h => { h with crcDrops := sat16 (h.crcDrops + 1) } :=
  (hostFrame_run k tag x y s short hunting).trans (if_neg damaged.symm)

/-- A header that declares too long a body leaves the assembler hunting and its drop counted. -/
theorem hostFrame_overlong {k tag lo hi : Byte} (long : 512 < (word16 lo hi).toNat) :
    [startByte, k, tag, lo, hi].foldl hostByte s =
      s.mapHost fun h => { h with overDrops := sat16 (h.overDrops + 1) } := by
  have start : hostByte s startByte = s.mapHost fun h => { h with rx := some [] } := hostByte_hunting hunting startByte
  have header : [k, tag, lo].foldl hostByte (s.mapHost fun h => { h with rx := some [] }) =
      s.mapHost fun h => { h with rx := some [k, tag, lo] } :=
    hostBytes_more (bs := [k, tag, lo]) 3 _ (by simp) rfl fun n hn => rxJudge_short (by rw [List.length_take]; omega)
  have last : rxByte (some [k, tag, lo]) hi = (none, .overlong) := rxJudge_overlong long
  rw [List.foldl_cons, start]
  change hostByte ([k, tag, lo].foldl hostByte (s.mapHost fun h => { h with rx := some [] })) hi = _
  rw [header]
  unfold hostByte
  simp only [State.mapHost_host, last]
  exact State.mapHost_congr (s := s) (f := fun h => { h with rx := none, overDrops := sat16 (h.overDrops + 1) })
    (congrArg (fun x => { s.host with rx := x, overDrops := sat16 (s.host.overDrops + 1) }) hunting.symm)

end Line

/-! ### Gaps (R180, R126) -/

/-- A gap on the host line drops and counts the frame being assembled; the byte that ends it is judged while hunting. -/
theorem hostGap_eq (c : Byte) (s : State) :
    hostGap c s = s.mapHost fun h =>
      { h with rx := if c = 0xA5 then some [] else none,
               gapDrops := if h.rx.isSome then min (h.gapDrops + 1) 65535 else h.gapDrops } := by
  have dropped : (if s.host.rx.isSome then s.mapHost fun h => { h with rx := none, gapDrops := sat16 (h.gapDrops + 1) }
      else s) = s.mapHost fun h =>
        { h with rx := none, gapDrops := if h.rx.isSome then min (h.gapDrops + 1) 65535 else h.gapDrops } := by
    split
    · next assembling =>
      exact State.mapHost_congr (congrArg (fun n => { s.host with rx := none, gapDrops := n }) (if_pos assembling).symm)
    · next hunting =>
      refine (State.mapHost_unchanged ?_).symm
      rw [if_neg hunting, ← Option.not_isSome_iff_eq_none.1 hunting]
  unfold hostGap
  rw [dropped]
  exact hostByte_hunting rfl c

theorem State.mapEng_congr {s : State} {f g : EngineLink → EngineLink} (h : f s.eng = g s.eng) :
    s.mapEng f = s.mapEng g := congrArg (fun x => { s with eng := x }) h

theorem State.mapEng_unchanged {s : State} {f : EngineLink → EngineLink} (h : f s.eng = s.eng) : s.mapEng f = s :=
  State.mapEng_congr (g := id) h

/-- A gap on the engine line does the same there. -/
theorem engineGap_eq (c : Byte) (s : State) :
    engineGap c s = s.mapEng fun e =>
      { e with rx := if c = 0xA5 then some [] else none,
               gapDrops := if e.rx.isSome then min (e.gapDrops + 1) 65535 else e.gapDrops } := by
  have dropped : (if s.eng.rx.isSome then s.mapEng fun e => { e with rx := none, gapDrops := sat16 (e.gapDrops + 1) }
      else s) = s.mapEng fun e =>
        { e with rx := none, gapDrops := if e.rx.isSome then min (e.gapDrops + 1) 65535 else e.gapDrops } := by
    split
    · next assembling =>
      exact State.mapEng_congr (congrArg (fun n => { s.eng with rx := none, gapDrops := n }) (if_pos assembling).symm)
    · next hunting =>
      refine (State.mapEng_unchanged ?_).symm
      rw [if_neg hunting, ← Option.not_isSome_iff_eq_none.1 hunting]
  unfold engineGap
  rw [dropped]
  exact engineByte_hunting rfl c

/-- Settles O8: the frames by the table of kinds and sizes, the damaged ones by the assembler, the gaps by the byte that
ends them. -/
theorem badHostFramesAndGapsAreDropped : Obligations.BadHostFramesAndGapsAreDropped := by
  unfold Obligations.BadHostFramesAndGapsAreDropped
  have bad : ∀ {k ft : Byte} {b : Bytes} {s : State}, s.takesRequest → s.host.rx = none → b.length ≤ 512 →
      ¬ BodyFits k b.length →
      exec (.hostFrame (frameBytes k ft b)) s = .next (answered (replyKind k) ft [0x10] s) :=
    fun taken hunting short unfit => (exec_hostFrame_whole short hunting).trans
      (congrArg Host.Outcome.next (serveFrame_bad taken (parseRequest_unfit unfit)))
  refine ⟨fun k ft b s taken hunting short unknown => ?_, fun k ft least most b s taken hunting short row size => ?_,
    fun s hunting => ⟨fun c other => congrArg Host.Outcome.next (hostByte_discarded hunting other),
      fun k ft x y b short damaged => congrArg Host.Outcome.next (hostFrame_damaged hunting short damaged),
      fun k ft lo hi long => congrArg Host.Outcome.next (hostFrame_overlong hunting long)⟩,
    fun c s => ⟨congrArg Host.Outcome.next (hostGap_eq c s), congrArg Host.Outcome.next (engineGap_eq c s)⟩⟩
  · rw [← replyKind_eq]
    exact bad taken hunting short fun fits => unknown (bodyFits_kind fits)
  · rw [← replyKind_row row]
    refine bad taken hunting short fun fits => ?_
    obtain ⟨low, high⟩ := bodyFits_row row fits
    omega

end Sys2Proof.Machine
end

section
/-!
PROOFS. The line to the host: which frame a free line is given to, how a subject joins the notice queue, and what the
last byte of a frame brings about (R182, R184 to R186). With them O9 and O10.
-/

-- One theorem after another: waiting proofs would each hold a thread.
set_option Elab.async false

namespace Sys2Proof.Machine

/-! ### The free line (R184, R189) -/

section Give
variable {s : State}

theorem giveLine_held (h : s.host.tx.isSome = true ∨ s.lineClosed = true) : giveLine s = s := if_pos h

variable (free : s.host.tx = none) (opened : s.lineClosed = false)
include free opened

theorem line_free : ¬ (s.host.tx.isSome ∨ s.lineClosed = true) := by simp [free, opened]

theorem giveLine_reply {r : Reply} (waits : s.host.reply = some r) :
    giveLine s = s.mapHost fun h => { h with tx := some (.reply r) } := by
  unfold giveLine
  rw [if_neg (line_free free opened), waits]

theorem giveLine_notice {sub : Subject} {q : List Subject} (none_ : s.host.reply = none)
    (front : s.host.queue = sub :: q) : giveLine s = beginNotice sub s := by
  unfold giveLine
  rw [if_neg (line_free free opened), none_, front]

theorem giveLine_nothing (none_ : s.host.reply = none) (empty : s.host.queue = []) : giveLine s = s := by
  unfold giveLine
  rw [if_neg (line_free free opened), none_, empty]

end Give

/-! ### A subject joins the queue (R185, R186) -/

section Queue
variable {sub : Subject} {s : State}

theorem notify_new (new : sub ∉ s.host.queue) :
    notify sub s = s.mapHost fun h => { h with queue := h.queue ++ [sub] } :=
  State.mapHost_congr (if_neg new)

theorem notify_waiting (queued : sub ∈ s.host.queue) (waiting : s.host.sending sub = false) : notify sub s = s :=
  State.mapHost_unchanged ((if_pos queued).trans (if_neg (Bool.eq_false_iff.1 waiting)))

theorem notify_sending (queued : sub ∈ s.host.queue) (sending : s.host.sending sub = true) :
    notify sub s = s.mapHost fun h => { h with marked := true } :=
  State.mapHost_congr ((if_pos queued).trans (if_pos sending))

end Queue

/-- Settles O9: the line by what it carries and by the reply slot and the queue, a subject by its place in the queue. -/
theorem noticesQueueOnceAndTheLineIsGiven : Obligations.NoticesQueueOnceAndTheLineIsGiven := by
  unfold Obligations.NoticesQueueOnceAndTheLineIsGiven
  exact ⟨fun s => ⟨giveLine_held, fun free opened => ⟨fun r => giveLine_reply free opened,
      fun sub q none_ front => giveLine_notice free opened none_ front, giveLine_nothing free opened⟩⟩,
    fun sub s => ⟨notify_new, notify_waiting, notify_sending⟩⟩

/-! ### The last byte of a frame (R182, R186) -/

section Sent
variable {s : State}

theorem replyGone_eq {r : Reply} (line : s.host.tx = some (.reply r)) :
    replyGone s = s.mapHost fun h =>
      { h with tx := none, reply := h.busy, busy := none,
               restart := if h.restart = .replyWaiting then .replyGone else h.restart } := by
  unfold replyGone
  rw [line]

variable {sub : Subject} {seq : Byte} {body : Bytes} {q : List Subject} (front : s.host.queue = sub :: q)
include front

/-- A notice that showed no RELEASING slot leaves the queue, or moves to its end where it is marked (R186). -/
theorem noticeGone_shown (line : s.host.tx = some (.notice sub false seq body)) :
    noticeGone s = s.mapHost fun h =>
      { h with tx := none, marked := false, queue := if s.host.marked then q ++ [sub] else q } := by
  unfold noticeGone
  rw [line]
  refine State.mapHost_congr (s := s) ?_
  rw [front]
  rfl

/-- The end of a notice that showed a RELEASING slot also acts on that slot (R1, R186). -/
theorem noticeGone_releasing (line : s.host.tx = some (.notice sub true seq body))
    (link : (freeSlot sub s).host = s.host) :
    noticeGone s = (freeSlot sub s).mapHost fun h =>
      { h with tx := none, marked := false, queue := if s.host.marked then q ++ [sub] else q } := by
  unfold noticeGone
  rw [line]
  refine State.mapHost_congr (s := freeSlot sub s) ?_
  rw [link, front]
  rfl

end Sent

theorem freeSlot_released {i : JobIx} {s : State} (releasing : s.jobs.slots[i].isReleasing = true) :
    freeSlot (.jobSlot i) s = s.mapJobs fun t => { t with slots := t.slots.set i .free } := if_pos releasing

/-- Settles O10: the end of a reply, of a notice, and of the notice of a RELEASING slot, each with the line given after
it. -/
theorem sentFramesLeaveTheLine : Obligations.SentFramesLeaveTheLine := by
  unfold Obligations.SentFramesLeaveTheLine
  refine fun s => ⟨fun r line => exec_given (replyGone_eq line) rfl,
    fun sub seq body q line front => exec_given (noticeGone_shown front line) rfl,
    fun i seq body q line front releasing => exec_given ?_ rfl⟩
  have freed := freeSlot_released releasing
  have gone := noticeGone_releasing front line (by rw [freed]; rfl)
  rwa [freed] at gone

end Sys2Proof.Machine
end

section
/-!
PROOFS. The reset effect on every block (R190), what a loss of power leaves of the flash (R49), RESTART (R189), and the
laws of the state after reset. With them O4 and O5.
-/

-- One theorem after another: waiting proofs would each hold a thread.
set_option Elab.async false

namespace Sys2Proof.Machine

/-! ### The reset effect (R190) -/

theorem JobTable.atReset_slot (i : JobIx) : JobTable.atReset.slots[i] = .free := by simp [JobTable.atReset]

theorem Editions.atReset_numbers (flash : Vector FlashBlock 6) (e : EdIx) :
    (Editions.atReset flash).resv[e] = [] ∧ (Editions.atReset flash).unrec[e] = [] := by simp [Editions.atReset]

theorem Ink.atReset_chan (c : Chan) : Ink.atReset.chans[c] = Channel.atReset := by simp [Ink.atReset]

theorem Ink.atReset_grant (g : Fin 3) : Ink.atReset.grants[g] = none := by simp [Ink.atReset]

theorem Account.atReset_chan (c : Chan) :
    Account.atReset.use[c] = 0 ∧ Account.atReset.useBegin[c] = 0 ∧ Account.atReset.carry[c] = 0 := by
  simp [Account.atReset]

theorem Checker.atReset_patch (k : Fin 48) : Checker.atReset.patches[k] = none := by simp [Checker.atReset]

theorem Drift.atReset_chan (c : Chan) :
    Drift.atReset.rings[c] = [] ∧ Drift.atReset.states[c] = .unverified ∧ Drift.atReset.lots[c] = none := by
  simp [Drift.atReset]

theorem Cost.atReset_slot (p : PriceIx) : Cost.atReset.slots[p] = { loaded := none, refs := 0 } := by
  simp [Cost.atReset]

/-- A reset leaves every block as its section says, whatever stood before. -/
theorem resetAll_after (rate1 rate0 : Bool) (flash : Vector FlashBlock 6) (s : State) :
    AfterReset rate1 rate0 s (resetAll rate1 rate0 flash s) where
  link := ⟨rfl, rfl, rfl, rfl, rfl⟩
  notices := ⟨rfl, rfl, rfl⟩
  counters := ⟨rfl, rfl, rfl, rfl⟩
  rate := ⟨rfl, rfl⟩
  slots := JobTable.atReset_slot
  order := rfl
  store := ⟨rfl, rfl, rfl, rfl⟩
  volatile := Editions.atReset_numbers flash
  axis := ⟨rfl, rfl, rfl, rfl, rfl⟩
  moves := ⟨rfl, rfl, rfl, rfl, rfl, rfl⟩
  feedProfile := ⟨rfl, rfl, rfl⟩
  roll := rfl
  pins := ⟨rfl, rfl, rfl, rfl⟩
  channels := Ink.atReset_chan
  pumps := ⟨rfl, Ink.atReset_grant, rfl, rfl⟩
  account := Account.atReset_chan
  engine := ⟨rfl, rfl, rfl, rfl⟩
  messages := rfl
  engineCounters := ⟨rfl, rfl, rfl, rfl⟩
  checker := ⟨rfl, rfl, rfl, rfl, rfl, rfl⟩
  patches := Checker.atReset_patch
  drift := ⟨Drift.atReset_chan, rfl, rfl⟩
  prices := ⟨Cost.atReset_slot, rfl, rfl⟩
  records := ⟨rfl, rfl, rfl, rfl⟩

/-! ### The flash after a loss of power (R49) -/

section Loss
variable {d : Editions} {flight : FlightEnd}

theorem flashAfterLoss_idle (idle : d.rot = none) : flashAfterLoss flight d = d.flash := by
  unfold flashAfterLoss
  rw [idle]

variable {r : Rotation} (rotation : d.rot = some r)
include rotation

theorem flashAfterLoss_erasing (phase : r.phase = .erasing) : flashAfterLoss flight d = d.flash := by
  unfold flashAfterLoss
  rw [rotation]
  dsimp only
  rw [phase]

/-- A spare in programming is left as far as the loss of power let it come. -/
theorem flashAfterLoss_programming (phase : r.phase = .programming) :
    flashAfterLoss .blank d = d.flash.set r.phys FlashBlock.erased ∧ flashAfterLoss .writing d = d.flash ∧
      flashAfterLoss .complete d = d.flash.set r.phys { d.flash[r.phys] with mark := .complete } := by
  unfold flashAfterLoss
  rw [rotation]
  dsimp only
  rw [phase]
  exact ⟨rfl, rfl, rfl⟩

end Loss

/-! ### The commands (R189, R190) -/

theorem exec_powerOnReset_flash {rate1 rate0 : Bool} {flight : FlightEnd} {s : State} {flash : Vector FlashBlock 6}
    (h : flashAfterLoss flight s.ed = flash) :
    ∃ t, exec (.powerOnReset rate1 rate0 flight) s = .next t ∧ t.ed.flash = flash :=
  ⟨_, rfl, h⟩

theorem exec_resetEffect_due {rate1 rate0 : Bool} {s : State} (due : s.restartDue = true) :
    exec (.resetEffect rate1 rate0) s = .next (resetAll rate1 rate0 s.ed.flash s) :=
  congrArg Host.Outcome.next (if_pos due)

theorem exec_resetEffect_early {rate1 rate0 : Bool} {s : State} (early : ¬ s.restartDue = true) :
    exec (.resetEffect rate1 rate0) s = .next s := congrArg Host.Outcome.next (if_neg early)

/-- Settles O4: both resets by the reset effect, the flash by the rotation's phase, and RESTART's answer. -/
theorem resetsAndRestartTakeTheResetEffect : Obligations.ResetsAndRestartTakeTheResetEffect := by
  unfold Obligations.ResetsAndRestartTakeTheResetEffect
  refine ⟨fun rate1 rate0 flight s => ⟨⟨_, rfl, resetAll_after rate1 rate0 _ s⟩,
      fun gone mounted idle written sent => ⟨_, exec_resetEffect_due ?_, resetAll_after rate1 rate0 _ s, rfl⟩,
      fun early => exec_resetEffect_early fun due => early ?_⟩,
    fun rate1 rate0 s => ⟨fun flight idle => exec_powerOnReset_flash (flashAfterLoss_idle idle),
      fun flight r rotation phase => exec_powerOnReset_flash (flashAfterLoss_erasing rotation phase),
      fun r rotation phase => ?_⟩,
    fun ft s taken => exec_reply taken rfl rfl rfl⟩
  · exact State.restartDue_iff.2 ⟨gone, ⟨mounted, idle, written⟩, sent⟩
  · obtain ⟨gone, ⟨mounted, idle, written⟩, sent⟩ := State.restartDue_iff.1 due
    exact ⟨gone, mounted, idle, written, sent⟩
  · obtain ⟨blank, writing, complete⟩ := flashAfterLoss_programming rotation phase
    exact ⟨exec_powerOnReset_flash blank, exec_powerOnReset_flash writing, exec_powerOnReset_flash complete⟩

/-! ### The state after reset -/

/-- The state after reset is what a reset leaves of it. -/
theorem State.reset_eq : State.reset = resetAll false false (Vector.replicate 6 FlashBlock.erased) State.reset := rfl

theorem blankFlash_law (p : PBlock) (k : Fin 16) : ((Vector.replicate 6 FlashBlock.erased)[p].images[k]).Law := by
  simpa [FlashBlock.erased] using EdImage.emptySlot_law

/-- Settles O5: the laws that a reset leaves in force, on a blank flash. -/
theorem resetStateKeepsEveryLaw : Obligations.ResetStateKeepsEveryLaw := by
  unfold Obligations.ResetStateKeepsEveryLaw
  rw [State.reset_eq]
  exact ⟨resetAll_safe false false _ State.reset, resetAll_copy false false State.reset blankFlash_law⟩

end Sys2Proof.Machine
end

section
/-!
PROOFS. The queue of waiting commands: a step takes its front, and a command leaves it alone (logs 34 and 36). With them
O1 and O3.
-/

-- One theorem after another: waiting proofs would each hold a thread.
set_option Elab.async false

namespace Sys2Proof.Machine

/-- Of two settings of the queue the later one stands. -/
@[simp] theorem State.setPending_setPending (s : State) (q r : List Instr) :
    (s.setPending q).setPending r = s.setPending r := rfl

/-- Where a command waits, the step is that command, taken with the rest of the queue. -/
theorem step_of_pending_cons {s : State} {c : Instr} {rest : List Instr} (h : s.pending = c :: rest) :
    step s = exec c (s.setPending rest) := by
  unfold step
  rw [h]

/-- Settles O1: the front command is taken, and the queue that the step sets is the one that `exec` starts from. -/
theorem stepTakesTheFrontCommand : Obligations.StepTakesTheFrontCommand := by
  unfold Obligations.StepTakesTheFrontCommand
  intro c rest s
  rw [step_of_pending_cons (State.setPending_pending s (c :: rest)), State.setPending_setPending]

/-- Settles O3: the queue is part of what every command keeps (`exec_lawful`). -/
theorem everyCommandAnswersANextState : Obligations.EveryCommandAnswersANextState := by
  unfold Obligations.EveryCommandAnswersANextState
  intro c s
  obtain ⟨t, next, kept⟩ := exec_lawful c s
  exact ⟨t, next, kept.pending⟩

end Sys2Proof.Machine
end
